-- ==== Sys2Proof/Word.lean ====
section
/-! DEFINITION. The plain data types of the Bolphet 2410: bytes, words, line addresses, line contents, masks and index types (00_scope.md, "Lines and offsets"; section 11.7). -/

namespace Sys2Proof

/-- One byte of a line or of a request's data. -/
abbrev Byte := BitVec 8

/-- One 32-bit word of a message, object or frame. -/
abbrev Word := BitVec 32

/-- A memory line: a memory byte address with its low five bits dropped, 27 bits (00_scope.md). -/
abbrev LineAddr := BitVec 27

/-- The 32 bytes of a line, byte `k` at offset `k`. -/
abbrev LineData := Vector Byte 32

/-- One flag per byte of a line, bit `k` for byte `k` (section 11.7). -/
abbrev ByteMask := BitVec 32

/-- A set of source numbers, bit `s` for source `s` (R184). -/
abbrev SourceSet := BitVec 16

/-- A set of Request Table slot indices, bit `i` for slot `i` (the FENCES of R43). -/
abbrev SlotSet := BitVec 8

/-- Initiator source number, 0 to 15. -/
abbrev SourceNo := Fin 16

/-- Request Table slot index (R24). -/
abbrev SlotIx := Fin 8

/-- Read-ahead line index (R67). -/
abbrev LineIx := Fin 16

/-- Memory Link tag number (R107). -/
abbrev TagIx := Fin 16

/-- Stream entry index (R89). -/
abbrev StreamIx := Fin 4

/-- Numbered region index (R1). -/
abbrev RegionIx := Fin 8

/-- Faulted Line Table index (R130). -/
abbrev FaultIx := Fin 8

end Sys2Proof
end

