-- ==== Sys2Proof/Machine/Bits.lean ====
section
/-! DEFINITION. Bit fields, byte masks and the byte order of data words (section 11.7), in one place. -/

namespace Sys2Proof.Machine

/-- The field of `len` bits of a word whose least significant bit is bit `lo`, as a number. -/
def field (w : Word) (lo len : Nat) : Nat := (w.extractLsb' lo len).toNat

/-- Bit `k` of a word. -/
def flag (w : Word) (k : Nat) : Bool := w.getLsbD k

/-- A word made of fields, each a value and the number of its least significant bit; other bits are 0 (section 11.7). -/
def packFields (fs : List (Nat × Nat)) : Word :=
  BitVec.ofNat 32 ((fs.map fun f => f.1 * 2 ^ f.2).sum)

/-- The mask of the bytes `offset` to `offset + count - 1` of a line. -/
def rangeMask (offset count : Nat) : ByteMask := (BitVec.allOnes count).setWidth 32 <<< offset

/-- Whether two masks share a byte. -/
def masksMeet (a b : ByteMask) : Bool := a &&& b != 0#32

/-- Whether every byte of `a` is in `b`. -/
def maskWithin (a b : ByteMask) : Bool := a &&& b == a

/-- A line with every byte 0. -/
def zeroLine : LineData := Vector.replicate 32 0#8

/-- The bytes of `new` at the offsets of `mask`, the bytes of `old` elsewhere. -/
def mergeBytes (mask : ByteMask) (new old : LineData) : LineData :=
  Vector.ofFn fun k => if mask.getLsbD k then new[k] else old[k]

/-- A request's data bytes moved to the line offsets they address: byte `j` of the data at `offset + j`, 0 elsewhere. -/
def placeBytes (offset count : Nat) (data : LineData) : LineData :=
  Vector.ofFn fun k => if offset ≤ k.val ∧ k.val < offset + count then data.getD (k.val - offset) 0#8 else 0#8

/-- The bytes `offset` to `offset + count - 1` of a line, in address order. -/
def takeBytes (offset count : Nat) (line : LineData) : List Byte := (line.toList.drop offset).take count

/-- Byte `k` of a data field is carried in data word `k / 4` at bits `8 (k mod 4) + 7` to `8 (k mod 4)` (section 11.7). -/
def lineOfWords (ws : Vector Word 8) : LineData :=
  Vector.ofFn fun k => (ws.getD (k.val / 4) 0#32).extractLsb' (8 * (k.val % 4)) 8

/-- The word whose bytes, low byte first, are the four given. -/
def wordOfBytes (b0 b1 b2 b3 : Byte) : Word :=
  packFields [(b0.toNat, 0), (b1.toNat, 8), (b2.toNat, 16), (b3.toNat, 24)]

/-- Bytes packed into whole words in the byte order of section 11.7; the unused bytes of the last word are 0. -/
def wordsOfBytes : List Byte → List Word
  | b0 :: b1 :: b2 :: b3 :: rest => wordOfBytes b0 b1 b2 b3 :: wordsOfBytes rest
  | [b0, b1, b2] => [wordOfBytes b0 b1 b2 0#8]
  | [b0, b1] => [wordOfBytes b0 b1 0#8 0#8]
  | [b0] => [wordOfBytes b0 0#8 0#8 0#8]
  | [] => []

/-- The set holding one source (R184: bit `s` for source `s`). -/
def sourceBit (s : SourceNo) : SourceSet := BitVec.twoPow 16 s

/-- The set holding one slot index. -/
def slotBit (i : SlotIx) : SlotSet := BitVec.twoPow 8 i

end Sys2Proof.Machine
end

