-- ==== Sys2Proof/Config.lean ====
section
/-! DEFINITION. What the part fixes: its capacities (00_scope.md, "Principal Quantities"), its identification (R180), and the one free value of the model. -/

namespace Sys2Proof

/-- Post Queue entries (R43). -/
def Config.queueCapacity : Nat := 16

/-- Drains outstanding at once (R54, R55). -/
def Config.drainLimit : Nat := 4

/-- Tags kept free against prefetch (R113). -/
def Config.prefetchReserve : Nat := 4

/-- Error log records (R161). -/
def Config.logCapacity : Nat := 16

/-- Limit of the dropped-record count (R164). -/
def Config.droppedMax : Nat := 255

/-- Limit of every age and idle count (R58, R95, R122). -/
def Config.ageMax : Nat := 255

/-- REFCLK periods per unit of TICK_DIV + 1 (R155). -/
def Config.refclkPerTickUnit : Nat := 64

/-- Part number of the identification object (R180). -/
def Config.partNumber : Nat := 0x2410

/-- Family code of the identification object (R180). -/
def Config.familyCode : Nat := 0x0B50

/-- Stepping of the identification object (R180). -/
def Config.stepping : Nat := 0x01

/-- Object layout edition of the identification object (R180). -/
def Config.layoutEdition : Nat := 0x01

/-- The order in which the three owners of ages take one tick. R159 lets each take it on its own; only the place of the
Post Queue and of the Stream Table relative to the Memory Link interface, whose timeouts reach both, can be seen (log 8). -/
structure TickOrder where
  /-- The Post Queue raises its ages before the Memory Link interface times tags out. -/
  queueFirst : Bool
  /-- The Stream Table raises and tests its idle counts before the Memory Link interface times tags out. -/
  streamsFirst : Bool
  deriving DecidableEq, Repr, Inhabited

/-- FREE VALUE: the order in which the owners take the tick that REFCLK brings about on an empty queue, the `n`-th such
tick (R159 gives no order; log 8). Nothing in the model constrains it. -/
opaque Config.tickOrder : Nat → TickOrder

end Sys2Proof
end

