-- ==== Sys2Proof/Syntax.lean ====
section
/-! DEFINITION. The commands of the part: one constructor of `Instr` per row of spec/opcode_table.json, with the row's operands. -/

namespace Sys2Proof

/-- Which of link-up and demand rise is taken first at the release of RESETn; R154 allows both orders (log 9). -/
inductive ReleaseOrder where
  | linkFirst
  | demandFirst
  deriving DecidableEq, Repr

/-- The eight words of a WRITE frame to the global configuration object, word 0 to word 7 (R177, section 11.7.6). -/
structure GlobalFrame where
  select : Word
  memTop : Word
  tickDiv : Word
  tickHold : Word
  memTimeout : Word
  streamIdle : Word
  pqUrgentMark : Word
  attnMask : Word
  deriving DecidableEq, Repr

/-- The commands of the part (spec/opcode_table.json, one constructor per row). -/
inductive Instr where
  /-- REQ (R17, R182): header word, ADDR word, data words 2 to 9. Words the message does not carry are not looked at (log 13). -/
  | req (header addr : Word) (data : Vector Word 8)
  /-- RESP (R38): a ready signal of the response channel. -/
  | resp
  /-- ORDER_RELEASE (R27). -/
  | orderRelease
  /-- POST_WAIT_RETRY (R50). -/
  | postWaitRetry
  /-- DRAIN_WAIT_RELEASE (R28). -/
  | drainWaitRelease
  /-- FENCE_DONE (R36). -/
  | fenceDone
  /-- ILRSTN_ASSERT (R39). -/
  | ilrstnAssert
  /-- ILRSTN_DEASSERT (R41). -/
  | ilrstnDeassert
  /-- RESETN_ASSERT (R154). -/
  | resetnAssert
  /-- RESETN_RELEASE (R154), with the order the world takes the two consequences in. -/
  | resetnRelease (order : ReleaseOrder)
  /-- READINESS (R105): a ready signal of the memory side. -/
  | readiness
  /-- MCPL (R106, R183): header word, data words 1 to 8. The data words count only where the header's DATA flag is 1. -/
  | mcpl (header : Word) (data : Vector Word 8)
  /-- TICK (R155), with the order the owners take it in. -/
  | tick (order : TickOrder)
  /-- QUARANTINE (R122). -/
  | quarantine
  /-- IDLE_EXPIRY (R95). -/
  | idleExpiry
  /-- DEADLINE_REACHED (R58). -/
  | deadlineReached
  /-- QREQ_ASSERT (R143). -/
  | qreqAssert
  /-- QREQ_DEASSERT (R143). -/
  | qreqDeassert
  /-- HALT_ENTRY (R149). -/
  | haltEntry
  /-- MSSN_FALL (R174). -/
  | mssnFall
  /-- MSSN_RISE (R174). -/
  | mssnRise
  /-- QUIESCE (R144, R181), with the frame's argument word. -/
  | quiesce (arg : Word)
  /-- RESUME (R144, R181). -/
  | resume (arg : Word)
  /-- INVALIDATE_RAB (R84, R181). -/
  | invalidateRab (arg : Word)
  /-- POP_LOG (R166, R181). -/
  | popLog (arg : Word)
  /-- CLEAR_LOG (R167, R181). -/
  | clearLog (arg : Word)
  /-- CLEAR_FAULT (R135, R181): an index 0 to 7, or 100h for ALL. -/
  | clearFault (arg : Word)
  /-- RECLAIM_TAGS (R126, R181). -/
  | reclaimTags (arg : Word)
  /-- ACK_FLAGS (R171, R181). -/
  | ackFlags (arg : Word)
  /-- MEM_TOP_WRITE (R3): a global configuration frame that selects MEM_TOP. -/
  | memTopWrite (frame : GlobalFrame)
  /-- TICK_DIV_WRITE (R156): a global configuration frame that selects TICK_DIV. -/
  | tickDivWrite (frame : GlobalFrame)
  /-- TICK_HOLD_WRITE (R157). -/
  | tickHoldWrite (frame : GlobalFrame)
  /-- MEM_TIMEOUT_WRITE (R123). -/
  | memTimeoutWrite (frame : GlobalFrame)
  /-- STREAM_IDLE_WRITE (R95). -/
  | streamIdleWrite (frame : GlobalFrame)
  /-- PQ_URGENT_MARK_WRITE (R59). -/
  | pqUrgentMarkWrite (frame : GlobalFrame)
  /-- ATTN_MASK_WRITE (R170). -/
  | attnMaskWrite (frame : GlobalFrame)
  /-- REGION_REWRITE (R12, R178): region number, BASE word, REMAP word, control word. -/
  | regionRewrite (region : RegionIx) (base remap control : Word)
  /-- DEFAULT_REGION_WRITE (R14, R178): REMAP word, control word. -/
  | defaultRegionWrite (remap control : Word)
  /-- WRITE (R176): object number and the data words that follow. -/
  | write (object : BitVec 16) (words : List Word)
  /-- UNKNOWN_COMMAND (R181): command number and argument word. -/
  | unknownCommand (number : BitVec 16) (arg : Word)
  /-- UNKNOWN_OPCODE (R173): opcode byte and object number. -/
  | unknownOpcode (opcode : BitVec 8) (number : BitVec 16)
  deriving DecidableEq, Repr

end Sys2Proof
end

