-- ==== Sys2Proof/WellFormed.lean ====
section
/-! DEFINITION. Which operands spell the row a constructor stands for. The machine gives every command a meaning, well formed or not; the checks say which spelling is the row's own. -/

namespace Sys2Proof

/-- The data words a REQ carries: those that hold its COUNT bytes for a WR, none for another kind (R182). -/
def Instr.reqWordsCarried (header : Word) : Nat :=
  if Machine.field header 0 3 = 2 then (Machine.field header 16 6 + 3) / 4 else 0

/-- Words the message does not carry are written 0: ADDR belongs to RD and WR, data to WR (R182). -/
def Instr.reqOk (header addr : Word) (data : Vector Word 8) : Bool :=
  (Machine.field header 0 3 == 1 || Machine.field header 0 3 == 2 || addr == 0#32) &&
    (data.toList.drop (Instr.reqWordsCarried header)).all (· == 0#32)

/-- An MCPL without the DATA flag carries no data words; they are written 0 (R183). -/
def Instr.mcplOk (header : Word) (data : Vector Word 8) : Bool :=
  header.getLsbD 30 || data.toList.all (· == 0#32)

/-- Object numbers whose WRITE has a row of its own: the global configuration, the default region, regions 0 to 7. -/
def Instr.hasOwnWriteRow (object : BitVec 16) : Bool :=
  object == 0x0001#16 || object == 0x0008#16 || (0x0010#16 ≤ object && object ≤ 0x0017#16)

/-- Words of a known read-only object (section 11.7.5); 0 for an unknown object, whose WRITE carries no data (R173). -/
def Instr.readOnlyWords (object : BitVec 16) : Nat :=
  if object == 0x0000#16 then 4
  else if object == 0x0002#16 then 6
  else if object == 0x0003#16 then 3
  else if 0x0020#16 ≤ object && object ≤ 0x0027#16 then 3
  else 0

/-- The operands spell the row of the constructor. -/
def Instr.wellFormed : Instr → Bool
  | .req header addr data => Instr.reqOk header addr data
  | .resp => true
  | .orderRelease => true
  | .postWaitRetry => true
  | .drainWaitRelease => true
  | .fenceDone => true
  | .ilrstnAssert => true
  | .ilrstnDeassert => true
  | .resetnAssert => true
  | .resetnRelease _ => true
  | .readiness => true
  | .mcpl header data => Instr.mcplOk header data
  | .tick _ => true
  | .quarantine => true
  | .idleExpiry => true
  | .deadlineReached => true
  | .qreqAssert => true
  | .qreqDeassert => true
  | .haltEntry => true
  | .mssnFall => true
  | .mssnRise => true
  | .quiesce _ => true
  | .resume _ => true
  | .invalidateRab _ => true
  | .popLog _ => true
  | .clearLog _ => true
  | .clearFault _ => true
  | .reclaimTags _ => true
  | .ackFlags _ => true
  | .memTopWrite f => f.select.getLsbD 0
  | .tickDivWrite f => f.select.getLsbD 1
  | .tickHoldWrite f => f.select.getLsbD 2
  | .memTimeoutWrite f => f.select.getLsbD 3
  | .streamIdleWrite f => f.select.getLsbD 4
  | .pqUrgentMarkWrite f => f.select.getLsbD 5
  | .attnMaskWrite f => f.select.getLsbD 6
  | .regionRewrite _ _ _ _ => true
  | .defaultRegionWrite _ _ => true
  | .write object words => !Instr.hasOwnWriteRow object && words.length == Instr.readOnlyWords object
  | .unknownCommand number _ => number == 0#16 || 8#16 < number
  | .unknownOpcode opcode _ => !(opcode == 1#8 || opcode == 2#8 || opcode == 3#8)

end Sys2Proof
end

