-- ==== Sys2Proof/Decode.lean ====
section
/-! DEFINITION. The decoder over spec/opcode_table.json. No row of the table gives its command any bits (every row's "fields" is empty and none has "fixed"), so no word spells a command. -/

namespace Sys2Proof

/-- The command a word spells by the table's bits: none, since no row gives bits. -/
def decodeTableWord (_nbits _w : Nat) : Option Instr := none

end Sys2Proof
end

