-- ==== Sys2Proof/Machine/State.lean ====
section
/-! DEFINITION. The state of the part, block by block (00_scope.md, "Block Diagram"), as plain data, and its value at device reset. -/

namespace Sys2Proof.Machine

/-! ### Region Decoder (chapter 1) -/

/-- Region TYPE (R1). -/
inductive RegionType where
  | bypass
  | ordered
  | normal
  deriving DecidableEq, Repr

/-- A region name: a numbered region or the default region D (R10). -/
inductive RegionId where
  | num (g : RegionIx)
  | dflt
  deriving DecidableEq, Repr

/-- A numbered region entry (R1). -/
structure RegionEntry where
  enable : Bool
  base : Word
  sizeLog : Nat
  type : RegionType
  post : Bool
  merge : Bool
  depth : Nat
  deadline : Nat
  wprot : Bool
  remap : Word
  deriving DecidableEq, Repr

/-- The default values of R1. -/
def RegionEntry.default : RegionEntry :=
  { enable := false, base := 0#32, sizeLog := 12, type := .bypass, post := false, merge := false, depth := 0,
    deadline := 16, wprot := false, remap := 0#32 }

/-- The default region D (R2). -/
structure DefaultRegion where
  type : RegionType
  post : Bool
  merge : Bool
  wprot : Bool
  deadline : Nat
  remap : Word
  deriving DecidableEq, Repr

/-- D at device reset (R2). -/
def DefaultRegion.default : DefaultRegion :=
  { type := .bypass, post := false, merge := false, wprot := false, deadline := 16, remap := 0#32 }

/-- The Region Decoder: region table, default region, memory top field (R1, R2, R3). -/
structure Rdec where
  regions : Vector RegionEntry 8
  dflt : DefaultRegion
  memTopField : Nat
  deriving DecidableEq, Repr

/-- R16: pass-through. -/
def Rdec.default : Rdec :=
  { regions := Vector.replicate 8 RegionEntry.default, dflt := DefaultRegion.default, memTopField := 4095 }

/-- The global settings other than MEM_TOP (R177). -/
structure Settings where
  tickDiv : Nat
  tickHold : Bool
  memTimeout : Nat
  streamIdle : Nat
  pqUrgentMark : Nat
  attnMask : BitVec 6
  deriving DecidableEq, Repr

/-- The device-reset values of R177. -/
def Settings.default : Settings :=
  { tickDiv := 15, tickHold := false, memTimeout := 64, streamIdle := 32, pqUrgentMark := 12, attnMask := 0x09#6 }

/-- The decode result a request carries (R10). -/
structure DecodeResult where
  region : RegionId
  type : RegionType
  post : Bool
  merge : Bool
  wprot : Bool
  deadline : Nat
  depth : Nat
  line : LineAddr
  offset : Nat
  deriving DecidableEq, Repr

/-! ### Request Table (chapter 2) -/

/-- KIND of a request (R17); `unknown` for a value the part does not know. -/
inductive ReqKind where
  | rd
  | wr
  | fence
  | unknown
  deriving DecidableEq, Repr

/-- The nine slot states (R25). -/
inductive SlotState where
  | orderWait
  | drainWait
  | issueWait
  | fillWait
  | postWait
  | memWait
  | fenceWait
  | held
  | done
  deriving DecidableEq, Repr

/-- STATUS of a response (R19, section 11.7.1). -/
inductive RespStatus where
  | ok
  | malformed
  | range
  | protect
  | memFail
  | timeout
  | lineFault
  | faulted
  deriving DecidableEq, Repr

/-- A Request Table slot (R24). ADDR, COUNT and DATA a request does not carry are held as 0 and read by nothing (log 20);
DATA is in the order of the request's bytes. -/
structure Slot where
  kind : ReqKind
  source : SourceNo
  itag : Byte
  addr : Word
  count : Nat
  data : LineData
  decode : Option DecodeResult
  state : SlotState
  status : Option RespStatus
  result : List Byte
  tag : Option TagIx
  deriving DecidableEq, Repr

/-- The Request Table: slots, arrival list (oldest first), the queue of POST_WAIT writes in join order, and the credit
counts (R20, R24, R33). -/
structure Urt where
  slots : Vector (Option Slot) 8
  arrival : List SlotIx
  postWait : List SlotIx
  granted : Nat
  withheld : Nat
  deriving DecidableEq, Repr

/-- R42: every slot free, both counts 0. -/
def Urt.empty : Urt :=
  { slots := Vector.replicate 8 none, arrival := [], postWait := [], granted := 0, withheld := 0 }

/-! ### Post Queue (chapter 3) -/

/-- STATE of an entry (R48). -/
inductive EntryState where
  | opened
  | sealed
  | issued
  deriving DecidableEq, Repr

/-- A Post Queue entry (R43). -/
structure Entry where
  line : LineAddr
  region : RegionId
  mask : ByteMask
  data : LineData
  sources : SourceSet
  fences : SlotSet
  state : EntryState
  age : Nat
  deadline : Nat
  tag : Option TagIx
  deriving DecidableEq, Repr

/-- The Post Queue: entries oldest first (R44). `room` is the model's own: a removal whose offer to the oldest POST_WAIT
write has not been taken yet (R50, R53 step 3; log 6). -/
structure Queue where
  entries : List Entry
  room : Bool
  deriving DecidableEq, Repr

/-- R66: the empty queue. -/
def Queue.empty : Queue := { entries := [], room := false }

/-! ### Read-Ahead Buffer (chapter 4) -/

/-- STATE of a read-ahead line (R67). -/
inductive LineState where
  | free
  | filling
  | valid
  deriving DecidableEq, Repr

/-- ORIGIN of a read-ahead line (R67). -/
inductive Origin where
  | demand
  | prefetch
  deriving DecidableEq, Repr

/-- A read-ahead line (R67). -/
structure RabLine where
  state : LineState
  line : LineAddr
  data : LineData
  patch : ByteMask
  region : RegionId
  origin : Origin
  drop : Bool
  waiters : List SlotIx
  tag : Option TagIx
  deriving DecidableEq, Repr

/-- A FREE line with the field values R67 gives. -/
def RabLine.free : RabLine :=
  { state := .free, line := 0#27, data := zeroLine, patch := 0#32, region := .dflt, origin := .demand, drop := false,
    waiters := [], tag := none }

/-- The Read-Ahead Buffer: lines and the recency list, least recent first (R67, R69). -/
structure Rab where
  lines : Vector RabLine 16
  recency : List LineIx
  deriving DecidableEq, Repr

/-- R88: every line FREE, the recency list empty. -/
def Rab.empty : Rab := { lines := Vector.replicate 16 RabLine.free, recency := [] }

/-! ### Stream Table (chapter 5) -/

/-- DIR of a stream (R89). -/
inductive Dir where
  | none
  | up
  | down
  deriving DecidableEq, Repr

/-- A stream entry (R89). -/
structure Stream where
  valid : Bool
  source : SourceNo
  region : RegionIx
  last : LineAddr
  dir : Dir
  conf : Nat
  next : LineAddr
  idle : Nat
  deriving DecidableEq, Repr

/-- A free entry with the default values of R89. -/
def Stream.free : Stream :=
  { valid := false, source := 0, region := 0, last := 0#27, dir := .none, conf := 0, next := 0#27, idle := 0 }

/-- The Stream Table: entries and rotation mark (R89, R90). -/
structure Stt where
  entries : Vector Stream 4
  mark : StreamIx
  deriving DecidableEq, Repr

/-- R90, R104: every entry free, the mark 3. -/
def Stt.empty : Stt := { entries := Vector.replicate 4 Stream.free, mark := 3 }

/-! ### Memory Link interface (chapter 6) -/

/-- STATE of a tag (R107). -/
inductive TagState where
  | free
  | outstanding
  | quarantined
  deriving DecidableEq, Repr

/-- KIND of the access a tag was issued for (R107, R108). -/
inductive AccessKind where
  | demandRead
  | unbufferedRead
  | prefetchRead
  | drainWrite
  | directWrite
  deriving DecidableEq, Repr

/-- OWNER of a tag (R107, R108). The entry a DRAIN_WRITE belongs to is the one whose TAG is this tag. -/
inductive Owner where
  | slot (i : SlotIx)
  | entry
  | line (r : LineIx)
  deriving DecidableEq, Repr

/-- A tag record (R107). `mask` holds the bytes of a line write: R134 and R128 clear them from the Faulted Line Table
even when the slot is gone, so the record implies it (log 11). -/
structure Tag where
  state : TagState
  kind : AccessKind
  line : LineAddr
  region : RegionId
  source : Option SourceNo
  age : Nat
  owner : Option Owner
  mask : ByteMask
  deriving DecidableEq, Repr

/-- A FREE tag: AGE 0, OWNER absent (R107); the other fields carry no meaning (log 12). -/
def Tag.free : Tag :=
  { state := .free, kind := .demandRead, line := 0#27, region := .dflt, source := none, age := 0, owner := none,
    mask := 0#32 }

/-- The tag pool (R107). -/
abbrev Mli := Vector Tag 16

/-- R129: every tag FREE. -/
def Mli.empty : Mli := Vector.replicate 16 Tag.free

/-! ### Fault tracking (chapter 7) -/

/-- KIND of a fault entry (R130). -/
inductive FaultKind where
  | fail
  | timeout
  deriving DecidableEq, Repr

/-- A Faulted Line Table entry (R130). -/
structure FaultEntry where
  line : LineAddr
  failed : ByteMask
  kind : FaultKind
  deriving DecidableEq, Repr

/-- Fault tracking: the table by index, the order of first failure (an entry's rank is its place in it, R131), the
source fault flags (R138) and FLT_OVF (R133). -/
structure Flt where
  entries : Vector (Option FaultEntry) 8
  order : List FaultIx
  flags : SourceSet
  ovf : Bool
  deriving DecidableEq, Repr

/-- R142: every index free, every flag clear. -/
def Flt.empty : Flt := { entries := Vector.replicate 8 none, order := [], flags := 0#16, ovf := false }

/-! ### Error log (chapter 10) -/

/-- The twelve kinds of record (R162). -/
inductive RecordKind where
  | drainFail
  | drainTimeout
  | writeFail
  | writeTimeout
  | readFail
  | readTimeout
  | prefetchFail
  | prefetchTimeout
  | lateCompletion
  | strayCompletion
  | creditOverrun
  | reclaim
  deriving DecidableEq, Repr

/-- An error log record; a field is present with a value or absent (R161). -/
structure LogRecord where
  kind : RecordKind
  stamp : BitVec 16
  line : Option LineAddr
  region : Option RegionId
  sources : Option SourceSet
  tag : Option TagIx
  count : Option Nat
  untracked : Option Bool
  deriving DecidableEq, Repr

/-- The error log: records oldest first, DROPPED, LOG_OVF (R161, R164). -/
structure Elog where
  records : List LogRecord
  dropped : Nat
  ovf : Bool
  deriving DecidableEq, Repr

/-- R168: the empty log. -/
def Elog.empty : Elog := { records := [], dropped := 0, ovf := false }

/-! ### Path Control, Tick Generator, Management Port -/

/-- The path state (R143). -/
inductive PathState where
  | run
  | drain
  | halt
  deriving DecidableEq, Repr

/-- Path Control: path state and quiesce latch (R143). -/
structure Pctl where
  path : PathState
  latch : Bool
  deriving DecidableEq, Repr

/-- R154: RUN, latch 0. -/
def Pctl.default : Pctl := { path := .run, latch := false }

/-- The Tick Generator: prescaler (R155) and stamp (R158). `timeoutInForce` and `idleInForce` are the limits of the
last tick: an accepted write of MEM_TIMEOUT or STREAM_IDLE is used from the next tick on (R123, R95; log 5). `choices`
is the model's own counter, which selects the next free value of `Config.tickOrder` (log 8). -/
structure Tgen where
  prescaler : Nat
  stamp : BitVec 16
  timeoutInForce : Nat
  idleInForce : Nat
  choices : Nat
  deriving DecidableEq, Repr

/-- R155, R158: prescaler and stamp 0; the limits at their defaults. -/
def Tgen.default : Tgen := { prescaler := 0, stamp := 0#16, timeoutInForce := 64, idleInForce := 32, choices := 0 }

/-! ### Management Port (chapter 11) -/

/-- The status byte of a management frame (R173). -/
inductive FrameStatus where
  | ok
  | badObject
  | badValue
  | refused
  deriving DecidableEq, Repr

/-- A known object of the Management Port (section 11.7.5). -/
inductive PortObject where
  | ident
  | globals
  | status
  | logHead
  | dflt
  | region (g : RegionIx)
  | fault (i : FaultIx)
  deriving DecidableEq, Repr

/-- The reply of a frame on its way out: the status byte, then the words of a READ that is answered OK (R173, R175).
`words` is the picture, empty until it is taken; `clocked` counts the MSCK periods since the last request byte. -/
structure Reply where
  status : FrameStatus
  object : Option PortObject
  words : List Word
  clocked : Nat
  deriving DecidableEq, Repr

/-- State of the Management Port's receiver (R174). In REQUEST it holds the whole bytes taken so far and the bits of the
byte that is coming in; in REPLY, the reply. -/
inductive Receiver where
  | idle
  | request (bytes : List Byte) (bits : List Bool)
  | reply (r : Reply)
  | trail
  deriving DecidableEq, Repr

/-- Levels of the input pins; `true` is high. RESETn, ILRSTn and MSSn are active low, QREQ is active high. -/
structure Pins where
  resetn : Bool
  ilrstn : Bool
  qreq : Bool
  mssn : Bool
  deriving DecidableEq, Repr

/-! ### Messages that leave the part -/

/-- KIND of a RESP (R19). -/
inductive RespKind where
  | rdData
  | wrDone
  | fenceDone
  deriving DecidableEq, Repr

/-- A RESP message (R19, R38). -/
structure Resp where
  kind : RespKind
  source : SourceNo
  itag : Byte
  status : RespStatus
  cr : Bool
  data : List Byte
  deriving DecidableEq, Repr

/-- An MREQ message (R105); a line read carries no MASK and no DATA. -/
inductive Mreq where
  | lread (tag : TagIx) (line : LineAddr)
  | lwrite (tag : TagIx) (line : LineAddr) (mask : ByteMask) (data : LineData)
  deriving DecidableEq, Repr

/-- A message that leaves the part: a CREDIT with its COUNT (R21), a RESP, an MREQ, or the level of MSO that one MSCK
period shifts out (R172). -/
inductive PortMessage where
  | credit (count : Nat)
  | resp (r : Resp)
  | mreq (m : Mreq)
  | mso (level : Bool)
  deriving DecidableEq, Repr

/-! ### The state -/

/-- Why the machine stops with a fault. -/
inductive Fault where
  /-- Raised by REQ where GRANTED is above 0 and no slot is free. R23 says the first law rules this out, so only states
  that no run reaches raise it: safe (log 16). -/
  | firstLawBroken
  deriving DecidableEq, Repr

/-- Why a command has no meaning. -/
inductive Refusal where
  /-- Raised by an arm of `exec` whose command has no meaning yet; no arm does: safe. -/
  | notModelled (mnemonic : String)
  deriving DecidableEq, Repr

/-- The state of the part. `out` holds the messages that left in the latest event (log 1); `pending` is the queue of
commands that wait, first in first out. -/
structure State where
  pins : Pins
  rdec : Rdec
  cfg : Settings
  urt : Urt
  pq : Queue
  rab : Rab
  stt : Stt
  mli : Mli
  flt : Flt
  elog : Elog
  pctl : Pctl
  tgen : Tgen
  rx : Receiver
  out : List PortMessage
  pending : List Instr
  deriving DecidableEq, Repr

/-- The part at device reset: RESETn asserted, every field at its device-reset value (R16, R42, R66, R88, R104, R129,
R142, R154, R155, R158, R168, R174, R177). The levels of the input pins ILRSTn, QREQ and MSSn are the world's: DESIGN
CHOICE inactive (log 2). -/
def State.reset : State :=
  { pins := { resetn := false, ilrstn := true, qreq := false, mssn := true }
    rdec := Rdec.default
    cfg := Settings.default
    urt := Urt.empty
    pq := Queue.empty
    rab := Rab.empty
    stt := Stt.empty
    mli := Mli.empty
    flt := Flt.empty
    elog := Elog.empty
    pctl := Pctl.default
    tgen := Tgen.default
    rx := .idle
    out := []
    pending := [] }

/-! One named update per block: every change of State goes through these. -/

/-- `s` with other pin levels. -/
def State.withPins (s : State) (x : Pins) : State := { s with pins := x }
/-- `s` with another Region Decoder. -/
def State.withRdec (s : State) (x : Rdec) : State := { s with rdec := x }
/-- `s` with other settings. -/
def State.withCfg (s : State) (x : Settings) : State := { s with cfg := x }
/-- `s` with another Request Table. -/
def State.withUrt (s : State) (x : Urt) : State := { s with urt := x }
/-- `s` with another Post Queue. -/
def State.withPq (s : State) (x : Queue) : State := { s with pq := x }
/-- `s` with another Read-Ahead Buffer. -/
def State.withRab (s : State) (x : Rab) : State := { s with rab := x }
/-- `s` with another Stream Table. -/
def State.withStt (s : State) (x : Stt) : State := { s with stt := x }
/-- `s` with another tag pool. -/
def State.withMli (s : State) (x : Mli) : State := { s with mli := x }
/-- `s` with other fault tracking. -/
def State.withFlt (s : State) (x : Flt) : State := { s with flt := x }
/-- `s` with another error log. -/
def State.withElog (s : State) (x : Elog) : State := { s with elog := x }
/-- `s` with another Path Control. -/
def State.withPctl (s : State) (x : Pctl) : State := { s with pctl := x }
/-- `s` with another Tick Generator. -/
def State.withTgen (s : State) (x : Tgen) : State := { s with tgen := x }
/-- `s` with another receiver state. -/
def State.withRx (s : State) (x : Receiver) : State := { s with rx := x }
/-- `s` with other messages out. -/
def State.withOut (s : State) (x : List PortMessage) : State := { s with out := x }

end Sys2Proof.Machine
end

