-- ==== Sys2Proof/Machine/Buffer.lean ====
section
/-! DEFINITION. The Read-Ahead Buffer (chapter 4): lookup, allocation and replacement, patching, fills, invalidation. -/

namespace Sys2Proof.Machine

/-- A line that holds or awaits a memory line (R68). -/
def RabLine.holds (x : RabLine) (l : LineAddr) : Bool := x.state != .free && x.line == l

/-- The FILLING or VALID line for a memory line; R68 says there is at most one. -/
def Rab.find (b : Rab) (l : LineAddr) : Option LineIx := (List.finRange 16).find? fun r => b.lines[r].holds l

/-- Changes one line. -/
def Rab.update (b : Rab) (r : LineIx) (f : RabLine → RabLine) : Rab := { b with lines := b.lines.set r (f b.lines[r]) }

/-- A line becomes FREE and leaves the recency list (R69, R81). -/
def Rab.release (b : Rab) (r : LineIx) : Rab :=
  { lines := b.lines.set r RabLine.free, recency := b.recency.filter fun x => x != r }

/-- R70: a hit moves the line to the most recent end and makes its ORIGIN DEMAND. -/
def Rab.hit (b : Rab) (r : LineIx) : Rab :=
  { lines := b.lines.set r { b.lines[r] with origin := .demand }
    recency := (b.recency.filter fun x => x != r) ++ [r] }

/-- R71: a join appends the slot to WAITERS and makes the ORIGIN DEMAND. -/
def Rab.join (b : Rab) (r : LineIx) (i : SlotIx) : Rab :=
  b.update r fun x => { x with waiters := x.waiters ++ [i], origin := .demand }

/-- The FREE line with the lowest index. -/
def Rab.lowestFree (b : Rab) : Option LineIx := (List.finRange 16).find? fun r => b.lines[r].state == .free

/-- R72: the line a demand allocation takes: the lowest FREE line, else the least recent VALID line. -/
def Rab.demandVictim (b : Rab) : Option LineIx :=
  match b.lowestFree with
  | some r => some r
  | none => b.recency.head?

/-- R75: the line a prefetch allocation takes: the lowest FREE line, else the least recent VALID line of ORIGIN DEMAND. -/
def Rab.prefetchVictim (b : Rab) : Option LineIx :=
  match b.lowestFree with
  | some r => some r
  | none => b.recency.find? fun r => b.lines[r].origin == .demand

/-- A newly allocated FILLING line (R72, R75). -/
def RabLine.fresh (l : LineAddr) (g : RegionId) (o : Origin) (ws : List SlotIx) (t : Option TagIx) : RabLine :=
  { state := .filling, line := l, data := zeroLine, patch := 0#32, region := g, origin := o, drop := false,
    waiters := ws, tag := t }

/-- R72, R75: the chosen line is freed if it was VALID and set up as FILLING. -/
def Rab.allocate (b : Rab) (r : LineIx) (x : RabLine) : Rab :=
  { lines := b.lines.set r x, recency := b.recency.filter fun y => y != r }

/-- R76, R77: the written bytes reach a VALID line's DATA, or a FILLING line's DATA and PATCH. -/
def RabLine.patchBytes (x : RabLine) (mask : ByteMask) (data : LineData) : RabLine :=
  match x.state with
  | .free => x
  | .valid => { x with data := mergeBytes mask data x.data }
  | .filling => { x with data := mergeBytes mask data x.data, patch := x.patch ||| mask }

/-- R76, R77: a write of a line settles. -/
def Rab.patch (b : Rab) (l : LineAddr) (mask : ByteMask) (data : LineData) : Rab :=
  match b.find l with
  | some r => b.update r fun x => x.patchBytes mask data
  | none => b

/-- The effect of an invalidation on a line it selects: VALID is freed, FILLING is marked DROP (section 4.6). -/
def RabLine.invalidate (x : RabLine) : RabLine :=
  match x.state with
  | .free => x
  | .valid => RabLine.free
  | .filling => { x with drop := true }

/-- An invalidation of every line that `sel` selects (R83, R84, R85). -/
def Rab.invalidate (b : Rab) (sel : RabLine → Bool) : Rab :=
  { lines := Vector.ofFn fun r => if sel b.lines[r] then b.lines[r].invalidate else b.lines[r]
    recency := b.recency.filter fun r => !sel b.lines[r] }

/-- R85: a line write of a line failed or timed out. -/
def Rab.lineFailed (b : Rab) (l : LineAddr) : Rab := b.invalidate fun x => x.holds l

/-- R83: the rewrite notice of a numbered region. -/
def Rab.rewriteNotice (b : Rab) (g : RegionIx) : Rab := b.invalidate fun x => x.region == .num g

/-- R84: INVALIDATE_RAB. -/
def Rab.invalidateAll (b : Rab) : Rab := b.invalidate fun _ => true

/-- R86: entry to HALT frees every VALID line; the recency list becomes empty. -/
def Rab.haltEntry (b : Rab) : Rab :=
  { lines := Vector.ofFn fun r => if b.lines[r].state = .valid then RabLine.free else b.lines[r], recency := [] }

/-- R79 step 1: memory data in the bytes outside PATCH. -/
def RabLine.filled (x : RabLine) (memory : LineData) : LineData := mergeBytes x.patch x.data memory

/-- R79 step 2, R80: the FILLING line becomes VALID and most recent, or FREE when DROP is set. -/
def Rab.finishFill (b : Rab) (r : LineIx) (memory : LineData) : Rab :=
  if b.lines[r].state ≠ .filling then b
  else if b.lines[r].drop then b.release r
  else
    { lines := b.lines.set r { b.lines[r] with
        state := .valid, data := b.lines[r].filled memory, patch := 0#32, waiters := [], tag := none }
      recency := (b.recency.filter fun x => x != r) ++ [r] }

/-- The FILLING line whose fill waits for the issue of the slot's line read (R72). -/
def Rab.unissuedFillOf (b : Rab) (i : SlotIx) : Option LineIx :=
  (List.finRange 16).find? fun r =>
    b.lines[r].state == .filling && b.lines[r].tag == none && b.lines[r].waiters.contains i

/-- R39, R87: the slots are all discarded: a line whose fill was not issued is freed, the others lose their waiters. -/
def Rab.dropSlots (b : Rab) : Rab :=
  { b with lines := Vector.ofFn fun r =>
      if b.lines[r].state = .filling ∧ b.lines[r].tag = none then RabLine.free else { b.lines[r] with waiters := [] } }

/-- R74: a prefetch line could be allocated. -/
def Rab.canPrefetch (b : Rab) : Bool := b.prefetchVictim.isSome

/-- The number of lines in a state (R67). -/
def Rab.countState (b : Rab) (st : LineState) : Nat := b.lines.toList.countP fun x => x.state == st

end Sys2Proof.Machine
end

