-- ==== Sys2Proof/Machine/Faults.lean ====
section
/-! DEFINITION. The Faulted Line Table and the source fault flags (chapter 7). -/

namespace Sys2Proof.Machine

/-- The index of the entry for a line (R131: at most one). -/
def Flt.find (f : Flt) (l : LineAddr) : Option FaultIx :=
  (List.finRange 8).find? fun i => match f.entries[i] with | some e => e.line == l | none => false

/-- The free index with the lowest number (R131). -/
def Flt.lowestFree (f : Flt) : Option FaultIx := (List.finRange 8).find? fun i => f.entries[i].isNone

/-- The number of entries (R130). -/
def Flt.count (f : Flt) : Nat := f.entries.toList.countP Option.isSome

/-- R132: a failure of a line is tracked: the line has an entry, or an index is free. -/
def Flt.tracks (f : Flt) (l : LineAddr) : Bool := (f.find l).isSome || f.lowestFree.isSome

/-- R132, first row: the failed bytes are added, KIND becomes that of the latest failure. -/
def FaultEntry.refail (e : FaultEntry) (mask : ByteMask) (k : FaultKind) : FaultEntry :=
  { e with failed := e.failed ||| mask, kind := k }

/-- R132, R133: records the failed bytes of a line; an untracked failure sets FLT_OVF. -/
def Flt.record (f : Flt) (l : LineAddr) (mask : ByteMask) (k : FaultKind) : Flt :=
  match f.find l with
  | some i =>
    { f with entries := f.entries.set i (f.entries[i].map fun e => e.refail mask k) }
  | none =>
    match f.lowestFree with
    | some i =>
      { f with
        entries := f.entries.set i (some { line := l, failed := mask, kind := k })
        order := f.order ++ [i] }
    | none => { f with ovf := true }

/-- R138: the flags of the sources are set. -/
def Flt.setFlags (f : Flt) (src : SourceSet) : Flt := { f with flags := f.flags ||| src }

/-- R139: the flag of a source is cleared. -/
def Flt.clearFlag (f : Flt) (src : SourceNo) : Flt := { f with flags := f.flags &&& ~~~ sourceBit src }

/-- R131, R135: the entry at an index leaves; later ranks move up. -/
def Flt.remove (f : Flt) (i : FaultIx) : Flt :=
  { f with entries := f.entries.set i none, order := f.order.filter fun x => x != i }

/-- R134: written bytes leave the entry for the line; an entry without failed bytes is removed. -/
def Flt.clearBytes (f : Flt) (l : LineAddr) (mask : ByteMask) : Flt :=
  match f.find l with
  | none => f
  | some i =>
    match f.entries[i] with
    | none => f
    | some e =>
      if e.failed &&& ~~~ mask = 0#32 then f.remove i
      else { f with entries := f.entries.set i (some { e with failed := e.failed &&& ~~~ mask }) }

/-- R135: CLEAR_FAULT ALL. -/
def Flt.clearAll (f : Flt) : Flt := { f with entries := Vector.replicate 8 none, order := [] }

/-- R136: some byte of the mask is marked failed for the line. -/
def Flt.failedBytes (f : Flt) (l : LineAddr) (mask : ByteMask) : Bool :=
  match f.find l with
  | none => false
  | some i =>
    match f.entries[i] with
    | none => false
    | some e => masksMeet e.failed mask

/-- The rank of an index: its place in the order of first failure (R131). -/
def Flt.rank (f : Flt) (i : FaultIx) : Nat := f.order.idxOf i

end Sys2Proof.Machine
end

