-- ==== Sys2Proof/Machine/Queue.lean ====
section
/-! DEFINITION. The Post Queue as a list of entries, oldest first (chapter 3): lookups, merging, creation, sealing, fence marks. -/

namespace Sys2Proof.Machine

/-- R52: an entry for a line, in any state. -/
def Queue.hasLine (q : Queue) (l : LineAddr) : Bool := q.entries.any fun e => e.line == l

/-- R52: an entry for a line or of a region. -/
def Queue.hasLineOrRegion (q : Queue) (l : LineAddr) (g : RegionId) : Bool :=
  q.entries.any fun e => e.line == l || e.region == g

/-- The youngest entry for a line (R45, R51). -/
def Queue.youngest (q : Queue) (l : LineAddr) : Option Entry := (q.entries.filter fun e => e.line == l).getLast?

/-- R54: the drain candidate, the oldest unissued entry. -/
def Queue.candidate (q : Queue) : Option Entry := q.entries.find? fun e => e.state != .issued

/-- The number of ISSUED entries (R54). -/
def Queue.issuedCount (q : Queue) : Nat := q.entries.countP fun e => e.state == .issued

/-- The ISSUED entry that holds a tag (R43). -/
def Queue.ofTag (q : Queue) (t : TagIx) : Option Entry := q.entries.find? fun e => e.tag == some t

/-- R45: a write with this decode result merges into the youngest entry for its line. -/
def Queue.canMerge (q : Queue) (d : DecodeResult) : Bool :=
  match q.youngest d.line with
  | some e => e.state == .opened && e.region == d.region && d.type == .normal && d.merge
  | none => false

/-- Changes the youngest entry for a line; the others stand. -/
def updateYoungest (l : LineAddr) (f : Entry → Entry) : List Entry → List Entry
  | [] => []
  | e :: es =>
    if es.any fun x => x.line == l then e :: updateYoungest l f es
    else if e.line = l then f e :: es
    else e :: es

/-- R46: what a merge does to the entry: the bytes, their MASK flags, the source, the waiting fences younger than the write. -/
def Entry.mergeWrite (e : Entry) (mask : ByteMask) (data : LineData) (src : SourceSet) (fences : SlotSet) : Entry :=
  { e with
    mask := e.mask ||| mask
    data := mergeBytes mask data e.data
    sources := e.sources ||| src
    fences := e.fences ||| fences }

/-- R46: a merge into the youngest entry for a line. -/
def Queue.merge (q : Queue) (l : LineAddr) (mask : ByteMask) (data : LineData) (src : SourceSet) (fences : SlotSet) :
    Queue :=
  { q with entries := updateYoungest l (fun e => e.mergeWrite mask data src fences) q.entries }

/-- An OPEN entry becomes SEALED (R47, R49). -/
def Entry.seal (e : Entry) : Entry := if e.state = .opened then { e with state := .sealed } else e

/-- R47: the new entry of a posted write: OPEN for NORMAL with MERGE 1, SEALED otherwise. -/
def newEntry (d : DecodeResult) (mask : ByteMask) (data : LineData) (src : SourceSet) (fences : SlotSet) : Entry :=
  { line := d.line, region := d.region, mask := mask, data := data, sources := src, fences := fences,
    state := if d.type = .normal ∧ d.merge = true then .opened else .sealed,
    age := 0, deadline := d.deadline, tag := none }

/-- R47: a new entry at the young end; an OPEN entry for its line becomes SEALED in the same step. -/
def Queue.create (q : Queue) (d : DecodeResult) (mask : ByteMask) (data : LineData) (src : SourceSet)
    (fences : SlotSet) : Queue :=
  { q with
    entries := (q.entries.map fun e => if e.line = d.line then e.seal else e) ++ [newEntry d mask data src fences] }

/-- R35, R49: a fence's arrival: every OPEN entry becomes SEALED, every entry lists the fence. -/
def Queue.fenceArrives (q : Queue) (i : SlotIx) : Queue :=
  { q with entries := q.entries.map fun e => { e.seal with fences := e.fences ||| slotBit i } }

/-- R40, R64: every fence mark leaves. -/
def Queue.dropFenceMarks (q : Queue) : Queue :=
  { q with entries := q.entries.map fun e => { e with fences := 0#8 } }

/-- R36: an entry lists the fence. -/
def Queue.lists (q : Queue) (i : SlotIx) : Bool := q.entries.any fun e => e.fences.getLsbD i

/-- R55: the candidate becomes ISSUED with its tag. -/
def issueFirst (t : TagIx) : List Entry → List Entry
  | [] => []
  | e :: es => if e.state = .issued then e :: issueFirst t es else { e with state := .issued, tag := some t } :: es

/-- R55 on the queue. -/
def Queue.issue (q : Queue) (t : TagIx) : Queue := { q with entries := issueFirst t q.entries }

/-- R53 step 2: the entry of a tag leaves the list, wherever it stands; the removal makes room (R50). -/
def Queue.remove (q : Queue) (t : TagIx) : Queue :=
  { entries := q.entries.filter fun e => e.tag != some t, room := true }

/-- R58: every AGE goes up by one, stopping at 255. -/
def Queue.age (q : Queue) : Queue :=
  { q with entries := q.entries.map fun e => { e with age := min (e.age + 1) Config.ageMax } }

end Sys2Proof.Machine
end

