-- ==== Sys2Proof/Machine/Operands.lean ====
section
/-! DEFINITION. Operand forms: the fields of the messages and frames that come in (R182, R183, R178, R177) and the layouts of those that go out (section 11.7). -/

namespace Sys2Proof.Machine

/-! ### REQ (R182) -/

/-- KIND of a REQ header: code 1 RD, 2 WR, 3 FENCE, any other unknown. -/
def reqKind (header : Word) : ReqKind :=
  match field header 0 3 with
  | 1 => .rd
  | 2 => .wr
  | 3 => .fence
  | _ => .unknown

/-- SOURCE of a REQ header. -/
def reqSource (header : Word) : SourceNo := Fin.ofNat 16 (field header 4 4)

/-- ITAG of a REQ header. -/
def reqItag (header : Word) : Byte := header.extractLsb' 8 8

/-- COUNT as received, 0 to 63. -/
def reqCount (header : Word) : Nat := field header 16 6

/-- Whether a kind carries ADDR and COUNT (R17). -/
def ReqKind.addressed : ReqKind → Bool
  | .rd => true
  | .wr => true
  | .fence => false
  | .unknown => false

/-- The slot a REQ fills, before its state is settled (R24): the fields its KIND carries, 0 for the others (log 20). -/
def slotOfReq (header addr : Word) (data : Vector Word 8) (state : SlotState) : Slot :=
  let kind := reqKind header
  { kind := kind
    source := reqSource header
    itag := reqItag header
    addr := if kind.addressed then addr else 0#32
    count := if kind.addressed then reqCount header else 0
    data := if kind = .wr then lineOfWords data else zeroLine
    decode := none
    state := state
    status := none
    result := []
    tag := none }

/-- The low five bits of an address (00_scope.md, "Lines and offsets"). -/
def offsetOf (addr : Word) : Nat := addr.toNat % 32

/-- R18: the request is malformed. -/
def Slot.malformed (x : Slot) : Bool :=
  match x.kind with
  | .fence => false
  | .unknown => true
  | .rd => x.count == 0 || 32 < x.count || 32 < offsetOf x.addr + x.count
  | .wr => x.count == 0 || 32 < x.count || 32 < offsetOf x.addr + x.count

/-! ### MCPL (R183) -/

/-- TAG of an MCPL header: its four low bits. -/
def mcplTag (header : Word) : TagIx := Fin.ofNat 16 (field header 0 4)

/-- STATUS of an MCPL header is OK. -/
def mcplOk (header : Word) : Bool := !flag header 31

/-- The DATA of an MCPL: present when the header's DATA flag is 1. -/
def mcplData (header : Word) (data : Vector Word 8) : Option LineData :=
  if flag header 30 then some (lineOfWords data) else none

/-! ### Region and default-region words (section 11.7.3) -/

/-- TYPE codes 0, 1, 2; code 3 names no TYPE (R178). -/
def typeOfCode : Nat → Option RegionType
  | 0 => some .bypass
  | 1 => some .ordered
  | 2 => some .normal
  | _ => none

/-- The code of a TYPE. -/
def RegionType.code : RegionType → Nat
  | .bypass => 0
  | .ordered => 1
  | .normal => 2

/-- The region entry a frame's three words carry, if every value is in its range (R15, R178). -/
def regionOfWords (base remap control : Word) : Option RegionEntry :=
  match typeOfCode (field control 1 2) with
  | none => none
  | some t =>
    if field control 16 5 < 12 ∨ 31 < field control 16 5 ∨ base.toNat % 2 ^ field control 16 5 ≠ 0
        ∨ 4 < field control 8 3 ∨ field control 24 8 = 0 ∨ remap.toNat % 0x1000 ≠ 0 then none
    else some
      { enable := flag control 0, base := base, sizeLog := field control 16 5, type := t, post := flag control 3,
        merge := flag control 4, depth := field control 8 3, deadline := field control 24 8, wprot := flag control 5,
        remap := remap }

/-- The default region a frame's two words carry, if every value is in its range; ENABLE, DEPTH and SIZE_LOG are not
used (R14, R15, R178). -/
def defaultRegionOfWords (remap control : Word) : Option DefaultRegion :=
  match typeOfCode (field control 1 2) with
  | none => none
  | some t =>
    if field control 24 8 = 0 ∨ remap.toNat % 0x1000 ≠ 0 then none
    else some
      { type := t, post := flag control 3, merge := flag control 4, wprot := flag control 5,
        deadline := field control 24 8, remap := remap }

/-! ### The global configuration frame (R177) -/

/-- The setting of word `k + 1` is selected. -/
def frameSelects (f : GlobalFrame) (k : Nat) : Bool := flag f.select k

/-- Every test of R177 passes: no select bit above 6, and each selected word in its range. -/
def frameAcceptable (f : GlobalFrame) : Bool :=
  decide (f.select.toNat < 128) &&
  (!frameSelects f 0 || decide (f.memTop.toNat ≤ 4095)) &&
  (!frameSelects f 1 || decide (f.tickDiv.toNat ≤ 255)) &&
  (!frameSelects f 2 || decide (f.tickHold.toNat ≤ 1)) &&
  (!frameSelects f 3 || decide (1 ≤ f.memTimeout.toNat ∧ f.memTimeout.toNat ≤ 255)) &&
  (!frameSelects f 4 || decide (1 ≤ f.streamIdle.toNat ∧ f.streamIdle.toNat ≤ 255)) &&
  (!frameSelects f 5 || decide (1 ≤ f.pqUrgentMark.toNat ∧ f.pqUrgentMark.toNat ≤ 16))

/-- The frame whose words 0 to 7 are the first eight of a list; missing words are read as 0, and only frames that carry
all eight reach this (R173). -/
def globalFrameOfWords (ws : List Word) : GlobalFrame :=
  { select := ws.getD 0 0#32, memTop := ws.getD 1 0#32, tickDiv := ws.getD 2 0#32, tickHold := ws.getD 3 0#32,
    memTimeout := ws.getD 4 0#32, streamIdle := ws.getD 5 0#32, pqUrgentMark := ws.getD 6 0#32,
    attnMask := ws.getD 7 0#32 }

/-! ### Layouts of outgoing messages (sections 11.7.1, 11.7.2) -/

/-- A Bool as a field value. -/
def bit (b : Bool) : Nat := if b then 1 else 0

/-- KIND code of a RESP. -/
def RespKind.code : RespKind → Nat
  | .rdData => 0
  | .wrDone => 1
  | .fenceDone => 2

/-- STATUS code of a RESP. -/
def RespStatus.code : RespStatus → Nat
  | .ok => 0
  | .malformed => 1
  | .range => 2
  | .protect => 3
  | .memFail => 4
  | .timeout => 5
  | .lineFault => 6
  | .faulted => 7

/-- The words of a RESP. -/
def Resp.words (r : Resp) : List Word :=
  packFields [(0, 0), (r.kind.code, 2), (r.source.val, 4), (r.itag.toNat, 8), (r.status.code, 16), (bit r.cr, 19),
    (r.data.length, 20)] :: wordsOfBytes r.data

/-- The words of an MREQ. -/
def Mreq.words : Mreq → List Word
  | .lread t l => [packFields [(l.toNat, 0), (t.val, 27), (0, 31)]]
  | .lwrite t l m d => packFields [(l.toNat, 0), (t.val, 27), (1, 31)] :: m :: wordsOfBytes d.toList

/-- The words of a CREDIT with COUNT `n`. -/
def creditWords (n : Nat) : List Word := [packFields [(1, 0), (n, 8)]]

/-- The code of a status byte (R173). -/
def FrameStatus.code : FrameStatus → Byte
  | .ok => 0x00#8
  | .badObject => 0x01#8
  | .badValue => 0x02#8
  | .refused => 0x03#8

/-! ### Bytes and bits on the Management Port (R172) -/

/-- The bytes of a word as they cross the Management Port, most significant first. -/
def bytesHighFirst (w : Word) : List Byte :=
  [w.extractLsb' 24 8, w.extractLsb' 16 8, w.extractLsb' 8 8, w.extractLsb' 0 8]

/-- The bytes of an object or command number, high byte first. -/
def numberBytes (n : BitVec 16) : List Byte := [n.extractLsb' 8 8, n.extractLsb' 0 8]

/-- The number whose high and low bytes are given. -/
def numberOfBytes (hi lo : Byte) : BitVec 16 := BitVec.ofNat 16 (hi.toNat * 256 + lo.toNat)

/-- Words from bytes that come most significant first; a last part of fewer than four bytes is no word. -/
def wordsHighFirst : List Byte → List Word
  | b3 :: b2 :: b1 :: b0 :: rest => wordOfBytes b0 b1 b2 b3 :: wordsHighFirst rest
  | _ => []

/-- The bits of a byte as they cross the Management Port, most significant first. -/
def bitsHighFirst (b : Byte) : List Bool :=
  [b.getLsbD 7, b.getLsbD 6, b.getLsbD 5, b.getLsbD 4, b.getLsbD 3, b.getLsbD 2, b.getLsbD 1, b.getLsbD 0]

/-- The byte whose bits, most significant first, are given. -/
def byteOfBits (bits : List Bool) : Byte :=
  bits.foldl (fun b x => (b <<< 1) ||| (BitVec.ofBool x).setWidth 8) 0#8

/-- The bytes of a COMMAND frame (R173). -/
def commandBytes (number : BitVec 16) (arg : Word) : List Byte := 0x03#8 :: numberBytes number ++ bytesHighFirst arg

/-- The bytes of a WRITE frame (R173). -/
def writeBytes (object : BitVec 16) (words : List Word) : List Byte :=
  0x02#8 :: numberBytes object ++ words.flatMap bytesHighFirst

/-- Bytes 0 to 2 of a frame (R172). -/
def headBytes (opcode : BitVec 8) (number : BitVec 16) : List Byte := opcode :: numberBytes number

/-- The eight words of a global configuration frame (R177). -/
def globalFrameWords (f : GlobalFrame) : List Word :=
  [f.select, f.memTop, f.tickDiv, f.tickHold, f.memTimeout, f.streamIdle, f.pqUrgentMark, f.attnMask]

end Sys2Proof.Machine
end

