-- ==== Sys2Proof/Machine/Slots.lean ====
section
/-! DEFINITION. The Request Table by itself (chapter 2): arrival order, settledness, the line-order rule, fence marks, response order. -/

namespace Sys2Proof.Machine

/-- Changes one occupied slot. -/
def Urt.update (u : Urt) (i : SlotIx) (f : Slot → Slot) : Urt := { u with slots := u.slots.set i (u.slots[i].map f) }

/-- R24: the free slot with the lowest index. -/
def Urt.lowestFree (u : Urt) : Option SlotIx := (List.finRange 8).find? fun i => u.slots[i].isNone

/-- The slots older than `i`, oldest first. -/
def Urt.older (u : Urt) (i : SlotIx) : List SlotIx := u.arrival.takeWhile fun j => j != i

/-- The slots younger than `i`, oldest first. -/
def Urt.younger (u : Urt) (i : SlotIx) : List SlotIx := (u.arrival.dropWhile fun j => j != i).drop 1

/-- A property of an occupied slot; false of a free one. -/
def Urt.slotHas (u : Urt) (i : SlotIx) (p : Slot → Bool) : Bool :=
  match u.slots[i] with
  | some x => p x
  | none => false

/-- R25: a read is unsettled in any state but DONE; a write in ORDER_WAIT, POST_WAIT, ISSUE_WAIT and HELD. -/
def Slot.unsettled (x : Slot) : Bool :=
  match x.kind with
  | .rd => x.state != .done
  | .wr => x.state == .orderWait || x.state == .postWait || x.state == .issueWait || x.state == .held
  | .fence => false
  | .unknown => false

/-- R24: a RD or WR that has been decoded and was not answered at decode. -/
def Slot.lineCarrying (x : Slot) : Bool :=
  x.kind.addressed && x.decode.isSome && x.status != some .range && x.status != some .protect

/-- R26: slot `o`, known to be older, blocks slot `x`, whose decode result is `d`. -/
def Slot.blocks (o x : Slot) (d : DecodeResult) : Bool :=
  match o.decode with
  | none => false
  | some od =>
    o.lineCarrying && o.unsettled && !(o.kind == .rd && x.kind == .rd) &&
      (od.line == d.line || (d.type == .ordered && od.region == d.region))

/-- R26: the RD or WR is in ORDER_WAIT and no older slot blocks it. -/
def Urt.releasable (u : Urt) (i : SlotIx) : Bool :=
  match u.slots[i] with
  | none => false
  | some x =>
    match x.decode with
    | none => false
    | some d => x.state == .orderWait && x.kind.addressed && (u.older i).all fun j => !u.slotHas j fun o => o.blocks x d

/-- R35, R47: the fences in FENCE_WAIT younger than slot `i`, as a set. -/
def Urt.fencesYounger (u : Urt) (i : SlotIx) : SlotSet :=
  (u.younger i).foldl (fun acc j => if u.slotHas j fun x => x.state == .fenceWait then acc ||| slotBit j else acc) 0#8

/-- R57: one or more fences are in FENCE_WAIT. -/
def Urt.fenceWaiting (u : Urt) : Bool :=
  (List.finRange 8).any fun i => u.slotHas i fun x => x.state == .fenceWait

/-- R36, first condition: no WR slot older than the fence is unsettled or in MEM_WAIT. -/
def Urt.olderWritesSettled (u : Urt) (i : SlotIx) : Bool :=
  (u.older i).all fun j => !u.slotHas j fun x => x.kind == .wr && (x.unsettled || x.state == .memWait)

/-- R38: a DONE slot with no older slot of its SOURCE. -/
def Urt.eligible (u : Urt) (i : SlotIx) : Bool :=
  match u.slots[i] with
  | none => false
  | some x => x.state == .done && (u.older i).all fun j => !u.slotHas j fun o => o.source == x.source

/-- R38: the oldest eligible slot. -/
def Urt.nextResponse (u : Urt) : Option SlotIx := u.arrival.find? fun i => u.eligible i

/-- The slots in a state, oldest first. -/
def Urt.inState (u : Urt) (st : SlotState) : List SlotIx := u.arrival.filter fun i => u.slotHas i fun x => x.state == st

/-- The number of slots in a state (R25, R179). -/
def Urt.countState (u : Urt) (st : SlotState) : Nat :=
  (List.finRange 8).countP fun i => u.slotHas i fun x => x.state == st

/-- R20: the number of occupied slots, the length of the arrival list (R24). -/
def Urt.occupied (u : Urt) : Nat := u.arrival.length

/-- R24: a request takes a slot and the young end of the arrival list; R23: GRANTED goes down by one. -/
def Urt.take (u : Urt) (i : SlotIx) (x : Slot) : Urt :=
  { u with slots := u.slots.set i (some x), arrival := u.arrival ++ [i], granted := u.granted - 1 }

/-- R38: the slot is freed and leaves the arrival list. -/
def Urt.free (u : Urt) (i : SlotIx) : Urt := { u with slots := u.slots.set i none, arrival := u.arrival.erase i }

/-- R19: KIND of the response that answers a kind of request. -/
def ReqKind.respKind : ReqKind → RespKind
  | .rd => .rdData
  | .wr => .wrDone
  | .fence => .fenceDone
  | .unknown => .wrDone

/-- R19, R38: the RESP built from a slot. -/
def Slot.resp (x : Slot) (cr : Bool) : Resp :=
  { kind := x.kind.respKind, source := x.source, itag := x.itag, status := x.status.getD .ok, cr := cr, data := x.result }

/-- The mask of a decoded request's bytes in its line. -/
def Slot.mask (x : Slot) (d : DecodeResult) : ByteMask := rangeMask d.offset x.count

/-- A decoded write's bytes at their line offsets. -/
def Slot.lineBytes (x : Slot) (d : DecodeResult) : LineData := placeBytes d.offset x.count x.data

end Sys2Proof.Machine
end

