-- ==== Sys2Proof/Machine/Tags.lean ====
section
/-! DEFINITION. The tag pool and the line interlock (sections 6.2 and 6.4). -/

namespace Sys2Proof.Machine

/-- An access that writes memory. -/
def AccessKind.isWrite : AccessKind → Bool
  | .demandRead => false
  | .unbufferedRead => false
  | .prefetchRead => false
  | .drainWrite => true
  | .directWrite => true

/-- R109: the FREE tag with the lowest number. -/
def Mli.lowestFree (m : Mli) : Option TagIx := (List.finRange 16).find? fun t => m[t].state == .free

/-- The number of tags in a state (R107). -/
def Mli.countState (m : Mli) (st : TagState) : Nat := m.toList.countP fun x => x.state == st

/-- A line write of the line is OUTSTANDING or QUARANTINED (R115). -/
def Mli.writeHeld (m : Mli) (l : LineAddr) : Bool :=
  m.toList.any fun x => x.state != .free && x.kind.isWrite && x.line == l

/-- A line read of the line is OUTSTANDING (R115); a quarantined line read holds no claim. -/
def Mli.readOutstanding (m : Mli) (l : LineAddr) : Bool :=
  m.toList.any fun x => x.state == .outstanding && !x.kind.isWrite && x.line == l

/-- R115, first row: a line read of the line is barred. -/
def Mli.barsRead (m : Mli) (l : LineAddr) : Bool := m.writeHeld l

/-- R115, second row: a drain of the line is barred. -/
def Mli.barsDrain (m : Mli) (l : LineAddr) : Bool := m.writeHeld l || m.readOutstanding l

/-- Changes one tag. -/
def Mli.put (m : Mli) (t : TagIx) (x : Tag) : Mli := m.set t x

/-- R109: the record of a newly issued access. -/
def Tag.issued (k : AccessKind) (l : LineAddr) (g : RegionId) (src : Option SourceNo) (o : Owner) (mask : ByteMask) :
    Tag :=
  { state := .outstanding, kind := k, line := l, region := g, source := src, age := 0, owner := some o, mask := mask }

/-- R122: AGE of every OUTSTANDING tag goes up by one, stopping at 255. -/
def Mli.age (m : Mli) : Mli :=
  Vector.ofFn fun t =>
    if m[t].state = .outstanding then { m[t] with age := min (m[t].age + 1) Config.ageMax } else m[t]

/-- R128: a tag owned by a slot loses its owner. -/
def Mli.dropSlotOwners (m : Mli) : Mli :=
  Vector.ofFn fun t =>
    match m[t].owner with
    | some (.slot _) => { m[t] with owner := none }
    | _ => m[t]

/-- R126: every QUARANTINED tag becomes FREE. -/
def Mli.reclaim (m : Mli) : Mli := Vector.ofFn fun t => if m[t].state = .quarantined then Tag.free else m[t]

/-- R122 steps 1 and 4 on the record: QUARANTINED, OWNER absent, the other fields kept. -/
def Tag.quarantine (x : Tag) : Tag := { x with state := .quarantined, owner := none }

/-- R122: the tag is OUTSTANDING and its AGE at or above a limit. -/
def Tag.due (x : Tag) (limit : Nat) : Bool := x.state == .outstanding && decide (limit ≤ x.age)

end Sys2Proof.Machine
end

