-- ==== Sys2Proof/Machine/Flags.lean ====
section
/-! DEFINITION. Standing conditions and output levels, each computed from the state: the link, QACK, MRSTn, the attention causes and ATTN, drain urgency, the empty path (log 21). -/

namespace Sys2Proof.Machine

/-- R17: the Initiator Link is up while RESETn and ILRSTn are both high. -/
def State.linkUp (s : State) : Bool := s.pins.resetn && s.pins.ilrstn

/-- R143: QACK is asserted exactly while the path is HALT. -/
def State.qack (s : State) : Bool := s.pctl.path == .halt

/-- R129: MRSTn is asserted while RESETn is asserted. -/
def State.mrstAsserted (s : State) : Bool := !s.pins.resetn

/-- R143: quiesce demand. -/
def State.demand (s : State) : Bool := s.pins.qreq || s.pctl.latch

/-- The six attention causes (R169). -/
inductive Cause where
  | logNonempty
  | logOvf
  | fltNonempty
  | fltOvf
  | quarantine
  | halted
  deriving DecidableEq, Repr

/-- The ATTN_MASK bit of a cause (section 11.7.6). -/
def Cause.bit : Cause → Nat
  | .logNonempty => 0
  | .logOvf => 1
  | .fltNonempty => 2
  | .fltOvf => 3
  | .quarantine => 4
  | .halted => 5

/-- R169: the cause holds. -/
def State.causeHolds (s : State) : Cause → Bool
  | .logNonempty => !s.elog.records.isEmpty
  | .logOvf => s.elog.ovf
  | .fltNonempty => decide (0 < s.flt.count)
  | .fltOvf => s.flt.ovf
  | .quarantine => decide (0 < Mli.countState s.mli .quarantined)
  | .halted => s.pctl.path == .halt

/-- The causes in the order of their mask bits. -/
def Cause.all : List Cause := [.logNonempty, .logOvf, .fltNonempty, .fltOvf, .quarantine, .halted]

/-- R170: ATTN is asserted while an enabled cause holds, and not while RESETn is asserted. -/
def State.attn (s : State) : Bool :=
  s.pins.resetn && Cause.all.any fun c => s.cfg.attnMask.getLsbD c.bit && s.causeHolds c

/-- R57, first condition: the candidate's AGE is at or above its DEADLINE. -/
def State.deadlineReached (s : State) : Bool :=
  match s.pq.candidate with
  | some e => decide (e.deadline ≤ e.age)
  | none => false

/-- R57: drain urgency. -/
def State.urgent (s : State) : Bool :=
  s.deadlineReached || decide (s.cfg.pqUrgentMark ≤ s.pq.entries.length) || s.urt.fenceWaiting ||
    s.pctl.path == .drain

/-- R147: no slot, no Post Queue entry, no OUTSTANDING tag. -/
def State.pathEmpty (s : State) : Bool :=
  s.urt.arrival.isEmpty && s.pq.entries.isEmpty && !s.mli.toList.any fun x => x.state == .outstanding

end Sys2Proof.Machine
end

