-- ==== Sys2Proof/Machine/Log.lean ====
section
/-! DEFINITION. The error log (chapter 10): the records of each kind, appending, overflow. -/

namespace Sys2Proof.Machine

/-- R163, R164: a record is appended at the young end, or dropped when the log holds sixteen. -/
def Elog.append (g : Elog) (r : LogRecord) : Elog :=
  if g.records.length < Config.logCapacity then { g with records := g.records ++ [r] }
  else { g with dropped := min (g.dropped + 1) Config.droppedMax, ovf := true }

/-- DRAIN_FAIL or DRAIN_TIMEOUT (R162). -/
def drainRecord (k : RecordKind) (stamp : BitVec 16) (e : Entry) (t : TagIx) (untracked : Bool) : LogRecord :=
  { kind := k, stamp := stamp, line := some e.line, region := some e.region, sources := some e.sources, tag := some t,
    count := none, untracked := some untracked }

/-- A record of the Memory Link interface for an access whose owner is a slot (R119, R162). -/
def accessRecord (k : RecordKind) (stamp : BitVec 16) (x : Tag) (t : TagIx) : LogRecord :=
  { kind := k, stamp := stamp, line := some x.line, region := some x.region, sources := x.source.map sourceBit,
    tag := some t, count := none, untracked := none }

/-- A record of the Read-Ahead Buffer for a failed fill (R81, R82, R162). -/
def fillRecord (k : RecordKind) (stamp : BitVec 16) (x : RabLine) (t : TagIx) : LogRecord :=
  { kind := k, stamp := stamp, line := some x.line, region := some x.region, sources := none, tag := some t,
    count := none, untracked := none }

/-- LATE_COMPLETION (R121). -/
def lateRecord (stamp : BitVec 16) (l : LineAddr) (t : TagIx) : LogRecord :=
  { kind := .lateCompletion, stamp := stamp, line := some l, region := none, sources := none, tag := some t,
    count := none, untracked := none }

/-- STRAY_COMPLETION (R120). -/
def strayRecord (stamp : BitVec 16) (t : TagIx) : LogRecord :=
  { kind := .strayCompletion, stamp := stamp, line := none, region := none, sources := none, tag := some t,
    count := none, untracked := none }

/-- CREDIT_OVERRUN (R23). -/
def overrunRecord (stamp : BitVec 16) (src : SourceNo) : LogRecord :=
  { kind := .creditOverrun, stamp := stamp, line := none, region := none, sources := some (sourceBit src), tag := none,
    count := none, untracked := none }

/-- RECLAIM (R126). -/
def reclaimRecord (stamp : BitVec 16) (n : Nat) : LogRecord :=
  { kind := .reclaim, stamp := stamp, line := none, region := none, sources := none, tag := none, count := some n,
    untracked := none }

end Sys2Proof.Machine
end

