-- ==== Sys2Proof/Machine/Rdec.lean ====
section
/-! DEFINITION. The Region Decoder (chapter 1): matching, decoding, and the reports for stream proposals. -/

namespace Sys2Proof.Machine

/-- The upstream range of a region holds an address (R1, R6). -/
def RegionEntry.spans (r : RegionEntry) (addr : Word) : Bool :=
  decide (r.base.toNat ≤ addr.toNat) && decide (addr.toNat < r.base.toNat + 2 ^ r.sizeLog)

/-- R6: a numbered region matches when it is enabled and its range holds ADDR. -/
def RegionEntry.matchesAddr (r : RegionEntry) (addr : Word) : Bool := r.enable && r.spans addr

/-- R6: the matching region with the lowest index, if any. -/
def Rdec.matching (d : Rdec) (addr : Word) : Option RegionIx :=
  (List.finRange 8).find? fun g => d.regions[g].matchesAddr addr

/-- R3: the memory top, in bytes. -/
def Rdec.memTop (d : Rdec) : Nat := (d.memTopField + 1) * 0x100000

/-- R7: the memory line of a memory address, its low five bits dropped. -/
def lineOf (memAddr : Word) : LineAddr := memAddr.extractLsb' 5 27

/-- The memory address decode gives an upstream address: ADDR plus the REMAP of its region modulo 2^32 (R7). -/
def Rdec.memAddr (d : Rdec) (addr : Word) : Word :=
  match d.matching addr with
  | some g => addr + d.regions[g].remap
  | none => addr + d.dflt.remap

/-- The decode result of an address (R6, R7, R10); D carries DEPTH 0 (R2). -/
def Rdec.result (d : Rdec) (addr : Word) : DecodeResult :=
  match d.matching addr with
  | some g =>
    let r := d.regions[g]
    { region := .num g, type := r.type, post := r.post, merge := r.merge, wprot := r.wprot, deadline := r.deadline,
      depth := r.depth, line := lineOf (d.memAddr addr), offset := offsetOf (d.memAddr addr) }
  | none =>
    { region := .dflt, type := d.dflt.type, post := d.dflt.post, merge := d.dflt.merge, wprot := d.dflt.wprot,
      deadline := d.dflt.deadline, depth := 0, line := lineOf (d.memAddr addr), offset := offsetOf (d.memAddr addr) }

/-- R8, R9: the status decode answers a request with, if any; RANGE is tested before PROTECT. -/
def Rdec.answer (d : Rdec) (kind : ReqKind) (addr : Word) : Option RespStatus :=
  if d.memTop ≤ (d.memAddr addr).toNat then some .range
  else if kind = .wr ∧ (d.result addr).wprot = true then some .protect
  else none

/-- R11: the DEPTH reported for a region: 0 when it is disabled or not NORMAL. -/
def Rdec.depthReported (d : Rdec) (g : RegionIx) : Nat :=
  if d.regions[g].enable = true ∧ d.regions[g].type = .normal then d.regions[g].depth else 0

/-- R97: a memory line lies in the current memory range of a region and below MEM_TOP. Region boundaries are multiples of
4 KiB and the memory top of 1 MiB, so the line's first byte decides for the line. -/
def Rdec.inRange (d : Rdec) (g : RegionIx) (line : LineAddr) : Bool :=
  let memAddr : Word := BitVec.ofNat 32 (line.toNat * 32)
  d.regions[g].spans (memAddr - d.regions[g].remap) && decide (memAddr.toNat < d.memTop)

end Sys2Proof.Machine
end

