-- ==== Sys2Proof/Machine/Streams.lean ====
section
/-! DEFINITION. The Stream Table (chapter 5): notices, training, the move past held lines, expiry, clearing. -/

namespace Sys2Proof.Machine

/-- R91: one step in a direction, modulo 2^27. -/
def Dir.step (d : Dir) (l : LineAddr) : LineAddr :=
  match d with
  | .none => l
  | .up => l + 1#27
  | .down => l - 1#27

/-- R91: the lead, the number of steps in direction DIR from LAST to NEXT; 0 where DIR is NONE and no lead exists. -/
def Stream.lead (e : Stream) : Nat :=
  match e.dir with
  | .none => 0
  | .up => (e.next - e.last).toNat
  | .down => (e.last - e.next).toNat

/-- R93, R94: the update of an entry by a notice of line `l`, by the first row that matches. -/
def Stream.train (e : Stream) (l : LineAddr) : Stream :=
  if l = e.last then { e with idle := 0 }
  else if e.dir ≠ .none ∧ l = e.dir.step e.last then
    { e with last := l, conf := min (e.conf + 1) 3, next := if e.next = l then e.dir.step l else e.next, idle := 0 }
  else if e.dir = .none ∧ l = e.last + 1#27 then
    { e with last := l, dir := .up, conf := 1, next := l + 1#27, idle := 0 }
  else if e.dir = .none ∧ l = e.last - 1#27 then
    { e with last := l, dir := .down, conf := 1, next := l - 1#27, idle := 0 }
  else { e with last := l, dir := .none, conf := 0, next := l, idle := 0 }

/-- The entry for a source and region (R90). -/
def Stt.find (t : Stt) (src : SourceNo) (g : RegionIx) : Option StreamIx :=
  (List.finRange 4).find? fun k => t.entries[k].valid && t.entries[k].source == src && t.entries[k].region == g

/-- The entry with the greatest IDLE, the lowest index among equals (R92). -/
def Stt.idlest (t : Stt) : StreamIx :=
  (List.finRange 4).foldl (fun best k => if t.entries[best].idle < t.entries[k].idle then k else best) 0

/-- R92: the entry an allocation takes. -/
def Stt.victim (t : Stt) : StreamIx :=
  match (List.finRange 4).find? fun k => !t.entries[k].valid with
  | some k => k
  | none => t.idlest

/-- R92: a newly allocated entry. -/
def Stream.fresh (src : SourceNo) (g : RegionIx) (l : LineAddr) : Stream :=
  { valid := true, source := src, region := g, last := l, dir := .none, conf := 0, next := l, idle := 0 }

/-- R92, R93: a notice of a read of line `l`. -/
def Stt.notice (t : Stt) (src : SourceNo) (g : RegionIx) (l : LineAddr) : Stt :=
  match t.find src g with
  | some k => { t with entries := t.entries.set k (t.entries[k].train l) }
  | none => { t with entries := t.entries.set t.victim (Stream.fresh src g l) }

/-- The conditions R96 and R98 share: trained, within the window, in range. -/
def Stream.reaches (e : Stream) (depth : Nat) (inRange : LineAddr → Bool) : Bool :=
  e.valid && decide (2 ≤ e.conf) && e.dir != .none && decide (e.lead ≤ depth) && inRange e.next

/-- R98: NEXT moves on past lines the buffer holds, at most `n` times; the lead ends at most at `depth + 1`. -/
def Stream.moveOn (depth : Nat) (inRange held : LineAddr → Bool) : Nat → Stream → Stream
  | 0, e => e
  | n + 1, e =>
    if e.reaches depth inRange && held e.next then
      Stream.moveOn depth inRange held n { e with next := e.dir.step e.next }
    else e

/-- R101: NEXT of an entry moves one step, and the mark becomes its index. -/
def Stt.issued (t : Stt) (k : StreamIx) : Stt :=
  { entries := t.entries.set k { t.entries[k] with next := t.entries[k].dir.step t.entries[k].next }, mark := k }

/-- R95: IDLE of every entry in use goes up by one, stopping at 255. -/
def Stt.ageIdle (t : Stt) : Stt :=
  { t with entries := Vector.ofFn fun k =>
      if t.entries[k].valid then { t.entries[k] with idle := min (t.entries[k].idle + 1) Config.ageMax }
      else t.entries[k] }

/-- R95: every entry in use whose IDLE is at or above the limit is freed. -/
def Stt.expire (t : Stt) (limit : Nat) : Stt :=
  { t with entries := Vector.ofFn fun k =>
      if t.entries[k].valid && decide (limit ≤ t.entries[k].idle) then Stream.free else t.entries[k] }

/-- R103: the rewrite notice frees the entries of a region; the mark stands. -/
def Stt.rewriteNotice (t : Stt) (g : RegionIx) : Stt :=
  { t with entries := Vector.ofFn fun k =>
      if t.entries[k].valid && t.entries[k].region == g then Stream.free else t.entries[k] }

/-- R100: the order of rotation: the indices after the mark, wrapping. -/
def Stt.rotation (t : Stt) : List StreamIx := (List.finRange 4).map fun k => t.mark + 1 + k

/-- The number of entries in use (R89). -/
def Stt.count (t : Stt) : Nat := t.entries.toList.countP fun e => e.valid

end Sys2Proof.Machine
end

