-- ==== Sys2Proof/Machine/Ops.lean ====
section
/-! DEFINITION. The shared operations over the whole state: serving reads and writes, releasing slots, fences, removals, and the path state. Every event of the part is built from these. -/

namespace Sys2Proof.Machine

/-! ### Small updates -/

/-- A new event begins: the messages of the last one are gone (log 1). -/
def State.quiet (s : State) : State := s.withOut []

/-- A message leaves the part. -/
def State.emit (s : State) (m : PortMessage) : State := s.withOut (s.out ++ [m])

/-- A record is raised (R163, R164). -/
def State.log (s : State) (r : LogRecord) : State := s.withElog (s.elog.append r)

/-- Changes one occupied slot. -/
def State.updateSlot (s : State) (i : SlotIx) (f : Slot → Slot) : State := s.withUrt (s.urt.update i f)

/-- The slot enters a state. -/
def State.slotEnters (s : State) (i : SlotIx) (st : SlotState) : State := s.updateSlot i fun x => { x with state := st }

/-- The slot is DONE with its final status and, for a read answered OK, its bytes; its tag leaves it (R25, R32, R34). -/
def State.finish (s : State) (i : SlotIx) (st : RespStatus) (bytes : List Byte) : State :=
  s.updateSlot i fun x => { x with state := .done, status := some st, result := bytes, tag := none }

/-! ### Streams (R92, R98) -/

/-- R98: an entry whose NEXT is held moves on, under the reports of R11. -/
def State.moveStream (s : State) (e : Stream) : Stream :=
  Stream.moveOn (s.rdec.depthReported e.region) (s.rdec.inRange e.region) (fun l => (s.rab.find l).isSome)
    (s.rdec.depthReported e.region + 1) e

/-- R98: every entry whose NEXT is held moves on. -/
def State.moveStreams (s : State) : State :=
  s.withStt { s.stt with entries := Vector.ofFn fun k => s.moveStream s.stt.entries[k] }

/-- R31, R92: the notice of a read at read-ahead lookup, sent when its captured DEPTH is above 0. D carries DEPTH 0. -/
def State.notify (s : State) (src : SourceNo) (d : DecodeResult) : State :=
  match d.region with
  | .num g => if 0 < d.depth then s.withStt (s.stt.notice src g d.line) else s
  | .dflt => s

/-! ### Serving a read (section 2.5) -/

/-- R31: read-ahead lookup: hit (R70), join (R71), miss with allocation (R72), or unbuffered demand (R73). -/
def State.lookupOutcome (s : State) (i : SlotIx) (x : Slot) (d : DecodeResult) : State :=
  match s.rab.find d.line with
  | some r =>
    if s.rab.lines[r].state = .valid then
      (s.withRab (s.rab.hit r)).finish i .ok (takeBytes d.offset x.count s.rab.lines[r].data)
    else (s.withRab (s.rab.join r i)).slotEnters i .fillWait
  | none =>
    match s.rab.demandVictim with
    | some r =>
      (s.withRab (s.rab.allocate r (RabLine.fresh d.line d.region .demand [i] none))).slotEnters i .issueWait
    | none => s.slotEnters i .issueWait

/-- R31 with its notice, and the moves the event brings about (R98). -/
def State.lookup (s : State) (i : SlotIx) (x : Slot) (d : DecodeResult) : State :=
  ((s.lookupOutcome i x d).notify x.source d).moveStreams

/-- R30: the fault check, and where the read goes on to. -/
def State.faultCheck (s : State) (i : SlotIx) (x : Slot) (d : DecodeResult) : State :=
  if s.flt.failedBytes d.line (x.mask d) = true then s.finish i .lineFault []
  else if d.type = .normal then s.lookup i x d
  else s.slotEnters i .issueWait

/-- R28, R29: the Post Queue holds an entry the read waits on. -/
def Queue.holdsBack (q : Queue) (d : DecodeResult) : Bool :=
  if d.type = .ordered then q.hasLineOrRegion d.line d.region else q.hasLine d.line

/-- R28, R29: the first service step of a read. -/
def State.serveRead (s : State) (i : SlotIx) (x : Slot) (d : DecodeResult) : State :=
  if d.type = .normal then
    match s.pq.youngest d.line with
    | some e =>
      if maskWithin (x.mask d) e.mask = true then s.finish i .ok (takeBytes d.offset x.count e.data)
      else s.slotEnters i .drainWait
    | none => s.faultCheck i x d
  else if s.pq.holdsBack d = true then s.slotEnters i .drainWait
  else s.faultCheck i x d

/-! ### Serving a write (section 2.6) -/

/-- R4: posting is permitted. -/
def DecodeResult.posts (d : DecodeResult) : Bool := d.type != .bypass && d.post

/-- R33, R46, R76: a posted write merges, patches the read-ahead buffer and is DONE. -/
def State.mergeWrite (s : State) (i : SlotIx) (x : Slot) (d : DecodeResult) : State :=
  ((s.withPq (s.pq.merge d.line (x.mask d) (x.lineBytes d) (sourceBit x.source) (s.urt.fencesYounger i))).withRab
    (s.rab.patch d.line (x.mask d) (x.lineBytes d))).finish i .ok []

/-- R33, R47, R76: a posted write creates an entry, patches the read-ahead buffer and is DONE. -/
def State.createEntry (s : State) (i : SlotIx) (x : Slot) (d : DecodeResult) : State :=
  ((s.withPq (s.pq.create d (x.mask d) (x.lineBytes d) (sourceBit x.source) (s.urt.fencesYounger i))).withRab
    (s.rab.patch d.line (x.mask d) (x.lineBytes d))).finish i .ok []

/-- R33: the write joins the POST_WAIT queue at its young end (log 17). -/
def State.joinPostWait (s : State) (i : SlotIx) : State :=
  (s.withUrt { s.urt with postWait := s.urt.postWait ++ [i] }).slotEnters i .postWait

/-- R45, rows of ORDER_WAIT: merge, create, or POST_WAIT. -/
def State.offerWrite (s : State) (i : SlotIx) (x : Slot) (d : DecodeResult) : State :=
  if s.pq.canMerge d = true then s.mergeWrite i x d
  else if s.pq.entries.length < Config.queueCapacity ∧ s.urt.postWait = [] then s.createEntry i x d
  else s.joinPostWait i

/-- R33, R34: the first service step of a write. -/
def State.serveWrite (s : State) (i : SlotIx) (x : Slot) (d : DecodeResult) : State :=
  if d.posts = true then s.offerWrite i x d else s.slotEnters i .issueWait

/-! ### Releasing slots (R27) -/

/-- The first service step of a slot that leaves ORDER_WAIT. -/
def State.serveFirst (s : State) (i : SlotIx) : State :=
  match s.urt.slots[i] with
  | none => s
  | some x =>
    match x.decode with
    | none => s
    | some d =>
      match x.kind with
      | .rd => s.serveRead i x d
      | .wr => s.serveWrite i x d
      | .fence => s
      | .unknown => s

/-- R27: slots that nothing blocks take their first steps, the oldest first, each seeing the results of the steps before
it; a step that settles its slot may release more (log 7). -/
def State.releaseUpTo : Nat → State → State
  | 0, s => s
  | n + 1, s =>
    match s.urt.arrival.find? fun i => s.urt.releasable i with
    | none => s
    | some i => State.releaseUpTo n (s.serveFirst i)

/-- R27 to its end: at most eight slots can leave ORDER_WAIT. -/
def State.releaseSlots (s : State) : State := State.releaseUpTo 8 s

/-! ### Fences (section 2.7) -/

/-- R36: the fence in FENCE_WAIT whose conditions hold. -/
def State.fenceReady (s : State) (i : SlotIx) : Bool :=
  s.urt.slotHas i (fun x => x.kind == .fence && x.state == .fenceWait) && s.urt.olderWritesSettled i && !s.pq.lists i

/-- R36, R139: the fence becomes DONE, reads the flag of its SOURCE and clears it. -/
def State.completeFence (s : State) (i : SlotIx) : State :=
  match s.urt.slots[i] with
  | none => s
  | some x =>
    if s.flt.flags.getLsbD x.source then (s.withFlt (s.flt.clearFlag x.source)).finish i .faulted []
    else s.finish i .ok []

/-- One fence tested. -/
def State.testFence (s : State) (i : SlotIx) : State := if s.fenceReady i = true then s.completeFence i else s

/-- R36, R53 step 5: every fence is tested, the oldest first. -/
def State.testFences (s : State) : State := s.urt.arrival.foldl State.testFence s

/-- R35: a fence takes its arrival actions and enters FENCE_WAIT; the test of R36 follows in the same event. -/
def State.fenceArrival (s : State) (i : SlotIx) : State :=
  (s.withPq (s.pq.fenceArrives i)).slotEnters i .fenceWait

/-- What every event ends with inside the blocks: releases (R27), fence tests (R36), stream moves (R98). -/
def State.settle (s : State) : State := s.releaseSlots.testFences.moveStreams

/-! ### The decode moment (R18, R25, R37) -/

/-- R18: the request is malformed: DONE, its data not kept. -/
def Slot.answerMalformed (x : Slot) : Slot :=
  { x with data := zeroLine, decode := none, state := .done, status := some .malformed }

/-- A slot at its decode moment: validity, decode, first state (R18, R25). -/
def State.receive (s : State) (i : SlotIx) : State :=
  match s.urt.slots[i] with
  | none => s
  | some x =>
    if x.malformed = true then s.updateSlot i Slot.answerMalformed
    else if x.kind = .fence then s.fenceArrival i
    else
      match s.rdec.answer x.kind x.addr with
      | some st =>
        s.updateSlot i fun y => { y with decode := some (s.rdec.result x.addr), state := .done, status := some st }
      | none => s.updateSlot i fun y => { y with decode := some (s.rdec.result x.addr), state := .orderWait }

/-! ### Removal of a Post Queue entry (R53) -/

/-- R50, R53 step 3: the room of a removal is offered to the oldest POST_WAIT write: it merges, or creates an entry. -/
def State.retryPostWait (s : State) : State :=
  if s.pq.room = false then s
  else
    let s1 := s.withPq { s.pq with room := false }
    match s1.urt.postWait with
    | [] => s1
    | i :: rest =>
      match s1.urt.slots[i] with
      | none => s1
      | some x =>
        match x.decode with
        | none => s1
        | some d =>
          if x.state ≠ .postWait then s1
          else if s1.pq.canMerge d = true then (s1.withUrt { s1.urt with postWait := rest }).mergeWrite i x d
          else if s1.pq.entries.length < Config.queueCapacity then
            (s1.withUrt { s1.urt with postWait := rest }).createEntry i x d
          else s1

/-- The read in DRAIN_WAIT whose wait has ended (R28, R29). -/
def State.drainWaitOver (s : State) (i : SlotIx) : Bool :=
  match s.urt.slots[i] with
  | none => false
  | some x =>
    match x.decode with
    | none => false
    | some d => x.kind == .rd && x.state == .drainWait && !s.pq.holdsBack d

/-- A read goes on from DRAIN_WAIT to the fault check. -/
def State.leaveDrainWait (s : State) (i : SlotIx) : State :=
  match s.urt.slots[i] with
  | none => s
  | some x =>
    match x.decode with
    | none => s
    | some d => s.faultCheck i x d

/-- R53 step 4: every read whose wait has ended goes on, the oldest first. -/
def State.releaseDrainWaits (s : State) : State :=
  (s.urt.arrival.filter fun i => s.drainWaitOver i).foldl State.leaveDrainWait s

/-- R53 steps 2 to 5: the entry of tag `t` is removed, the oldest POST_WAIT write is offered the room, waiting reads go
on, fences are tested. Step 6, the drain candidate, is computed where it is asked for (R54). -/
def State.removeEntry (s : State) (t : TagIx) : State :=
  (s.withPq (s.pq.remove t)).retryPostWait.releaseSlots.releaseDrainWaits.releaseSlots.testFences

/-- R61, R62, R132: the failure of a drain is handed on, before its entry leaves the list. -/
def State.drainFailed (s : State) (e : Entry) (t : TagIx) (k : FaultKind) : State :=
  ((s.withFlt ((s.flt.record e.line e.mask k).setFlags e.sources)).withRab (s.rab.lineFailed e.line)).log
    (drainRecord (match k with | .fail => .drainFail | .timeout => .drainTimeout) s.tgen.stamp e t
      (!s.flt.tracks e.line))

/-! ### Path Control (chapter 8) -/

/-- R149: the path enters HALT. -/
def State.enterHalt (s : State) : State :=
  ((s.withPctl { s.pctl with path := .halt }).withRab s.rab.haltEntry).withStt Stt.empty

/-- R147: the path in DRAIN enters HALT at the event that empties it. -/
def State.haltTest (s : State) : State :=
  if s.pctl.path = .drain ∧ s.pathEmpty = true then s.enterHalt else s

/-- Every event ends so: its own work done, the HALT condition is tested (R147). -/
def State.close (s : State) : State := s.settle.haltTest

/-- R22: entering RUN with credits withheld and the link up sends them. -/
def State.sendWithheld (s : State) : State :=
  if 0 < s.urt.withheld ∧ s.linkUp = true then
    (s.withUrt { s.urt with granted := s.urt.granted + s.urt.withheld, withheld := 0 }).emit (.credit s.urt.withheld)
  else s

/-- R145: demand rises: RUN goes to DRAIN, and the HALT condition is tested within the event. -/
def State.demandRises (s : State) : State :=
  if s.pctl.path = .run then (s.withPctl { s.pctl with path := .drain }).haltTest else s

/-- A HELD request leaves HELD as if it had just arrived (R37). -/
def State.releaseOneHeld (s : State) (i : SlotIx) : State := (s.receive i).settle

/-- R37, R152: every HELD slot leaves HELD, the oldest first. -/
def State.releaseHeld (s : State) : State := (s.urt.inState .held).foldl State.releaseOneHeld s

/-- R151, R152: demand falls: the path returns to RUN, the withheld credits go out, HELD slots are released. -/
def State.demandFalls (s : State) : State :=
  match s.pctl.path with
  | .run => s
  | .drain => (s.withPctl { s.pctl with path := .run }).sendWithheld
  | .halt => (s.withPctl { s.pctl with path := .run }).sendWithheld.releaseHeld

/-- R21: the Initiator Link comes up. -/
def State.linkComesUp (s : State) : State :=
  if s.pctl.path = .run then (s.withUrt { s.urt with granted := 8, withheld := 0 }).emit (.credit 8)
  else s.withUrt { s.urt with granted := 0, withheld := 8 }

end Sys2Proof.Machine
end

