-- ==== Sys2Proof/Machine/Issue.lean ====
section
/-! DEFINITION. The issue arbiter and the issue step (sections 3.7, 5.4, 5.5, 6.3). -/

namespace Sys2Proof.Machine

/-- R54: the drain candidate, where nothing bars its offer. -/
def State.drainOffer (s : State) : Option Entry :=
  match s.pq.candidate with
  | none => none
  | some e =>
    if s.pq.issuedCount < Config.drainLimit ∧ Mli.barsDrain s.mli e.line = false ∧ (Mli.lowestFree s.mli).isSome = true
    then some e else none

/-- R112: the slot's access in ISSUE_WAIT is issuable: a tag is free and the interlock allows it (R115). -/
def State.demandIssuable (s : State) (i : SlotIx) : Bool :=
  match s.urt.slots[i] with
  | none => false
  | some x =>
    match x.decode with
    | none => false
    | some d =>
      x.state == .issueWait && (Mli.lowestFree s.mli).isSome &&
        match x.kind with
        | .rd => !Mli.barsRead s.mli d.line
        | .wr => !Mli.barsDrain s.mli d.line && !s.pq.hasLine d.line
        | .fence => false
        | .unknown => false

/-- R112: the oldest issuable access of the demand class. -/
def State.demandPick (s : State) : Option SlotIx := s.urt.arrival.find? fun i => s.demandIssuable i

/-- R96: a stream entry is proposing its NEXT. -/
def State.proposing (s : State) (k : StreamIx) : Bool :=
  let e := s.stt.entries[k]
  e.reaches (s.rdec.depthReported e.region) (s.rdec.inRange e.region) && s.pctl.path == .run &&
    (s.rab.find e.next).isNone && !s.pq.hasLine e.next && !Mli.barsRead s.mli e.next

/-- R100: the entry whose proposal is offered: the first proposing one after the rotation mark. -/
def State.prefetchOffer (s : State) : Option StreamIx := s.stt.rotation.find? fun k => s.proposing k

/-- R113: the prefetch class is issuable, and for which entry. -/
def State.prefetchPick (s : State) : Option StreamIx :=
  if Config.prefetchReserve < Mli.countState s.mli .free ∧ s.rab.canPrefetch = true then s.prefetchOffer else none

/-- The access the arbiter issues. -/
inductive Choice where
  | drain (e : Entry)
  | demand (i : SlotIx)
  | prefetch (k : StreamIx)
  deriving DecidableEq, Repr

/-- R110: the candidate of the highest class that has an issuable one. -/
def State.choose (s : State) : Option Choice :=
  match s.drainOffer, s.urgent with
  | some e, true => some (.drain e)
  | some e, false =>
    match s.demandPick with
    | some i => some (.demand i)
    | none => some (.drain e)
  | none, _ =>
    match s.demandPick with
    | some i => some (.demand i)
    | none => s.prefetchPick.map .prefetch

/-- R109: the tag's record is written. -/
def State.putTag (s : State) (t : TagIx) (x : Tag) : State := s.withMli (Mli.put s.mli t x)

/-- R55, R109: the drain candidate is issued on tag `t`. -/
def State.issueDrain (s : State) (t : TagIx) (e : Entry) : State :=
  ((s.putTag t (Tag.issued .drainWrite e.line e.region none .entry e.mask)).withPq (s.pq.issue t)).emit
    (.mreq (.lwrite t e.line e.mask e.data))

/-- R32, R72, R109: a read in ISSUE_WAIT is issued on tag `t`: the fill of the line it allocated, or its own line read. -/
def State.issueRead (s : State) (t : TagIx) (i : SlotIx) (x : Slot) (d : DecodeResult) : State :=
  let s1 := (s.updateSlot i fun y => { y with state := .fillWait, tag := some t }).emit (.mreq (.lread t d.line))
  match s.rab.unissuedFillOf i with
  | some r =>
    (s1.putTag t (Tag.issued .demandRead d.line d.region none (.line r) 0#32)).withRab
      (s1.rab.update r fun y => { y with tag := some t })
  | none => s1.putTag t (Tag.issued .unbufferedRead d.line d.region (some x.source) (.slot i) 0#32)

/-- R34, R109: a direct write is issued on tag `t`: it settles, enters MEM_WAIT and patches the read-ahead buffer. -/
def State.issueDirect (s : State) (t : TagIx) (i : SlotIx) (x : Slot) (d : DecodeResult) : State :=
  (((s.updateSlot i fun y => { y with state := .memWait, tag := some t }).putTag t
    (Tag.issued .directWrite d.line d.region (some x.source) (.slot i) (x.mask d))).withRab
    (s.rab.patch d.line (x.mask d) (x.lineBytes d))).emit
    (.mreq (.lwrite t d.line (x.mask d) (x.lineBytes d)))

/-- The issue of the demand class. -/
def State.issueDemand (s : State) (t : TagIx) (i : SlotIx) : State :=
  match s.urt.slots[i] with
  | none => s
  | some x =>
    match x.decode with
    | none => s
    | some d =>
      match x.kind with
      | .rd => s.issueRead t i x d
      | .wr => s.issueDirect t i x d
      | .fence => s
      | .unknown => s

/-- R75, R101, R109: the prefetch of an entry's NEXT is issued on tag `t`. -/
def State.issuePrefetch (s : State) (t : TagIx) (k : StreamIx) : State :=
  match s.rab.prefetchVictim with
  | none => s
  | some r =>
    let e := s.stt.entries[k]
    (((s.putTag t (Tag.issued .prefetchRead e.next (.num e.region) none (.line r) 0#32)).withRab
      (s.rab.allocate r (RabLine.fresh e.next (.num e.region) .prefetch [] (some t)))).withStt (s.stt.issued k)).emit
      (.mreq (.lread t e.next))

/-- R109, R110: one readiness of the memory side: the chosen access takes the lowest FREE tag. -/
def State.issueOne (s : State) : State :=
  match Mli.lowestFree s.mli, s.choose with
  | some t, some (.drain e) => s.issueDrain t e
  | some t, some (.demand i) => s.issueDemand t i
  | some t, some (.prefetch k) => s.issuePrefetch t k
  | _, _ => s

end Sys2Proof.Machine
end

