-- ==== Sys2Proof/Machine/Complete.lean ====
section
/-! DEFINITION. How accesses end: completions, late and stray completions, timeouts (sections 3.9, 4.5, 6.5, 6.6), and the work of a tick (chapter 9). -/

namespace Sys2Proof.Machine

/-! ### Fills (section 4.5) -/

/-- A waiter of a fill is answered: OK with its bytes of the line (R79 step 3). -/
def State.answerWaiter (line : LineData) (s : State) (i : SlotIx) : State :=
  match s.urt.slots[i] with
  | none => s
  | some x =>
    match x.decode with
    | none => s
    | some d => s.finish i .ok (takeBytes d.offset x.count line)

/-- R79, R80: an OK completion of a line's fill. The waiters are answered in join order; the releases follow (log 7). -/
def State.fillOk (s : State) (r : LineIx) (memory : LineData) : State :=
  s.rab.lines[r].waiters.foldl (State.answerWaiter (s.rab.lines[r].filled memory))
    (s.withRab (s.rab.finishFill r memory))

/-- A waiter of a failed fill is answered. -/
def State.failWaiter (st : RespStatus) (s : State) (i : SlotIx) : State := s.finish i st []

/-- The record kind of a failed fill: by the line's ORIGIN at the end (R81, R82). -/
def fillFailKind (o : Origin) (k : FaultKind) : RecordKind :=
  match o, k with
  | .demand, .fail => .readFail
  | .demand, .timeout => .readTimeout
  | .prefetch, .fail => .prefetchFail
  | .prefetch, .timeout => .prefetchTimeout

/-- The status a failure or a timeout is answered with (R32, R34). -/
def FaultKind.status : FaultKind → RespStatus
  | .fail => .memFail
  | .timeout => .timeout

/-- R81, R82: a line's fill fails or times out on tag `t`. -/
def State.fillEnds (s : State) (r : LineIx) (t : TagIx) (k : FaultKind) : State :=
  (s.rab.lines[r].waiters.foldl (State.failWaiter k.status) (s.withRab (s.rab.release r))).log
    (fillRecord (fillFailKind s.rab.lines[r].origin k) s.tgen.stamp s.rab.lines[r] t)

/-! ### Accesses owned by slots (R32, R34, R119) -/

/-- The owning slot of a tag, where one is left. -/
def Tag.ownerSlot (x : Tag) : Option SlotIx :=
  match x.owner with
  | some (.slot i) => some i
  | _ => none

/-- The owning read-ahead line of a tag. -/
def Tag.ownerLine (x : Tag) : Option LineIx :=
  match x.owner with
  | some (.line r) => some r
  | _ => none

/-- The owner's slot becomes DONE with a failure status; an absent owner receives nothing. -/
def State.failOwner (s : State) (x : Tag) (k : FaultKind) : State :=
  match x.ownerSlot with
  | some i => s.finish i k.status []
  | none => s

/-- R32, R119: an own line read fails or times out. -/
def State.readEnds (s : State) (x : Tag) (t : TagIx) (k : FaultKind) : State :=
  (s.failOwner x k).log
    (accessRecord (match k with | .fail => .readFail | .timeout => .readTimeout) s.tgen.stamp x t)

/-- R34, R85, R119: a direct write fails or times out; the read-ahead line is freed or marked DROP whether or not the
owner is left (log 10). -/
def State.writeEnds (s : State) (x : Tag) (t : TagIx) (k : FaultKind) : State :=
  ((s.withRab (s.rab.lineFailed x.line)).failOwner x k).log
    (accessRecord (match k with | .fail => .writeFail | .timeout => .writeTimeout) s.tgen.stamp x t)

/-- R32: an own line read completes OK; without an owner the data is dropped. -/
def State.readOk (s : State) (x : Tag) (memory : LineData) : State :=
  match x.ownerSlot with
  | some i => State.answerWaiter memory s i
  | none => s

/-- R34, R134: a direct write completes OK. -/
def State.writeOk (s : State) (x : Tag) : State :=
  match x.ownerSlot with
  | some i => (s.withFlt (s.flt.clearBytes x.line x.mask)).finish i .ok []
  | none => s.withFlt (s.flt.clearBytes x.line x.mask)

/-! ### Drains (section 3.9) -/

/-- R60: a drain completes OK. -/
def State.drainOk (s : State) (t : TagIx) : State :=
  match s.pq.ofTag t with
  | some e => (s.withFlt (s.flt.clearBytes e.line e.mask)).removeEntry t
  | none => s

/-- R61, R62: a drain fails or times out. -/
def State.drainEnds (s : State) (t : TagIx) (k : FaultKind) : State :=
  match s.pq.ofTag t with
  | some e => (s.drainFailed e t k).removeEntry t
  | none => s

/-! ### Ends of any access -/

/-- An access fails or times out; `x` is its record as it stood (R118, R122). -/
def State.accessEnds (s : State) (x : Tag) (t : TagIx) (k : FaultKind) : State :=
  match x.kind with
  | .demandRead => match x.ownerLine with | some r => s.fillEnds r t k | none => s
  | .prefetchRead => match x.ownerLine with | some r => s.fillEnds r t k | none => s
  | .unbufferedRead => s.readEnds x t k
  | .drainWrite => s.drainEnds t k
  | .directWrite => s.writeEnds x t k

/-- An access completes OK, with the DATA the completion carries; a line read without DATA is taken as FAIL (R106). -/
def State.accessOk (s : State) (x : Tag) (t : TagIx) (data : Option LineData) : State :=
  match x.kind, data with
  | .demandRead, some m => match x.ownerLine with | some r => s.fillOk r m | none => s
  | .prefetchRead, some m => match x.ownerLine with | some r => s.fillOk r m | none => s
  | .unbufferedRead, some m => s.readOk x m
  | .demandRead, none => s.accessEnds x t .fail
  | .prefetchRead, none => s.accessEnds x t .fail
  | .unbufferedRead, none => s.accessEnds x t .fail
  | .drainWrite, _ => s.drainOk t
  | .directWrite, _ => s.writeOk x

/-- R118, R120, R121: a completion is matched by its TAG against the tag record. -/
def State.complete (s : State) (t : TagIx) (ok : Bool) (data : Option LineData) : State :=
  match s.mli[t].state with
  | .free => s.log (strayRecord s.tgen.stamp t)
  | .quarantined => (s.putTag t Tag.free).log (lateRecord s.tgen.stamp s.mli[t].line t)
  | .outstanding =>
    if ok then (s.putTag t Tag.free).accessOk s.mli[t] t data
    else (s.putTag t Tag.free).accessEnds s.mli[t] t .fail

/-- R122: the steps of one tag's quarantine, with the releases and fence tests they bring about. -/
def State.quarantineTag (s : State) (t : TagIx) : State :=
  ((s.putTag t s.mli[t].quarantine).accessEnds s.mli[t] t .timeout).settle

/-- R122: one tag tested against the limit in force. -/
def State.testTag (s : State) (t : TagIx) : State :=
  if s.mli[t].due s.tgen.timeoutInForce = true then s.quarantineTag t else s

/-- R122: every tag tested, in increasing tag number, each with all its steps before the next. -/
def State.quarantineDue (s : State) : State := (List.finRange 16).foldl State.testTag s

/-- R126: RECLAIM_TAGS. -/
def State.reclaimTags (s : State) : State :=
  (s.withMli (Mli.reclaim s.mli)).log (reclaimRecord s.tgen.stamp (Mli.countState s.mli .quarantined))

/-! ### The tick (chapter 9) -/

/-- R155, R158: the prescaler returns to 0, the stamp goes up by one; the limits in force are read (R160; log 5). -/
def State.advanceStamp (s : State) : State :=
  s.withTgen { s.tgen with
    prescaler := 0, stamp := s.tgen.stamp + 1#16, timeoutInForce := s.cfg.memTimeout, idleInForce := s.cfg.streamIdle }

/-- R58: the Post Queue takes the tick. -/
def State.tickQueue (s : State) : State := s.withPq s.pq.age

/-- R95: entries whose IDLE is at or above the limit in force are freed. -/
def State.expireStreams (s : State) : State := s.withStt (s.stt.expire s.tgen.idleInForce)

/-- R95: the Stream Table takes the tick. -/
def State.tickStreams (s : State) : State := (s.withStt s.stt.ageIdle).expireStreams

/-- R122: the Memory Link interface takes the tick. -/
def State.tickTags (s : State) : State := (s.withMli (Mli.age s.mli)).quarantineDue

/-- `f` when the flag says so. -/
def State.doIf (b : Bool) (f : State → State) (s : State) : State := if b then f s else s

/-- R159: the three owners take a tick in the given order (log 8). -/
def State.takeTick (o : TickOrder) (s : State) : State :=
  let s1 := State.doIf o.streamsFirst State.tickStreams (State.doIf o.queueFirst State.tickQueue s.advanceStamp)
  (State.doIf (!o.streamsFirst) State.tickStreams (State.doIf (!o.queueFirst) State.tickQueue s1.tickTags)).close

/-- R155, R157: ticks come while RESETn is high and TICK_HOLD is 0. -/
def State.ticking (s : State) : Bool := s.pins.resetn && !s.cfg.tickHold

/-- R155: the tick period in REFCLK periods. -/
def Settings.tickPeriod (c : Settings) : Nat := (c.tickDiv + 1) * Config.refclkPerTickUnit

end Sys2Proof.Machine
end

