-- ==== Sys2Proof/Machine/Objects.lean ====
section
/-! DEFINITION. The objects of the Management Port: the object map, and the words a READ returns (R175, R179, R180, R184, sections 11.7.3 to 11.7.6). -/

namespace Sys2Proof.Machine

/-- The object of a number, if the object map lists it (section 11.7.5). -/
def objectOf (number : BitVec 16) : Option PortObject :=
  if number = 0x0000#16 then some .ident
  else if number = 0x0001#16 then some .globals
  else if number = 0x0002#16 then some .status
  else if number = 0x0003#16 then some .logHead
  else if number = 0x0008#16 then some .dflt
  else if 0x0010 ≤ number.toNat ∧ number.toNat ≤ 0x0017 then some (.region (Fin.ofNat 8 (number.toNat - 0x0010)))
  else if 0x0020 ≤ number.toNat ∧ number.toNat ≤ 0x0027 then some (.fault (Fin.ofNat 8 (number.toNat - 0x0020)))
  else none

/-- The word count of an object (section 11.7.5). -/
def PortObject.wordCount : PortObject → Nat
  | .ident => 4
  | .globals => 8
  | .status => 6
  | .logHead => 3
  | .dflt => 2
  | .region _ => 3
  | .fault _ => 3

/-- R180: the identification object. -/
def identWords : List Word :=
  [packFields [(Config.familyCode, 0), (Config.partNumber, 16)],
   packFields [(Config.stepping, 0), (Config.layoutEdition, 8)],
   packFields [(8, 0), (16, 8), (16, 16), (16, 24)],
   packFields [(8, 0), (4, 8), (8, 16), (16, 24)]]

/-- R177: the global configuration object as read; the select word reads as 0. -/
def State.globalWords (s : State) : List Word :=
  [0#32, BitVec.ofNat 32 s.rdec.memTopField, BitVec.ofNat 32 s.cfg.tickDiv, BitVec.ofNat 32 (bit s.cfg.tickHold),
   BitVec.ofNat 32 s.cfg.memTimeout, BitVec.ofNat 32 s.cfg.streamIdle, BitVec.ofNat 32 s.cfg.pqUrgentMark,
   s.cfg.attnMask.setWidth 32]

/-- The code of the path state (section 11.7.4). -/
def PathState.code : PathState → Nat
  | .run => 0
  | .drain => 1
  | .halt => 2

/-- R179: the status object. -/
def State.statusWords (s : State) : List Word :=
  [packFields [(s.pctl.path.code, 0), (bit s.pctl.latch, 2), (bit s.pins.qreq, 3), (bit s.linkUp, 4),
     (bit s.elog.ovf, 8), (bit s.flt.ovf, 9), (s.tgen.stamp.toNat, 16)],
   packFields [(s.urt.occupied, 0), (s.urt.granted, 4), (s.urt.withheld, 8), (s.urt.countState .done, 12)],
   packFields [(s.urt.countState .orderWait, 0), (s.urt.countState .drainWait, 4), (s.urt.countState .issueWait, 8),
     (s.urt.countState .fillWait, 12), (s.urt.countState .postWait, 16), (s.urt.countState .memWait, 20),
     (s.urt.countState .fenceWait, 24), (s.urt.countState .held, 28)],
   packFields [(s.pq.entries.length, 0), (s.rab.countState .filling, 8), (s.rab.countState .valid, 16),
     (s.stt.count, 24)],
   packFields [(Mli.countState s.mli .free, 0), (Mli.countState s.mli .outstanding, 8),
     (Mli.countState s.mli .quarantined, 16), (s.flt.count, 24)],
   packFields [(s.elog.records.length, 0), (s.elog.dropped, 8)]]

/-- The code of a record kind (section 11.7.4). -/
def RecordKind.code : RecordKind → Nat
  | .drainFail => 1
  | .drainTimeout => 2
  | .writeFail => 3
  | .writeTimeout => 4
  | .readFail => 5
  | .readTimeout => 6
  | .prefetchFail => 7
  | .prefetchTimeout => 8
  | .lateCompletion => 9
  | .strayCompletion => 10
  | .creditOverrun => 11
  | .reclaim => 12

/-- The code of a region: 0 to 7, 8 for D (R184). -/
def RegionId.code : RegionId → Nat
  | .num g => g.val
  | .dflt => 8

/-- R184: the words of a log record; an absent field reads as 0. -/
def LogRecord.words (r : LogRecord) : List Word :=
  [packFields [(1, 0), (r.kind.code, 4), (bit r.line.isSome, 8), (bit r.region.isSome, 9), (bit r.sources.isSome, 10),
     (bit r.tag.isSome, 11), (bit r.count.isSome, 12), (bit (r.untracked.getD false), 13), (bit r.untracked.isSome, 14),
     (r.stamp.toNat, 16)],
   packFields [((r.line.getD 0#27).toNat, 0), ((r.region.map RegionId.code).getD 0, 28)],
   packFields [((r.sources.getD 0#16).toNat, 0), ((r.tag.map Fin.val).getD 0, 16), (r.count.getD 0, 24)]]

/-- R165, R184: the log head object. -/
def State.logHeadWords (s : State) : List Word :=
  match s.elog.records with
  | [] => [0#32, 0#32, 0#32]
  | r :: _ => r.words

/-- Section 11.7.3: the default region object. -/
def DefaultRegion.words (d : DefaultRegion) : List Word :=
  [d.remap,
   packFields [(d.type.code, 1), (bit d.post, 3), (bit d.merge, 4), (bit d.wprot, 5), (d.deadline, 24)]]

/-- Section 11.7.3: a numbered region object. -/
def RegionEntry.words (r : RegionEntry) : List Word :=
  [r.base, r.remap,
   packFields [(bit r.enable, 0), (r.type.code, 1), (bit r.post, 3), (bit r.merge, 4), (bit r.wprot, 5), (r.depth, 8),
     (r.sizeLog, 16), (r.deadline, 24)]]

/-- The code of a fault kind (section 11.7.4). -/
def FaultKind.code : FaultKind → Nat
  | .fail => 0
  | .timeout => 1

/-- R130, R184: a fault entry object. -/
def State.faultWords (s : State) (i : FaultIx) : List Word :=
  match s.flt.entries[i] with
  | none => [0#32, 0#32, 0#32]
  | some e => [packFields [(1, 0), (e.kind.code, 1), (s.flt.rank i, 8)], packFields [(e.line.toNat, 0)], e.failed]

/-- R175: the picture of an object as it stands. -/
def State.objectWords (s : State) : PortObject → List Word
  | .ident => identWords
  | .globals => s.globalWords
  | .status => s.statusWords
  | .logHead => s.logHeadWords
  | .dflt => s.rdec.dflt.words
  | .region g => s.rdec.regions[g].words
  | .fault i => s.faultWords i

end Sys2Proof.Machine
end

