-- ==== Sys2Proof/Machine/Port.lean ====
section
/-! DEFINITION. The Management Port (sections 11.1 to 11.6): what each frame does at the arrival of its last request byte, its status, and the shift of bits on MSI and MSO. -/

namespace Sys2Proof.Machine

/-- What a frame comes to: its status, the object a READ returns, and the part afterwards. -/
structure FrameResult where
  status : FrameStatus
  object : Option PortObject
  state : State
  deriving DecidableEq, Repr

/-- A frame that took effect. -/
def accepted (s : State) : FrameResult := { status := .ok, object := none, state := s }

/-- A frame that changed nothing. -/
def rejected (st : FrameStatus) (s : State) : FrameResult := { status := st, object := none, state := s }

/-! ### Commands (R181) -/

/-- R143: the latch is set; demand rises if it did not hold. -/
def State.setLatch (s : State) : State :=
  if s.demand = true then s.withPctl { s.pctl with latch := true }
  else (s.withPctl { s.pctl with latch := true }).demandRises

/-- R143: the latch is cleared; demand falls if it held by the latch alone. -/
def State.clearLatch (s : State) : State :=
  if s.pctl.latch = true ∧ s.pins.qreq = false then (s.withPctl { s.pctl with latch := false }).demandFalls
  else s.withPctl { s.pctl with latch := false }

/-- QUIESCE (R144). -/
def quiesceFrame (s : State) : FrameResult := accepted s.setLatch.close

/-- RESUME (R144). -/
def resumeFrame (s : State) : FrameResult := accepted s.clearLatch.close

/-- INVALIDATE_RAB (R84, R103). -/
def invalidateFrame (s : State) : FrameResult := accepted ((s.withRab s.rab.invalidateAll).withStt Stt.empty).close

/-- POP_LOG (R166). -/
def popLogFrame (s : State) : FrameResult :=
  match s.elog.records with
  | [] => rejected .refused s
  | _ :: rest => accepted (s.withElog { s.elog with records := rest })

/-- CLEAR_LOG (R167). -/
def clearLogFrame (s : State) : FrameResult := accepted (s.withElog { s.elog with records := [], dropped := 0 })

/-- CLEAR_FAULT (R135, R181): 0 to 7 names one index, 100h every index. -/
def clearFaultFrame (arg : Word) (s : State) : FrameResult :=
  if arg = 0x100#32 then accepted (s.withFlt s.flt.clearAll)
  else if arg.toNat < 8 then
    if s.flt.entries[Fin.ofNat 8 arg.toNat].isSome then
      accepted (s.withFlt (s.flt.remove (Fin.ofNat 8 arg.toNat)))
    else rejected .refused s
  else rejected .badValue s

/-- RECLAIM_TAGS (R126). -/
def reclaimFrame (s : State) : FrameResult := accepted s.reclaimTags.close

/-- ACK_FLAGS (R171). -/
def ackFlagsFrame (s : State) : FrameResult :=
  accepted ((s.withElog { s.elog with ovf := false }).withFlt { s.flt with ovf := false })

/-- R181: a COMMAND frame by its number; any number but 0001h to 0008h is BAD_OBJECT. -/
def commandFrame (number : BitVec 16) (arg : Word) (s : State) : FrameResult :=
  match number.toNat with
  | 1 => quiesceFrame s
  | 2 => resumeFrame s
  | 3 => invalidateFrame s
  | 4 => popLogFrame s
  | 5 => clearLogFrame s
  | 6 => clearFaultFrame arg s
  | 7 => reclaimFrame s
  | 8 => ackFlagsFrame s
  | _ => rejected .badObject s

/-! ### Writes (R176) -/

/-- R177: the settings after an accepted frame; a setting that is not selected stands. -/
def Settings.written (c : Settings) (f : GlobalFrame) : Settings :=
  { tickDiv := if frameSelects f 1 then f.tickDiv.toNat else c.tickDiv
    tickHold := if frameSelects f 2 then f.tickHold.toNat == 1 else c.tickHold
    memTimeout := if frameSelects f 3 then f.memTimeout.toNat else c.memTimeout
    streamIdle := if frameSelects f 4 then f.streamIdle.toNat else c.streamIdle
    pqUrgentMark := if frameSelects f 5 then f.pqUrgentMark.toNat else c.pqUrgentMark
    attnMask := if frameSelects f 6 then f.attnMask.setWidth 6 else c.attnMask }

/-- R177: the prescaler after an accepted frame (R156, R157). -/
def prescalerAfter (before after : Settings) (f : GlobalFrame) (count : Nat) : Nat :=
  if after.tickHold then 0
  else if before.tickHold ∨ frameSelects f 1 = true then 0
  else count

/-- R177: the selected settings take effect together. -/
def State.applyGlobal (s : State) (f : GlobalFrame) : State :=
  ((s.withRdec { s.rdec with
      memTopField := if frameSelects f 0 then f.memTop.toNat else s.rdec.memTopField }).withCfg
    (s.cfg.written f)).withTgen
    { s.tgen with prescaler := prescalerAfter s.cfg (s.cfg.written f) f s.tgen.prescaler }

/-- R177: a WRITE of the global configuration object. -/
def globalFrame (f : GlobalFrame) (s : State) : FrameResult :=
  if frameAcceptable f then accepted (s.applyGlobal f).close else rejected .badValue s

/-- R12, R13: a numbered region is replaced, and its notices go out. -/
def State.rewriteRegion (s : State) (g : RegionIx) (r : RegionEntry) : State :=
  ((s.withRdec { s.rdec with regions := s.rdec.regions.set g r }).withRab (s.rab.rewriteNotice g)).withStt
    (s.stt.rewriteNotice g)

/-- R12, R15: a WRITE of a numbered region. -/
def regionFrame (g : RegionIx) (base remap control : Word) (s : State) : FrameResult :=
  match regionOfWords base remap control with
  | some r => accepted (s.rewriteRegion g r).close
  | none => rejected .badValue s

/-- R14, R15: a WRITE of the default region; no notice goes out. -/
def defaultRegionFrame (remap control : Word) (s : State) : FrameResult :=
  match defaultRegionOfWords remap control with
  | some d => accepted (s.withRdec { s.rdec with dflt := d }).close
  | none => rejected .badValue s

/-- R176: a WRITE of a known object with all its words. -/
def objectFrame (o : PortObject) (ws : List Word) (s : State) : FrameResult :=
  match o with
  | .globals => globalFrame (globalFrameOfWords ws) s
  | .dflt => defaultRegionFrame (ws.getD 0 0#32) (ws.getD 1 0#32) s
  | .region g => regionFrame g (ws.getD 0 0#32) (ws.getD 1 0#32) (ws.getD 2 0#32) s
  | .ident => rejected .refused s
  | .status => rejected .refused s
  | .logHead => rejected .refused s
  | .fault _ => rejected .refused s

/-! ### Frames by their bytes (R173) -/

/-- A frame whose request is complete. -/
inductive Frame where
  | read (object : BitVec 16)
  | write (object : PortObject) (words : List Word)
  | writeUnknown
  | command (number : BitVec 16) (arg : Word)
  | unknownOpcode
  deriving DecidableEq, Repr

/-- R173: the frame whose request bytes are exactly these, if they are a whole request. -/
def frameOfBytes : List Byte → Option Frame
  | op :: hi :: lo :: rest =>
    match op.toNat with
    | 1 => if rest = [] then some (.read (numberOfBytes hi lo)) else none
    | 2 =>
      match objectOf (numberOfBytes hi lo) with
      | some o => if rest.length = 4 * o.wordCount then some (.write o (wordsHighFirst rest)) else none
      | none => if rest = [] then some .writeUnknown else none
    | 3 =>
      match rest with
      | [b3, b2, b1, b0] => some (.command (numberOfBytes hi lo) (wordOfBytes b0 b1 b2 b3))
      | _ => none
    | _ => if rest = [] then some .unknownOpcode else none
  | _ => none

/-- R175: a READ: OK and the object for a known number, BAD_OBJECT for another; it changes nothing. -/
def readFrame (object : BitVec 16) (s : State) : FrameResult :=
  match objectOf object with
  | some o => { status := .ok, object := some o, state := s }
  | none => rejected .badObject s

/-- R173, R175, R176, R181: what a frame does at the arrival of its last request byte. -/
def Frame.run : Frame → State → FrameResult
  | .read n => readFrame n
  | .write o ws => objectFrame o ws
  | .writeUnknown => rejected .badObject
  | .command n arg => commandFrame n arg
  | .unknownOpcode => rejected .refused

/-! ### The shift of bits (R172, R174, R175) -/

/-- R174: the frame takes effect as one event, and the receiver goes to REPLY. -/
def State.takeFrame (s : State) (f : Frame) : State :=
  (f.run s).state.withRx (.reply { status := (f.run s).status, object := (f.run s).object, words := [], clocked := 0 })

/-- R174: the receiver has taken whole bytes: the last of them ends the request, or the request goes on. -/
def State.takeBytes (s : State) (bytes : List Byte) : State :=
  match frameOfBytes bytes with
  | some f => s.takeFrame f
  | none => s.withRx (.request bytes [])

/-- R172: a bit of a request is sampled, most significant first; the eighth of a group ends a byte. -/
def State.takeBit (s : State) (bytes : List Byte) (bits : List Bool) (msi : Bool) : State :=
  if bits.length < 7 then s.withRx (.request bytes (bits ++ [msi]))
  else s.takeBytes (bytes ++ [byteOfBits (bits ++ [msi])])

/-- R175: the picture is taken when the status byte has been shifted out and the first data word begins. -/
def State.pictureAt (s : State) (r : Reply) (clocked : Nat) : List Word :=
  if clocked = 8 then (match r.object with | some o => s.objectWords o | none => []) else r.words

/-- R174: one bit of a reply has been shifted out; after the status byte and any data words the receiver goes to TRAIL. -/
def State.shiftReply (s : State) (r : Reply) : State :=
  let words := s.pictureAt r (r.clocked + 1)
  s.withRx (if 8 * (1 + 4 * words.length) ≤ r.clocked + 1 then .trail
    else .reply { r with words := words, clocked := r.clocked + 1 })

/-- What the receiver does with a bit on MSI: bits are taken in REQUEST only (R174). -/
def State.sampleBit (s : State) (msi : Bool) : State :=
  match s.rx with
  | .idle => s
  | .request bytes bits => if s.pins.resetn = true then s.takeBit bytes bits msi else s
  | .reply r => s.shiftReply r
  | .trail => s

/-- The bytes of a reply: the status byte, then the words of the picture (R173, R175). -/
def Reply.bytes (r : Reply) : List Byte := r.status.code :: r.words.flatMap bytesHighFirst

/-- The level of MSO in REPLY: the bit of the reply whose turn it is. -/
def Reply.level (r : Reply) : Bool := (r.bytes.getD (r.clocked / 8) 0xFF#8).getLsbD (7 - r.clocked % 8)

/-- R172: MSO is not driven while MSSn is high; while it is low, MSO shows the reply in REPLY and FFh elsewhere. -/
def State.mso (s : State) : Option Bool :=
  if s.pins.mssn = true then none
  else match s.rx with
    | .reply r => some r.level
    | .idle => some true
    | .request _ _ => some true
    | .trail => some true

/-- R172: one period of MSCK: the level of MSO is shifted out and MSI is sampled. While MSSn is high the port does not
run. -/
def State.clockBit (s : State) (msi : Bool) : State :=
  match s.mso with
  | some level => (s.emit (.mso level)).sampleBit msi
  | none => s

/-- R172: eight periods of MSCK carry a byte in each direction. -/
def State.clockByte (s : State) (b : Byte) : State := (bitsHighFirst b).foldl State.clockBit s

/-- Bytes are clocked in one after another. -/
def State.clockBytes (s : State) (bytes : List Byte) : State := bytes.foldl State.clockByte s

end Sys2Proof.Machine
end

