-- ==== Sys2Proof/Machine/ManagementCommands.lean ====
section
/-! DEFINITION. The commands of the Management Port: frame boundaries, COMMAND frames, WRITE frames, and the frames that are refused (chapter 11). A frame's row clocks the bytes of the frame in (log 14). -/

namespace Sys2Proof.Machine

/-- MSSN_FALL (R172, R174): a fall of MSSn while RESETn is high starts a frame. -/
def execMssnFall (s : State) : Host.Outcome State Fault Refusal :=
  if s.pins.mssn = true ∧ s.pins.resetn = true then
    .next ((s.quiet.withPins { s.pins with mssn := false }).withRx (.request [] []))
  else .next (s.quiet.withPins { s.pins with mssn := false })

/-- MSSN_RISE (R174): a rise of MSSn ends the frame; the receiver returns to IDLE. A pin already high gives no event
(log 19). -/
def execMssnRise (s : State) : Host.Outcome State Fault Refusal :=
  if s.pins.mssn = false then .next ((s.quiet.withPins { s.pins with mssn := true }).withRx .idle)
  else .next s.quiet

/-- QUIESCE (R144, R181); the argument word is ignored. -/
def execQuiesce (arg : Word) (s : State) : Host.Outcome State Fault Refusal :=
  .next (s.quiet.clockBytes (commandBytes 0x0001#16 arg))

/-- RESUME (R144, R181); the argument word is ignored. -/
def execResume (arg : Word) (s : State) : Host.Outcome State Fault Refusal :=
  .next (s.quiet.clockBytes (commandBytes 0x0002#16 arg))

/-- INVALIDATE_RAB (R84, R103, R181); the argument word is ignored. -/
def execInvalidateRab (arg : Word) (s : State) : Host.Outcome State Fault Refusal :=
  .next (s.quiet.clockBytes (commandBytes 0x0003#16 arg))

/-- POP_LOG (R166, R181); the argument word is ignored. -/
def execPopLog (arg : Word) (s : State) : Host.Outcome State Fault Refusal :=
  .next (s.quiet.clockBytes (commandBytes 0x0004#16 arg))

/-- CLEAR_LOG (R167, R181); the argument word is ignored. -/
def execClearLog (arg : Word) (s : State) : Host.Outcome State Fault Refusal :=
  .next (s.quiet.clockBytes (commandBytes 0x0005#16 arg))

/-- CLEAR_FAULT (R135, R181). -/
def execClearFault (arg : Word) (s : State) : Host.Outcome State Fault Refusal :=
  .next (s.quiet.clockBytes (commandBytes 0x0006#16 arg))

/-- RECLAIM_TAGS (R126, R181); the argument word is ignored. -/
def execReclaimTags (arg : Word) (s : State) : Host.Outcome State Fault Refusal :=
  .next (s.quiet.clockBytes (commandBytes 0x0007#16 arg))

/-- ACK_FLAGS (R171, R181); the argument word is ignored. -/
def execAckFlags (arg : Word) (s : State) : Host.Outcome State Fault Refusal :=
  .next (s.quiet.clockBytes (commandBytes 0x0008#16 arg))

/-- A WRITE frame of the global configuration object, whichever of its rows names it (R177; log 15). -/
def State.takeGlobal (s : State) (f : GlobalFrame) : State := s.clockBytes (writeBytes 0x0001#16 (globalFrameWords f))

/-- MEM_TOP_WRITE (R3, R177). -/
def execMemTopWrite (frame : GlobalFrame) (s : State) : Host.Outcome State Fault Refusal :=
  .next (s.quiet.takeGlobal frame)

/-- TICK_DIV_WRITE (R156, R177). -/
def execTickDivWrite (frame : GlobalFrame) (s : State) : Host.Outcome State Fault Refusal :=
  .next (s.quiet.takeGlobal frame)

/-- TICK_HOLD_WRITE (R157, R177). -/
def execTickHoldWrite (frame : GlobalFrame) (s : State) : Host.Outcome State Fault Refusal :=
  .next (s.quiet.takeGlobal frame)

/-- MEM_TIMEOUT_WRITE (R123, R177). -/
def execMemTimeoutWrite (frame : GlobalFrame) (s : State) : Host.Outcome State Fault Refusal :=
  .next (s.quiet.takeGlobal frame)

/-- STREAM_IDLE_WRITE (R95, R177). -/
def execStreamIdleWrite (frame : GlobalFrame) (s : State) : Host.Outcome State Fault Refusal :=
  .next (s.quiet.takeGlobal frame)

/-- PQ_URGENT_MARK_WRITE (R59, R177). -/
def execPqUrgentMarkWrite (frame : GlobalFrame) (s : State) : Host.Outcome State Fault Refusal :=
  .next (s.quiet.takeGlobal frame)

/-- ATTN_MASK_WRITE (R170, R177). -/
def execAttnMaskWrite (frame : GlobalFrame) (s : State) : Host.Outcome State Fault Refusal :=
  .next (s.quiet.takeGlobal frame)

/-- REGION_REWRITE (R12, R13, R15, R178): status at byte 15. -/
def execRegionRewrite (region : RegionIx) (base remap control : Word) (s : State) : Host.Outcome State Fault Refusal :=
  .next (s.quiet.clockBytes (writeBytes (BitVec.ofNat 16 (0x0010 + region.val)) [base, remap, control]))

/-- DEFAULT_REGION_WRITE (R14, R15, R178): status at byte 11. -/
def execDefaultRegionWrite (remap control : Word) (s : State) : Host.Outcome State Fault Refusal :=
  .next (s.quiet.clockBytes (writeBytes 0x0008#16 [remap, control]))

/-- WRITE (R173, R176). -/
def execWrite (object : BitVec 16) (words : List Word) (s : State) : Host.Outcome State Fault Refusal :=
  .next (s.quiet.clockBytes (writeBytes object words))

/-- UNKNOWN_COMMAND (R181): a COMMAND frame by its number; status at byte 7. -/
def execUnknownCommand (number : BitVec 16) (arg : Word) (s : State) : Host.Outcome State Fault Refusal :=
  .next (s.quiet.clockBytes (commandBytes number arg))

/-- UNKNOWN_OPCODE (R173): bytes 0 to 2 of a frame, which are its whole request; they are that of a READ as well (log 23). -/
def execUnknownOpcode (opcode : BitVec 8) (number : BitVec 16) (s : State) : Host.Outcome State Fault Refusal :=
  .next (s.quiet.clockBytes (headBytes opcode number))

end Sys2Proof.Machine
end

