-- ==== Sys2Proof/Machine/MemoryCommands.lean ====
section
/-! DEFINITION. The commands of the Memory Link: READINESS and MCPL (chapter 6). -/

namespace Sys2Proof.Machine

/-- READINESS (R105, R110): the proposal tests move the streams (R98), then the arbiter issues at most one access. Nothing
is presented while RESETn is asserted. -/
def execReadiness (s : State) : Host.Outcome State Fault Refusal :=
  if s.pins.resetn = true then .next s.quiet.moveStreams.issueOne.close else .next s.quiet

/-- MCPL (R106, R118, R120, R121): matched by its TAG; not taken while RESETn is asserted. -/
def execMcpl (header : Word) (data : Vector Word 8) (s : State) : Host.Outcome State Fault Refusal :=
  if s.pins.resetn = true then
    .next (s.quiet.complete (mcplTag header) (mcplOk header) (mcplData header data)).close
  else .next s.quiet

end Sys2Proof.Machine
end

