-- ==== Sys2Proof/Machine/QuiesceCommands.lean ====
section
/-! DEFINITION. The quiesce pin and entry to HALT (chapter 8). -/

namespace Sys2Proof.Machine

/-- QREQ_ASSERT (R143, R145): demand rises when the latch is 0. While RESETn is asserted only the level changes (R154). -/
def execQreqAssert (s : State) : Host.Outcome State Fault Refusal :=
  if s.pins.qreq = false ∧ s.pins.resetn = true ∧ s.pctl.latch = false then
    .next (s.quiet.withPins { s.pins with qreq := true }).demandRises.close
  else .next (s.quiet.withPins { s.pins with qreq := true })

/-- QREQ_DEASSERT (R143, R151, R152): demand falls when the latch is 0. -/
def execQreqDeassert (s : State) : Host.Outcome State Fault Refusal :=
  if s.pins.qreq = true ∧ s.pins.resetn = true ∧ s.pctl.latch = false then
    .next (s.quiet.withPins { s.pins with qreq := false }).demandFalls.close
  else .next (s.quiet.withPins { s.pins with qreq := false })

/-- HALT_ENTRY (R147, R149): the path in DRAIN that is empty enters HALT (log 4). -/
def execHaltEntry (s : State) : Host.Outcome State Fault Refusal := .next s.quiet.haltTest

end Sys2Proof.Machine
end

