-- ==== Sys2Proof/Machine/RequestCommands.lean ====
section
/-! DEFINITION. The commands of the Request Table: REQ, RESP and the releases of slots and fences (chapter 2). -/

namespace Sys2Proof.Machine

/-- R23: a request without a credit is discarded and recorded. -/
def State.creditOverrun (s : State) (src : SourceNo) : State := s.log (overrunRecord s.tgen.stamp src)

/-- R24, R25, R37: a request with a credit takes slot `i`: HELD in HALT, at its decode moment otherwise. -/
def State.takeRequest (s : State) (i : SlotIx) (header addr : Word) (data : Vector Word 8) : State :=
  if s.pctl.path = .halt then s.withUrt (s.urt.take i (slotOfReq header addr data .held))
  else ((s.withUrt (s.urt.take i (slotOfReq header addr data .orderWait))).receive i).close

/-- REQ (R17, R23, R24): taken only while the link is up; credit test, slot, decode moment. -/
def execReq (header addr : Word) (data : Vector Word 8) (s : State) : Host.Outcome State Fault Refusal :=
  if s.linkUp = false then .next s.quiet
  else if s.urt.granted = 0 then .next (s.quiet.creditOverrun (reqSource header))
  else
    match s.urt.lowestFree with
    | some i => .next (s.quiet.takeRequest i header addr data)
    | none => .fault .firstLawBroken

/-- R22: the credit of a response: returned while the path is RUN, withheld otherwise. -/
def State.creditStep (s : State) : State :=
  if s.pctl.path = .run then s.withUrt { s.urt with granted := s.urt.granted + 1 }
  else s.withUrt { s.urt with withheld := s.urt.withheld + 1 }

/-- R38: the RESP of slot `i` is sent and its slot is freed; the credit step follows. -/
def State.respond (s : State) (i : SlotIx) : State :=
  match s.urt.slots[i] with
  | none => s
  | some x => ((s.emit (.resp (x.resp (s.pctl.path == .run)))).withUrt (s.urt.free i)).creditStep

/-- RESP (R38): at a ready signal the oldest eligible response is sent; with none eligible, nothing. -/
def execResp (s : State) : Host.Outcome State Fault Refusal :=
  if s.linkUp = false then .next s.quiet
  else
    match s.urt.nextResponse with
    | some i => .next (s.quiet.respond i).close
    | none => .next s.quiet

/-- ORDER_RELEASE (R27): the slots in ORDER_WAIT that nothing blocks take their first steps (log 4). -/
def execOrderRelease (s : State) : Host.Outcome State Fault Refusal := .next s.quiet.releaseSlots.close

/-- POST_WAIT_RETRY (R50): the room of a removal is offered to the oldest POST_WAIT write (log 4, log 6). -/
def execPostWaitRetry (s : State) : Host.Outcome State Fault Refusal := .next s.quiet.retryPostWait.close

/-- DRAIN_WAIT_RELEASE (R28, R29): the reads in DRAIN_WAIT whose entries are gone go on to the fault check (log 4). -/
def execDrainWaitRelease (s : State) : Host.Outcome State Fault Refusal := .next s.quiet.releaseDrainWaits.close

/-- FENCE_DONE (R36): the fences whose conditions hold become DONE, the oldest first (log 4). -/
def execFenceDone (s : State) : Host.Outcome State Fault Refusal := .next s.quiet.testFences

end Sys2Proof.Machine
end

