-- ==== Sys2Proof/Machine/ResetCommands.lean ====
section
/-! DEFINITION. The reset pins: ILRSTn (section 2.10) and RESETn (R154). -/

namespace Sys2Proof.Machine

/-- R39, R40, R128: every slot is discarded and the link's side of the other blocks is reset. -/
def State.dropLink (s : State) : State :=
  (((((s.withUrt Urt.empty).withRab s.rab.dropSlots).withMli (Mli.dropSlotOwners s.mli)).withStt Stt.empty).withPq
    s.pq.dropFenceMarks).withFlt { s.flt with flags := 0#16 }

/-- ILRSTN_ASSERT (R39, R40, R153): with RESETn high the link goes down. A pin already low gives no event (R41). -/
def execIlrstnAssert (s : State) : Host.Outcome State Fault Refusal :=
  if s.pins.ilrstn = true ∧ s.pins.resetn = true then
    .next ((s.quiet.withPins { s.pins with ilrstn := false }).dropLink.close)
  else .next (s.quiet.withPins { s.pins with ilrstn := false })

/-- ILRSTN_DEASSERT (R41, R21): with RESETn high the link comes up. -/
def execIlrstnDeassert (s : State) : Host.Outcome State Fault Refusal :=
  if s.pins.ilrstn = false ∧ s.pins.resetn = true then
    .next (s.quiet.withPins { s.pins with ilrstn := true }).linkComesUp
  else .next (s.quiet.withPins { s.pins with ilrstn := true })

/-- The part at device reset, with the input pins, the queue and the model's own counter as they stand (R154). -/
def State.deviceReset (s : State) : State :=
  { State.reset with
    pins := { s.pins with resetn := false }
    tgen := { Tgen.default with choices := s.tgen.choices }
    pending := s.pending }

/-- RESETN_ASSERT (R154 and the device-reset rule of every chapter). A pin already low gives no event (log 19). -/
def execResetnAssert (s : State) : Host.Outcome State Fault Refusal :=
  if s.pins.resetn = true then .next s.deviceReset else .next s.quiet

/-- R154: the link comes up at the release when ILRSTn is high. -/
def State.releaseLink (s : State) : State := if s.pins.ilrstn = true then s.linkComesUp else s

/-- R154: the level of QREQ is taken at the release. -/
def State.releaseDemand (s : State) : State := if s.pins.qreq = true then s.demandRises else s

/-- RESETN_RELEASE (R154): link-up and demand are taken in the order the command gives (log 9). -/
def execResetnRelease (order : ReleaseOrder) (s : State) : Host.Outcome State Fault Refusal :=
  if s.pins.resetn = true then .next s.quiet
  else
    match order with
    | .linkFirst => .next (s.quiet.withPins { s.pins with resetn := true }).releaseLink.releaseDemand
    | .demandFirst => .next (s.quiet.withPins { s.pins with resetn := true }).releaseDemand.releaseLink

end Sys2Proof.Machine
end

