-- ==== Sys2Proof/Machine/TimeCommands.lean ====
section
/-! DEFINITION. Time (chapter 9): TICK, the work of a tick as rows of their own, and a REFCLK period. -/

namespace Sys2Proof.Machine

/-- TICK (R155, R159): the prescaler completes a period. No tick comes while RESETn is asserted or TICK_HOLD is 1. -/
def execTick (order : TickOrder) (s : State) : Host.Outcome State Fault Refusal :=
  if s.ticking = true then .next (s.quiet.takeTick order) else .next s.quiet

/-- QUARANTINE (R122): the tags whose AGE is at or above the limit in force, in increasing number (log 4, log 5). -/
def execQuarantine (s : State) : Host.Outcome State Fault Refusal := .next s.quiet.quarantineDue.close

/-- IDLE_EXPIRY (R95): the stream entries whose IDLE is at or above the limit in force are freed (log 4, log 5). -/
def execIdleExpiry (s : State) : Host.Outcome State Fault Refusal := .next s.quiet.expireStreams

/-- DEADLINE_REACHED (R58, R57): urgency is a standing condition, computed from the candidate's AGE and DEADLINE, so the
event itself changes nothing that is stored. -/
def execDeadlineReached (s : State) : Host.Outcome State Fault Refusal := .next s.quiet

/-- R155: one REFCLK period passes: the prescaler advances by one, and a whole period gives a tick, whose order of owners
is a free value (log 3, log 8). -/
def State.refclk (s : State) : State :=
  if s.ticking = true then
    if s.cfg.tickPeriod ≤ s.tgen.prescaler + 1 then
      (s.withTgen { s.tgen with choices := s.tgen.choices + 1 }).takeTick (Config.tickOrder s.tgen.choices)
    else s.withTgen { s.tgen with prescaler := s.tgen.prescaler + 1 }
  else s

/-- R172, R174: one MSCK period shifts a bit of the reply out; MSI is not taken (log 3). -/
def State.clockReply (s : State) : State :=
  match s.rx with
  | .reply _ => s.clockBit true
  | .idle => s
  | .request _ _ => s
  | .trail => s

/-- What the part does while no command waits: one REFCLK period passes, and one MSCK period of a reply (log 3). Where the
first completes a tick and the second begins a READ's first data word, R158 and R175 give no order: DESIGN CHOICE, the tick
comes first, so the picture shows what it changed (log 25). -/
def State.idle (s : State) : State := s.quiet.refclk.clockReply

end Sys2Proof.Machine
end

