-- ==== Sys2Proof/Machine/Dispatch.lean ====
section
/-! DEFINITION. The dispatch of commands: one arm per constructor of Instr, each one direct call of its meaning. -/

namespace Sys2Proof.Machine

def exec (i : Instr) (s : State) : Host.Outcome State Fault Refusal :=
  match i with
  | .req header addr data => Sys2Proof.Machine.execReq header addr data s
  | .resp => Sys2Proof.Machine.execResp s
  | .orderRelease => Sys2Proof.Machine.execOrderRelease s
  | .postWaitRetry => Sys2Proof.Machine.execPostWaitRetry s
  | .drainWaitRelease => Sys2Proof.Machine.execDrainWaitRelease s
  | .fenceDone => Sys2Proof.Machine.execFenceDone s
  | .ilrstnAssert => Sys2Proof.Machine.execIlrstnAssert s
  | .ilrstnDeassert => Sys2Proof.Machine.execIlrstnDeassert s
  | .resetnAssert => Sys2Proof.Machine.execResetnAssert s
  | .resetnRelease order => Sys2Proof.Machine.execResetnRelease order s
  | .readiness => Sys2Proof.Machine.execReadiness s
  | .mcpl header data => Sys2Proof.Machine.execMcpl header data s
  | .tick order => Sys2Proof.Machine.execTick order s
  | .quarantine => Sys2Proof.Machine.execQuarantine s
  | .idleExpiry => Sys2Proof.Machine.execIdleExpiry s
  | .deadlineReached => Sys2Proof.Machine.execDeadlineReached s
  | .qreqAssert => Sys2Proof.Machine.execQreqAssert s
  | .qreqDeassert => Sys2Proof.Machine.execQreqDeassert s
  | .haltEntry => Sys2Proof.Machine.execHaltEntry s
  | .mssnFall => Sys2Proof.Machine.execMssnFall s
  | .mssnRise => Sys2Proof.Machine.execMssnRise s
  | .quiesce arg => Sys2Proof.Machine.execQuiesce arg s
  | .resume arg => Sys2Proof.Machine.execResume arg s
  | .invalidateRab arg => Sys2Proof.Machine.execInvalidateRab arg s
  | .popLog arg => Sys2Proof.Machine.execPopLog arg s
  | .clearLog arg => Sys2Proof.Machine.execClearLog arg s
  | .clearFault arg => Sys2Proof.Machine.execClearFault arg s
  | .reclaimTags arg => Sys2Proof.Machine.execReclaimTags arg s
  | .ackFlags arg => Sys2Proof.Machine.execAckFlags arg s
  | .memTopWrite frame => Sys2Proof.Machine.execMemTopWrite frame s
  | .tickDivWrite frame => Sys2Proof.Machine.execTickDivWrite frame s
  | .tickHoldWrite frame => Sys2Proof.Machine.execTickHoldWrite frame s
  | .memTimeoutWrite frame => Sys2Proof.Machine.execMemTimeoutWrite frame s
  | .streamIdleWrite frame => Sys2Proof.Machine.execStreamIdleWrite frame s
  | .pqUrgentMarkWrite frame => Sys2Proof.Machine.execPqUrgentMarkWrite frame s
  | .attnMaskWrite frame => Sys2Proof.Machine.execAttnMaskWrite frame s
  | .regionRewrite region base remap control => Sys2Proof.Machine.execRegionRewrite region base remap control s
  | .defaultRegionWrite remap control => Sys2Proof.Machine.execDefaultRegionWrite remap control s
  | .write object words => Sys2Proof.Machine.execWrite object words s
  | .unknownCommand number arg => Sys2Proof.Machine.execUnknownCommand number arg s
  | .unknownOpcode opcode number => Sys2Proof.Machine.execUnknownOpcode opcode number s

end Sys2Proof.Machine
end

