-- ==== Sys2Proof/Safety.lean ====
section
/-! DEFINITION. What counts as a sound state of the part: the twelve laws the spec states, block by block, in the terms the claims use. -/

namespace Sys2Proof

/-- The rows that clock the bytes of a management frame in (R173, R174; log 14). -/
def Instr.isFrame : Instr → Bool
  | .quiesce _ => true
  | .resume _ => true
  | .invalidateRab _ => true
  | .popLog _ => true
  | .clearLog _ => true
  | .clearFault _ => true
  | .reclaimTags _ => true
  | .ackFlags _ => true
  | .memTopWrite _ => true
  | .tickDivWrite _ => true
  | .tickHoldWrite _ => true
  | .memTimeoutWrite _ => true
  | .streamIdleWrite _ => true
  | .pqUrgentMarkWrite _ => true
  | .attnMaskWrite _ => true
  | .regionRewrite _ _ _ _ => true
  | .defaultRegionWrite _ _ => true
  | .write _ _ => true
  | .unknownCommand _ _ => true
  | .unknownOpcode _ _ => true
  | _ => false

/-- The seven rows of the global configuration frame (R177). -/
def Instr.globalFrameOf : Instr → Option GlobalFrame
  | .memTopWrite f => some f
  | .tickDivWrite f => some f
  | .tickHoldWrite f => some f
  | .memTimeoutWrite f => some f
  | .streamIdleWrite f => some f
  | .pqUrgentMarkWrite f => some f
  | .attnMaskWrite f => some f
  | _ => none

end Sys2Proof

namespace Sys2Proof.Machine

/-- The first law (R20): while the link is up, occupied slots plus WITHHELD plus GRANTED equal 8; while it is down, all
three are 0. -/
def State.creditLaw (s : State) : Prop :=
  if s.linkUp = true then s.urt.occupied + s.urt.withheld + s.urt.granted = 8
  else s.urt.occupied = 0 ∧ s.urt.withheld = 0 ∧ s.urt.granted = 0

/-- The second law (R107): FREE, OUTSTANDING and QUARANTINED tags together number 16. -/
def State.tagCountLaw (s : State) : Prop :=
  Mli.countState s.mli .free + Mli.countState s.mli .outstanding + Mli.countState s.mli .quarantined = 16

/-- A tag whose access has a claim on its line: OUTSTANDING, or a QUARANTINED line write (R115). -/
def Tag.claims (x : Tag) : Bool := x.state == .outstanding || (x.state == .quarantined && x.kind.isWrite)

/-- The third law (R115) over the tag records: two claims on one line are both line reads. -/
def Mli.interlockLaw (m : Mli) : Prop :=
  ∀ t u : TagIx, t ≠ u → m[t].claims = true → m[u].claims = true → m[t].line = m[u].line →
    m[t].kind.isWrite = false ∧ m[u].kind.isWrite = false

/-- The third law (R115). -/
def State.interlockLaw (s : State) : Prop := Mli.interlockLaw s.mli

/-- The fourth law (R44) of a queue: at most 16 entries; an OPEN entry is the youngest for its line, so at most one per
line. -/
def Queue.queueLaw (q : Queue) : Prop :=
  q.entries.length ≤ Config.queueCapacity ∧
    q.entries.Pairwise fun older younger => older.line = younger.line → older.state ≠ .opened

/-- The fourth law (R44). -/
def State.queueLaw (s : State) : Prop := s.pq.queueLaw

/-- The fifth law (R55) of a queue: at most 4 entries are ISSUED, and no unissued entry is older than an ISSUED one. -/
def Queue.drainLaw (q : Queue) : Prop :=
  q.issuedCount ≤ Config.drainLimit ∧
    q.entries.Pairwise fun older younger => younger.state = .issued → older.state = .issued

/-- The fifth law (R55). -/
def State.drainLaw (s : State) : Prop := s.pq.drainLaw

/-- The sixth law (R68) of a buffer: no two non-FREE lines hold one memory line. -/
def Rab.bufferLaw (b : Rab) : Prop :=
  ∀ r q : LineIx, r ≠ q → b.lines[r].state ≠ .free → b.lines[q].state ≠ .free → b.lines[r].line ≠ b.lines[q].line

/-- The sixth law (R68). -/
def State.bufferLaw (s : State) : Prop := s.rab.bufferLaw

/-- R69 of a buffer: the recency list holds exactly the VALID lines, each once. -/
def Rab.recencyLaw (b : Rab) : Prop := b.recency.Nodup ∧ ∀ r : LineIx, r ∈ b.recency ↔ b.lines[r].state = .valid

/-- R69. -/
def State.recencyLaw (s : State) : Prop := s.rab.recencyLaw

/-- The eleventh law (R131) of a fault table: no two entries hold one line, and the ranks name exactly the occupied
indices. -/
def Flt.faultLaw (f : Flt) : Prop :=
  (∀ i j : FaultIx, i ≠ j → ∀ e ∈ f.entries[i], ∀ e' ∈ f.entries[j], e.line ≠ e'.line) ∧
    f.order.Nodup ∧ ∀ i : FaultIx, i ∈ f.order ↔ f.entries[i].isSome = true

/-- R161, R164: at most 16 records, DROPPED at most 255. -/
def Elog.logLaw (g : Elog) : Prop := g.records.length ≤ Config.logCapacity ∧ g.dropped ≤ Config.droppedMax

/-- The eleventh law (R131, R161). -/
def State.faultAndLogLaw (s : State) : Prop := s.flt.faultLaw ∧ s.elog.logLaw

/-- R24: the arrival list holds exactly the occupied slots, each once. -/
def State.arrivalLaw (s : State) : Prop :=
  s.urt.arrival.Nodup ∧ ∀ i : SlotIx, i ∈ s.urt.arrival ↔ s.urt.slots[i].isSome = true

/-- R26, R27: no slot stays in ORDER_WAIT without a blocking slot. -/
def State.orderSettled (s : State) : Prop := ∀ i ∈ s.urt.arrival, s.urt.releasable i = false

/-- R36: no fence stays in FENCE_WAIT with its conditions met. -/
def State.fencesSettled (s : State) : Prop := ∀ i ∈ s.urt.arrival, s.fenceReady i = false

/-- R147: the path does not stay in DRAIN while it is empty. -/
def State.drainHolds (s : State) : Prop := s.pctl.path = .drain → s.pathEmpty = false

/-- R98: no entry that could move on has a NEXT that the buffer holds. -/
def State.streamsSettled (s : State) : Prop :=
  ∀ k : StreamIx, ((s.stt.entries[k].reaches (s.rdec.depthReported s.stt.entries[k].region)
    (s.rdec.inRange s.stt.entries[k].region)) && (s.rab.find s.stt.entries[k].next).isSome) = false

/-- R28, R29, R53 step 4: no read stays in DRAIN_WAIT whose entries are gone. -/
def State.waitsSettled (s : State) : Prop := ∀ i ∈ s.urt.arrival, s.drainWaitOver i = false

/-- A frame has begun and none of its bits has come (R174). -/
abbrev State.frameStart (s : State) : Prop := s.pins.resetn = true ∧ s.pins.mssn = false ∧ s.rx = .request [] []

/-- The receiver after the last request byte of a frame that a status byte alone answers (R173, R174). -/
def Receiver.answering (st : FrameStatus) : Receiver := .reply { status := st, object := none, words := [], clocked := 0 }

/-- What MSO shows over `n` bytes outside REPLY: FFh (R172). -/
def fillerOut (n : Nat) : List PortMessage := List.replicate (8 * n) (.mso true)

/-- What the end of the drain of entry `e` on tag `g` does from `s` to `t`, but for the tag itself: OK for `none`, a failure
or a timeout for `some k` (R53, R60, R61, R62). -/
structure State.DrainEnded (s t : State) (g : TagIx) (e : Entry) (k : Option FaultKind) : Prop where
  /-- R53 step 2: the entry is gone. -/
  removed : ∀ y ∈ t.pq.entries, y.tag ≠ some g
  /-- R134, R132, R133: the Faulted Line Table. -/
  table : ∀ f : Flt, f = (match k with | none => s.flt.clearBytes e.line e.mask | some k => s.flt.record e.line e.mask k) →
    t.flt.entries = f.entries ∧ t.flt.order = f.order ∧ t.flt.ovf = f.ovf
  /-- R61, R62: the record. -/
  log : t.elog =
    match k with
    | none => s.elog
    | some k => s.elog.append
      { kind := if k = .fail then .drainFail else .drainTimeout, stamp := s.tgen.stamp, line := some e.line,
        region := some e.region, sources := some e.sources, tag := some g, count := none,
        untracked := some (!s.flt.tracks e.line) }
  /-- R138: the flag of a source without a waiting fence. -/
  flags : ∀ src : SourceNo, (∀ (i : SlotIx) (x : Slot), s.urt.slots[i] = some x → x.state = .fenceWait → x.source ≠ src) →
    t.flt.flags.getLsbD src = (s.flt.flags.getLsbD src || (k.isSome && e.sources.getLsbD src))
  /-- The other entries stand where no write waits for the room. -/
  others : s.urt.postWait = [] → (∀ j : SlotIx, s.urt.slotHas j (fun y => y.state == .orderWait) = false) →
    t.pq = { entries := s.pq.entries.filter fun y => y.tag != some g, room := false }
  /-- R53 step 5, R36, R139: a fence that only the removed entry held back is DONE and takes the flag of its source. -/
  fences : s.urt.postWait = [] → (∀ j : SlotIx, s.urt.slotHas j (fun y => y.state == .orderWait) = false) →
    ∀ (i : SlotIx) (x : Slot), i ∈ s.urt.arrival → s.urt.slots[i] = some x → x.kind = .fence → x.state = .fenceWait →
      (∀ j ∈ s.urt.older i, ∀ y, s.urt.slots[j] = some y → y.state = .fenceWait → y.source ≠ x.source) →
      s.urt.olderWritesSettled i = true → (∀ y ∈ s.pq.entries, y.tag ≠ some g → y.fences.getLsbD i = false) →
      t.urt.slots[i] = some { x with
        state := .done, result := [], tag := none
        status := some (if s.flt.flags.getLsbD x.source || (k.isSome && e.sources.getLsbD x.source) then .faulted else .ok) } ∧
      t.flt.flags.getLsbD x.source = false
  /-- R85: the read-ahead buffer, where no slot goes on and the path does not enter HALT. -/
  buffer : s.urt.postWait = [] → (∀ j : SlotIx, s.urt.slotHas j (fun y => y.state == .orderWait) = false) →
    (∀ j : SlotIx, s.urt.slotHas j (fun y => y.state == .drainWait) = false) → s.pctl.path ≠ .drain →
    t.rab = if k.isSome then s.rab.lineFailed e.line else s.rab

/-- Nothing an event brings about is left over: the part between two events. -/
structure State.Settled (s : State) : Prop where
  order : s.orderSettled
  fences : s.fencesSettled
  streams : s.streamsSettled
  drain : s.drainHolds
  waits : s.waitsSettled
  /-- The room of a removal has been offered (R50; log 6). -/
  room : s.pq.room = false

/-- Who waits on a FILLING line, and which tag fills it (R31, R67, R71, R72, R75, R107, R149): every FILLING line waits on an
OUTSTANDING tag that it owns or on a slot in ISSUE_WAIT. -/
structure State.OwnerLaw (s : State) : Prop where
  /-- A waiter is a read of the line, in FILL_WAIT, or in ISSUE_WAIT while the fill has no tag. -/
  waiters : ∀ r : LineIx, s.rab.lines[r].state = .filling → ∀ i ∈ s.rab.lines[r].waiters,
    ∃ x d, s.urt.slots[i] = some x ∧ x.kind = .rd ∧ x.decode = some d ∧ d.line = s.rab.lines[r].line ∧
      (x.state = .fillWait ∨ (x.state = .issueWait ∧ s.rab.lines[r].tag = none)) ∧
      ∀ g, x.tag = some g → s.rab.lines[r].tag = some g
  /-- A fill with a tag is OUTSTANDING on it. -/
  issued : ∀ (r : LineIx) (g : TagIx), s.rab.lines[r].state = .filling → s.rab.lines[r].tag = some g →
    s.mli[g].state = .outstanding ∧ s.mli[g].owner = some (.line r) ∧
      (s.mli[g].kind = .demandRead ∨ s.mli[g].kind = .prefetchRead)
  /-- A fill without a tag waits on its first waiter's issue; the other waiters have joined. -/
  unissued : ∀ r : LineIx, s.rab.lines[r].state = .filling → s.rab.lines[r].tag = none →
    ∃ i rest, s.rab.lines[r].waiters = i :: rest ∧ s.urt.slotHas i (fun x => x.state == .issueWait) = true ∧
      ∀ j ∈ rest, s.urt.slotHas j (fun x => x.state == .fillWait) = true
  /-- An OUTSTANDING tag that a line owns fills that line. -/
  lineTags : ∀ (g : TagIx) (r : LineIx), s.mli[g].state = .outstanding → s.mli[g].owner = some (.line r) →
    s.rab.lines[r].state = .filling ∧ s.rab.lines[r].tag = some g
  /-- An OUTSTANDING tag that a slot owns is the slot's, which waits on it. -/
  slotTags : ∀ (g : TagIx) (i : SlotIx), s.mli[g].state = .outstanding → s.mli[g].owner = some (.slot i) →
    ∃ x, s.urt.slots[i] = some x ∧ x.tag = some g ∧ (x.state = .fillWait ∨ x.state = .memWait)
  /-- Only slots in FILL_WAIT or MEM_WAIT hold a tag. -/
  heldTags : ∀ (i : SlotIx) (x : Slot), s.urt.slots[i] = some x → x.tag ≠ none → x.state = .fillWait ∨ x.state = .memWait

/-- The twelfth law (R149): in HALT only HELD slots; Post Queue, read-ahead buffer and Stream Table empty; no OUTSTANDING
tag. -/
def State.haltLaw (s : State) : Prop :=
  s.pctl.path = .halt →
    (∀ i : SlotIx, ∀ x ∈ s.urt.slots[i], x.state = .held) ∧ s.pq.entries = [] ∧
      (∀ r : LineIx, s.rab.lines[r].state = .free) ∧ s.rab.recency = [] ∧
      (∀ k : StreamIx, s.stt.entries[k].valid = false) ∧ (∀ t : TagIx, s.mli[t].state ≠ .outstanding)

/-- R174, R175: the receiver is out of IDLE only while RESETn is high and MSSn low; a request in progress is not complete;
a reply in progress has bits left, and holds the words of its picture once the status byte is out. -/
def State.portLaw (s : State) : Prop :=
  (s.rx ≠ .idle → s.pins.resetn = true ∧ s.pins.mssn = false) ∧
  (∀ bytes bits, s.rx = .request bytes bits → bits.length < 8 ∧ frameOfBytes bytes = none) ∧
  ∀ r, s.rx = .reply r →
    r.clocked < 8 * (1 + 4 * (r.object.map PortObject.wordCount).getD 0) ∧
      r.words.length = if r.clocked < 8 then 0 else (r.object.map PortObject.wordCount).getD 0

/-- R90 of a table: no two entries in use share SOURCE and REGION. -/
def Stt.pairLaw (t : Stt) : Prop :=
  ∀ j k : StreamIx, j ≠ k → t.entries[j].valid = true → t.entries[k].valid = true →
    ¬(t.entries[j].source = t.entries[k].source ∧ t.entries[j].region = t.entries[k].region)

/-- R90. -/
def State.streamPairLaw (s : State) : Prop := s.stt.pairLaw

/-- R91 of an entry: while DIR is set the lead is 1 to 5; CONF is at most 3. -/
def Stream.leadLaw (e : Stream) : Prop := e.conf ≤ 3 ∧ (e.dir ≠ .none → 1 ≤ e.lead ∧ e.lead ≤ 5)

/-- R91. -/
def State.streamLeadLaw (s : State) : Prop := ∀ k : StreamIx, s.stt.entries[k].leadLaw

/-- R1: a region entry within its ranges. -/
def RegionEntry.legal (r : RegionEntry) : Prop :=
  12 ≤ r.sizeLog ∧ r.sizeLog ≤ 31 ∧ r.base.toNat % 2 ^ r.sizeLog = 0 ∧ r.depth ≤ 4 ∧ 1 ≤ r.deadline ∧
    r.deadline ≤ 255 ∧ r.remap.toNat % 0x1000 = 0

/-- R1, R2, R3, R177: every configuration field within its range. -/
def State.configLaw (s : State) : Prop :=
  (∀ g : RegionIx, s.rdec.regions[g].legal) ∧ 1 ≤ s.rdec.dflt.deadline ∧ s.rdec.dflt.deadline ≤ 255 ∧
    s.rdec.dflt.remap.toNat % 0x1000 = 0 ∧ s.rdec.memTopField ≤ 4095 ∧ s.cfg.tickDiv ≤ 255 ∧
    1 ≤ s.cfg.memTimeout ∧ s.cfg.memTimeout ≤ 255 ∧ 1 ≤ s.cfg.streamIdle ∧ s.cfg.streamIdle ≤ 255 ∧
    1 ≤ s.cfg.pqUrgentMark ∧ s.cfg.pqUrgentMark ≤ 16

/-- R154 and the device-reset rule of every chapter: while RESETn is asserted everything but the input pins, the
messages of the latest event, the queue of commands and the model's own counter (log 8) has its device-reset value. -/
def State.resetLaw (s : State) : Prop := s.pins.resetn = false → { s with out := [] } = s.deviceReset

end Sys2Proof.Machine
end

