-- ==== Sys2Proof/Certificates/Slice0/Obligations.lean ====
section
/-! DEFINITION. The statements for the provers: what each command does, what it leaves, and the laws every step keeps. -/

open Sys2Proof Sys2Proof.Machine

/-! ### Step and queue -/

/-- A step takes the command at the front of the queue and runs it on the part with the rest of the queue. -/
def Obligations.StepTakesFrontCommand : Prop :=
  ∀ (c : Instr) (rest : List Instr) (s : State),
    step { s with pending := c :: rest } = exec c { s with pending := rest }

/-- With no command waiting one REFCLK period passes, and one MSCK period of a reply under way (R155; log 3): the prescaler
advances by one, and a whole period returns it to 0 and takes a tick; while RESETn is asserted or TICK_HOLD is 1 the time base
stands. A reply shifts one bit out on MSO. Its picture is taken when the status byte is out and the first data word begins
(R175); when no bit is left the receiver is in TRAIL (R174). Without a reply, or with MSSn high, nothing is shifted. A tick of
the same step comes before the picture: the model's choice (log 25). -/
def Obligations.IdleStepIsOneRefclkPeriod : Prop :=
  ∀ s : State, s.pending = [] → ∃ t, step s = .next t ∧
    (s.pins.resetn = false ∨ s.cfg.tickHold = true → t = { s with out := t.out, rx := t.rx }) ∧
    (s.pins.resetn = true → s.cfg.tickHold = false → s.tgen.prescaler + 1 < (s.cfg.tickDiv + 1) * 64 →
      t = { s with out := t.out, rx := t.rx, tgen := { s.tgen with prescaler := s.tgen.prescaler + 1 } }) ∧
    (s.pins.resetn = true → s.cfg.tickHold = false → (s.cfg.tickDiv + 1) * 64 ≤ s.tgen.prescaler + 1 →
      t.tgen.prescaler = 0 ∧ t.tgen.stamp = s.tgen.stamp + 1#16 ∧
        ∃ order u, exec (.tick order) { s with tgen := { s.tgen with choices := s.tgen.choices + 1 } } = .next u ∧
          t = { u with out := t.out, rx := t.rx }) ∧
    ((∀ r, s.rx ≠ .reply r) ∨ s.pins.mssn = true → t.out = [] ∧ t.rx = s.rx) ∧
    ∀ r, s.rx = .reply r → s.pins.mssn = false →
      (∃ level, s.mso = some level ∧ t.out = [.mso level]) ∧
      (r.clocked + 1 = 8 → r.object = none → t.rx = .trail) ∧
      (∀ o, r.clocked + 1 = 8 → r.object = some o → t.rx = .reply { r with words := t.objectWords o, clocked := 8 }) ∧
      (r.clocked + 1 ≠ 8 → r.clocked + 1 < 8 * (1 + 4 * r.words.length) →
        t.rx = .reply { r with clocked := r.clocked + 1 }) ∧
      (r.clocked + 1 ≠ 8 → 8 * (1 + 4 * r.words.length) ≤ r.clocked + 1 → t.rx = .trail)

/-- Under the first law and R24's list of occupied slots, every command is taken to its end, with no fault and no refusal,
and the queue of commands is left as it stands. -/
def Obligations.EveryCommandCompletes : Prop :=
  ∀ (c : Instr) (s : State), s.creditLaw → s.arrivalLaw → ∃ t, exec c s = .next t ∧ t.pending = s.pending

/-! ### Requests -/

/-- R23: a REQ with GRANTED 0 takes no slot and leaves a CREDIT_OVERRUN record; everything else stands. While the link is
down no REQ is taken (R17). -/
def Obligations.ReqWithoutCreditIsRecorded : Prop :=
  ∀ (s : State) (header addr : Word) (data : Vector Word 8),
    (s.linkUp = true → s.urt.granted = 0 →
      exec (.req header addr data) s = .next { s with
        out := []
        elog := s.elog.append
          { kind := .creditOverrun, stamp := s.tgen.stamp, line := none, region := none,
            sources := some (sourceBit (reqSource header)), tag := none, count := none, untracked := none } }) ∧
    (s.linkUp = false → exec (.req header addr data) s = .next { s with out := [] })

/-- R23, R24: a REQ with a credit takes the free slot with the lowest index and the young end of the arrival list, and
uses one credit; the other slots keep their requests, and pins, configuration, path, tags, fault table and log stand. -/
def Obligations.ReqTakesLowestFreeSlot : Prop :=
  ∀ (s : State) (header addr : Word) (data : Vector Word 8) (i : SlotIx),
    s.linkUp = true → 0 < s.urt.granted → s.urt.slots[i] = none →
    (∀ j : SlotIx, j < i → s.urt.slots[j] ≠ none) →
    ∃ t, exec (.req header addr data) s = .next t ∧
      t.urt.arrival = s.urt.arrival ++ [i] ∧ t.urt.granted + 1 = s.urt.granted ∧ t.urt.withheld = s.urt.withheld ∧
      (∃ x, t.urt.slots[i] = some x ∧ x.kind = reqKind header ∧ x.source = reqSource header ∧
        x.itag = reqItag header) ∧
      (∀ j : SlotIx, j ≠ i → (t.urt.slots[j].map fun x => (x.kind, x.source, x.itag, x.addr, x.count)) =
        s.urt.slots[j].map fun x => (x.kind, x.source, x.itag, x.addr, x.count)) ∧
      t.pins = s.pins ∧ t.rdec = s.rdec ∧ t.cfg = s.cfg ∧ t.pctl = s.pctl ∧ t.mli = s.mli ∧ t.elog = s.elog ∧
      t.flt.entries = s.flt.entries ∧ t.flt.ovf = s.flt.ovf ∧ t.tgen = s.tgen ∧ t.rx = s.rx ∧ t.out = []

/-- R37: a REQ that arrives while the path is HALT is HELD, whatever it carries, and nothing else happens. -/
def Obligations.ReqInHaltIsHeld : Prop :=
  ∀ (s : State) (header addr : Word) (data : Vector Word 8) (i : SlotIx),
    s.linkUp = true → 0 < s.urt.granted → s.urt.lowestFree = some i → s.pctl.path = .halt →
    exec (.req header addr data) s = .next { s with
      out := []
      urt := { s.urt with
        slots := s.urt.slots.set i (some (slotOfReq header addr data .held))
        arrival := s.urt.arrival ++ [i]
        granted := s.urt.granted - 1 } }

/-- R18, R8, R9: outside HALT a malformed REQ is answered MALFORMED at once, its data not kept; a valid RD or WR at or
above the memory top is answered RANGE at decode, and a WR below it to a region with WPROT PROTECT. No other state
changes. -/
def Obligations.ReqAnsweredAtArrival : Prop :=
  ∀ (s : State) (header addr : Word) (data : Vector Word 8) (i : SlotIx) (x : Slot), s.Settled → s.arrivalLaw →
    s.linkUp = true → 0 < s.urt.granted → s.urt.lowestFree = some i → s.pctl.path ≠ .halt →
    x = slotOfReq header addr data .done →
    (reqKind header = .unknown ∨ ((reqKind header = .rd ∨ reqKind header = .wr) ∧
        (reqCount header = 0 ∨ 32 < reqCount header ∨ 32 < addr.toNat % 32 + reqCount header)) →
      exec (.req header addr data) s = .next { s with
        out := []
        urt := s.urt.take i { x with data := zeroLine, status := some .malformed } }) ∧
    (x.kind = .rd ∨ x.kind = .wr → x.malformed = false → s.rdec.memTop ≤ (s.rdec.memAddr addr).toNat →
      exec (.req header addr data) s = .next { s with
        out := []
        urt := s.urt.take i { x with decode := some (s.rdec.result addr), status := some .range } }) ∧
    (x.kind = .wr → x.malformed = false → (s.rdec.memAddr addr).toNat < s.rdec.memTop →
      (s.rdec.result addr).wprot = true →
      exec (.req header addr data) s = .next { s with
        out := []
        urt := s.urt.take i { x with decode := some (s.rdec.result addr), status := some .protect } })

/-- R26, R33, R34, R45: the first step of a valid WR. One that an older slot blocks stays in ORDER_WAIT. Of the others, a posted one merges, or creates an entry, or
joins POST_WAIT; merged or created, it patches the read-ahead buffer and is DONE with OK. One that is not posted waits for
its issue. No other state changes. -/
def Obligations.WriteFirstStep : Prop :=
  ∀ (s : State) (header addr : Word) (data : Vector Word 8) (i : SlotIx) (x : Slot) (d : DecodeResult),
    s.Settled → s.arrivalLaw → s.linkUp = true → 0 < s.urt.granted → s.urt.lowestFree = some i → s.pctl.path ≠ .halt →
    d = s.rdec.result addr → x = { slotOfReq header addr data .orderWait with decode := some d } → x.kind = .wr →
    x.malformed = false → s.rdec.answer .wr addr = none →
    ((∃ j ∈ s.urt.arrival, s.urt.slotHas j (fun o => o.blocks x d) = true) →
      exec (.req header addr data) s = .next { s with out := [], urt := s.urt.take i x }) ∧
    ((∀ j ∈ s.urt.arrival, s.urt.slotHas j (fun o => o.blocks x d) = false) →
    (d.posts = true → s.pq.canMerge d = true →
      exec (.req header addr data) s = .next { s with
        out := []
        urt := s.urt.take i { x with state := .done, status := some .ok }
        pq := s.pq.merge d.line (x.mask d) (x.lineBytes d) (sourceBit x.source) 0#8
        rab := s.rab.patch d.line (x.mask d) (x.lineBytes d) }) ∧
    (d.posts = true → s.pq.canMerge d = false → s.pq.entries.length < 16 → s.urt.postWait = [] →
      exec (.req header addr data) s = .next { s with
        out := []
        urt := s.urt.take i { x with state := .done, status := some .ok }
        pq := s.pq.create d (x.mask d) (x.lineBytes d) (sourceBit x.source) 0#8
        rab := s.rab.patch d.line (x.mask d) (x.lineBytes d) }) ∧
    (d.posts = true → s.pq.canMerge d = false → 16 ≤ s.pq.entries.length ∨ s.urt.postWait ≠ [] →
      exec (.req header addr data) s = .next { s with
        out := []
        urt := { s.urt.take i { x with state := .postWait } with postWait := s.urt.postWait ++ [i] } }) ∧
    (d.posts = false →
      exec (.req header addr data) s = .next { s with
        out := []
        urt := s.urt.take i { x with state := .issueWait } }))

/-- R46, R47: a merge changes the youngest entry for the line and no other: the written bytes and their flags, the source,
the fence marks; its line, region, state, AGE, DEADLINE and TAG stand. A creation seals an OPEN entry for the line and adds
one entry at the young end, OPEN exactly for NORMAL with MERGE 1; no other entry changes. R76, R77: the patch of a settling
write reaches the bytes of the non-FREE read-ahead line that holds the line, and its PATCH flags while it is FILLING; without
such a line it changes nothing. -/
def Obligations.PostQueueTakesWrites : Prop :=
  (∀ (q : Queue) (pre post : List Entry) (e : Entry) (mask : ByteMask) (data : LineData) (src : SourceSet)
    (fences : SlotSet), q.entries = pre ++ e :: post → (∀ x ∈ post, x.line ≠ e.line) →
    (q.merge e.line mask data src fences).entries =
      pre ++ { e with
        mask := e.mask ||| mask
        data := Vector.ofFn fun k => if mask.getLsbD k then data[k] else e.data[k]
        sources := e.sources ||| src
        fences := e.fences ||| fences } :: post) ∧
  (∀ (q : Queue) (d : DecodeResult) (mask : ByteMask) (data : LineData) (src : SourceSet) (fences : SlotSet),
    (q.create d mask data src fences).entries =
      (q.entries.map fun e => if e.line = d.line ∧ e.state = .opened then { e with state := .sealed } else e) ++
        [{ line := d.line, region := d.region, mask := mask, data := data, sources := src, fences := fences,
           state := if d.type = .normal ∧ d.merge = true then .opened else .sealed, age := 0, deadline := d.deadline,
           tag := none }]) ∧
  (∀ (b : Rab) (l : LineAddr) (mask : ByteMask) (data : LineData),
    ((∀ r : LineIx, b.lines[r].state = .free ∨ b.lines[r].line ≠ l) → b.patch l mask data = b) ∧
    ∀ r : LineIx, b.lines[r].state ≠ .free → b.lines[r].line = l →
      (∀ q : LineIx, q < r → b.lines[q].state = .free ∨ b.lines[q].line ≠ l) →
      b.patch l mask data = { b with lines := b.lines.set r { b.lines[r] with
        data := Vector.ofFn fun k => if mask.getLsbD k then data[k] else b.lines[r].data[k]
        patch := if b.lines[r].state = .filling then b.lines[r].patch ||| mask else b.lines[r].patch } })

/-- R26, R28 to R31: the first step of a valid RD. One that an older slot blocks stays in ORDER_WAIT. Of the others, a NORMAL
read is forwarded from the youngest entry
for its line or waits for drains; a BYPASS or ORDERED read waits while the Post Queue holds it back; then the fault check;
then a NORMAL read hits, joins, allocates, or becomes an unbuffered demand, and another waits for its own line read. Post
Queue, fault tracking, tags and log stand. A NORMAL lookup of a numbered region with DEPTH above 0 gives the Stream Table a
notice (R92), which trains the entry of its SOURCE and REGION or allocates one (R93, R94); then a NEXT that the buffer holds
moves on (R98), and nothing else of the table changes. -/
def Obligations.ReadFirstStep : Prop :=
  (∀ (s : State) (header addr : Word) (data : Vector Word 8) (i : SlotIx) (x : Slot) (d : DecodeResult),
    s.Settled → s.arrivalLaw → s.linkUp = true → 0 < s.urt.granted → s.urt.lowestFree = some i → s.pctl.path ≠ .halt →
    d = s.rdec.result addr → x = { slotOfReq header addr data .orderWait with decode := some d } → x.kind = .rd →
    x.malformed = false → s.rdec.answer .rd addr = none →
    ((∃ j ∈ s.urt.arrival, s.urt.slotHas j (fun o => o.blocks x d) = true) →
      exec (.req header addr data) s = .next { s with out := [], urt := s.urt.take i x }) ∧
    ((∀ j ∈ s.urt.arrival, s.urt.slotHas j (fun o => o.blocks x d) = false) →
    ∃ t, exec (.req header addr data) s = .next t ∧
      t.pq = s.pq ∧ t.flt = s.flt ∧ t.mli = s.mli ∧ t.elog = s.elog ∧ t.pctl = s.pctl ∧ t.out = [] ∧
      (d.type = .normal → ∀ e, s.pq.youngest d.line = some e →
        t.rab = s.rab ∧ t.stt = s.stt ∧
        (maskWithin (x.mask d) e.mask = true →
          t.urt = s.urt.take i
            { x with state := .done, status := some .ok, result := takeBytes d.offset x.count e.data }) ∧
        (maskWithin (x.mask d) e.mask = false → t.urt = s.urt.take i { x with state := .drainWait })) ∧
      (d.type ≠ .normal → s.pq.holdsBack d = true →
        t.rab = s.rab ∧ t.stt = s.stt ∧ t.urt = s.urt.take i { x with state := .drainWait }) ∧
      (s.pq.holdsBack d = false → s.flt.failedBytes d.line (x.mask d) = true →
        t.rab = s.rab ∧ t.stt = s.stt ∧
        t.urt = s.urt.take i { x with state := .done, status := some .lineFault }) ∧
      (s.pq.holdsBack d = false → s.flt.failedBytes d.line (x.mask d) = false → d.type ≠ .normal →
        t.rab = s.rab ∧ t.stt = s.stt ∧ t.urt = s.urt.take i { x with state := .issueWait }) ∧
      (s.pq.holdsBack d = false → s.flt.failedBytes d.line (x.mask d) = false → d.type = .normal →
        (∀ r, s.rab.find d.line = some r → s.rab.lines[r].state = .valid →
          t.rab = s.rab.hit r ∧
          t.urt = s.urt.take i { x with
            state := .done, status := some .ok, result := takeBytes d.offset x.count s.rab.lines[r].data }) ∧
        (∀ r, s.rab.find d.line = some r → s.rab.lines[r].state = .filling →
          t.rab = s.rab.join r i ∧ t.urt = s.urt.take i { x with state := .fillWait }) ∧
        (s.rab.find d.line = none →
          t.urt = s.urt.take i { x with state := .issueWait } ∧
          (s.rab.demandVictim = none → t.rab = s.rab) ∧
          ∀ r, s.rab.demandVictim = some r →
            t.rab = s.rab.allocate r
              { state := .filling, line := d.line, data := zeroLine, patch := 0#32, region := d.region,
                origin := .demand, drop := false, waiters := [i], tag := none }) ∧
        ∃ n : Stt,
          (∀ g : RegionIx, d.region = .num g → 0 < d.depth → n = s.stt.notice x.source g d.line) ∧
          (d.region = .dflt ∨ d.depth = 0 → n = s.stt) ∧ t.stt.mark = s.stt.mark ∧
          ∀ k : StreamIx, t.stt.entries[k] = { n.entries[k] with next := t.stt.entries[k].next } ∧
            (t.rab.find n.entries[k].next = none → t.stt.entries[k] = n.entries[k])))) ∧
  ∀ (t : Stt) (src : SourceNo) (g : RegionIx) (l : LineAddr),
    (∀ k : StreamIx, t.entries[k].valid = true → t.entries[k].source = src → t.entries[k].region = g →
      (∀ j : StreamIx, j < k → ¬(t.entries[j].valid = true ∧ t.entries[j].source = src ∧ t.entries[j].region = g)) →
      ∀ e f : Stream, e = { t.entries[k] with last := l, idle := 0 } →
        f = (if l = t.entries[k].last then e
          else if e.dir = .up ∧ l = t.entries[k].last + 1#27 then
            { e with conf := min (e.conf + 1) 3, next := if e.next = l then l + 1#27 else e.next }
          else if e.dir = .down ∧ l = t.entries[k].last - 1#27 then
            { e with conf := min (e.conf + 1) 3, next := if e.next = l then l - 1#27 else e.next }
          else if e.dir = .none ∧ l = t.entries[k].last + 1#27 then { e with dir := .up, conf := 1, next := l + 1#27 }
          else if e.dir = .none ∧ l = t.entries[k].last - 1#27 then { e with dir := .down, conf := 1, next := l - 1#27 }
          else { e with dir := .none, conf := 0, next := l }) →
        t.notice src g l = { t with entries := t.entries.set k f }) ∧
    ((∀ k : StreamIx, ¬(t.entries[k].valid = true ∧ t.entries[k].source = src ∧ t.entries[k].region = g)) →
      ∃ (k : StreamIx) (f : Stream),
        f = { valid := true, source := src, region := g, last := l, dir := .none, conf := 0, next := l, idle := 0 } ∧
        t.notice src g l = { t with entries := t.entries.set k f } ∧
        ((t.entries[k].valid = false ∧ ∀ j : StreamIx, j < k → t.entries[j].valid = true) ∨
          ((∀ j : StreamIx, t.entries[j].valid = true) ∧ (∀ j : StreamIx, t.entries[j].idle ≤ t.entries[k].idle) ∧
            ∀ j : StreamIx, j < k → t.entries[j].idle < t.entries[k].idle)))

/-- R35, R36: a FENCE outside HALT seals every OPEN entry and is listed by every entry. It waits while an older write is
unsettled or in MEM_WAIT or an entry lists it, and is DONE at once otherwise, reading and clearing the flag of its
SOURCE. -/
def Obligations.FenceTakesArrivalActions : Prop :=
  ∀ (s : State) (header addr : Word) (data : Vector Word 8) (i : SlotIx) (x : Slot), s.Settled → s.arrivalLaw →
    s.linkUp = true → 0 < s.urt.granted → s.urt.lowestFree = some i → s.pctl.path ≠ .halt → reqKind header = .fence →
    x = slotOfReq header addr data .fenceWait →
    ((∃ j ∈ s.urt.arrival, s.urt.slotHas j (fun o => o.kind == .wr && (o.unsettled || o.state == .memWait)) = true) ∨
        s.pq.entries ≠ [] →
      exec (.req header addr data) s = .next { s with
        out := []
        urt := s.urt.take i x
        pq := { s.pq with entries := s.pq.entries.map fun e => { e with
          state := if e.state = .opened then .sealed else e.state
          fences := e.fences ||| slotBit i } } }) ∧
    ((∀ j ∈ s.urt.arrival, s.urt.slotHas j (fun o => o.kind == .wr && (o.unsettled || o.state == .memWait)) = false) →
        s.pq.entries = [] →
      exec (.req header addr data) s = .next { s with
        out := []
        urt := s.urt.take i { x with
          state := .done, status := some (if s.flt.flags.getLsbD x.source then .faulted else .ok) }
        flt := { s.flt with flags := s.flt.flags &&& ~~~ sourceBit x.source } })

/-! ### Responses and releases -/

/-- R38, R22: a ready signal sends the response of the oldest eligible slot and frees the slot. In RUN the response
carries CR 1 and the credit is granted again; in DRAIN it carries CR 0 and the credit is withheld, and an emptied path
enters HALT. With no eligible slot, or with the link down, nothing is sent. -/
def Obligations.RespSendsOldestEligible : Prop :=
  ∀ s : State,
    (s.linkUp = false → exec .resp s = .next { s with out := [] }) ∧
    (s.linkUp = true → (∀ j ∈ s.urt.arrival, s.urt.eligible j = false) → exec .resp s = .next { s with out := [] }) ∧
    (∀ (i : SlotIx) (x : Slot), s.Settled → s.arrivalLaw → s.linkUp = true → i ∈ s.urt.arrival →
      s.urt.slots[i] = some x → s.urt.eligible i = true →
      (∀ j ∈ s.urt.older i, s.urt.eligible j = false) →
      (s.pctl.path = .run →
        exec .resp s = .next { s with
          out := [.resp
            { kind := x.kind.respKind, source := x.source, itag := x.itag, status := x.status.getD .ok, cr := true,
              data := x.result }]
          urt := { s.urt with
            slots := s.urt.slots.set i none
            arrival := s.urt.arrival.erase i
            granted := s.urt.granted + 1 } }) ∧
      (s.pctl.path = .drain →
        exec .resp s = .next (State.haltTest { s with
          out := [.resp
            { kind := x.kind.respKind, source := x.source, itag := x.itag, status := x.status.getD .ok, cr := false,
              data := x.result }]
          urt := { s.urt with
            slots := s.urt.slots.set i none
            arrival := s.urt.arrival.erase i
            withheld := s.urt.withheld + 1 } })))

/-- The ninth law (R38): a RESP is built from a DONE slot that no older slot of its SOURCE precedes, and no other command
sends one. -/
def Obligations.ResponsesKeepSourceOrder : Prop :=
  ∀ (c : Instr) (s t : State) (r : Resp), exec c s = .next t → PortMessage.resp r ∈ t.out →
    c = .resp ∧ ∃ (i : SlotIx) (x : Slot), i ∈ s.urt.arrival ∧ s.urt.slots[i] = some x ∧ x.state = .done ∧
      r.source = x.source ∧ r.itag = x.itag ∧ r.kind = x.kind.respKind ∧ r.data = x.result ∧
      ∀ j ∈ s.urt.older i, ∀ y, s.urt.slots[j] = some y → y.source ≠ x.source

/-- R27: at ORDER_RELEASE every slot in ORDER_WAIT that no older slot blocks leaves ORDER_WAIT; afterwards no slot is
releasable. The arrival list, the credits, the requests held, the tags, the fault table, the log, the configuration stand.
R26: a slot is releasable when it is a RD or WR in ORDER_WAIT that no older slot blocks; a slot blocks when it is
line-carrying and unsettled, the two are not both reads, and they share the line, or the waiting slot is ORDERED and they share
the region. -/
def Obligations.OrderReleaseFreesUnblockedSlots : Prop :=
  (∀ s : State, ∃ t, exec .orderRelease s = .next t ∧ t.orderSettled ∧
    (∀ i ∈ s.urt.arrival, s.urt.releasable i = true → ∃ x, t.urt.slots[i] = some x ∧ x.state ≠ .orderWait) ∧
    t.urt.arrival = s.urt.arrival ∧ t.urt.granted = s.urt.granted ∧ t.urt.withheld = s.urt.withheld ∧
    (∀ j : SlotIx, (t.urt.slots[j].map fun x => (x.kind, x.source, x.itag, x.addr, x.count)) =
      s.urt.slots[j].map fun x => (x.kind, x.source, x.itag, x.addr, x.count)) ∧
    t.pins = s.pins ∧ t.rdec = s.rdec ∧ t.cfg = s.cfg ∧ t.mli = s.mli ∧ t.elog = s.elog ∧
    t.flt.entries = s.flt.entries ∧ t.flt.ovf = s.flt.ovf ∧ t.tgen = s.tgen ∧ t.rx = s.rx ∧ t.out = []) ∧
  (∀ (u : Urt) (i : SlotIx), u.releasable i = true ↔ ∃ x d, u.slots[i] = some x ∧ x.decode = some d ∧
    x.state = .orderWait ∧ (x.kind = .rd ∨ x.kind = .wr) ∧
    ∀ j ∈ u.arrival.takeWhile (fun k => k != i), ∀ o, u.slots[j] = some o → o.blocks x d = false) ∧
  ∀ (o x : Slot) (d : DecodeResult), o.blocks x d = true ↔
    ∃ od, o.decode = some od ∧ o.status ≠ some .range ∧ o.status ≠ some .protect ∧
      ((o.kind = .rd ∧ o.state ≠ .done ∧ x.kind ≠ .rd) ∨
        (o.kind = .wr ∧ (o.state = .orderWait ∨ o.state = .postWait ∨ o.state = .issueWait ∨ o.state = .held))) ∧
      (od.line = d.line ∨ (d.type = .ordered ∧ od.region = d.region))

/-- R50: the room of a removal lets the oldest POST_WAIT write merge, or else create an entry; it is DONE with OK and
leaves POST_WAIT, and the writes behind it stay. Stated where no slot is in ORDER_WAIT, so that its settling releases
none. -/
def Obligations.PostWaitRetryPostsOldest : Prop :=
  ∀ (s : State) (i : SlotIx) (rest : List SlotIx) (x : Slot) (d : DecodeResult),
    s.pq.room = true → s.urt.postWait = i :: rest → s.urt.slots[i] = some x → x.decode = some d → x.state = .postWait →
    (∀ j : SlotIx, s.urt.slotHas j (fun y => y.state == .orderWait) = false) →
    s.pq.canMerge d = true ∨ s.pq.entries.length < 16 →
    ∃ t, exec .postWaitRetry s = .next t ∧ t.urt.postWait = rest ∧
      t.urt.slots[i] = some { x with state := .done, status := some .ok, result := [], tag := none } ∧
      t.rab = s.rab.patch d.line (x.mask d) (x.lineBytes d) ∧
      (s.pq.canMerge d = true → t.pq = Queue.merge { s.pq with room := false } d.line (x.mask d) (x.lineBytes d)
        (sourceBit x.source) (s.urt.fencesYounger i)) ∧
      (s.pq.canMerge d = false → t.pq = Queue.create { s.pq with room := false } d (x.mask d) (x.lineBytes d)
        (sourceBit x.source) (s.urt.fencesYounger i)) ∧
      t.mli = s.mli ∧ t.elog = s.elog ∧ t.flt.entries = s.flt.entries ∧ t.pctl = s.pctl

/-- R28, R29, R30: every read in DRAIN_WAIT whose entries are gone goes on to the fault check: LINE_FAULT on a failed byte,
ISSUE_WAIT for a BYPASS or ORDERED read without one, read-ahead lookup for a NORMAL read. -/
def Obligations.DrainWaitReleaseGoesToFaultCheck : Prop :=
  ∀ s : State, ∃ t, exec .drainWaitRelease s = .next t ∧
    ∀ (i : SlotIx) (x : Slot) (d : DecodeResult), i ∈ s.urt.arrival → s.urt.slots[i] = some x → x.decode = some d →
      x.kind = .rd → x.state = .drainWait → s.pq.holdsBack d = false →
      (s.flt.failedBytes d.line (x.mask d) = true →
        t.urt.slots[i] = some { x with state := .done, status := some .lineFault, result := [], tag := none }) ∧
      (s.flt.failedBytes d.line (x.mask d) = false → d.type ≠ .normal →
        t.urt.slots[i] = some { x with state := .issueWait }) ∧
      (s.flt.failedBytes d.line (x.mask d) = false → d.type = .normal →
        ∃ y, t.urt.slots[i] = some y ∧
          (y.state = .fillWait ∨ y.state = .issueWait ∨ (y.state = .done ∧ y.status = some .ok)))

/-- R36, R139: at FENCE_DONE every fence whose conditions hold becomes DONE, the oldest first. The oldest of a source
reads the source's flag and clears it. Post Queue, buffer, tags, fault table and log stand. A fence whose conditions do
not hold stays in FENCE_WAIT, as every other slot stands: the conditions are that no older WR is unsettled or in MEM_WAIT and
that no entry lists the fence. -/
def Obligations.FenceDoneReadsAndClearsFlag : Prop :=
  ∀ s : State, ∃ t, exec .fenceDone s = .next t ∧ t.fencesSettled ∧
    (∀ (i : SlotIx) (x : Slot), i ∈ s.urt.arrival → s.urt.slots[i] = some x → s.fenceReady i = true →
      (∀ j ∈ s.urt.older i, ∀ y, s.urt.slots[j] = some y → s.fenceReady j = true → y.source ≠ x.source) →
      t.urt.slots[i] = some { x with
        state := .done, status := some (if s.flt.flags.getLsbD x.source then .faulted else .ok), result := [], tag := none } ∧
      t.flt.flags.getLsbD x.source = false) ∧
    (∀ i : SlotIx, s.fenceReady i = false → t.urt.slots[i] = s.urt.slots[i]) ∧
    (∀ i : SlotIx, s.fenceReady i = true ↔ ∃ x, s.urt.slots[i] = some x ∧ x.kind = .fence ∧ x.state = .fenceWait ∧
      (∀ j ∈ s.urt.arrival.takeWhile (fun k => k != i), ∀ y, s.urt.slots[j] = some y → y.kind = .wr →
        y.state ≠ .orderWait ∧ y.state ≠ .postWait ∧ y.state ≠ .issueWait ∧ y.state ≠ .held ∧ y.state ≠ .memWait) ∧
      ∀ e ∈ s.pq.entries, e.fences.getLsbD i = false) ∧
    t.pq = s.pq ∧ t.rab = s.rab ∧ t.stt = s.stt ∧ t.mli = s.mli ∧ t.elog = s.elog ∧
    t.flt.entries = s.flt.entries ∧ t.pctl = s.pctl ∧ t.pins = s.pins ∧ t.urt.arrival = s.urt.arrival ∧ t.out = []

/-- The frame of the events inside the part: the release rows, READINESS, MCPL, TICK, QUARANTINE and IDLE_EXPIRY leave the
pins, the regions, the settings, the latch, the receiver, the requests held, their order and the credits. Releases and
READINESS leave the fault table and the log; releases leave the tags; only TICK moves the time base. -/
def Obligations.InsideEventsKeepRequestsAndConfiguration : Prop :=
  ∀ (c : Instr) (s t : State),
    c = .orderRelease ∨ c = .postWaitRetry ∨ c = .drainWaitRelease ∨ c = .fenceDone ∨ c = .readiness ∨ c = .quarantine ∨
      c = .idleExpiry ∨ (∃ h d, c = .mcpl h d) ∨ (∃ o, c = .tick o) →
    exec c s = .next t →
    t.pins = s.pins ∧ t.rdec = s.rdec ∧ t.cfg = s.cfg ∧ t.pctl.latch = s.pctl.latch ∧ t.rx = s.rx ∧
      t.pending = s.pending ∧ t.urt.arrival = s.urt.arrival ∧ t.urt.granted = s.urt.granted ∧
      t.urt.withheld = s.urt.withheld ∧
      (∀ j : SlotIx, (t.urt.slots[j].map fun x => (x.kind, x.source, x.itag, x.addr, x.count)) =
        s.urt.slots[j].map fun x => (x.kind, x.source, x.itag, x.addr, x.count)) ∧
      ((∀ o, c ≠ .tick o) → t.tgen = s.tgen) ∧
      (c = .orderRelease ∨ c = .postWaitRetry ∨ c = .drainWaitRelease ∨ c = .fenceDone ∨ c = .readiness →
        t.elog = s.elog ∧ t.flt.entries = s.flt.entries ∧ t.flt.order = s.flt.order ∧ t.flt.ovf = s.flt.ovf) ∧
      (c = .orderRelease ∨ c = .postWaitRetry ∨ c = .drainWaitRelease ∨ c = .fenceDone → t.mli = s.mli ∧ t.out = [])

/-! ### Link and device resets -/

/-- R39, R40, R153: an upstream link reset discards every slot, zeroes the credits, frees the lines whose fill was not
issued and empties the waiters of the others, takes the slots' tags from their owners, clears the streams, the fence marks
and the source flags. In DRAIN with an empty Post Queue and no OUTSTANDING tag the path enters HALT. All else stands. -/
def Obligations.IlrstnAssertDiscardsSlots : Prop :=
  ∀ s t : State, s.pins.ilrstn = true → s.pins.resetn = true →
    t = { s with
      out := []
      pins := { s.pins with ilrstn := false }
      urt := { slots := Vector.replicate 8 none, arrival := [], postWait := [], granted := 0, withheld := 0 }
      rab := { s.rab with lines := Vector.ofFn fun r =>
        if s.rab.lines[r].state = .filling ∧ s.rab.lines[r].tag = none then RabLine.free
        else { s.rab.lines[r] with waiters := [] } }
      mli := Vector.ofFn fun g =>
        match s.mli[g].owner with
        | some (.slot _) => { s.mli[g] with owner := none }
        | _ => s.mli[g]
      stt := { entries := Vector.replicate 4 Stream.free, mark := 3 }
      pq := { s.pq with entries := s.pq.entries.map fun e => { e with fences := 0#8 } }
      flt := { s.flt with flags := 0#16 } } →
    (s.pctl.path ≠ .drain ∨ s.pq.entries ≠ [] ∨ (∃ g : TagIx, s.mli[g].state = .outstanding) →
      exec .ilrstnAssert s = .next t) ∧
    (s.pctl.path = .drain → s.pq.entries = [] → (∀ g : TagIx, s.mli[g].state ≠ .outstanding) →
      exec .ilrstnAssert s = .next { t with
        pctl := { s.pctl with path := .halt }
        rab := t.rab.haltEntry })

/-- R41, R21: at the deassertion of ILRSTn with RESETn high the link comes up: CREDIT 8 in RUN, 8 withheld otherwise. A
change that is none, or one under RESETn, moves no credit. -/
def Obligations.IlrstnDeassertBringsLinkUp : Prop :=
  ∀ s : State,
    (s.pins.ilrstn = false → s.pins.resetn = true → s.pctl.path = .run →
      exec .ilrstnDeassert s = .next { s with
        out := [.credit 8], pins := { s.pins with ilrstn := true },
        urt := { s.urt with granted := 8, withheld := 0 } }) ∧
    (s.pins.ilrstn = false → s.pins.resetn = true → s.pctl.path ≠ .run →
      exec .ilrstnDeassert s = .next { s with
        out := [], pins := { s.pins with ilrstn := true },
        urt := { s.urt with granted := 0, withheld := 8 } }) ∧
    (s.pins.ilrstn = true ∨ s.pins.resetn = false →
      exec .ilrstnDeassert s = .next { s with out := [], pins := { s.pins with ilrstn := true } })

/-- R154 with R16, R42, R66, R88, R104, R129, R142, R155, R158, R168, R174, R177: the assertion of RESETn returns every
block to its device-reset value, and MRSTn is asserted; only the input pins, the queue of commands and the model's own
counter (log 8) stand. -/
def Obligations.ResetnAssertResetsEveryBlock : Prop :=
  ∀ s : State, s.pins.resetn = true → ∃ t, exec .resetnAssert s = .next t ∧
    t.pins = { s.pins with resetn := false } ∧ t.mrstAsserted = true ∧ t.attn = false ∧ t.qack = false ∧
    t.rdec.regions = Vector.replicate 8
      { enable := false, base := 0#32, sizeLog := 12, type := .bypass, post := false, merge := false, depth := 0,
        deadline := 16, wprot := false, remap := 0#32 } ∧
    t.rdec.dflt = { type := .bypass, post := false, merge := false, wprot := false, deadline := 16, remap := 0#32 } ∧
    t.rdec.memTopField = 4095 ∧
    t.cfg =
      { tickDiv := 15, tickHold := false, memTimeout := 64, streamIdle := 32, pqUrgentMark := 12, attnMask := 0x09#6 } ∧
    t.urt = { slots := Vector.replicate 8 none, arrival := [], postWait := [], granted := 0, withheld := 0 } ∧
    t.pq.entries = [] ∧
    (∀ r : LineIx, t.rab.lines[r] =
      { state := .free, line := 0#27, data := zeroLine, patch := 0#32, region := .dflt, origin := .demand, drop := false,
        waiters := [], tag := none }) ∧ t.rab.recency = [] ∧
    (∀ k : StreamIx, t.stt.entries[k] =
      { valid := false, source := 0, region := 0, last := 0#27, dir := .none, conf := 0, next := 0#27, idle := 0 }) ∧ t.stt.mark = 3 ∧
    (∀ g : TagIx, t.mli[g].state = .free ∧ t.mli[g].age = 0 ∧ t.mli[g].owner = none) ∧
    (∀ f : FaultIx, t.flt.entries[f] = none) ∧ t.flt.order = [] ∧ t.flt.flags = 0#16 ∧ t.flt.ovf = false ∧
    t.elog = { records := [], dropped := 0, ovf := false } ∧ t.pctl = { path := .run, latch := false } ∧
    t.tgen.prescaler = 0 ∧ t.tgen.stamp = 0#16 ∧ t.rx = .idle ∧ t.pending = s.pending

/-- R154: the release of RESETn. With QREQ deasserted the path stays RUN, and the link, if ILRSTn is high, comes up with
CREDIT 8. With QREQ asserted the empty path ends in HALT; with the link-up taken first the 8 credits are granted, with
the rise taken first they are withheld. -/
def Obligations.ResetnReleaseTakesQreqAndLink : Prop :=
  ∀ (s : State) (order : ReleaseOrder), s.pins.resetn = false → s.pctl.path = .run → s.urt = Urt.empty →
    s.pq.entries = [] → (∀ g : TagIx, s.mli[g].state ≠ .outstanding) →
    (s.pins.qreq = false → s.pins.ilrstn = false →
      exec (.resetnRelease order) s = .next { s with out := [], pins := { s.pins with resetn := true } }) ∧
    (s.pins.qreq = false → s.pins.ilrstn = true →
      exec (.resetnRelease order) s = .next { s with
        out := [.credit 8], pins := { s.pins with resetn := true }, urt := { Urt.empty with granted := 8 } }) ∧
    (s.pins.qreq = true → s.pins.ilrstn = false →
      exec (.resetnRelease order) s = .next { s with
        out := [], pins := { s.pins with resetn := true }, pctl := { s.pctl with path := .halt },
        rab := s.rab.haltEntry, stt := Stt.empty }) ∧
    (s.pins.qreq = true → s.pins.ilrstn = true → order = .linkFirst →
      exec (.resetnRelease order) s = .next { s with
        out := [.credit 8], pins := { s.pins with resetn := true }, pctl := { s.pctl with path := .halt },
        rab := s.rab.haltEntry, stt := Stt.empty, urt := { Urt.empty with granted := 8 } }) ∧
    (s.pins.qreq = true → s.pins.ilrstn = true → order = .demandFirst →
      exec (.resetnRelease order) s = .next { s with
        out := [], pins := { s.pins with resetn := true }, pctl := { s.pctl with path := .halt },
        rab := s.rab.haltEntry, stt := Stt.empty, urt := { Urt.empty with withheld := 8 } })

/-! ### Memory Link -/

/-- R105, R109, R110: at a readiness the arbiter issues one access on the lowest FREE tag: the drain candidate when it is
urgent or no demand access is issuable, else the oldest issuable demand access, else a drain, else the prefetch offer; with
none issuable, nothing. The owner takes its own step in the same event: a direct write settles and patches the read-ahead
buffer (R34, R76), a prefetch moves NEXT of its entry one step, and past held lines (R101, R98). Nothing is presented while
RESETn is asserted. What each class offers, DeadlineMakesDrainUrgent says. -/
def Obligations.ReadinessIssuesChosenAccess : Prop :=
  ∀ s : State,
    (s.pins.resetn = false → exec .readiness s = .next { s with out := [] }) ∧
    (s.Settled → s.pins.resetn = true → s.drainOffer = none → s.demandPick = none → s.prefetchPick = none →
      exec .readiness s = .next { s with out := [] }) ∧
    (∀ (e : Entry) (g : TagIx), s.Settled → s.pins.resetn = true → Mli.lowestFree s.mli = some g →
      s.drainOffer = some e → s.urgent = true ∨ s.demandPick = none →
      exec .readiness s = .next { s with
        out := [.mreq (.lwrite g e.line e.mask e.data)]
        pq := s.pq.issue g
        mli := s.mli.set g
          { state := .outstanding, kind := .drainWrite, line := e.line, region := e.region, source := none, age := 0,
            owner := some .entry, mask := e.mask } }) ∧
    (∀ (i : SlotIx) (x : Slot) (d : DecodeResult) (g : TagIx), s.Settled → s.pins.resetn = true →
      Mli.lowestFree s.mli = some g → s.demandPick = some i → s.drainOffer = none ∨ s.urgent = false →
      s.urt.slots[i] = some x → x.decode = some d →
      (x.kind = .rd → s.rab.unissuedFillOf i = none →
        exec .readiness s = .next { s with
          out := [.mreq (.lread g d.line)]
          urt := { s.urt with slots := s.urt.slots.set i (some { x with state := .fillWait, tag := some g }) }
          mli := s.mli.set g
            { state := .outstanding, kind := .unbufferedRead, line := d.line, region := d.region,
              source := some x.source, age := 0, owner := some (.slot i), mask := 0#32 } }) ∧
      (x.kind = .rd → ∀ r, s.rab.unissuedFillOf i = some r →
        exec .readiness s = .next { s with
          out := [.mreq (.lread g d.line)]
          urt := { s.urt with slots := s.urt.slots.set i (some { x with state := .fillWait, tag := some g }) }
          rab := { s.rab with lines := s.rab.lines.set r { s.rab.lines[r] with tag := some g } }
          mli := s.mli.set g
            { state := .outstanding, kind := .demandRead, line := d.line, region := d.region, source := none, age := 0,
              owner := some (.line r), mask := 0#32 } }) ∧
      (x.kind = .wr → (∀ j : SlotIx, s.urt.slotHas j (fun y => y.state == .orderWait) = false) →
        exec .readiness s = .next { s with
          out := [.mreq (.lwrite g d.line (x.mask d) (x.lineBytes d))]
          urt := { s.urt with slots := s.urt.slots.set i (some { x with state := .memWait, tag := some g }) }
          rab := s.rab.patch d.line (x.mask d) (x.lineBytes d)
          mli := s.mli.set g
            { state := .outstanding, kind := .directWrite, line := d.line, region := d.region, source := some x.source,
              age := 0, owner := some (.slot i), mask := x.mask d } }) ∧
      (x.kind = .wr → ∃ t, exec .readiness s = .next t ∧
        t.out = [.mreq (.lwrite g d.line (x.mask d) (x.lineBytes d))] ∧
        t.urt.slots[i] = some { x with state := .memWait, tag := some g } ∧
        t.mli = s.mli.set g
          { state := .outstanding, kind := .directWrite, line := d.line, region := d.region, source := some x.source,
            age := 0, owner := some (.slot i), mask := x.mask d } ∧
        t.orderSettled ∧ t.elog = s.elog ∧ t.flt.entries = s.flt.entries ∧ t.urt.arrival = s.urt.arrival)) ∧
    (∀ (k : StreamIx) (r : LineIx) (g : TagIx), s.Settled → s.pins.resetn = true → Mli.lowestFree s.mli = some g →
      s.drainOffer = none → s.demandPick = none → s.prefetchPick = some k → s.rab.prefetchVictim = some r →
      ∃ t, exec .readiness s = .next t ∧ t.out = [.mreq (.lread g s.stt.entries[k].next)] ∧
        t.rab = s.rab.allocate r
          { state := .filling, line := s.stt.entries[k].next, data := zeroLine, patch := 0#32,
            region := .num s.stt.entries[k].region, origin := .prefetch, drop := false, waiters := [], tag := some g } ∧
        t.mli = s.mli.set g
          { state := .outstanding, kind := .prefetchRead, line := s.stt.entries[k].next,
            region := .num s.stt.entries[k].region, source := none, age := 0, owner := some (.line r), mask := 0#32 } ∧
        t.stt.mark = k ∧ (∀ j : StreamIx, t.stt.entries[j] = { s.stt.entries[j] with next := t.stt.entries[j].next }) ∧
        (∀ j : StreamIx, j ≠ k → s.stt.entries[j].next ≠ s.stt.entries[k].next → t.stt.entries[j] = s.stt.entries[j]) ∧
        (s.stt.entries[k].dir = .up → t.rab.find (s.stt.entries[k].next + 1#27) = none →
          t.stt.entries[k].next = s.stt.entries[k].next + 1#27) ∧
        (s.stt.entries[k].dir = .down → t.rab.find (s.stt.entries[k].next - 1#27) = none →
          t.stt.entries[k].next = s.stt.entries[k].next - 1#27) ∧
        t.urt = s.urt ∧ t.pq = s.pq ∧ t.flt = s.flt ∧ t.elog = s.elog)

/-- R120, R121, R106: a completion on a FREE tag leaves a STRAY_COMPLETION record and nothing else; one on a QUARANTINED
tag frees the tag and leaves a LATE_COMPLETION record; one that arrives while RESETn is asserted is not taken. -/
def Obligations.StrayAndLateCompletionsAreRecorded : Prop :=
  ∀ (s : State) (header : Word) (data : Vector Word 8) (g : TagIx), g = mcplTag header →
    (s.pins.resetn = false → exec (.mcpl header data) s = .next { s with out := [] }) ∧
    (s.Settled → s.pins.resetn = true → s.mli[g].state = .free →
      exec (.mcpl header data) s = .next { s with
        out := []
        elog := s.elog.append
          { kind := .strayCompletion, stamp := s.tgen.stamp, line := none, region := none, sources := none,
            tag := some g, count := none, untracked := none } }) ∧
    (s.Settled → s.pins.resetn = true → s.mli[g].state = .quarantined →
      exec (.mcpl header data) s = .next { s with
        out := []
        mli := s.mli.set g Tag.free
        elog := s.elog.append
          { kind := .lateCompletion, stamp := s.tgen.stamp, line := some s.mli[g].line, region := none,
            sources := none, tag := some g, count := none, untracked := none } })

/-- R60, R61, R53, R85, R138: the completion of a drain frees its tag and removes its entry; the rest of its work is
`State.DrainEnded`. OK clears the written bytes from the Faulted Line Table. FAIL records them, sets FLT_OVF when there is no
room, sets the source fault flags of SOURCES, frees the VALID read-ahead line or marks the FILLING one DROP, and leaves a
DRAIN_FAIL record whose UNTRACKED says whether the table recorded nothing. A fence whose conditions the removal makes hold is
DONE and takes the flag of its SOURCE. With no POST_WAIT write and no slot in ORDER_WAIT the other entries stand as they are. -/
def Obligations.DrainCompletionRemovesEntry : Prop :=
  ∀ (s : State) (header : Word) (data : Vector Word 8) (g : TagIx) (e : Entry), s.pins.resetn = true →
    g = mcplTag header → s.mli[g].state = .outstanding → s.mli[g].kind = .drainWrite → s.pq.ofTag g = some e →
    ∃ t, exec (.mcpl header data) s = .next t ∧ t.mli = s.mli.set g Tag.free ∧ t.out = [] ∧
      t.urt.arrival = s.urt.arrival ∧ t.urt.granted = s.urt.granted ∧ t.urt.withheld = s.urt.withheld ∧
      t.tgen = s.tgen ∧ t.rdec = s.rdec ∧
      (flag header 31 = false → s.DrainEnded t g e none) ∧ (flag header 31 = true → s.DrainEnded t g e (some .fail))

/-- R132, R133: a failure of a line that has an entry adds its bytes there and sets the kind; one of another line takes the
lowest free index and the last rank; with no free index it sets FLT_OVF and records nothing. R134: a line write that completes OK takes its bytes out of the entry of
its line, and an entry left without failed bytes goes, later ranks moving up. R85: the read-ahead buffer told that a line failed
frees its VALID line and marks its FILLING one DROP. -/
def Obligations.FaultTableRecordsFailure : Prop :=
  (∀ (f : Flt) (l : LineAddr) (mask : ByteMask) (k : FaultKind),
    (∀ (i : FaultIx) (e : FaultEntry), f.find l = some i → f.entries[i] = some e →
      f.record l mask k = { f with entries := f.entries.set i (some { e with failed := e.failed ||| mask, kind := k }) }) ∧
    (∀ i : FaultIx, f.find l = none → f.entries[i] = none → (∀ j : FaultIx, j < i → f.entries[j] ≠ none) →
      f.record l mask k = { f with
        entries := f.entries.set i (some { line := l, failed := mask, kind := k })
        order := f.order ++ [i] }) ∧
    (f.find l = none → (∀ i : FaultIx, f.entries[i] ≠ none) → f.record l mask k = { f with ovf := true })) ∧
  (∀ (f : Flt) (l : LineAddr) (mask : ByteMask),
    (f.find l = none → f.clearBytes l mask = f ∧ ∀ (i : FaultIx) (e : FaultEntry), f.entries[i] = some e → e.line ≠ l) ∧
    ∀ i : FaultIx, f.find l = some i → ∃ e, f.entries[i] = some e ∧ e.line = l ∧
      (e.failed &&& ~~~ mask = 0#32 → f.clearBytes l mask = { f with
        entries := f.entries.set i none
        order := f.order.filter fun j => j != i }) ∧
      (e.failed &&& ~~~ mask ≠ 0#32 → f.clearBytes l mask = { f with
        entries := f.entries.set i (some { e with failed := e.failed &&& ~~~ mask }) })) ∧
  ∀ (b : Rab) (l : LineAddr), b.lineFailed l =
    { lines := Vector.ofFn fun r =>
        if b.lines[r].line = l ∧ b.lines[r].state = .valid then RabLine.free
        else if b.lines[r].line = l ∧ b.lines[r].state = .filling then { b.lines[r] with drop := true }
        else b.lines[r]
      recency := b.recency.filter fun r => b.lines[r].state == .free || b.lines[r].line != l }

/-- R79 to R81: the end of a fill frees its tag. OK with DATA answers every waiter OK with its bytes of the line, memory's
bytes standing outside PATCH, and leaves no record; a FAIL, or an OK without DATA, answers every waiter MEM_FAIL and leaves
one record, whose kind the line's ORIGIN gives. Where no slot is in ORDER_WAIT and the path is not in DRAIN, the line is
then VALID and most recent, or FREE if DROP was set or the fill failed. -/
def Obligations.FillCompletionAnswersWaiters : Prop :=
  ∀ (s : State) (header : Word) (data : Vector Word 8) (g : TagIx) (r : LineIx), s.pins.resetn = true →
    g = mcplTag header → s.mli[g].state = .outstanding →
    s.mli[g].kind = .demandRead ∨ s.mli[g].kind = .prefetchRead → s.mli[g].owner = some (.line r) →
    s.rab.lines[r].state = .filling →
    (flag header 31 = false → flag header 30 = true → ∃ t, exec (.mcpl header data) s = .next t ∧
      t.mli = s.mli.set g Tag.free ∧ t.elog = s.elog ∧ t.flt.entries = s.flt.entries ∧ t.out = [] ∧
      (∀ i ∈ s.rab.lines[r].waiters, ∀ (x : Slot) (d : DecodeResult), s.urt.slots[i] = some x → x.decode = some d →
        t.urt.slots[i] = some { x with
          state := .done, status := some .ok, tag := none
          result := takeBytes d.offset x.count
            (mergeBytes s.rab.lines[r].patch s.rab.lines[r].data (lineOfWords data)) }) ∧
      ((∀ j : SlotIx, s.urt.slotHas j (fun y => y.state == .orderWait) = false) → s.pctl.path ≠ .drain →
        (s.rab.lines[r].drop = false →
          t.rab.lines[r] = { s.rab.lines[r] with
            state := .valid, patch := 0#32, waiters := [], tag := none
            data := mergeBytes s.rab.lines[r].patch s.rab.lines[r].data (lineOfWords data) } ∧
          t.rab.recency = (s.rab.recency.filter fun q => q != r) ++ [r]) ∧
        (s.rab.lines[r].drop = true → t.rab.lines[r] = RabLine.free))) ∧
    (flag header 31 = true ∨ flag header 30 = false → ∃ t, exec (.mcpl header data) s = .next t ∧
      t.mli = s.mli.set g Tag.free ∧ t.flt.entries = s.flt.entries ∧ t.out = [] ∧
      t.elog = s.elog.append
        { kind := if s.rab.lines[r].origin = .demand then .readFail else .prefetchFail, stamp := s.tgen.stamp,
          line := some s.rab.lines[r].line, region := some s.rab.lines[r].region, sources := none, tag := some g,
          count := none, untracked := none } ∧
      (∀ i ∈ s.rab.lines[r].waiters, ∀ x : Slot, s.urt.slots[i] = some x →
        t.urt.slots[i] = some { x with state := .done, status := some .memFail, result := [], tag := none }) ∧
      ((∀ j : SlotIx, s.urt.slotHas j (fun y => y.state == .orderWait) = false) → s.pctl.path ≠ .drain →
        t.rab.lines[r] = RabLine.free))

/-- R32, R34, R119: the end of an own line read or a direct write frees its tag and answers its slot. An own line read is
DONE with OK and its bytes, or MEM_FAIL with a READ_FAIL record; a direct write is DONE with OK, its bytes leaving the
Faulted Line Table, or MEM_FAIL with a WRITE_FAIL record, and its failure frees the VALID read-ahead line or marks the FILLING one
DROP (R85; said where no slot is in ORDER_WAIT and the path is not in DRAIN). R118, R128: where the owner is gone the slot's part
alone is lost: the tag is freed, the table and the buffer are told, the record is made, and nothing else happens; a path in DRAIN
that this empties enters HALT. -/
def Obligations.SlotAccessCompletionAnswersSlot : Prop :=
  (∀ (s : State) (header : Word) (data : Vector Word 8) (g : TagIx) (i : SlotIx) (x : Slot) (d : DecodeResult),
    s.pins.resetn = true → g = mcplTag header → s.mli[g].state = .outstanding → s.mli[g].owner = some (.slot i) →
    s.urt.slots[i] = some x → x.decode = some d →
    (s.mli[g].kind = .unbufferedRead → flag header 31 = false → flag header 30 = true →
      ∃ t, exec (.mcpl header data) s = .next t ∧ t.mli = s.mli.set g Tag.free ∧ t.elog = s.elog ∧
        t.flt.entries = s.flt.entries ∧
        t.urt.slots[i] = some { x with
          state := .done, status := some .ok, result := takeBytes d.offset x.count (lineOfWords data), tag := none }) ∧
    (s.mli[g].kind = .unbufferedRead → flag header 31 = true ∨ flag header 30 = false →
      ∃ t, exec (.mcpl header data) s = .next t ∧ t.mli = s.mli.set g Tag.free ∧ t.flt.entries = s.flt.entries ∧
        t.urt.slots[i] = some { x with state := .done, status := some .memFail, result := [], tag := none } ∧
        t.elog = s.elog.append
          { kind := .readFail, stamp := s.tgen.stamp, line := some s.mli[g].line, region := some s.mli[g].region,
            sources := s.mli[g].source.map sourceBit, tag := some g, count := none, untracked := none }) ∧
    (s.mli[g].kind = .directWrite → flag header 31 = false →
      ∃ t, exec (.mcpl header data) s = .next t ∧ t.mli = s.mli.set g Tag.free ∧ t.elog = s.elog ∧
        t.flt.entries = (s.flt.clearBytes s.mli[g].line s.mli[g].mask).entries ∧
        t.urt.slots[i] = some { x with state := .done, status := some .ok, result := [], tag := none } ∧
        ((∀ j : SlotIx, s.urt.slotHas j (fun y => y.state == .orderWait) = false) → s.pctl.path ≠ .drain →
          t.rab = s.rab)) ∧
    (s.mli[g].kind = .directWrite → flag header 31 = true →
      ∃ t, exec (.mcpl header data) s = .next t ∧ t.mli = s.mli.set g Tag.free ∧ t.flt.entries = s.flt.entries ∧
        t.urt.slots[i] = some { x with state := .done, status := some .memFail, result := [], tag := none } ∧
        t.elog = s.elog.append
          { kind := .writeFail, stamp := s.tgen.stamp, line := some s.mli[g].line, region := some s.mli[g].region,
            sources := s.mli[g].source.map sourceBit, tag := some g, count := none, untracked := none } ∧
        ((∀ j : SlotIx, s.urt.slotHas j (fun y => y.state == .orderWait) = false) → s.pctl.path ≠ .drain →
          t.rab = s.rab.lineFailed s.mli[g].line))) ∧
  ∀ (s : State) (header : Word) (data : Vector Word 8) (g : TagIx), s.Settled → s.pins.resetn = true →
    g = mcplTag header → s.mli[g].state = .outstanding → s.mli[g].owner = none →
    (s.mli[g].kind = .unbufferedRead → flag header 31 = false → flag header 30 = true →
      exec (.mcpl header data) s = .next (State.haltTest { s with out := [], mli := s.mli.set g Tag.free })) ∧
    (s.mli[g].kind = .unbufferedRead → flag header 31 = true ∨ flag header 30 = false →
      exec (.mcpl header data) s = .next (State.haltTest { s with
        out := []
        mli := s.mli.set g Tag.free
        elog := s.elog.append
          { kind := .readFail, stamp := s.tgen.stamp, line := some s.mli[g].line, region := some s.mli[g].region,
            sources := s.mli[g].source.map sourceBit, tag := some g, count := none, untracked := none } })) ∧
    (s.mli[g].kind = .directWrite → flag header 31 = false →
      exec (.mcpl header data) s = .next (State.haltTest { s with
        out := []
        mli := s.mli.set g Tag.free
        flt := s.flt.clearBytes s.mli[g].line s.mli[g].mask })) ∧
    (s.mli[g].kind = .directWrite → flag header 31 = true →
      exec (.mcpl header data) s = .next (State.haltTest { s with
        out := []
        mli := s.mli.set g Tag.free
        rab := s.rab.lineFailed s.mli[g].line
        elog := s.elog.append
          { kind := .writeFail, stamp := s.tgen.stamp, line := some s.mli[g].line, region := some s.mli[g].region,
            sources := s.mli[g].source.map sourceBit, tag := some g, count := none, untracked := none } }))

/-! ### Time -/

/-- R155, R158, R58, R95, R122: a tick raises the stamp by one and returns the prescaler to 0; every OUTSTANDING tag ages
and is quarantined when its AGE reaches MEM_TIMEOUT. Where none is due, entries and streams age, idle streams are freed,
and nothing else changes, whatever the order of the owners. Where tags are due, the Memory Link interface takes their timeouts
(R122; `State.quarantineDue`, which DueTagsAndIdleStreamsExpire says tag by tag) with the owners before it in the order already
aged and the others aged after it. No tick comes while RESETn is asserted or TICK_HOLD is 1. -/
def Obligations.TickAdvancesAges : Prop :=
  ∀ (s : State) (order : TickOrder),
    (s.pins.resetn = false ∨ s.cfg.tickHold = true → exec (.tick order) s = .next { s with out := [] }) ∧
    (s.pins.resetn = true → s.cfg.tickHold = false →
      ∃ t, exec (.tick order) s = .next t ∧
        t.tgen = { s.tgen with
          prescaler := 0, stamp := s.tgen.stamp + 1#16, timeoutInForce := s.cfg.memTimeout,
          idleInForce := s.cfg.streamIdle } ∧
        (∀ g : TagIx, s.mli[g].state ≠ .outstanding → t.mli[g] = s.mli[g]) ∧
        (∀ g : TagIx, s.mli[g].state = .outstanding → min (s.mli[g].age + 1) 255 < s.cfg.memTimeout →
          t.mli[g] = { s.mli[g] with age := min (s.mli[g].age + 1) 255 }) ∧
        (∀ g : TagIx, s.mli[g].state = .outstanding → s.cfg.memTimeout ≤ min (s.mli[g].age + 1) 255 →
          t.mli[g] = { s.mli[g] with state := .quarantined, owner := none, age := min (s.mli[g].age + 1) 255 }) ∧
        t.cfg = s.cfg ∧ t.rdec = s.rdec ∧ t.pins = s.pins ∧ t.urt.arrival = s.urt.arrival ∧
        t.urt.granted = s.urt.granted ∧ t.urt.withheld = s.urt.withheld ∧ t.out = []) ∧
    (s.Settled → s.pins.resetn = true → s.cfg.tickHold = false →
      (∀ g : TagIx, s.mli[g].state = .outstanding → min (s.mli[g].age + 1) 255 < s.cfg.memTimeout) →
      exec (.tick order) s = .next { s with
        out := []
        tgen := { s.tgen with
          prescaler := 0, stamp := s.tgen.stamp + 1#16, timeoutInForce := s.cfg.memTimeout,
          idleInForce := s.cfg.streamIdle }
        pq := { s.pq with entries := s.pq.entries.map fun e => { e with age := min (e.age + 1) 255 } }
        mli := Vector.ofFn fun g =>
          if s.mli[g].state = .outstanding then { s.mli[g] with age := min (s.mli[g].age + 1) 255 } else s.mli[g]
        stt := { s.stt with entries := Vector.ofFn fun k =>
          if s.stt.entries[k].valid = false then s.stt.entries[k]
          else if s.cfg.streamIdle ≤ min (s.stt.entries[k].idle + 1) 255 then Stream.free
          else { s.stt.entries[k] with idle := min (s.stt.entries[k].idle + 1) 255 } } }) ∧
    (s.pins.resetn = true → s.cfg.tickHold = false →
      ∃ u,
        u = State.quarantineDue { s with
          out := []
          tgen := { s.tgen with
            prescaler := 0, stamp := s.tgen.stamp + 1#16, timeoutInForce := s.cfg.memTimeout,
            idleInForce := s.cfg.streamIdle }
          pq := if order.queueFirst = true then s.pq.age else s.pq
          mli := Vector.ofFn fun g =>
            if s.mli[g].state = .outstanding then { s.mli[g] with age := min (s.mli[g].age + 1) 255 } else s.mli[g]
          stt := if order.streamsFirst = true then s.stt.ageIdle.expire s.cfg.streamIdle else s.stt } ∧
        exec (.tick order) s = .next (State.close { u with
          pq := if order.queueFirst = true then u.pq else u.pq.age
          stt := if order.streamsFirst = true then u.stt else u.stt.ageIdle.expire s.cfg.streamIdle }))

/-- R122, R95 (log 4, log 5): at QUARANTINE every OUTSTANDING tag whose AGE is at or above the limit in force is
QUARANTINED, its OWNER absent, and no other tag changes; at IDLE_EXPIRY every stream entry whose IDLE is at or above the
limit in force is freed, and nothing else changes. R122 takes the due tags one by one in increasing number, each with all its
steps: the tag is QUARANTINED and told to its owner as TIMEOUT. The waiters of a fill are DONE with TIMEOUT and its line is FREE
(R82); the slot of an own line read or a direct write is DONE with TIMEOUT (R32, R34), the direct write's read-ahead line is
freed or marked DROP (R85); the entry of a drain is removed, its bytes recorded TIMEOUT, its SOURCES flagged (R62, R138). One
record is made (R119, R82, R62). Where the owner is gone, only the slot's part is skipped (R128; log 10). -/
def Obligations.DueTagsAndIdleStreamsExpire : Prop :=
  (∀ s : State,
    (∃ t, exec .quarantine s = .next t ∧
      (∀ g : TagIx, t.mli[g] =
        if s.mli[g].state = .outstanding ∧ s.tgen.timeoutInForce ≤ s.mli[g].age then
          { s.mli[g] with state := .quarantined, owner := none }
        else s.mli[g]) ∧
      t.tgen = s.tgen ∧ t.cfg = s.cfg ∧ t.rdec = s.rdec ∧ t.pins = s.pins ∧ t.urt.arrival = s.urt.arrival ∧
      t.urt.granted = s.urt.granted ∧ t.urt.withheld = s.urt.withheld ∧ t.out = []) ∧
    exec .idleExpiry s = .next { s with
      out := []
      stt := { s.stt with entries := Vector.ofFn fun k =>
        if s.stt.entries[k].valid = true ∧ s.tgen.idleInForce ≤ s.stt.entries[k].idle then Stream.free
        else s.stt.entries[k] } } ∧
    exec .quarantine s = .next (State.quarantineDue { s with out := [] }).close ∧
    s.quarantineDue = ((List.finRange 16).filter fun g =>
      s.mli[g].state == .outstanding && decide (s.tgen.timeoutInForce ≤ s.mli[g].age)).foldl State.quarantineTag s) ∧
  ∀ (s u : State) (g : TagIx), s.mli[g].state = .outstanding → u = s.quarantineTag g →
    u.mli = s.mli.set g { s.mli[g] with state := .quarantined, owner := none } ∧ u.tgen = s.tgen ∧ u.pctl = s.pctl ∧
    u.cfg = s.cfg ∧ u.rdec = s.rdec ∧ u.pins = s.pins ∧ u.urt.arrival = s.urt.arrival ∧ u.out = s.out ∧
    (∀ r : LineIx, s.mli[g].kind = .demandRead ∨ s.mli[g].kind = .prefetchRead → s.mli[g].owner = some (.line r) →
      u.flt.entries = s.flt.entries ∧
      u.elog = s.elog.append
        { kind := if s.rab.lines[r].origin = .demand then .readTimeout else .prefetchTimeout, stamp := s.tgen.stamp,
          line := some s.rab.lines[r].line, region := some s.rab.lines[r].region, sources := none, tag := some g,
          count := none, untracked := none } ∧
      (∀ i ∈ s.rab.lines[r].waiters, ∀ x : Slot, s.urt.slots[i] = some x →
        u.urt.slots[i] = some { x with state := .done, status := some .timeout, result := [], tag := none }) ∧
      ((∀ j : SlotIx, s.urt.slotHas j (fun y => y.state == .orderWait) = false) →
        u.rab = { lines := s.rab.lines.set r RabLine.free, recency := s.rab.recency.filter fun q => q != r })) ∧
    (s.mli[g].kind = .unbufferedRead ∨ s.mli[g].kind = .directWrite →
      u.flt.entries = s.flt.entries ∧
      u.elog = s.elog.append
        { kind := if s.mli[g].kind = .directWrite then .writeTimeout else .readTimeout, stamp := s.tgen.stamp,
          line := some s.mli[g].line, region := some s.mli[g].region, sources := s.mli[g].source.map sourceBit,
          tag := some g, count := none, untracked := none } ∧
      (∀ (i : SlotIx) (x : Slot), s.mli[g].owner = some (.slot i) → s.urt.slots[i] = some x →
        u.urt.slots[i] = some { x with state := .done, status := some .timeout, result := [], tag := none }) ∧
      ((∀ j : SlotIx, s.urt.slotHas j (fun y => y.state == .orderWait) = false) →
        u.rab = if s.mli[g].kind = .directWrite then s.rab.lineFailed s.mli[g].line else s.rab) ∧
      (s.Settled → s.mli[g].owner = none →
        u = { s with
          mli := u.mli
          elog := u.elog
          rab := if s.mli[g].kind = .directWrite then s.rab.lineFailed s.mli[g].line else s.rab })) ∧
    ∀ e, s.mli[g].kind = .drainWrite → s.pq.ofTag g = some e → s.DrainEnded u g e (some .timeout)

/-- R57, R58: DEADLINE_REACHED changes nothing stored. Draining is urgent exactly while the candidate's AGE is at or above
its DEADLINE, the count is at or above PQ_URGENT_MARK, a fence waits, or the path is DRAIN. R54: the drain offer is the oldest
unissued entry, while fewer than four are ISSUED, a tag is FREE and no access holds its line. R112, R115: the demand offer is the
oldest read or direct write in ISSUE_WAIT whose line no line write, for a write also no line read and no entry, holds back. R96,
R100, R113: the prefetch offer is the first proposing stream after the rotation mark, while more than four tags are FREE and the
buffer has a line to give. -/
def Obligations.DeadlineMakesDrainUrgent : Prop :=
  ∀ s : State, exec .deadlineReached s = .next { s with out := [] } ∧
    (s.urgent = true ↔
      (∃ e, s.pq.candidate = some e ∧ e.deadline ≤ e.age) ∨ s.cfg.pqUrgentMark ≤ s.pq.entries.length ∨
      (∃ (i : SlotIx) (x : Slot), s.urt.slots[i] = some x ∧ x.state = .fenceWait) ∨ s.pctl.path = .drain) ∧
    (∀ e : Entry, s.drainOffer = some e ↔
      (∃ older younger, s.pq.entries = older ++ e :: younger ∧ e.state ≠ .issued ∧ ∀ y ∈ older, y.state = .issued) ∧
      (s.pq.entries.countP fun y => y.state == .issued) < 4 ∧ (∃ g : TagIx, s.mli[g].state = .free) ∧
      ∀ g : TagIx, s.mli[g].line = e.line →
        s.mli[g].state ≠ .outstanding ∧ (s.mli[g].state = .quarantined → s.mli[g].kind.isWrite = false)) ∧
    (∀ i : SlotIx, s.demandPick = some i ↔
      ∃ older younger, s.urt.arrival = older ++ i :: younger ∧ s.demandIssuable i = true ∧
        ∀ j ∈ older, s.demandIssuable j = false) ∧
    (∀ i : SlotIx, s.demandIssuable i = true ↔
      ∃ x d, s.urt.slots[i] = some x ∧ x.decode = some d ∧ x.state = .issueWait ∧ (∃ g : TagIx, s.mli[g].state = .free) ∧
        ((x.kind = .rd ∧ ∀ g : TagIx, s.mli[g].line = d.line → s.mli[g].kind.isWrite = true → s.mli[g].state = .free) ∨
          (x.kind = .wr ∧ (∀ y ∈ s.pq.entries, y.line ≠ d.line) ∧
            ∀ g : TagIx, s.mli[g].line = d.line →
              s.mli[g].state ≠ .outstanding ∧ (s.mli[g].state = .quarantined → s.mli[g].kind.isWrite = false)))) ∧
    (∀ k : StreamIx, s.prefetchPick = some k ↔
      4 < (s.mli.toList.countP fun x => x.state == .free) ∧
      ((∃ r : LineIx, s.rab.lines[r].state = .free) ∨ ∃ r ∈ s.rab.recency, s.rab.lines[r].origin = .demand) ∧
      s.proposing k = true ∧ ∀ j : StreamIx, j - s.stt.mark - 1 < k - s.stt.mark - 1 → s.proposing j = false) ∧
    ∀ (k : StreamIx) (e : Stream), e = s.stt.entries[k] → (s.proposing k = true ↔
      e.valid = true ∧ 2 ≤ e.conf ∧ e.dir ≠ .none ∧ e.lead ≤ s.rdec.depthReported e.region ∧
        s.rdec.inRange e.region e.next = true ∧ s.pctl.path = .run ∧
        (∀ r : LineIx, s.rab.lines[r].state = .free ∨ s.rab.lines[r].line ≠ e.next) ∧
        (∀ y ∈ s.pq.entries, y.line ≠ e.next) ∧
        ∀ g : TagIx, s.mli[g].line = e.next → s.mli[g].kind.isWrite = true → s.mli[g].state = .free)

/-! ### Quiesce -/

/-- R143, R145, R147, R149: demand rises at the assertion of QREQ with the latch 0, or at QUIESCE with QREQ deasserted and
the latch 0. From RUN the path goes to DRAIN, and in the same event on to HALT when it is empty. A rise of one source under
the other, or under RESETn, moves nothing else. -/
def Obligations.DemandRise : Prop :=
  ∀ s : State,
    (s.pins.qreq = true ∨ s.pins.resetn = false ∨ s.pctl.latch = true →
      exec .qreqAssert s = .next { s with out := [], pins := { s.pins with qreq := true } }) ∧
    (s.Settled → s.pins.qreq = false → s.pins.resetn = true → s.pctl.latch = false → s.pctl.path = .run →
      (s.urt.arrival ≠ [] ∨ s.pq.entries ≠ [] ∨ (∃ g : TagIx, s.mli[g].state = .outstanding) →
        exec .qreqAssert s = .next { s with
          out := [], pins := { s.pins with qreq := true }, pctl := { s.pctl with path := .drain } }) ∧
      (s.urt.arrival = [] → s.pq.entries = [] → (∀ g : TagIx, s.mli[g].state ≠ .outstanding) →
        exec .qreqAssert s = .next { s with
          out := [], pins := { s.pins with qreq := true }, pctl := { s.pctl with path := .halt },
          rab := s.rab.haltEntry, stt := Stt.empty })) ∧
    ∀ arg : Word, s.Settled → s.frameStart →
      (s.pins.qreq = true ∨ s.pctl.latch = true →
        exec (.quiesce arg) s = .next { s with
          out := fillerOut 7, rx := .answering .ok, pctl := { s.pctl with latch := true } }) ∧
      (s.pins.qreq = false → s.pctl.latch = false → s.pctl.path = .run →
        s.urt.arrival ≠ [] ∨ s.pq.entries ≠ [] ∨ (∃ g : TagIx, s.mli[g].state = .outstanding) →
        exec (.quiesce arg) s = .next { s with
          out := fillerOut 7, rx := .answering .ok, pctl := { path := .drain, latch := true } }) ∧
      (s.pins.qreq = false → s.pctl.latch = false → s.pctl.path = .run → s.urt.arrival = [] → s.pq.entries = [] →
        (∀ g : TagIx, s.mli[g].state ≠ .outstanding) →
        exec (.quiesce arg) s = .next { s with
          out := fillerOut 7, rx := .answering .ok, pctl := { path := .halt, latch := true },
          rab := s.rab.haltEntry, stt := Stt.empty })

/-- R143, R151, R152: demand falls at the deassertion of QREQ with the latch 0, or at RESUME with QREQ deasserted and the
latch 1. From DRAIN, and from HALT with no HELD slot, the path returns to RUN, the withheld credits are granted and sent
in one CREDIT if the link is up, and nothing else changes. -/
def Obligations.DemandFall : Prop :=
  ∀ s : State,
    (s.pins.qreq = false ∨ s.pins.resetn = false ∨ s.pctl.latch = true →
      exec .qreqDeassert s = .next { s with out := [], pins := { s.pins with qreq := false } }) ∧
    (s.Settled → s.pins.qreq = true → s.pins.resetn = true → s.pctl.latch = false →
      s.pctl.path = .drain ∨ (s.pctl.path = .halt ∧ ∀ j : SlotIx, s.urt.slotHas j (fun x => x.state == .held) = false) →
      (s.linkUp = true → 0 < s.urt.withheld →
        exec .qreqDeassert s = .next { s with
          out := [.credit s.urt.withheld], pins := { s.pins with qreq := false }, pctl := { s.pctl with path := .run },
          urt := { s.urt with granted := s.urt.granted + s.urt.withheld, withheld := 0 } }) ∧
      (s.linkUp = false ∨ s.urt.withheld = 0 →
        exec .qreqDeassert s = .next { s with
          out := [], pins := { s.pins with qreq := false }, pctl := { s.pctl with path := .run } })) ∧
    ∀ arg : Word, s.Settled → s.frameStart →
      (s.pins.qreq = true ∨ s.pctl.latch = false →
        exec (.resume arg) s = .next { s with
          out := fillerOut 7, rx := .answering .ok, pctl := { s.pctl with latch := false } }) ∧
      (s.pins.qreq = false → s.pctl.latch = true →
        s.pctl.path = .drain ∨
          (s.pctl.path = .halt ∧ ∀ j : SlotIx, s.urt.slotHas j (fun x => x.state == .held) = false) →
        (s.linkUp = true → 0 < s.urt.withheld →
          exec (.resume arg) s = .next { s with
            out := fillerOut 7 ++ [.credit s.urt.withheld], rx := .answering .ok, pctl := { path := .run, latch := false },
            urt := { s.urt with granted := s.urt.granted + s.urt.withheld, withheld := 0 } }) ∧
        (s.linkUp = false ∨ s.urt.withheld = 0 →
          exec (.resume arg) s = .next { s with
            out := fillerOut 7, rx := .answering .ok, pctl := { path := .run, latch := false } }))

/-- R152, R37: when demand falls in HALT every HELD slot leaves HELD in that event, tested and decoded against the region
table as it stands; the withheld credits are granted if the link is up; the requests, their order, the tags, the log and the
configuration stand, and the path is RUN. -/
def Obligations.HeldRequestsAreReleased : Prop :=
  ∀ (c : Instr) (s : State), s.arrivalLaw → s.pctl.path = .halt → s.pins.resetn = true →
    (c = .qreqDeassert ∧ s.pins.qreq = true ∧ s.pctl.latch = false) ∨
      (∃ arg, c = .resume arg ∧ s.frameStart ∧ s.pins.qreq = false ∧ s.pctl.latch = true) →
    ∃ t, exec c s = .next t ∧
      (∀ (i : SlotIx) (x : Slot), t.urt.slots[i] = some x → x.state ≠ .held) ∧
      (∀ (i : SlotIx) (x : Slot), s.urt.slots[i] = some x → x.state = .held → x.malformed = true →
        t.urt.slots[i] = some { x with data := zeroLine, decode := none, state := .done, status := some .malformed }) ∧
      (∀ (i : SlotIx) (x : Slot), s.urt.slots[i] = some x → x.state = .held → x.malformed = false → x.kind ≠ .fence →
        ∃ y, t.urt.slots[i] = some y ∧ y.decode = some (s.rdec.result x.addr)) ∧
      (∀ j : SlotIx, (t.urt.slots[j].map fun x => (x.kind, x.source, x.itag, x.addr, x.count)) =
        s.urt.slots[j].map fun x => (x.kind, x.source, x.itag, x.addr, x.count)) ∧
      t.urt.arrival = s.urt.arrival ∧
      (s.linkUp = true → t.urt.granted = s.urt.granted + s.urt.withheld ∧ t.urt.withheld = 0) ∧
      t.pctl.path = .run ∧ t.qack = false ∧ t.mli = s.mli ∧ t.elog = s.elog ∧ t.rdec = s.rdec ∧ t.cfg = s.cfg ∧
      t.flt.entries = s.flt.entries ∧ t.tgen = s.tgen

/-- R147, R149: at HALT_ENTRY a path in DRAIN without a slot, an entry and an OUTSTANDING tag enters HALT: VALID lines and
stream entries are freed, QACK is asserted, HALTED holds, all else stands. Otherwise nothing changes. -/
def Obligations.HaltEntryEmptiesBufferAndStreams : Prop :=
  ∀ s : State,
    (s.pctl.path ≠ .drain ∨ s.urt.arrival ≠ [] ∨ s.pq.entries ≠ [] ∨ (∃ g : TagIx, s.mli[g].state = .outstanding) →
      exec .haltEntry s = .next { s with out := [] }) ∧
    (s.pctl.path = .drain → s.urt.arrival = [] → s.pq.entries = [] → (∀ g : TagIx, s.mli[g].state ≠ .outstanding) →
      ∃ t, exec .haltEntry s = .next t ∧ t.qack = true ∧ t.causeHolds .halted = true ∧
        t = { s with
          out := []
          pctl := { s.pctl with path := .halt }
          rab :=
            { lines := Vector.ofFn fun r => if s.rab.lines[r].state = .valid then RabLine.free else s.rab.lines[r],
              recency := [] }
          stt := { entries := Vector.replicate 4 Stream.free, mark := 3 } })

/-! ### Management Port -/

/-- R172, R174: a fall of MSSn while RESETn is high starts a frame, a rise ends it; a change that is none moves nothing. While
MSSn is high the port does not run. Bytes that come in IDLE, in TRAIL, or while RESETn is asserted are not taken, and MSO shows
FFh. Bytes that come in REPLY are not taken either: they shift bits of the reply out, keep its status and object, and change
nothing else. -/
def Obligations.ReceiverTakesFrames : Prop :=
  ∀ s : State,
    (s.pins.mssn = true → s.pins.resetn = true →
      exec .mssnFall s = .next { s with out := [], pins := { s.pins with mssn := false }, rx := .request [] [] }) ∧
    (s.pins.mssn = false ∨ s.pins.resetn = false →
      exec .mssnFall s = .next { s with out := [], pins := { s.pins with mssn := false } }) ∧
    (s.pins.mssn = false →
      exec .mssnRise s = .next { s with out := [], pins := { s.pins with mssn := true }, rx := .idle }) ∧
    (s.pins.mssn = true → exec .mssnRise s = .next { s with out := [] }) ∧
    (∀ c : Instr, c.isFrame = true → s.pins.mssn = true → exec c s = .next { s with out := [] }) ∧
    (∀ c : Instr, c.isFrame = true → s.pins.mssn = false →
      s.rx = .idle ∨ s.rx = .trail ∨ (s.pins.resetn = false ∧ ∀ r, s.rx ≠ .reply r) →
      ∃ n, exec c s = .next { s with out := fillerOut n }) ∧
    (∀ (c : Instr) (r : Reply), c.isFrame = true → s.pins.mssn = false → s.rx = .reply r →
      ∃ t, exec c s = .next t ∧ t = { s with out := t.out, rx := t.rx } ∧ (∀ m ∈ t.out, ∃ level, m = .mso level) ∧
        (t.rx = .trail ∨ ∃ r', t.rx = .reply r' ∧ r'.status = r.status ∧ r'.object = r.object ∧ r.clocked < r'.clocked))

/-- R84, R103: INVALIDATE_RAB frees every VALID line and every stream entry, sets DROP on every FILLING line, empties the
recency list, returns the mark to 3, and is answered OK; all else stands. -/
def Obligations.InvalidateRabForgetsLinesAndStreams : Prop :=
  ∀ (s : State) (arg : Word), s.Settled → s.frameStart →
    exec (.invalidateRab arg) s = .next { s with
      out := fillerOut 7
      rx := .answering .ok
      rab :=
        { lines := Vector.ofFn fun r =>
            match s.rab.lines[r].state with
            | .free => s.rab.lines[r]
            | .valid => RabLine.free
            | .filling => { s.rab.lines[r] with drop := true }
          recency := [] }
      stt := { entries := Vector.replicate 4 Stream.free, mark := 3 } }

/-- R166: POP_LOG removes the oldest record with status OK; with the log empty it is REFUSED and changes nothing. DROPPED
and LOG_OVF stand. -/
def Obligations.PopLogRemovesOldest : Prop :=
  ∀ (s : State) (arg : Word), s.frameStart →
    (∀ (r : LogRecord) (rest : List LogRecord), s.elog.records = r :: rest →
      exec (.popLog arg) s = .next { s with
        out := fillerOut 7, rx := .answering .ok, elog := { s.elog with records := rest } }) ∧
    (s.elog.records = [] → exec (.popLog arg) s = .next { s with out := fillerOut 7, rx := .answering .refused })

/-- R167: CLEAR_LOG removes every record, sets DROPPED to 0, leaves LOG_OVF, and its status is OK. -/
def Obligations.ClearLogEmptiesLog : Prop :=
  ∀ (s : State) (arg : Word), s.frameStart →
    exec (.clearLog arg) s = .next { s with
      out := fillerOut 7, rx := .answering .ok, elog := { s.elog with records := [], dropped := 0 } }

/-- R135, R181: CLEAR_FAULT with an index removes the entry there, later ranks moving up, or is REFUSED where the index is
free; ALL removes every entry; any other argument is BAD_VALUE. Source flags, FLT_OVF and the log stand. -/
def Obligations.ClearFaultRemovesNamedEntry : Prop :=
  ∀ (s : State) (arg : Word), s.frameStart →
    (∀ i : FaultIx, arg.toNat = i.val → s.flt.entries[i] ≠ none →
      exec (.clearFault arg) s = .next { s with
        out := fillerOut 7
        rx := .answering .ok
        flt := { s.flt with entries := s.flt.entries.set i none, order := s.flt.order.filter fun j => j != i } }) ∧
    (∀ i : FaultIx, arg.toNat = i.val → s.flt.entries[i] = none →
      exec (.clearFault arg) s = .next { s with out := fillerOut 7, rx := .answering .refused }) ∧
    (arg.toNat = 0x100 →
      exec (.clearFault arg) s = .next { s with
        out := fillerOut 7
        rx := .answering .ok
        flt := { s.flt with entries := Vector.replicate 8 none, order := [] } }) ∧
    (8 ≤ arg.toNat → arg.toNat ≠ 0x100 →
      exec (.clearFault arg) s = .next { s with out := fillerOut 7, rx := .answering .badValue })

/-- R126: RECLAIM_TAGS frees every QUARANTINED tag and appends one RECLAIM record with their number, 0 included; OUTSTANDING
and FREE tags and all else stand. -/
def Obligations.ReclaimFreesQuarantinedTags : Prop :=
  ∀ (s : State) (arg : Word), s.Settled → s.frameStart →
    exec (.reclaimTags arg) s = .next { s with
      out := fillerOut 7
      rx := .answering .ok
      mli := Vector.ofFn fun g => if s.mli[g].state = .quarantined then Tag.free else s.mli[g]
      elog := s.elog.append
        { kind := .reclaim, stamp := s.tgen.stamp, line := none, region := none, sources := none, tag := none,
          count := some (s.mli.toList.countP fun x => x.state == .quarantined), untracked := none } }

/-- R171: ACK_FLAGS clears LOG_OVF and FLT_OVF together and is answered OK; no record, DROPPED or entry changes. -/
def Obligations.AckFlagsClearsBothFlags : Prop :=
  ∀ (s : State) (arg : Word), s.frameStart →
    exec (.ackFlags arg) s = .next { s with
      out := fillerOut 7, rx := .answering .ok, elog := { s.elog with ovf := false }, flt := { s.flt with ovf := false } }

/-- R177 with R3, R95, R123, R156, R157, R170, R59: a frame of the global configuration object, by any of its seven rows. If
every selected word is in range the selected settings are written together and the prescaler ends as R177 says; otherwise
BAD_VALUE, and nothing changes. Only a new MEM_TOP can reach the streams, and only their NEXT (R98). -/
def Obligations.GlobalFrameWritesSelectedSettings : Prop :=
  ∀ (c : Instr) (f : GlobalFrame) (s : State), c.globalFrameOf = some f → s.frameStart →
    ((f.select.toNat < 128 ∧ (f.select.getLsbD 0 = true → f.memTop.toNat ≤ 4095) ∧
        (f.select.getLsbD 1 = true → f.tickDiv.toNat ≤ 255) ∧ (f.select.getLsbD 2 = true → f.tickHold.toNat ≤ 1) ∧
        (f.select.getLsbD 3 = true → 1 ≤ f.memTimeout.toNat ∧ f.memTimeout.toNat ≤ 255) ∧
        (f.select.getLsbD 4 = true → 1 ≤ f.streamIdle.toNat ∧ f.streamIdle.toNat ≤ 255) ∧
        (f.select.getLsbD 5 = true → 1 ≤ f.pqUrgentMark.toNat ∧ f.pqUrgentMark.toNat ≤ 16)) → s.Settled →
      ∃ stt' : Stt, (f.select.getLsbD 0 = false → stt' = s.stt) ∧ stt'.mark = s.stt.mark ∧
        (∀ k : StreamIx, stt'.entries[k] = { s.stt.entries[k] with next := stt'.entries[k].next }) ∧
        exec c s = .next { s with
          out := fillerOut 35
          rx := .answering .ok
          stt := stt'
          rdec := { s.rdec with
            memTopField := if f.select.getLsbD 0 then f.memTop.toNat else s.rdec.memTopField }
          cfg :=
            { tickDiv := if f.select.getLsbD 1 then f.tickDiv.toNat else s.cfg.tickDiv
              tickHold := if f.select.getLsbD 2 then f.tickHold.toNat == 1 else s.cfg.tickHold
              memTimeout := if f.select.getLsbD 3 then f.memTimeout.toNat else s.cfg.memTimeout
              streamIdle := if f.select.getLsbD 4 then f.streamIdle.toNat else s.cfg.streamIdle
              pqUrgentMark := if f.select.getLsbD 5 then f.pqUrgentMark.toNat else s.cfg.pqUrgentMark
              attnMask := if f.select.getLsbD 6 then f.attnMask.setWidth 6 else s.cfg.attnMask }
          tgen := { s.tgen with
            prescaler :=
              if (if f.select.getLsbD 2 then f.tickHold.toNat == 1 else s.cfg.tickHold) = true then 0
              else if s.cfg.tickHold = true ∨ f.select.getLsbD 1 = true then 0
              else s.tgen.prescaler } }) ∧
    (128 ≤ f.select.toNat ∨ (f.select.getLsbD 0 = true ∧ 4095 < f.memTop.toNat) ∨
        (f.select.getLsbD 1 = true ∧ 255 < f.tickDiv.toNat) ∨ (f.select.getLsbD 2 = true ∧ 1 < f.tickHold.toNat) ∨
        (f.select.getLsbD 3 = true ∧ (f.memTimeout.toNat = 0 ∨ 255 < f.memTimeout.toNat)) ∨
        (f.select.getLsbD 4 = true ∧ (f.streamIdle.toNat = 0 ∨ 255 < f.streamIdle.toNat)) ∨
        (f.select.getLsbD 5 = true ∧ (f.pqUrgentMark.toNat = 0 ∨ 16 < f.pqUrgentMark.toNat)) →
      exec c s = .next { s with out := fillerOut 35, rx := .answering .badValue })

/-- R12, R13, R15, R178: a region frame whose values are all in range replaces the whole entry, frees the region's VALID
lines and streams, sets DROP on its FILLING lines, and is answered OK; otherwise BAD_VALUE, and nothing changes. -/
def Obligations.RegionFrameReplacesEntry : Prop :=
  ∀ (s : State) (g : RegionIx) (base remap control : Word) (sizeLog type depth deadline : Nat),
    s.frameStart → sizeLog = (control.extractLsb' 16 5).toNat →
    type = (control.extractLsb' 1 2).toNat → depth = (control.extractLsb' 8 3).toNat →
    deadline = (control.extractLsb' 24 8).toNat →
    (s.Settled → 12 ≤ sizeLog → sizeLog ≤ 31 → base.toNat % 2 ^ sizeLog = 0 → type ≤ 2 → depth ≤ 4 → 1 ≤ deadline →
      remap.toNat % 0x1000 = 0 →
      exec (.regionRewrite g base remap control) s = .next { s with
        out := fillerOut 15
        rx := .answering .ok
        rdec := { s.rdec with
          regions := s.rdec.regions.set g
            { enable := control.getLsbD 0, base := base, sizeLog := sizeLog,
              type := if type = 0 then .bypass else if type = 1 then .ordered else .normal, post := control.getLsbD 3,
              merge := control.getLsbD 4, depth := depth, deadline := deadline, wprot := control.getLsbD 5,
              remap := remap } }
        rab :=
          { lines := Vector.ofFn fun r =>
              if s.rab.lines[r].region = .num g ∧ s.rab.lines[r].state = .valid then RabLine.free
              else if s.rab.lines[r].region = .num g ∧ s.rab.lines[r].state = .filling then
                { s.rab.lines[r] with drop := true }
              else s.rab.lines[r]
            recency := s.rab.recency.filter fun r => s.rab.lines[r].region != .num g }
        stt := { s.stt with entries := Vector.ofFn fun k =>
          if s.stt.entries[k].valid = true ∧ s.stt.entries[k].region = g then Stream.free else s.stt.entries[k] } }) ∧
    (sizeLog < 12 ∨ base.toNat % 2 ^ sizeLog ≠ 0 ∨ type = 3 ∨ 4 < depth ∨ deadline = 0 ∨ remap.toNat % 0x1000 ≠ 0 →
      exec (.regionRewrite g base remap control) s = .next { s with out := fillerOut 15, rx := .answering .badValue })

/-- R14, R15, R178: a default-region frame in range replaces D's six fields and sends no notice; a TYPE of 3, a DEADLINE of 0
or a REMAP that is no multiple of 1000h is BAD_VALUE, and nothing changes. -/
def Obligations.DefaultRegionFrameReplacesD : Prop :=
  ∀ (s : State) (remap control : Word) (type deadline : Nat), s.frameStart →
    type = (control.extractLsb' 1 2).toNat → deadline = (control.extractLsb' 24 8).toNat →
    (s.Settled → type ≤ 2 → 1 ≤ deadline → remap.toNat % 0x1000 = 0 →
      exec (.defaultRegionWrite remap control) s = .next { s with
        out := fillerOut 11
        rx := .answering .ok
        rdec := { s.rdec with
          dflt :=
            { type := if type = 0 then .bypass else if type = 1 then .ordered else .normal, post := control.getLsbD 3,
              merge := control.getLsbD 4, wprot := control.getLsbD 5, deadline := deadline, remap := remap } } }) ∧
    (type = 3 ∨ deadline = 0 ∨ remap.toNat % 0x1000 ≠ 0 →
      exec (.defaultRegionWrite remap control) s = .next { s with out := fillerOut 11, rx := .answering .badValue })

/-- R173, R176, R181: a WRITE of an unknown object and a COMMAND with an unknown number are BAD_OBJECT, a WRITE of a
read-only object with all its words and a frame with an unknown opcode are REFUSED; nothing else changes. The bytes after the
request of a WRITE of an unknown object are not taken: the status byte shifts out and the receiver is in TRAIL. A request with
bytes still to come has no effect: its bytes are held in REQUEST. -/
def Obligations.UnservedFramesChangeNothing : Prop :=
  ∀ s : State, s.frameStart →
    (∀ (o : BitVec 16) (ws : List Word), 4 ≤ o.toNat → o.toNat ≠ 8 → o.toNat < 0x10 ∨ 0x17 < o.toNat →
      o.toNat < 0x20 ∨ 0x27 < o.toNat →
      (ws = [] → exec (.write o ws) s = .next { s with out := fillerOut 3, rx := .answering .badObject }) ∧
      (ws ≠ [] → exec (.write o ws) s = .next { s with
        out := fillerOut 3 ++ (bitsHighFirst 0x01#8).map .mso ++ fillerOut (4 * ws.length - 1), rx := .trail })) ∧
    (∀ (o : BitVec 16) (obj : PortObject) (ws : List Word), objectOf o = some obj → ws.length < obj.wordCount →
      exec (.write o ws) s = .next { s with
        out := fillerOut (3 + 4 * ws.length), rx := .request (writeBytes o ws) [] }) ∧
    (∀ (o : BitVec 16) (ws : List Word) (n : Nat),
      (o.toNat = 0 ∧ n = 4) ∨ (o.toNat = 2 ∧ n = 6) ∨ (o.toNat = 3 ∧ n = 3) ∨ (0x20 ≤ o.toNat ∧ o.toNat ≤ 0x27 ∧ n = 3) →
      ws.length = n →
      exec (.write o ws) s = .next { s with out := fillerOut (3 + 4 * n), rx := .answering .refused }) ∧
    (∀ (n : BitVec 16) (arg : Word), n.toNat = 0 ∨ 8 < n.toNat →
      exec (.unknownCommand n arg) s = .next { s with out := fillerOut 7, rx := .answering .badObject }) ∧
    (∀ (op : BitVec 8) (n : BitVec 16), op.toNat = 0 ∨ 3 < op.toNat →
      exec (.unknownOpcode op n) s = .next { s with out := fillerOut 3, rx := .answering .refused }) ∧
    (∀ n : BitVec 16, objectOf n = none →
      exec (.unknownOpcode 2#8 n) s = .next { s with out := fillerOut 3, rx := .answering .badObject }) ∧
    (∀ (op : BitVec 8) (n : BitVec 16), op.toNat = 3 ∨ (op.toNat = 2 ∧ objectOf n ≠ none) →
      exec (.unknownOpcode op n) s = .next { s with out := fillerOut 3, rx := .request (headBytes op n) [] })

/-- R173, R175, R181 (log 23): a frame is what its bytes say. Opcode 01h is a READ: it is
answered OK for a known object, whose picture is yet to be taken, and BAD_OBJECT for another number, and changes nothing; a COMMAND number 1 to 8, and a WRITE of a writable object with its words, act as the row of that name. -/
def Obligations.FramesActByTheirBytes : Prop :=
  ∀ s : State,
    (∀ (n : BitVec 16) (o : PortObject), s.frameStart → objectOf n = some o →
      exec (.unknownOpcode 1#8 n) s = .next { s with
        out := fillerOut 3, rx := .reply { status := .ok, object := some o, words := [], clocked := 0 } }) ∧
    (∀ n : BitVec 16, s.frameStart → objectOf n = none →
      exec (.unknownOpcode 1#8 n) s = .next { s with out := fillerOut 3, rx := .answering .badObject }) ∧
    (∀ arg : Word,
      exec (.unknownCommand 1#16 arg) s = exec (.quiesce arg) s ∧
      exec (.unknownCommand 2#16 arg) s = exec (.resume arg) s ∧
      exec (.unknownCommand 3#16 arg) s = exec (.invalidateRab arg) s ∧
      exec (.unknownCommand 4#16 arg) s = exec (.popLog arg) s ∧
      exec (.unknownCommand 5#16 arg) s = exec (.clearLog arg) s ∧
      exec (.unknownCommand 6#16 arg) s = exec (.clearFault arg) s ∧
      exec (.unknownCommand 7#16 arg) s = exec (.reclaimTags arg) s ∧
      exec (.unknownCommand 8#16 arg) s = exec (.ackFlags arg) s) ∧
    (∀ f : GlobalFrame,
      exec (.write 1#16
        [f.select, f.memTop, f.tickDiv, f.tickHold, f.memTimeout, f.streamIdle, f.pqUrgentMark, f.attnMask]) s =
        exec (.memTopWrite f) s) ∧
    (∀ remap control : Word, exec (.write 8#16 [remap, control]) s = exec (.defaultRegionWrite remap control) s) ∧
    (∀ (g : RegionIx) (base remap control : Word),
      exec (.write (BitVec.ofNat 16 (0x10 + g.val)) [base, remap, control]) s =
        exec (.regionRewrite g base remap control) s)

/-- R169, R170, R143, R129: ATTN is asserted exactly while RESETn is high and a cause that the mask enables holds; QACK
exactly while the path is HALT; MRSTn exactly while RESETn is. R172, R173: MSO is not driven while MSSn is high; while it is
low it is high (FFh) outside REPLY, and in REPLY it has the bits of the status byte, then of the words, most significant first. -/
def Obligations.OutputLevels : Prop :=
  ∀ s : State,
    (s.attn = true ↔ s.pins.resetn = true ∧
      ((s.cfg.attnMask.getLsbD 0 = true ∧ s.elog.records ≠ []) ∨ (s.cfg.attnMask.getLsbD 1 = true ∧ s.elog.ovf = true) ∨
        (s.cfg.attnMask.getLsbD 2 = true ∧ ∃ i : FaultIx, s.flt.entries[i] ≠ none) ∨
        (s.cfg.attnMask.getLsbD 3 = true ∧ s.flt.ovf = true) ∨
        (s.cfg.attnMask.getLsbD 4 = true ∧ ∃ g : TagIx, s.mli[g].state = .quarantined) ∨
        (s.cfg.attnMask.getLsbD 5 = true ∧ s.pctl.path = .halt))) ∧
    (s.qack = true ↔ s.pctl.path = .halt) ∧ (s.mrstAsserted = true ↔ s.pins.resetn = false) ∧
    (s.pins.mssn = true → s.mso = none) ∧
    (s.pins.mssn = false → (∀ r, s.rx ≠ .reply r) → s.mso = some true) ∧
    (∀ r, s.pins.mssn = false → s.rx = .reply r →
      (r.clocked < 8 → s.mso = some (r.status.code.getLsbD (7 - r.clocked))) ∧
      ∀ w, 8 ≤ r.clocked → r.words[(r.clocked - 8) / 32]? = some w →
        s.mso = some (w.getLsbD (31 - (r.clocked - 8) % 32))) ∧
    FrameStatus.ok.code = 0x00#8 ∧ FrameStatus.badObject.code = 0x01#8 ∧ FrameStatus.badValue.code = 0x02#8 ∧
    FrameStatus.refused.code = 0x03#8

/-! ### Decode, log, formats -/

/-- R6, R7, R10: a request takes the enabled region with the lowest index whose range holds ADDR, else the default region
with DEPTH 0, and the line and offset of ADDR plus REMAP modulo 2^32. -/
def Obligations.DecodePicksLowestRegion : Prop :=
  ∀ (d : Rdec) (addr : Word),
    (∀ g : RegionIx, d.regions[g].enable = true → d.regions[g].base.toNat ≤ addr.toNat →
      addr.toNat ≤ d.regions[g].base.toNat + 2 ^ d.regions[g].sizeLog - 1 →
      (∀ h : RegionIx, h < g → ¬(d.regions[h].enable = true ∧ d.regions[h].base.toNat ≤ addr.toNat ∧
        addr.toNat ≤ d.regions[h].base.toNat + 2 ^ d.regions[h].sizeLog - 1)) →
      d.result addr =
        { region := .num g, type := d.regions[g].type, post := d.regions[g].post, merge := d.regions[g].merge,
          wprot := d.regions[g].wprot, deadline := d.regions[g].deadline, depth := d.regions[g].depth,
          line := BitVec.ofNat 27 ((addr.toNat + d.regions[g].remap.toNat) % 2 ^ 32 / 32),
          offset := (addr.toNat + d.regions[g].remap.toNat) % 2 ^ 32 % 32 }) ∧
    ((∀ h : RegionIx, ¬(d.regions[h].enable = true ∧ d.regions[h].base.toNat ≤ addr.toNat ∧
        addr.toNat ≤ d.regions[h].base.toNat + 2 ^ d.regions[h].sizeLog - 1)) →
      d.result addr =
        { region := .dflt, type := d.dflt.type, post := d.dflt.post, merge := d.dflt.merge, wprot := d.dflt.wprot,
          deadline := d.dflt.deadline, depth := 0,
          line := BitVec.ofNat 27 ((addr.toNat + d.dflt.remap.toNat) % 2 ^ 32 / 32),
          offset := (addr.toNat + d.dflt.remap.toNat) % 2 ^ 32 % 32 })

/-- R163, R164: a record is appended at the young end; raised while the log holds sixteen it is dropped: the records stand,
DROPPED goes up by one, stopping at 255, and LOG_OVF is set. -/
def Obligations.LogAppendsOrDrops : Prop :=
  ∀ (g : Elog) (r : LogRecord),
    (g.records.length < 16 → g.append r = { g with records := g.records ++ [r] }) ∧
    (16 ≤ g.records.length → g.append r = { g with dropped := min (g.dropped + 1) 255, ovf := true })

/-- R178, section 11.7.3: the words of a region entry within its ranges carry every field: `regionOfWords`, which reads the words
of a region frame, gives the same entry back from them, whatever its values. The same holds of the default region. -/
def Obligations.RegionWordsRoundTrip : Prop :=
  (∀ r : RegionEntry, r.legal → ∃ base remap control, r.words = [base, remap, control] ∧
    regionOfWords base remap control = some r) ∧
  (∀ d : DefaultRegion, 1 ≤ d.deadline → d.deadline ≤ 255 → d.remap.toNat % 0x1000 = 0 →
    ∃ remap control, d.words = [remap, control] ∧ defaultRegionOfWords remap control = some d)

/-! ### The laws every step keeps -/

/-- R20: every step keeps the first law: slots, WITHHELD and GRANTED add to 8 while the link is up, and are 0 while it is
down. -/
def Obligations.EveryStepKeepsCreditLaw : Prop :=
  ∀ s t : State, s.creditLaw → step s = .next t → t.creditLaw

/-- R107, R115: every step keeps the third law, two accesses with a claim on one line are both line reads; and after it, as
in every state, the FREE, OUTSTANDING and QUARANTINED tags number 16. -/
def Obligations.EveryStepKeepsTagLaws : Prop :=
  ∀ s t : State, s.interlockLaw → step s = .next t → t.interlockLaw ∧ t.tagCountLaw

/-- R44, R55, R68, R69: every step keeps the fourth law (at most 16 entries, an OPEN one the youngest for its line), the fifth
(at most 4 ISSUED, none unissued older than an ISSUED one), the sixth (no two non-FREE lines hold one memory line), and the
recency list holds exactly the VALID lines, each once. -/
def Obligations.EveryStepKeepsQueueAndBufferLaws : Prop :=
  ∀ s t : State, s.queueLaw → s.drainLaw → s.bufferLaw → s.recencyLaw → step s = .next t →
    t.queueLaw ∧ t.drainLaw ∧ t.bufferLaw ∧ t.recencyLaw

/-- R131, R161, R164: every step keeps the eleventh law: the Faulted Line Table holds one entry per line and ranks exactly
its entries, the log holds at most 16 records, DROPPED at most 255. R174, R175: every step keeps the receiver sound: out of IDLE
only with RESETn high and MSSn low, a request in progress not complete, a reply in progress with bits left and, once its status
byte is out, with all the words of its object. -/
def Obligations.EveryStepKeepsFaultLogAndPortLaws : Prop :=
  ∀ s t : State, step s = .next t → (s.faultAndLogLaw → t.faultAndLogLaw) ∧ (s.portLaw → t.portLaw)

/-- R90, R91, R1, R177: every step keeps the stream pairs unique, the leads between 1 and 5, and every configuration field in
its range. -/
def Obligations.EveryStepKeepsStreamAndConfigLaws : Prop :=
  ∀ s t : State, s.streamPairLaw → s.streamLeadLaw → s.configLaw → step s = .next t →
    t.streamPairLaw ∧ t.streamLeadLaw ∧ t.configLaw

/-- R149, R24: every step keeps the twelfth law, with the list of occupied slots: in HALT only HELD slots, no Post Queue entry,
the read-ahead buffer and the Stream Table empty, no OUTSTANDING tag. With it every step keeps who waits on a FILLING line: an
OUTSTANDING tag that the line owns fills it, or its first waiter is in ISSUE_WAIT (R67, R72, R107). -/
def Obligations.EveryStepKeepsHaltLaw : Prop :=
  ∀ s t : State, s.haltLaw → s.arrivalLaw → s.OwnerLaw → s.bufferLaw → s.recencyLaw → step s = .next t →
    t.haltLaw ∧ t.arrivalLaw ∧ t.OwnerLaw

/-- R27, R36, R98, R147, R28, R29, R50: every step leaves nothing over: no slot releasable, no fence ready, no stream that could
move on, no empty path in DRAIN, no read in DRAIN_WAIT whose wait is over, no room that has not been offered. -/
def Obligations.EveryStepSettles : Prop :=
  ∀ s t : State, s.Settled → s.configLaw → step s = .next t → t.Settled ∧ t.configLaw

/-- R154: while RESETn stays asserted every step leaves the part at its device-reset values. -/
def Obligations.EveryStepUnderResetKeepsResetValues : Prop :=
  ∀ s t : State, s.resetLaw → step s = .next t → t.resetLaw

/-- The part at device reset meets every law the steps keep, and nothing is left over in it. -/
def Obligations.ResetMeetsTheLaws : Prop :=
  State.reset.creditLaw ∧ State.reset.interlockLaw ∧ State.reset.queueLaw ∧ State.reset.drainLaw ∧
    State.reset.bufferLaw ∧ State.reset.recencyLaw ∧ State.reset.faultAndLogLaw ∧ State.reset.streamPairLaw ∧
    State.reset.streamLeadLaw ∧ State.reset.configLaw ∧ State.reset.haltLaw ∧ State.reset.arrivalLaw ∧
    State.reset.Settled ∧ State.reset.resetLaw ∧ State.reset.OwnerLaw ∧ State.reset.portLaw
end

