-- ==== Sys2Proof/Laws/Blocks.lean ====
section
/-! SUPPORT. What the operations of one block can do to that block, and that each keeps the block's laws: Post Queue, Read-Ahead Buffer, Stream Table, fault table, log, tag pool. -/

namespace Sys2Proof.Machine

/-! ### Post Queue -/

/-- What the laws of the queue read of an entry. -/
def Entry.face (e : Entry) : LineAddr × EntryState := (e.line, e.state)

theorem Entry.mergeWrite_face (e : Entry) (m : ByteMask) (d : LineData) (s : SourceSet) (f : SlotSet) :
    (e.mergeWrite m d s f).face = e.face := rfl

theorem Entry.seal_line (e : Entry) : e.seal.line = e.line := by unfold Entry.seal; split <;> rfl

theorem Entry.seal_not_opened (e : Entry) : e.seal.state ≠ .opened := by
  unfold Entry.seal; split <;> simp_all

theorem Entry.seal_state_issued (e : Entry) : e.seal.state = .issued ↔ e.state = .issued := by
  unfold Entry.seal; split <;> simp_all

theorem Entry.seal_tag (e : Entry) : e.seal.tag = e.tag := by unfold Entry.seal; split <;> rfl

theorem updateYoungest_faces (l : LineAddr) (f : Entry → Entry) (hf : ∀ e, (f e).face = e.face) (es : List Entry) :
    (updateYoungest l f es).map Entry.face = es.map Entry.face := by
  induction es with
  | nil => rfl
  | cons e es ih => unfold updateYoungest; split <;> [simp [ih]; (split <;> simp [hf])]

/-- One change of the Post Queue, with the guard its operation checks. -/
inductive QueueChange : Queue → Queue → Prop where
  | merge (q l m d src f) : QueueChange q (q.merge l m d src f)
  | create (q d m b src f) : q.entries.length < Config.queueCapacity → QueueChange q (q.create d m b src f)
  | fence (q i) : QueueChange q (q.fenceArrives i)
  | dropMarks (q) : QueueChange q q.dropFenceMarks
  | room (q) : QueueChange q { q with room := false }
  | remove (q t) : QueueChange q (q.remove t)
  | age (q) : QueueChange q q.age

/-- The fourth law, read from the faces. -/
theorem Queue.queueLaw_iff (q : Queue) : q.queueLaw ↔ (q.entries.map Entry.face).length ≤ Config.queueCapacity ∧
    (q.entries.map Entry.face).Pairwise fun a b => a.1 = b.1 → a.2 ≠ .opened := by
  simp [Queue.queueLaw, List.pairwise_map, Entry.face]

/-- The fifth law, read from the faces. -/
theorem Queue.drainLaw_iff (q : Queue) : q.drainLaw ↔
    (q.entries.map Entry.face).countP (fun a => a.2 == .issued) ≤ Config.drainLimit ∧
    (q.entries.map Entry.face).Pairwise fun a b => b.2 = .issued → a.2 = .issued := by
  simp only [Queue.drainLaw, Queue.issuedCount, List.pairwise_map, Entry.face, List.countP_map]; rfl

theorem issueFirst_lines (t : TagIx) (es : List Entry) :
    (issueFirst t es).map Entry.line = es.map Entry.line := by
  induction es with
  | nil => rfl
  | cons e es ih => unfold issueFirst; split <;> simp [ih]

theorem mem_issueFirst {t : TagIx} {es : List Entry} {e : Entry} (h : e ∈ issueFirst t es) :
    (e ∈ es) ∨ (e.state = .issued ∧ ∃ e' ∈ es, e'.line = e.line) := by
  induction es with
  | nil => simp [issueFirst] at h
  | cons a es ih =>
    unfold issueFirst at h
    split at h <;> rcases List.mem_cons.1 h with h | h
    · exact .inl (by simp [h])
    · rcases ih h with h | ⟨h, e', h', hl⟩
      · exact .inl (by simp [h])
      · exact .inr ⟨h, e', by simp [h'], hl⟩
    · exact .inr ⟨by simp [h], a, by simp, by simp [h]⟩
    · exact .inl (by simp [h])

theorem issueFirst_order {t : TagIx} {es : List Entry}
    (h : es.Pairwise fun a b => a.line = b.line → a.state ≠ .opened) :
    (issueFirst t es).Pairwise fun a b => a.line = b.line → a.state ≠ .opened := by
  induction es with
  | nil => simp [issueFirst]
  | cons a es ih =>
    rw [List.pairwise_cons] at h
    unfold issueFirst
    split
    · refine List.pairwise_cons.2 ⟨fun b hb e => ?_, ih h.2⟩
      simp_all
    · exact List.pairwise_cons.2 ⟨fun b _ _ => by simp, h.2⟩

theorem issueFirst_drain {t : TagIx} {es : List Entry} (h : es.Pairwise fun a b => b.state = .issued → a.state = .issued) :
    (issueFirst t es).Pairwise fun a b => b.state = .issued → a.state = .issued := by
  induction es with
  | nil => simp [issueFirst]
  | cons a es ih =>
    rw [List.pairwise_cons] at h
    unfold issueFirst
    split
    · rename_i ha; exact List.pairwise_cons.2 ⟨fun b _ _ => ha, ih h.2⟩
    · exact List.pairwise_cons.2 ⟨fun b _ _ => rfl, h.2⟩

theorem issueFirst_count (t : TagIx) (es : List Entry) :
    (issueFirst t es).countP (fun e => e.state == .issued) ≤ es.countP (fun e => e.state == .issued) + 1 := by
  induction es with
  | nil => simp [issueFirst]
  | cons a es ih =>
    unfold issueFirst
    split <;> simp_all

/-- Every change of the queue keeps the fourth law. -/
theorem QueueChange.queueLaw {q q' : Queue} (h : QueueChange q q') (hq : q.queueLaw) : q'.queueLaw := by
  cases h with
  | merge l m d src f =>
    rw [Queue.queueLaw_iff] at *
    simp only [Queue.merge, updateYoungest_faces _ _ (fun e => Entry.mergeWrite_face e m d src f)]
    exact hq
  | create d m b src f hlen =>
    refine ⟨by simp [Queue.create]; exact hlen, ?_⟩
    simp only [Queue.create]
    refine List.pairwise_append.2 ⟨List.pairwise_map.2 (hq.2.imp ?_), List.pairwise_singleton _ _, ?_⟩
    · intro a c hac
      have hl : ∀ e : Entry, (if e.line = d.line then e.seal else e).line = e.line := by
        intro e; split <;> simp [Entry.seal_line]
      rw [hl, hl]
      intro h
      split
      · exact a.seal_not_opened
      · exact hac h
    · intro a ha c hc
      obtain ⟨e, _, rfl⟩ := List.mem_map.1 ha
      rw [List.mem_singleton] at hc; subst hc
      split
      · exact fun _ => e.seal_not_opened
      · rename_i hne; exact fun h => absurd h hne
  | fence i =>
    refine ⟨by simpa [Queue.fenceArrives] using hq.1, ?_⟩
    refine List.pairwise_map.2 (hq.2.imp fun {a _} _ _ => a.seal_not_opened)
  | dropMarks => exact ⟨by simpa [Queue.dropFenceMarks] using hq.1, List.pairwise_map.2 hq.2⟩
  | room => exact hq
  | remove t => exact ⟨(List.length_filter_le _ _).trans hq.1, hq.2.filter _⟩
  | age => exact ⟨by simpa [Queue.age] using hq.1, List.pairwise_map.2 hq.2⟩

/-- R55: the issue of the candidate keeps the fourth law. -/
theorem Queue.issue_queueLaw {q : Queue} (t : TagIx) (hq : q.queueLaw) : (q.issue t).queueLaw := by
  have h := congrArg List.length (issueFirst_lines t q.entries)
  simp only [List.length_map] at h
  exact ⟨by simpa [Queue.issue, h] using hq.1, issueFirst_order hq.2⟩

/-- Every change of the queue keeps the fifth law. -/
theorem QueueChange.drainLaw {q q' : Queue} (h : QueueChange q q') (hq : q.drainLaw) : q'.drainLaw := by
  cases h with
  | merge l m d src f =>
    rw [Queue.drainLaw_iff] at *
    simp only [Queue.merge, updateYoungest_faces _ _ (fun e => Entry.mergeWrite_face e m d src f)]
    exact hq
  | create d m b src f hlen =>
    have hs : ∀ e : Entry, (if e.line = d.line then e.seal else e).state = .issued ↔ e.state = .issued := by
      intro e; split <;> simp [Entry.seal_state_issued]
    have hn : (newEntry d m b src f).state ≠ .issued := by unfold newEntry; split <;> simp
    constructor
    · have hc : (Queue.create q d m b src f).issuedCount = q.issuedCount := by
        simp only [Queue.issuedCount, Queue.create, List.countP_append, List.countP_map, List.countP_singleton]
        rw [if_neg (by simpa using hn), Nat.add_zero]
        exact List.countP_congr fun e _ => by simpa using hs e
      rw [hc]; exact hq.1
    · refine List.pairwise_append.2 ⟨List.pairwise_map.2 (hq.2.imp fun {a b} hab => ?_), List.pairwise_singleton _ _, ?_⟩
      · rw [hs, hs]; exact hab
      · intro a _ c hc; rw [List.mem_singleton] at hc; subst hc; exact fun h => absurd h hn
  | fence i =>
    constructor
    · have hc : (Queue.fenceArrives q i).issuedCount = q.issuedCount := by
        simp only [Queue.issuedCount, Queue.fenceArrives, List.countP_map]
        exact List.countP_congr fun e _ => by simpa using Entry.seal_state_issued e
      rw [hc]; exact hq.1
    · exact List.pairwise_map.2 (hq.2.imp fun {a b} hab => by simpa [Entry.seal_state_issued] using hab)
  | dropMarks =>
    exact ⟨by simpa [Queue.issuedCount, Queue.dropFenceMarks, List.countP_map, Function.comp_def] using hq.1,
      List.pairwise_map.2 hq.2⟩
  | room => exact hq
  | remove t =>
    exact ⟨(List.Sublist.countP_le List.filter_sublist).trans hq.1, hq.2.filter _⟩
  | age =>
    exact ⟨by simpa [Queue.issuedCount, Queue.age, List.countP_map, Function.comp_def] using hq.1,
      List.pairwise_map.2 hq.2⟩

/-- R55: the issue of the candidate, with fewer than 4 ISSUED, keeps the fifth law. -/
theorem Queue.issue_drainLaw {q : Queue} (t : TagIx) (hlt : q.issuedCount < Config.drainLimit) (hq : q.drainLaw) :
    (q.issue t).drainLaw := by
  refine ⟨?_, issueFirst_drain hq.2⟩
  have := issueFirst_count t q.entries
  simp only [Queue.issuedCount, Queue.issue] at *
  omega

/-- No change of the queue but an issue gives an entry a tag it did not have. -/
theorem QueueChange.tags {q q' : Queue} (h : QueueChange q q') {g : TagIx} {e' : Entry} (he : e' ∈ q'.entries)
    (ht : e'.tag = some g) : ∃ e ∈ q.entries, e.tag = some g := by
  cases h with
  | merge l m d src f =>
    have key : ∀ es : List Entry, e' ∈ updateYoungest l (fun e => e.mergeWrite m d src f) es → ∃ e ∈ es, e.tag = some g := by
      intro es
      induction es with
      | nil => intro h; exact absurd h (by simp [updateYoungest])
      | cons a es ih =>
        unfold updateYoungest
        split
        · intro h
          rcases List.mem_cons.1 h with h | h
          · exact ⟨a, by simp, h ▸ ht⟩
          · obtain ⟨e, he, h⟩ := ih h; exact ⟨e, by simp [he], h⟩
        · split
          · intro h
            rcases List.mem_cons.1 h with h | h
            · exact ⟨a, by simp, by rw [h] at ht; exact ht⟩
            · exact ⟨e', by simp [h], ht⟩
          · intro h; exact ⟨e', h, ht⟩
    exact key _ he
  | create d m b src f _ =>
    rcases List.mem_append.1 he with he | he
    · obtain ⟨e, hm, rfl⟩ := List.mem_map.1 he
      refine ⟨e, hm, ?_⟩
      split at ht
      · rwa [Entry.seal_tag] at ht
      · exact ht
    · rw [List.mem_singleton] at he; subst he; exact absurd ht (by simp [newEntry])
  | fence i =>
    obtain ⟨e, hm, rfl⟩ := List.mem_map.1 he
    exact ⟨e, hm, by simpa [Entry.seal_tag] using ht⟩
  | dropMarks => obtain ⟨e, hm, rfl⟩ := List.mem_map.1 he; exact ⟨e, hm, ht⟩
  | room => exact ⟨e', he, ht⟩
  | remove t => exact ⟨e', (List.mem_filter.1 he).1, ht⟩
  | age => obtain ⟨e, hm, rfl⟩ := List.mem_map.1 he; exact ⟨e, hm, ht⟩

/-! ### Read-Ahead Buffer -/

theorem Vector.get_set_fin {α : Type} {n : Nat} (v : Vector α n) (i j : Fin n) (x : α) :
    (v.set i x)[j] = if i = j then x else v[j] := by
  simp only [Fin.getElem_fin, Vector.getElem_set, Fin.ext_iff]

theorem Vector.get_ofFn_fin {α : Type} {n : Nat} (f : Fin n → α) (j : Fin n) : (Vector.ofFn f)[j] = f j := by
  simp [Fin.getElem_fin]

/-- One change of the Read-Ahead Buffer, with the guard its operation checks. -/
inductive BufferChange : Rab → Rab → Prop where
  | hit (b : Rab) (r) : b.lines[r].state = .valid → BufferChange b (b.hit r)
  | join (b : Rab) (r i) : BufferChange b (b.join r i)
  | allocate (b : Rab) (r x) : x.state = .filling → b.find x.line = none → BufferChange b (b.allocate r x)
  | patch (b : Rab) (l m d) : BufferChange b (b.patch l m d)
  | release (b : Rab) (r) : BufferChange b (b.release r)
  | invalidate (b : Rab) (sel) : BufferChange b (b.invalidate sel)
  | halt (b : Rab) : BufferChange b b.haltEntry
  | fill (b : Rab) (r m) : BufferChange b (b.finishFill r m)
  | dropSlots (b : Rab) : BufferChange b b.dropSlots
  | tag (b : Rab) (r t) : BufferChange b (b.update r fun y => { y with tag := t })

/-- A line looked up is the one held. -/
theorem Rab.find_none {b : Rab} {l : LineAddr} (h : b.find l = none) (r : LineIx) (hs : b.lines[r].state ≠ .free) :
    b.lines[r].line ≠ l := by
  have := List.find?_eq_none.1 h r (List.mem_finRange r)
  generalize b.lines[r] = x at *
  simpa [RabLine.holds, hs] using this

/-- The buffer afterwards holds no line that it did not hold before, place by place. -/
theorem Rab.bufferLaw_of_sub {b c : Rab} (hb : b.bufferLaw)
    (h : ∀ r : LineIx, c.lines[r].state ≠ .free → b.lines[r].state ≠ .free ∧ c.lines[r].line = b.lines[r].line) :
    c.bufferLaw := by
  intro r q hne hr hq
  obtain ⟨h1, e1⟩ := h r hr
  obtain ⟨h2, e2⟩ := h q hq
  rw [e1, e2]; exact hb r q hne h1 h2

theorem RabLine.patchBytes_face (x : RabLine) (m : ByteMask) (d : LineData) :
    (x.patchBytes m d).state = x.state ∧ (x.patchBytes m d).line = x.line := by
  unfold RabLine.patchBytes; split <;> simp_all

theorem RabLine.invalidate_face (x : RabLine) (h : x.invalidate.state ≠ .free) :
    x.invalidate.state = x.state ∧ x.invalidate.line = x.line := by
  unfold RabLine.invalidate at *; split <;> simp_all [RabLine.free]

theorem RabLine.invalidate_not_valid (x : RabLine) : x.invalidate.state ≠ .valid := by
  unfold RabLine.invalidate; split <;> simp_all [RabLine.free]

/-- A change of one line that keeps its state and its line address. -/
theorem Rab.update_face (b : Rab) (r q : LineIx) (f : RabLine → RabLine)
    (hf : ∀ x, (f x).state = x.state ∧ (f x).line = x.line) :
    (b.update r f).lines[q].state = b.lines[q].state ∧ (b.update r f).lines[q].line = b.lines[q].line := by
  simp only [Rab.update, Vector.get_set_fin]
  split
  · rename_i h; subst h; exact hf _
  · exact ⟨rfl, rfl⟩

theorem Rab.patch_face (b : Rab) (l : LineAddr) (m : ByteMask) (d : LineData) (q : LineIx) :
    (b.patch l m d).lines[q].state = b.lines[q].state ∧ (b.patch l m d).lines[q].line = b.lines[q].line := by
  unfold Rab.patch
  split
  · exact b.update_face _ q _ fun x => x.patchBytes_face m d
  · exact ⟨rfl, rfl⟩

theorem Rab.patch_recency (b : Rab) (l : LineAddr) (m : ByteMask) (d : LineData) : (b.patch l m d).recency = b.recency := by
  unfold Rab.patch; split <;> rfl

/-- Every change of the buffer keeps the sixth law. -/
theorem BufferChange.bufferLaw {b c : Rab} (h : BufferChange b c) (hb : b.bufferLaw) : c.bufferLaw := by
  have released : ∀ r, (b.release r).bufferLaw := by
    intro r
    refine Rab.bufferLaw_of_sub hb fun q hq => ?_
    simp only [Rab.release, Vector.get_set_fin] at *
    split at hq <;> simp_all [RabLine.free]
  cases h with
  | hit r hv =>
    refine Rab.bufferLaw_of_sub hb fun q hq => ?_
    simp only [Rab.hit, Vector.get_set_fin] at *
    split at hq <;> simp_all
  | join r i =>
    refine Rab.bufferLaw_of_sub hb fun q hq => ?_
    have := b.update_face r q (fun x => { x with waiters := x.waiters ++ [i], origin := .demand }) fun _ => ⟨rfl, rfl⟩
    exact ⟨this.1 ▸ hq, this.2⟩
  | allocate r x hx hf =>
    intro p q hne hp hq
    simp only [Rab.allocate, Vector.get_set_fin] at *
    split at hp <;> split at hq <;> simp_all
    · exact fun e => Rab.find_none hf q hq e.symm
    · exact Rab.find_none hf p hp
    · exact hb p q hne hp hq
  | patch l m d =>
    refine Rab.bufferLaw_of_sub hb fun q hq => ?_
    have := b.patch_face l m d q
    exact ⟨this.1 ▸ hq, this.2⟩
  | release r => exact released r
  | invalidate sel =>
    refine Rab.bufferLaw_of_sub hb fun q hq => ?_
    simp only [Rab.invalidate, Vector.get_ofFn_fin] at *
    split at hq
    · have := RabLine.invalidate_face _ hq
      simp_all
    · simp_all
  | halt =>
    refine Rab.bufferLaw_of_sub hb fun q hq => ?_
    simp only [Rab.haltEntry, Vector.get_ofFn_fin] at *
    split at hq <;> simp_all [RabLine.free]
  | fill r m =>
    unfold Rab.finishFill
    split
    · exact hb
    · split
      · exact released r
      · refine Rab.bufferLaw_of_sub hb fun q hq => ?_
        simp only [Vector.get_set_fin] at *
        split at hq <;> simp_all
  | dropSlots =>
    refine Rab.bufferLaw_of_sub hb fun q hq => ?_
    simp only [Rab.dropSlots, Vector.get_ofFn_fin] at *
    generalize b.lines[q] = x at *
    by_cases h : x.state = .filling ∧ x.tag = none
    · rw [if_pos h] at hq; exact absurd rfl hq
    · rw [if_neg h] at hq ⊢; exact ⟨hq, rfl⟩
  | tag r t =>
    refine Rab.bufferLaw_of_sub hb fun q hq => ?_
    have := b.update_face r q (fun y => { y with tag := t }) fun _ => ⟨rfl, rfl⟩
    exact ⟨this.1 ▸ hq, this.2⟩

theorem Rab.recencyLaw_of_same {b c : Rab} (hb : b.recencyLaw) (hr : c.recency = b.recency)
    (h : ∀ r : LineIx, c.lines[r].state = b.lines[r].state) : c.recencyLaw :=
  ⟨hr ▸ hb.1, fun r => by rw [hr, h r]; exact hb.2 r⟩

/-- Every change of the buffer keeps R69. -/
theorem BufferChange.recencyLaw {b c : Rab} (h : BufferChange b c) (hb : b.recencyLaw) : c.recencyLaw := by
  have moved : ∀ (r : LineIx) (x : RabLine), x.state = .valid →
      Rab.recencyLaw { lines := b.lines.set r x, recency := (b.recency.filter fun y => y != r) ++ [r] } := by
    intro r x hx
    refine ⟨?_, fun q => ?_⟩
    · refine List.nodup_append.2 ⟨hb.1.filter _, List.nodup_singleton _, ?_⟩
      intro a ha c hc
      simp only [List.mem_filter, bne_iff_ne, List.mem_singleton] at *
      rw [hc]; exact ha.2
    · simp only [List.mem_append, List.mem_filter, bne_iff_ne, List.mem_singleton, Vector.get_set_fin, hb.2 q]
      by_cases e : r = q
      · subst e; simp [hx]
      · simp [e, Ne.symm e, eq_comm]
  have dropped : ∀ (r : LineIx) (x : RabLine), x.state ≠ .valid →
      Rab.recencyLaw { lines := b.lines.set r x, recency := b.recency.filter fun y => y != r } := by
    intro r x hx
    refine ⟨hb.1.filter _, fun q => ?_⟩
    simp only [List.mem_filter, bne_iff_ne, Vector.get_set_fin, hb.2 q]
    by_cases e : r = q
    · subst e; simp [hx]
    · simp [e, Ne.symm e]
  cases h with
  | hit r hv => exact moved r _ hv
  | join r i =>
    exact Rab.recencyLaw_of_same hb rfl fun q =>
      (b.update_face r q (fun x => { x with waiters := x.waiters ++ [i], origin := .demand }) fun _ => ⟨rfl, rfl⟩).1
  | allocate r x hx hf => exact dropped r x (by simp [hx])
  | patch l m d => exact Rab.recencyLaw_of_same hb (b.patch_recency l m d) fun q => (b.patch_face l m d q).1
  | release r => exact dropped r _ (by simp [RabLine.free])
  | invalidate sel =>
    refine ⟨hb.1.filter _, fun q => ?_⟩
    simp only [Rab.invalidate, List.mem_filter, Vector.get_ofFn_fin, hb.2 q]
    generalize b.lines[q] = x
    by_cases e : sel x <;> simp [e, RabLine.invalidate_not_valid]
  | halt =>
    refine ⟨List.nodup_nil, fun q => ?_⟩
    simp only [Rab.haltEntry, Vector.get_ofFn_fin]
    split <;> simp_all [RabLine.free]
  | fill r m =>
    unfold Rab.finishFill
    split
    · exact hb
    · split
      · exact dropped r _ (by simp [RabLine.free])
      · exact moved r _ rfl
  | dropSlots =>
    refine ⟨hb.1, fun q => ?_⟩
    simp only [Rab.dropSlots, Vector.get_ofFn_fin, hb.2 q]
    split <;> simp_all [RabLine.free]
  | tag r t =>
    exact Rab.recencyLaw_of_same hb rfl fun q =>
      (b.update_face r q (fun y => { y with tag := t }) fun _ => ⟨rfl, rfl⟩).1

/-! ### Fault tracking and log -/

theorem Flt.find_none {f : Flt} {l : LineAddr} (h : f.find l = none) (i : FaultIx) (e : FaultEntry)
    (he : f.entries[i] = some e) : e.line ≠ l := by
  have := List.find?_eq_none.1 h i (List.mem_finRange i)
  simp only [he] at this
  simpa using this

/-- One change of fault tracking. -/
inductive FaultChange : Flt → Flt → Prop where
  | record (f : Flt) (l m k) : FaultChange f (f.record l m k)
  | flags (f : Flt) (x) : FaultChange f { f with flags := x }
  | overflow (f : Flt) (x) : FaultChange f { f with ovf := x }
  | clear (f : Flt) (l m) : FaultChange f (f.clearBytes l m)
  | remove (f : Flt) (i) : FaultChange f (f.remove i)
  | clearAll (f : Flt) : FaultChange f f.clearAll

/-- An entry changed in place, its line kept. -/
theorem Flt.faultLaw_set {f : Flt} (hf : f.faultLaw) (i : FaultIx) (e e' : FaultEntry) (he : f.entries[i] = some e)
    (hl : e'.line = e.line) (fl : SourceSet) (o : Bool) :
    Flt.faultLaw { entries := f.entries.set i (some e'), order := f.order, flags := fl, ovf := o } := by
  refine ⟨fun j k hne a ha b hb => ?_, hf.2.1, fun j => ?_⟩
  · simp only [Vector.get_set_fin, Option.mem_def] at ha hb
    split at ha <;> split at hb
    · simp_all
    · rename_i hj hk; subst hj
      simp only [Option.some.injEq] at ha; subst ha
      rw [hl]; exact hf.1 i k hne e he b hb
    · rename_i hj hk; subst hk
      simp only [Option.some.injEq] at hb; subst hb
      rw [hl]; exact hf.1 j i hne a ha e he
    · exact hf.1 j k hne a ha b hb
  · simp only [Vector.get_set_fin]
    split
    · rename_i h; subst h; rw [hf.2.2 i, he]; simp
    · exact hf.2.2 j

theorem Flt.faultLaw_remove {f : Flt} (hf : f.faultLaw) (i : FaultIx) : (f.remove i).faultLaw := by
  refine ⟨fun j k hne a ha b hb => ?_, hf.2.1.filter _, fun j => ?_⟩
  · simp only [Flt.remove, Vector.get_set_fin, Option.mem_def] at ha hb
    split at ha <;> split at hb <;> first | contradiction | exact hf.1 j k hne a ha b hb
  · simp only [Flt.remove, Vector.get_set_fin, List.mem_filter, hf.2.2 j]
    by_cases e : i = j
    · subst e; simp
    · simp [e, Ne.symm e]

/-- Every change of fault tracking keeps the eleventh law's first half. -/
theorem FaultChange.faultLaw {f g : Flt} (h : FaultChange f g) (hf : f.faultLaw) : g.faultLaw := by
  cases h with
  | record l m k =>
    unfold Flt.record
    split
    · rename_i i hi
      have h1 := List.find?_some hi
      cases he : f.entries[i] with
      | none => simp only [he] at h1; exact absurd h1 (by simp)
      | some e => exact Flt.faultLaw_set hf i e (e.refail m k) he rfl _ _
    · rename_i hn
      split
      · rename_i i hi
        have hfree : f.entries[i] = none := by
          have h := List.find?_some hi
          cases he : f.entries[i] with
          | none => rfl
          | some e => rw [he] at h; simp at h
        have hout : i ∉ f.order := by rw [hf.2.2 i, hfree]; simp
        refine ⟨fun j k' hne a ha b hb => ?_, ?_, fun j => ?_⟩
        · simp only [Vector.get_set_fin, Option.mem_def] at ha hb
          split at ha <;> split at hb
          · simp_all
          · simp only [Option.some.injEq] at ha; subst ha
            exact fun e => Flt.find_none hn k' b hb e.symm
          · simp only [Option.some.injEq] at hb; subst hb
            exact Flt.find_none hn j a ha
          · exact hf.1 j k' hne a ha b hb
        · refine List.nodup_append.2 ⟨hf.2.1, List.nodup_singleton _, ?_⟩
          intro a ha c hc
          rw [List.mem_singleton] at hc; rw [hc]
          exact fun e => hout (e ▸ ha)
        · simp only [List.mem_append, List.mem_singleton, Vector.get_set_fin, hf.2.2 j]
          by_cases e : i = j
          · subst e; simp
          · rw [if_neg e]; exact ⟨fun h => h.elim id fun h => absurd h.symm e, .inl⟩
      · exact hf
  | flags x => exact hf
  | overflow x => exact hf
  | clear l m =>
    unfold Flt.clearBytes
    split
    · exact hf
    · rename_i i _
      split
      · exact hf
      · rename_i e he
        split
        · exact Flt.faultLaw_remove hf i
        · exact Flt.faultLaw_set hf i e { e with failed := e.failed &&& ~~~m } he rfl _ _
  | remove i => exact Flt.faultLaw_remove hf i
  | clearAll =>
    have hn : ∀ i : FaultIx, (Vector.replicate 8 (none : Option FaultEntry))[i] = none := by simp
    exact ⟨fun i j _ e he => by simp [Flt.clearAll] at he, List.nodup_nil, fun i => by simp [Flt.clearAll]⟩

/-- A record appended or dropped keeps the eleventh law's second half. -/
theorem Elog.append_law {g : Elog} (h : g.logLaw) (r : LogRecord) : (g.append r).logLaw := by
  unfold Elog.append
  split
  · exact ⟨by simp; omega, h.2⟩
  · exact ⟨h.1, Nat.min_le_right _ _⟩

/-! ### Tag pool -/

/-- One change of the tag pool, with the guard its operation checks. -/
inductive TagChange : Mli → Mli → Prop where
  | free (m : Mli) (t) : TagChange m (Mli.put m t Tag.free)
  | quarantine (m : Mli) (t) : m[t].state = .outstanding → TagChange m (Mli.put m t m[t].quarantine)
  | issue (m : Mli) (t x) : m[t].state = .free → x.state = .outstanding →
      (x.kind.isWrite = true → Mli.barsDrain m x.line = false) →
      (x.kind.isWrite = false → Mli.barsRead m x.line = false) → TagChange m (Mli.put m t x)
  | age (m : Mli) : TagChange m (Mli.age m)
  | dropOwners (m : Mli) : TagChange m (Mli.dropSlotOwners m)
  | reclaim (m : Mli) : TagChange m (Mli.reclaim m)

/-- No claim is added, place by place. -/
theorem Mli.interlockLaw_of_sub {m n : Mli} (hm : Mli.interlockLaw m)
    (h : ∀ t : TagIx, n[t].claims = true → m[t].claims = true ∧ n[t].line = m[t].line ∧
      n[t].kind.isWrite = m[t].kind.isWrite) : Mli.interlockLaw n := by
  intro t u hne ht hu hl
  obtain ⟨a1, a2, a3⟩ := h t ht
  obtain ⟨b1, b2, b3⟩ := h u hu
  rw [a3, b3]; exact hm t u hne a1 b1 (by rw [← a2, ← b2, hl])

theorem Mli.writeHeld_false {m : Mli} {l : LineAddr} (h : Mli.writeHeld m l = false) (t : TagIx)
    (hc : m[t].claims = true) (hl : m[t].line = l) : m[t].kind.isWrite = false := by
  have h1 : ∀ x ∈ m.toList, ¬(x.state != .free && x.kind.isWrite && x.line == l) = true := by
    exact List.any_eq_false.1 h
  have h2 := h1 m[t] (by simp [Fin.getElem_fin])
  generalize m[t] = x at *
  cases hw : x.kind.isWrite
  · rfl
  · unfold Tag.claims at hc; simp_all

theorem Mli.readOutstanding_false {m : Mli} {l : LineAddr} (h : Mli.readOutstanding m l = false) (t : TagIx)
    (hc : m[t].claims = true) (hl : m[t].line = l) : m[t].kind.isWrite = true := by
  have h1 : ∀ x ∈ m.toList, ¬(x.state == .outstanding && !x.kind.isWrite && x.line == l) = true := by
    exact List.any_eq_false.1 h
  have h2 := h1 m[t] (by simp [Fin.getElem_fin])
  generalize m[t] = x at *
  cases hw : x.kind.isWrite
  · unfold Tag.claims at hc; simp_all
  · rfl

/-- Every change of the tag pool keeps the third law. -/
theorem TagChange.interlockLaw {m n : Mli} (h : TagChange m n) (hm : Mli.interlockLaw m) : Mli.interlockLaw n := by
  cases h with
  | free t =>
    refine Mli.interlockLaw_of_sub hm fun u hu => ?_
    simp only [Mli.put, Vector.get_set_fin] at *
    split at hu
    · exact absurd hu (by simp [Tag.claims, Tag.free])
    · rename_i h; simp only [if_neg h]; exact ⟨hu, trivial, trivial⟩
  | quarantine t ht =>
    refine Mli.interlockLaw_of_sub hm fun u hu => ?_
    simp only [Mli.put, Vector.get_set_fin] at *
    split at hu
    · rename_i h; subst h
      simp only [if_pos]
      exact ⟨by simp only [Tag.claims, ht]; rfl, rfl, rfl⟩
    · rename_i h; simp only [if_neg h]; exact ⟨hu, trivial, trivial⟩
  | issue t x hfree hx hw hr =>
    have key : ∀ u : TagIx, m[u].claims = true → m[u].line = x.line →
        x.kind.isWrite = false ∧ m[u].kind.isWrite = false := by
      intro u hc hl
      cases hk : x.kind.isWrite
      · exact ⟨rfl, Mli.writeHeld_false (hr hk) u hc hl⟩
      · have hb := hw hk
        simp only [Mli.barsDrain, Bool.or_eq_false_iff] at hb
        have h1 := Mli.writeHeld_false hb.1 u hc hl
        rw [Mli.readOutstanding_false hb.2 u hc hl] at h1; exact absurd h1 (by simp)
    intro a b hne ha hb hl
    simp only [Mli.put, Vector.get_set_fin] at *
    split at ha <;> split at hb
    · simp_all
    · rename_i h1 h2; subst h1
      simp only [if_pos, if_neg h2] at *
      exact key b hb hl.symm
    · rename_i h1 h2; subst h2
      simp only [if_pos, if_neg h1] at *
      exact (key a ha hl).symm
    · rename_i h1 h2
      simp only [if_neg h1, if_neg h2] at *
      exact hm a b hne ha hb hl
  | age =>
    refine Mli.interlockLaw_of_sub hm fun u hu => ?_
    simp only [Mli.age, Vector.get_ofFn_fin] at *
    split at hu <;> simp_all [Tag.claims]
  | dropOwners =>
    refine Mli.interlockLaw_of_sub hm fun u hu => ?_
    simp only [Mli.dropSlotOwners, Vector.get_ofFn_fin] at *
    split at hu <;> simp_all [Tag.claims]
  | reclaim =>
    refine Mli.interlockLaw_of_sub hm fun u hu => ?_
    simp only [Mli.reclaim, Vector.get_ofFn_fin] at *
    split at hu
    · exact absurd hu (by simp [Tag.claims, Tag.free])
    · rename_i h; simp only [if_neg h]; exact ⟨hu, trivial, trivial⟩

/-! ### Stream Table -/

/-- One change of the Stream Table under reported depths of at most `D`, with the guard its operation checks. -/
inductive StreamChange (D : Nat) : Stt → Stt → Prop where
  | notice (t : Stt) (src g l) : StreamChange D t (t.notice src g l)
  | moves (t : Stt) (depth : StreamIx → Nat) (range : StreamIx → LineAddr → Bool) (held : LineAddr → Bool)
      (n : StreamIx → Nat) : (∀ k, depth k ≤ D) →
      StreamChange D t { t with entries := Vector.ofFn fun k => Stream.moveOn (depth k) (range k) held (n k) t.entries[k] }
  | issued (t : Stt) (k) (depth : Nat) (range : LineAddr → Bool) : depth ≤ D →
      t.entries[k].reaches depth range = true → StreamChange D t (t.issued k)
  | age (t : Stt) : StreamChange D t t.ageIdle
  | expire (t : Stt) (n) : StreamChange D t (t.expire n)
  | rewrite (t : Stt) (g) : StreamChange D t (t.rewriteNotice g)
  | clear (t : Stt) : StreamChange D t Stt.empty

theorem Stream.train_key (e : Stream) (l : LineAddr) :
    (e.train l).valid = e.valid ∧ (e.train l).source = e.source ∧ (e.train l).region = e.region := by
  unfold Stream.train; split <;> [simp; (split <;> [simp; (split <;> [simp; (split <;> simp)])])]

theorem Stream.moveOn_key (depth : Nat) (r h : LineAddr → Bool) (n : Nat) (e : Stream) :
    (Stream.moveOn depth r h n e).valid = e.valid ∧ (Stream.moveOn depth r h n e).source = e.source ∧
      (Stream.moveOn depth r h n e).region = e.region := by
  induction n generalizing e with
  | zero => simp [Stream.moveOn]
  | succ n ih => unfold Stream.moveOn; split <;> simp [ih]

/-- No pair in use is added, place by place. -/
theorem Stt.pairLaw_of_sub {t u : Stt} (ht : t.pairLaw) (h : ∀ k : StreamIx, u.entries[k].valid = true →
    t.entries[k].valid = true ∧ u.entries[k].source = t.entries[k].source ∧ u.entries[k].region = t.entries[k].region) :
    u.pairLaw := by
  intro j k hne hj hk
  obtain ⟨a1, a2, a3⟩ := h j hj
  obtain ⟨b1, b2, b3⟩ := h k hk
  rw [a2, a3, b2, b3]; exact ht j k hne a1 b1

/-- Every change of the Stream Table keeps R90. -/
theorem StreamChange.pairLaw {D : Nat} {t u : Stt} (h : StreamChange D t u) (ht : t.pairLaw) : u.pairLaw := by
  cases h with
  | notice src g l =>
    unfold Stt.notice
    split
    · rename_i k _
      refine Stt.pairLaw_of_sub ht fun j hj => ?_
      simp only [Vector.get_set_fin] at *
      split at hj
      · rename_i h; subst h
        have := Stream.train_key t.entries[k] l
        simp_all
      · simp_all
    · rename_i hn
      have hno : ∀ k : StreamIx, t.entries[k].valid = true → ¬(t.entries[k].source = src ∧ t.entries[k].region = g) := by
        intro k hk
        have := List.find?_eq_none.1 hn k (List.mem_finRange k)
        generalize t.entries[k] = e at *
        simpa [hk] using this
      intro j k hne hj hk
      simp only [Vector.get_set_fin] at *
      split at hj <;> split at hk
      · simp_all
      · rename_i h1 h2; rw [if_pos h1, if_neg h2]
        exact fun e => hno k hk ⟨e.1.symm, e.2.symm⟩
      · rename_i h1 h2; rw [if_neg h1, if_pos h2]
        exact hno j hj
      · rename_i h1 h2; rw [if_neg h1, if_neg h2]
        exact ht j k hne hj hk
  | moves depth range held n _ =>
    refine Stt.pairLaw_of_sub ht fun j hj => ?_
    simp only [Vector.get_ofFn_fin] at *
    have := Stream.moveOn_key (depth j) (range j) held (n j) t.entries[j]
    exact ⟨this.1 ▸ hj, this.2⟩
  | issued k _ _ _ _ =>
    refine Stt.pairLaw_of_sub ht fun j hj => ?_
    simp only [Stt.issued, Vector.get_set_fin] at *
    split at hj <;> simp_all
  | age =>
    refine Stt.pairLaw_of_sub ht fun j hj => ?_
    simp only [Stt.ageIdle, Vector.get_ofFn_fin] at *
    split at hj <;> simp_all
  | expire n =>
    refine Stt.pairLaw_of_sub ht fun j hj => ?_
    simp only [Stt.expire, Vector.get_ofFn_fin] at *
    split at hj
    · simp [Stream.free] at hj
    · rename_i h; rw [if_neg h]; exact ⟨hj, rfl, rfl⟩
  | rewrite g =>
    refine Stt.pairLaw_of_sub ht fun j hj => ?_
    simp only [Stt.rewriteNotice, Vector.get_ofFn_fin] at *
    split at hj
    · simp [Stream.free] at hj
    · rename_i h; rw [if_neg h]; exact ⟨hj, rfl, rfl⟩
  | clear => intro j k _ hj; simp [Stt.empty, Stream.free] at hj

/-- One step in a set direction makes the lead one greater. -/
theorem Stream.lead_succ (e : Stream) (hd : e.dir ≠ .none) (hl : e.lead < 2 ^ 27 - 1) :
    Stream.lead { e with next := e.dir.step e.next } = e.lead + 1 := by
  unfold Stream.lead Dir.step at *
  cases h : e.dir <;> simp only [h] at *
  · exact absurd rfl hd
  · rw [show e.next + 1#27 - e.last = e.next - e.last + 1#27 by ring]
    generalize e.next - e.last = x at *
    rw [BitVec.toNat_add]; simp only [BitVec.toNat_ofNat]; omega
  · rw [show e.last - (e.next - 1#27) = e.last - e.next + 1#27 by ring]
    generalize e.last - e.next = x at *
    rw [BitVec.toNat_add]; simp only [BitVec.toNat_ofNat]; omega

theorem Stream.train_lead (e : Stream) (l : LineAddr) (h : e.leadLaw) : (e.train l).leadLaw := by
  unfold Stream.leadLaw at *
  unfold Stream.train
  split
  · exact h
  · split
    · rename_i _ h2
      refine ⟨Nat.min_le_right _ _, fun hd => ?_⟩
      obtain ⟨h3, h4⟩ := h.2 hd
      have h5 := h2.2
      unfold Stream.lead Dir.step at *
      cases hdir : e.dir <;> simp only [hdir] at *
      · exact absurd rfl hd
      · subst h5
        split
        · rw [show e.last + 1#27 + 1#27 - (e.last + 1#27) = 1#27 by ring]; simp
        · rename_i hne
          rw [show e.next - (e.last + 1#27) = e.next - e.last - 1#27 by ring]
          have : e.next - e.last ≠ 1#27 := fun h => hne (by rw [← h]; ring)
          have h6 : (e.next - e.last).toNat ≠ 1 := fun h => this (BitVec.eq_of_toNat_eq (by simpa using h))
          generalize e.next - e.last = x at *
          rw [BitVec.toNat_sub]; simp only [BitVec.toNat_ofNat]; omega
      · subst h5
        split
        · rw [show e.last - 1#27 - (e.last - 1#27 - 1#27) = 1#27 by ring]; simp
        · rename_i hne
          rw [show e.last - 1#27 - e.next = e.last - e.next - 1#27 by ring]
          have : e.last - e.next ≠ 1#27 := fun h => hne (by rw [← h]; ring)
          have h6 : (e.last - e.next).toNat ≠ 1 := fun h => this (BitVec.eq_of_toNat_eq (by simpa using h))
          generalize e.last - e.next = x at *
          rw [BitVec.toNat_sub]; simp only [BitVec.toNat_ofNat]; omega
    · split
      · refine ⟨by simp, fun _ => ?_⟩
        simp only [Stream.lead]
        rw [show l + 1#27 - l = 1#27 by ring]; simp
      · split
        · refine ⟨by simp, fun _ => ?_⟩
          simp only [Stream.lead]
          rw [show l - (l - 1#27) = 1#27 by ring]; simp
        · exact ⟨by simp, fun hd => absurd rfl hd⟩

theorem Stream.reaches_iff (e : Stream) (depth : Nat) (r : LineAddr → Bool) : e.reaches depth r = true ↔
    e.valid = true ∧ 2 ≤ e.conf ∧ e.dir ≠ .none ∧ e.lead ≤ depth ∧ r e.next = true := by
  simp [Stream.reaches, and_assoc]

/-- A step of an entry inside its window keeps R91. -/
theorem Stream.step_lead {e : Stream} {depth : Nat} {r : LineAddr → Bool} (hd : depth ≤ 4) (h : e.leadLaw)
    (hr : e.reaches depth r = true) : Stream.leadLaw { e with next := e.dir.step e.next } := by
  rw [Stream.reaches_iff] at hr
  refine ⟨h.1, fun hn => ?_⟩
  rw [Stream.lead_succ e hr.2.2.1 (by omega)]; omega

theorem Stream.moveOn_lead (depth : Nat) (hd : depth ≤ 4) (r held : LineAddr → Bool) (n : Nat) (e : Stream)
    (h : e.leadLaw) : (Stream.moveOn depth r held n e).leadLaw := by
  induction n generalizing e with
  | zero => exact h
  | succ n ih =>
    unfold Stream.moveOn
    split
    · rename_i hc
      simp only [Bool.and_eq_true] at hc
      exact ih _ (Stream.step_lead hd h hc.1)
    · exact h

theorem Stream.free_lead : Stream.free.leadLaw := ⟨by simp [Stream.free], fun h => absurd rfl h⟩

/-- Every change of the Stream Table under depths of at most 4 keeps R91. -/
theorem StreamChange.leadLaw {t u : Stt} (h : StreamChange 4 t u) (ht : ∀ k : StreamIx, t.entries[k].leadLaw) :
    ∀ k : StreamIx, u.entries[k].leadLaw := by
  intro k
  cases h with
  | notice src g l =>
    unfold Stt.notice
    split <;> simp only [Vector.get_set_fin] <;> split
    · exact Stream.train_lead _ l (ht _)
    · exact ht k
    · exact ⟨by simp [Stream.fresh], fun h => absurd rfl h⟩
    · exact ht k
  | moves depth range held n hd =>
    simp only [Vector.get_ofFn_fin]
    exact Stream.moveOn_lead _ (hd k) _ _ _ _ (ht k)
  | issued j depth range hd hr =>
    simp only [Stt.issued, Vector.get_set_fin]
    split
    · exact Stream.step_lead hd (ht j) hr
    · exact ht k
  | age =>
    simp only [Stt.ageIdle, Vector.get_ofFn_fin]
    split <;> exact ht k
  | expire n =>
    simp only [Stt.expire, Vector.get_ofFn_fin]
    split
    · exact Stream.free_lead
    · exact ht k
  | rewrite g =>
    simp only [Stt.rewriteNotice, Vector.get_ofFn_fin]
    split
    · exact Stream.free_lead
    · exact ht k
  | clear => simp only [Stt.empty]; simpa using Stream.free_lead

end Sys2Proof.Machine
end

