-- ==== Sys2Proof/Laws/State.lean ====
section
/-! SUPPORT. What each field of the state is after each named update: one lemma per field per update, by rfl. -/

namespace Sys2Proof.Machine

/-! ### withPins -/

@[simp] theorem State.withPins_pins (s : State) (x : Pins) : (s.withPins x).pins = x := rfl
@[simp] theorem State.withPins_rdec (s : State) (x : Pins) : (s.withPins x).rdec = s.rdec := rfl
@[simp] theorem State.withPins_cfg (s : State) (x : Pins) : (s.withPins x).cfg = s.cfg := rfl
@[simp] theorem State.withPins_urt (s : State) (x : Pins) : (s.withPins x).urt = s.urt := rfl
@[simp] theorem State.withPins_pq (s : State) (x : Pins) : (s.withPins x).pq = s.pq := rfl
@[simp] theorem State.withPins_rab (s : State) (x : Pins) : (s.withPins x).rab = s.rab := rfl
@[simp] theorem State.withPins_stt (s : State) (x : Pins) : (s.withPins x).stt = s.stt := rfl
@[simp] theorem State.withPins_mli (s : State) (x : Pins) : (s.withPins x).mli = s.mli := rfl
@[simp] theorem State.withPins_flt (s : State) (x : Pins) : (s.withPins x).flt = s.flt := rfl
@[simp] theorem State.withPins_elog (s : State) (x : Pins) : (s.withPins x).elog = s.elog := rfl
@[simp] theorem State.withPins_pctl (s : State) (x : Pins) : (s.withPins x).pctl = s.pctl := rfl
@[simp] theorem State.withPins_tgen (s : State) (x : Pins) : (s.withPins x).tgen = s.tgen := rfl
@[simp] theorem State.withPins_rx (s : State) (x : Pins) : (s.withPins x).rx = s.rx := rfl
@[simp] theorem State.withPins_out (s : State) (x : Pins) : (s.withPins x).out = s.out := rfl
@[simp] theorem State.withPins_pending (s : State) (x : Pins) : (s.withPins x).pending = s.pending := rfl

/-! ### withRdec -/

@[simp] theorem State.withRdec_pins (s : State) (x : Rdec) : (s.withRdec x).pins = s.pins := rfl
@[simp] theorem State.withRdec_rdec (s : State) (x : Rdec) : (s.withRdec x).rdec = x := rfl
@[simp] theorem State.withRdec_cfg (s : State) (x : Rdec) : (s.withRdec x).cfg = s.cfg := rfl
@[simp] theorem State.withRdec_urt (s : State) (x : Rdec) : (s.withRdec x).urt = s.urt := rfl
@[simp] theorem State.withRdec_pq (s : State) (x : Rdec) : (s.withRdec x).pq = s.pq := rfl
@[simp] theorem State.withRdec_rab (s : State) (x : Rdec) : (s.withRdec x).rab = s.rab := rfl
@[simp] theorem State.withRdec_stt (s : State) (x : Rdec) : (s.withRdec x).stt = s.stt := rfl
@[simp] theorem State.withRdec_mli (s : State) (x : Rdec) : (s.withRdec x).mli = s.mli := rfl
@[simp] theorem State.withRdec_flt (s : State) (x : Rdec) : (s.withRdec x).flt = s.flt := rfl
@[simp] theorem State.withRdec_elog (s : State) (x : Rdec) : (s.withRdec x).elog = s.elog := rfl
@[simp] theorem State.withRdec_pctl (s : State) (x : Rdec) : (s.withRdec x).pctl = s.pctl := rfl
@[simp] theorem State.withRdec_tgen (s : State) (x : Rdec) : (s.withRdec x).tgen = s.tgen := rfl
@[simp] theorem State.withRdec_rx (s : State) (x : Rdec) : (s.withRdec x).rx = s.rx := rfl
@[simp] theorem State.withRdec_out (s : State) (x : Rdec) : (s.withRdec x).out = s.out := rfl
@[simp] theorem State.withRdec_pending (s : State) (x : Rdec) : (s.withRdec x).pending = s.pending := rfl

/-! ### withCfg -/

@[simp] theorem State.withCfg_pins (s : State) (x : Settings) : (s.withCfg x).pins = s.pins := rfl
@[simp] theorem State.withCfg_rdec (s : State) (x : Settings) : (s.withCfg x).rdec = s.rdec := rfl
@[simp] theorem State.withCfg_cfg (s : State) (x : Settings) : (s.withCfg x).cfg = x := rfl
@[simp] theorem State.withCfg_urt (s : State) (x : Settings) : (s.withCfg x).urt = s.urt := rfl
@[simp] theorem State.withCfg_pq (s : State) (x : Settings) : (s.withCfg x).pq = s.pq := rfl
@[simp] theorem State.withCfg_rab (s : State) (x : Settings) : (s.withCfg x).rab = s.rab := rfl
@[simp] theorem State.withCfg_stt (s : State) (x : Settings) : (s.withCfg x).stt = s.stt := rfl
@[simp] theorem State.withCfg_mli (s : State) (x : Settings) : (s.withCfg x).mli = s.mli := rfl
@[simp] theorem State.withCfg_flt (s : State) (x : Settings) : (s.withCfg x).flt = s.flt := rfl
@[simp] theorem State.withCfg_elog (s : State) (x : Settings) : (s.withCfg x).elog = s.elog := rfl
@[simp] theorem State.withCfg_pctl (s : State) (x : Settings) : (s.withCfg x).pctl = s.pctl := rfl
@[simp] theorem State.withCfg_tgen (s : State) (x : Settings) : (s.withCfg x).tgen = s.tgen := rfl
@[simp] theorem State.withCfg_rx (s : State) (x : Settings) : (s.withCfg x).rx = s.rx := rfl
@[simp] theorem State.withCfg_out (s : State) (x : Settings) : (s.withCfg x).out = s.out := rfl
@[simp] theorem State.withCfg_pending (s : State) (x : Settings) : (s.withCfg x).pending = s.pending := rfl

/-! ### withUrt -/

@[simp] theorem State.withUrt_pins (s : State) (x : Urt) : (s.withUrt x).pins = s.pins := rfl
@[simp] theorem State.withUrt_rdec (s : State) (x : Urt) : (s.withUrt x).rdec = s.rdec := rfl
@[simp] theorem State.withUrt_cfg (s : State) (x : Urt) : (s.withUrt x).cfg = s.cfg := rfl
@[simp] theorem State.withUrt_urt (s : State) (x : Urt) : (s.withUrt x).urt = x := rfl
@[simp] theorem State.withUrt_pq (s : State) (x : Urt) : (s.withUrt x).pq = s.pq := rfl
@[simp] theorem State.withUrt_rab (s : State) (x : Urt) : (s.withUrt x).rab = s.rab := rfl
@[simp] theorem State.withUrt_stt (s : State) (x : Urt) : (s.withUrt x).stt = s.stt := rfl
@[simp] theorem State.withUrt_mli (s : State) (x : Urt) : (s.withUrt x).mli = s.mli := rfl
@[simp] theorem State.withUrt_flt (s : State) (x : Urt) : (s.withUrt x).flt = s.flt := rfl
@[simp] theorem State.withUrt_elog (s : State) (x : Urt) : (s.withUrt x).elog = s.elog := rfl
@[simp] theorem State.withUrt_pctl (s : State) (x : Urt) : (s.withUrt x).pctl = s.pctl := rfl
@[simp] theorem State.withUrt_tgen (s : State) (x : Urt) : (s.withUrt x).tgen = s.tgen := rfl
@[simp] theorem State.withUrt_rx (s : State) (x : Urt) : (s.withUrt x).rx = s.rx := rfl
@[simp] theorem State.withUrt_out (s : State) (x : Urt) : (s.withUrt x).out = s.out := rfl
@[simp] theorem State.withUrt_pending (s : State) (x : Urt) : (s.withUrt x).pending = s.pending := rfl

/-! ### withPq -/

@[simp] theorem State.withPq_pins (s : State) (x : Queue) : (s.withPq x).pins = s.pins := rfl
@[simp] theorem State.withPq_rdec (s : State) (x : Queue) : (s.withPq x).rdec = s.rdec := rfl
@[simp] theorem State.withPq_cfg (s : State) (x : Queue) : (s.withPq x).cfg = s.cfg := rfl
@[simp] theorem State.withPq_urt (s : State) (x : Queue) : (s.withPq x).urt = s.urt := rfl
@[simp] theorem State.withPq_pq (s : State) (x : Queue) : (s.withPq x).pq = x := rfl
@[simp] theorem State.withPq_rab (s : State) (x : Queue) : (s.withPq x).rab = s.rab := rfl
@[simp] theorem State.withPq_stt (s : State) (x : Queue) : (s.withPq x).stt = s.stt := rfl
@[simp] theorem State.withPq_mli (s : State) (x : Queue) : (s.withPq x).mli = s.mli := rfl
@[simp] theorem State.withPq_flt (s : State) (x : Queue) : (s.withPq x).flt = s.flt := rfl
@[simp] theorem State.withPq_elog (s : State) (x : Queue) : (s.withPq x).elog = s.elog := rfl
@[simp] theorem State.withPq_pctl (s : State) (x : Queue) : (s.withPq x).pctl = s.pctl := rfl
@[simp] theorem State.withPq_tgen (s : State) (x : Queue) : (s.withPq x).tgen = s.tgen := rfl
@[simp] theorem State.withPq_rx (s : State) (x : Queue) : (s.withPq x).rx = s.rx := rfl
@[simp] theorem State.withPq_out (s : State) (x : Queue) : (s.withPq x).out = s.out := rfl
@[simp] theorem State.withPq_pending (s : State) (x : Queue) : (s.withPq x).pending = s.pending := rfl

/-! ### withRab -/

@[simp] theorem State.withRab_pins (s : State) (x : Rab) : (s.withRab x).pins = s.pins := rfl
@[simp] theorem State.withRab_rdec (s : State) (x : Rab) : (s.withRab x).rdec = s.rdec := rfl
@[simp] theorem State.withRab_cfg (s : State) (x : Rab) : (s.withRab x).cfg = s.cfg := rfl
@[simp] theorem State.withRab_urt (s : State) (x : Rab) : (s.withRab x).urt = s.urt := rfl
@[simp] theorem State.withRab_pq (s : State) (x : Rab) : (s.withRab x).pq = s.pq := rfl
@[simp] theorem State.withRab_rab (s : State) (x : Rab) : (s.withRab x).rab = x := rfl
@[simp] theorem State.withRab_stt (s : State) (x : Rab) : (s.withRab x).stt = s.stt := rfl
@[simp] theorem State.withRab_mli (s : State) (x : Rab) : (s.withRab x).mli = s.mli := rfl
@[simp] theorem State.withRab_flt (s : State) (x : Rab) : (s.withRab x).flt = s.flt := rfl
@[simp] theorem State.withRab_elog (s : State) (x : Rab) : (s.withRab x).elog = s.elog := rfl
@[simp] theorem State.withRab_pctl (s : State) (x : Rab) : (s.withRab x).pctl = s.pctl := rfl
@[simp] theorem State.withRab_tgen (s : State) (x : Rab) : (s.withRab x).tgen = s.tgen := rfl
@[simp] theorem State.withRab_rx (s : State) (x : Rab) : (s.withRab x).rx = s.rx := rfl
@[simp] theorem State.withRab_out (s : State) (x : Rab) : (s.withRab x).out = s.out := rfl
@[simp] theorem State.withRab_pending (s : State) (x : Rab) : (s.withRab x).pending = s.pending := rfl

/-! ### withStt -/

@[simp] theorem State.withStt_pins (s : State) (x : Stt) : (s.withStt x).pins = s.pins := rfl
@[simp] theorem State.withStt_rdec (s : State) (x : Stt) : (s.withStt x).rdec = s.rdec := rfl
@[simp] theorem State.withStt_cfg (s : State) (x : Stt) : (s.withStt x).cfg = s.cfg := rfl
@[simp] theorem State.withStt_urt (s : State) (x : Stt) : (s.withStt x).urt = s.urt := rfl
@[simp] theorem State.withStt_pq (s : State) (x : Stt) : (s.withStt x).pq = s.pq := rfl
@[simp] theorem State.withStt_rab (s : State) (x : Stt) : (s.withStt x).rab = s.rab := rfl
@[simp] theorem State.withStt_stt (s : State) (x : Stt) : (s.withStt x).stt = x := rfl
@[simp] theorem State.withStt_mli (s : State) (x : Stt) : (s.withStt x).mli = s.mli := rfl
@[simp] theorem State.withStt_flt (s : State) (x : Stt) : (s.withStt x).flt = s.flt := rfl
@[simp] theorem State.withStt_elog (s : State) (x : Stt) : (s.withStt x).elog = s.elog := rfl
@[simp] theorem State.withStt_pctl (s : State) (x : Stt) : (s.withStt x).pctl = s.pctl := rfl
@[simp] theorem State.withStt_tgen (s : State) (x : Stt) : (s.withStt x).tgen = s.tgen := rfl
@[simp] theorem State.withStt_rx (s : State) (x : Stt) : (s.withStt x).rx = s.rx := rfl
@[simp] theorem State.withStt_out (s : State) (x : Stt) : (s.withStt x).out = s.out := rfl
@[simp] theorem State.withStt_pending (s : State) (x : Stt) : (s.withStt x).pending = s.pending := rfl

/-! ### withMli -/

@[simp] theorem State.withMli_pins (s : State) (x : Mli) : (s.withMli x).pins = s.pins := rfl
@[simp] theorem State.withMli_rdec (s : State) (x : Mli) : (s.withMli x).rdec = s.rdec := rfl
@[simp] theorem State.withMli_cfg (s : State) (x : Mli) : (s.withMli x).cfg = s.cfg := rfl
@[simp] theorem State.withMli_urt (s : State) (x : Mli) : (s.withMli x).urt = s.urt := rfl
@[simp] theorem State.withMli_pq (s : State) (x : Mli) : (s.withMli x).pq = s.pq := rfl
@[simp] theorem State.withMli_rab (s : State) (x : Mli) : (s.withMli x).rab = s.rab := rfl
@[simp] theorem State.withMli_stt (s : State) (x : Mli) : (s.withMli x).stt = s.stt := rfl
@[simp] theorem State.withMli_mli (s : State) (x : Mli) : (s.withMli x).mli = x := rfl
@[simp] theorem State.withMli_flt (s : State) (x : Mli) : (s.withMli x).flt = s.flt := rfl
@[simp] theorem State.withMli_elog (s : State) (x : Mli) : (s.withMli x).elog = s.elog := rfl
@[simp] theorem State.withMli_pctl (s : State) (x : Mli) : (s.withMli x).pctl = s.pctl := rfl
@[simp] theorem State.withMli_tgen (s : State) (x : Mli) : (s.withMli x).tgen = s.tgen := rfl
@[simp] theorem State.withMli_rx (s : State) (x : Mli) : (s.withMli x).rx = s.rx := rfl
@[simp] theorem State.withMli_out (s : State) (x : Mli) : (s.withMli x).out = s.out := rfl
@[simp] theorem State.withMli_pending (s : State) (x : Mli) : (s.withMli x).pending = s.pending := rfl

/-! ### withFlt -/

@[simp] theorem State.withFlt_pins (s : State) (x : Flt) : (s.withFlt x).pins = s.pins := rfl
@[simp] theorem State.withFlt_rdec (s : State) (x : Flt) : (s.withFlt x).rdec = s.rdec := rfl
@[simp] theorem State.withFlt_cfg (s : State) (x : Flt) : (s.withFlt x).cfg = s.cfg := rfl
@[simp] theorem State.withFlt_urt (s : State) (x : Flt) : (s.withFlt x).urt = s.urt := rfl
@[simp] theorem State.withFlt_pq (s : State) (x : Flt) : (s.withFlt x).pq = s.pq := rfl
@[simp] theorem State.withFlt_rab (s : State) (x : Flt) : (s.withFlt x).rab = s.rab := rfl
@[simp] theorem State.withFlt_stt (s : State) (x : Flt) : (s.withFlt x).stt = s.stt := rfl
@[simp] theorem State.withFlt_mli (s : State) (x : Flt) : (s.withFlt x).mli = s.mli := rfl
@[simp] theorem State.withFlt_flt (s : State) (x : Flt) : (s.withFlt x).flt = x := rfl
@[simp] theorem State.withFlt_elog (s : State) (x : Flt) : (s.withFlt x).elog = s.elog := rfl
@[simp] theorem State.withFlt_pctl (s : State) (x : Flt) : (s.withFlt x).pctl = s.pctl := rfl
@[simp] theorem State.withFlt_tgen (s : State) (x : Flt) : (s.withFlt x).tgen = s.tgen := rfl
@[simp] theorem State.withFlt_rx (s : State) (x : Flt) : (s.withFlt x).rx = s.rx := rfl
@[simp] theorem State.withFlt_out (s : State) (x : Flt) : (s.withFlt x).out = s.out := rfl
@[simp] theorem State.withFlt_pending (s : State) (x : Flt) : (s.withFlt x).pending = s.pending := rfl

/-! ### withElog -/

@[simp] theorem State.withElog_pins (s : State) (x : Elog) : (s.withElog x).pins = s.pins := rfl
@[simp] theorem State.withElog_rdec (s : State) (x : Elog) : (s.withElog x).rdec = s.rdec := rfl
@[simp] theorem State.withElog_cfg (s : State) (x : Elog) : (s.withElog x).cfg = s.cfg := rfl
@[simp] theorem State.withElog_urt (s : State) (x : Elog) : (s.withElog x).urt = s.urt := rfl
@[simp] theorem State.withElog_pq (s : State) (x : Elog) : (s.withElog x).pq = s.pq := rfl
@[simp] theorem State.withElog_rab (s : State) (x : Elog) : (s.withElog x).rab = s.rab := rfl
@[simp] theorem State.withElog_stt (s : State) (x : Elog) : (s.withElog x).stt = s.stt := rfl
@[simp] theorem State.withElog_mli (s : State) (x : Elog) : (s.withElog x).mli = s.mli := rfl
@[simp] theorem State.withElog_flt (s : State) (x : Elog) : (s.withElog x).flt = s.flt := rfl
@[simp] theorem State.withElog_elog (s : State) (x : Elog) : (s.withElog x).elog = x := rfl
@[simp] theorem State.withElog_pctl (s : State) (x : Elog) : (s.withElog x).pctl = s.pctl := rfl
@[simp] theorem State.withElog_tgen (s : State) (x : Elog) : (s.withElog x).tgen = s.tgen := rfl
@[simp] theorem State.withElog_rx (s : State) (x : Elog) : (s.withElog x).rx = s.rx := rfl
@[simp] theorem State.withElog_out (s : State) (x : Elog) : (s.withElog x).out = s.out := rfl
@[simp] theorem State.withElog_pending (s : State) (x : Elog) : (s.withElog x).pending = s.pending := rfl

/-! ### withPctl -/

@[simp] theorem State.withPctl_pins (s : State) (x : Pctl) : (s.withPctl x).pins = s.pins := rfl
@[simp] theorem State.withPctl_rdec (s : State) (x : Pctl) : (s.withPctl x).rdec = s.rdec := rfl
@[simp] theorem State.withPctl_cfg (s : State) (x : Pctl) : (s.withPctl x).cfg = s.cfg := rfl
@[simp] theorem State.withPctl_urt (s : State) (x : Pctl) : (s.withPctl x).urt = s.urt := rfl
@[simp] theorem State.withPctl_pq (s : State) (x : Pctl) : (s.withPctl x).pq = s.pq := rfl
@[simp] theorem State.withPctl_rab (s : State) (x : Pctl) : (s.withPctl x).rab = s.rab := rfl
@[simp] theorem State.withPctl_stt (s : State) (x : Pctl) : (s.withPctl x).stt = s.stt := rfl
@[simp] theorem State.withPctl_mli (s : State) (x : Pctl) : (s.withPctl x).mli = s.mli := rfl
@[simp] theorem State.withPctl_flt (s : State) (x : Pctl) : (s.withPctl x).flt = s.flt := rfl
@[simp] theorem State.withPctl_elog (s : State) (x : Pctl) : (s.withPctl x).elog = s.elog := rfl
@[simp] theorem State.withPctl_pctl (s : State) (x : Pctl) : (s.withPctl x).pctl = x := rfl
@[simp] theorem State.withPctl_tgen (s : State) (x : Pctl) : (s.withPctl x).tgen = s.tgen := rfl
@[simp] theorem State.withPctl_rx (s : State) (x : Pctl) : (s.withPctl x).rx = s.rx := rfl
@[simp] theorem State.withPctl_out (s : State) (x : Pctl) : (s.withPctl x).out = s.out := rfl
@[simp] theorem State.withPctl_pending (s : State) (x : Pctl) : (s.withPctl x).pending = s.pending := rfl

/-! ### withTgen -/

@[simp] theorem State.withTgen_pins (s : State) (x : Tgen) : (s.withTgen x).pins = s.pins := rfl
@[simp] theorem State.withTgen_rdec (s : State) (x : Tgen) : (s.withTgen x).rdec = s.rdec := rfl
@[simp] theorem State.withTgen_cfg (s : State) (x : Tgen) : (s.withTgen x).cfg = s.cfg := rfl
@[simp] theorem State.withTgen_urt (s : State) (x : Tgen) : (s.withTgen x).urt = s.urt := rfl
@[simp] theorem State.withTgen_pq (s : State) (x : Tgen) : (s.withTgen x).pq = s.pq := rfl
@[simp] theorem State.withTgen_rab (s : State) (x : Tgen) : (s.withTgen x).rab = s.rab := rfl
@[simp] theorem State.withTgen_stt (s : State) (x : Tgen) : (s.withTgen x).stt = s.stt := rfl
@[simp] theorem State.withTgen_mli (s : State) (x : Tgen) : (s.withTgen x).mli = s.mli := rfl
@[simp] theorem State.withTgen_flt (s : State) (x : Tgen) : (s.withTgen x).flt = s.flt := rfl
@[simp] theorem State.withTgen_elog (s : State) (x : Tgen) : (s.withTgen x).elog = s.elog := rfl
@[simp] theorem State.withTgen_pctl (s : State) (x : Tgen) : (s.withTgen x).pctl = s.pctl := rfl
@[simp] theorem State.withTgen_tgen (s : State) (x : Tgen) : (s.withTgen x).tgen = x := rfl
@[simp] theorem State.withTgen_rx (s : State) (x : Tgen) : (s.withTgen x).rx = s.rx := rfl
@[simp] theorem State.withTgen_out (s : State) (x : Tgen) : (s.withTgen x).out = s.out := rfl
@[simp] theorem State.withTgen_pending (s : State) (x : Tgen) : (s.withTgen x).pending = s.pending := rfl

/-! ### withRx -/

@[simp] theorem State.withRx_pins (s : State) (x : Receiver) : (s.withRx x).pins = s.pins := rfl
@[simp] theorem State.withRx_rdec (s : State) (x : Receiver) : (s.withRx x).rdec = s.rdec := rfl
@[simp] theorem State.withRx_cfg (s : State) (x : Receiver) : (s.withRx x).cfg = s.cfg := rfl
@[simp] theorem State.withRx_urt (s : State) (x : Receiver) : (s.withRx x).urt = s.urt := rfl
@[simp] theorem State.withRx_pq (s : State) (x : Receiver) : (s.withRx x).pq = s.pq := rfl
@[simp] theorem State.withRx_rab (s : State) (x : Receiver) : (s.withRx x).rab = s.rab := rfl
@[simp] theorem State.withRx_stt (s : State) (x : Receiver) : (s.withRx x).stt = s.stt := rfl
@[simp] theorem State.withRx_mli (s : State) (x : Receiver) : (s.withRx x).mli = s.mli := rfl
@[simp] theorem State.withRx_flt (s : State) (x : Receiver) : (s.withRx x).flt = s.flt := rfl
@[simp] theorem State.withRx_elog (s : State) (x : Receiver) : (s.withRx x).elog = s.elog := rfl
@[simp] theorem State.withRx_pctl (s : State) (x : Receiver) : (s.withRx x).pctl = s.pctl := rfl
@[simp] theorem State.withRx_tgen (s : State) (x : Receiver) : (s.withRx x).tgen = s.tgen := rfl
@[simp] theorem State.withRx_rx (s : State) (x : Receiver) : (s.withRx x).rx = x := rfl
@[simp] theorem State.withRx_out (s : State) (x : Receiver) : (s.withRx x).out = s.out := rfl
@[simp] theorem State.withRx_pending (s : State) (x : Receiver) : (s.withRx x).pending = s.pending := rfl

/-! ### withOut -/

@[simp] theorem State.withOut_pins (s : State) (x : List PortMessage) : (s.withOut x).pins = s.pins := rfl
@[simp] theorem State.withOut_rdec (s : State) (x : List PortMessage) : (s.withOut x).rdec = s.rdec := rfl
@[simp] theorem State.withOut_cfg (s : State) (x : List PortMessage) : (s.withOut x).cfg = s.cfg := rfl
@[simp] theorem State.withOut_urt (s : State) (x : List PortMessage) : (s.withOut x).urt = s.urt := rfl
@[simp] theorem State.withOut_pq (s : State) (x : List PortMessage) : (s.withOut x).pq = s.pq := rfl
@[simp] theorem State.withOut_rab (s : State) (x : List PortMessage) : (s.withOut x).rab = s.rab := rfl
@[simp] theorem State.withOut_stt (s : State) (x : List PortMessage) : (s.withOut x).stt = s.stt := rfl
@[simp] theorem State.withOut_mli (s : State) (x : List PortMessage) : (s.withOut x).mli = s.mli := rfl
@[simp] theorem State.withOut_flt (s : State) (x : List PortMessage) : (s.withOut x).flt = s.flt := rfl
@[simp] theorem State.withOut_elog (s : State) (x : List PortMessage) : (s.withOut x).elog = s.elog := rfl
@[simp] theorem State.withOut_pctl (s : State) (x : List PortMessage) : (s.withOut x).pctl = s.pctl := rfl
@[simp] theorem State.withOut_tgen (s : State) (x : List PortMessage) : (s.withOut x).tgen = s.tgen := rfl
@[simp] theorem State.withOut_rx (s : State) (x : List PortMessage) : (s.withOut x).rx = s.rx := rfl
@[simp] theorem State.withOut_out (s : State) (x : List PortMessage) : (s.withOut x).out = x := rfl
@[simp] theorem State.withOut_pending (s : State) (x : List PortMessage) : (s.withOut x).pending = s.pending := rfl

/-! ### quiet -/

@[simp] theorem State.quiet_pins (s : State) : (s.quiet).pins = s.pins := rfl
@[simp] theorem State.quiet_rdec (s : State) : (s.quiet).rdec = s.rdec := rfl
@[simp] theorem State.quiet_cfg (s : State) : (s.quiet).cfg = s.cfg := rfl
@[simp] theorem State.quiet_urt (s : State) : (s.quiet).urt = s.urt := rfl
@[simp] theorem State.quiet_pq (s : State) : (s.quiet).pq = s.pq := rfl
@[simp] theorem State.quiet_rab (s : State) : (s.quiet).rab = s.rab := rfl
@[simp] theorem State.quiet_stt (s : State) : (s.quiet).stt = s.stt := rfl
@[simp] theorem State.quiet_mli (s : State) : (s.quiet).mli = s.mli := rfl
@[simp] theorem State.quiet_flt (s : State) : (s.quiet).flt = s.flt := rfl
@[simp] theorem State.quiet_elog (s : State) : (s.quiet).elog = s.elog := rfl
@[simp] theorem State.quiet_pctl (s : State) : (s.quiet).pctl = s.pctl := rfl
@[simp] theorem State.quiet_tgen (s : State) : (s.quiet).tgen = s.tgen := rfl
@[simp] theorem State.quiet_rx (s : State) : (s.quiet).rx = s.rx := rfl
@[simp] theorem State.quiet_out (s : State) : (s.quiet).out = [] := rfl
@[simp] theorem State.quiet_pending (s : State) : (s.quiet).pending = s.pending := rfl

/-! ### emit -/

@[simp] theorem State.emit_pins (s : State) (m : PortMessage) : (s.emit m).pins = s.pins := rfl
@[simp] theorem State.emit_rdec (s : State) (m : PortMessage) : (s.emit m).rdec = s.rdec := rfl
@[simp] theorem State.emit_cfg (s : State) (m : PortMessage) : (s.emit m).cfg = s.cfg := rfl
@[simp] theorem State.emit_urt (s : State) (m : PortMessage) : (s.emit m).urt = s.urt := rfl
@[simp] theorem State.emit_pq (s : State) (m : PortMessage) : (s.emit m).pq = s.pq := rfl
@[simp] theorem State.emit_rab (s : State) (m : PortMessage) : (s.emit m).rab = s.rab := rfl
@[simp] theorem State.emit_stt (s : State) (m : PortMessage) : (s.emit m).stt = s.stt := rfl
@[simp] theorem State.emit_mli (s : State) (m : PortMessage) : (s.emit m).mli = s.mli := rfl
@[simp] theorem State.emit_flt (s : State) (m : PortMessage) : (s.emit m).flt = s.flt := rfl
@[simp] theorem State.emit_elog (s : State) (m : PortMessage) : (s.emit m).elog = s.elog := rfl
@[simp] theorem State.emit_pctl (s : State) (m : PortMessage) : (s.emit m).pctl = s.pctl := rfl
@[simp] theorem State.emit_tgen (s : State) (m : PortMessage) : (s.emit m).tgen = s.tgen := rfl
@[simp] theorem State.emit_rx (s : State) (m : PortMessage) : (s.emit m).rx = s.rx := rfl
@[simp] theorem State.emit_out (s : State) (m : PortMessage) : (s.emit m).out = s.out ++ [m] := rfl
@[simp] theorem State.emit_pending (s : State) (m : PortMessage) : (s.emit m).pending = s.pending := rfl

/-! ### log -/

@[simp] theorem State.log_pins (s : State) (r : LogRecord) : (s.log r).pins = s.pins := rfl
@[simp] theorem State.log_rdec (s : State) (r : LogRecord) : (s.log r).rdec = s.rdec := rfl
@[simp] theorem State.log_cfg (s : State) (r : LogRecord) : (s.log r).cfg = s.cfg := rfl
@[simp] theorem State.log_urt (s : State) (r : LogRecord) : (s.log r).urt = s.urt := rfl
@[simp] theorem State.log_pq (s : State) (r : LogRecord) : (s.log r).pq = s.pq := rfl
@[simp] theorem State.log_rab (s : State) (r : LogRecord) : (s.log r).rab = s.rab := rfl
@[simp] theorem State.log_stt (s : State) (r : LogRecord) : (s.log r).stt = s.stt := rfl
@[simp] theorem State.log_mli (s : State) (r : LogRecord) : (s.log r).mli = s.mli := rfl
@[simp] theorem State.log_flt (s : State) (r : LogRecord) : (s.log r).flt = s.flt := rfl
@[simp] theorem State.log_elog (s : State) (r : LogRecord) : (s.log r).elog = s.elog.append r := rfl
@[simp] theorem State.log_pctl (s : State) (r : LogRecord) : (s.log r).pctl = s.pctl := rfl
@[simp] theorem State.log_tgen (s : State) (r : LogRecord) : (s.log r).tgen = s.tgen := rfl
@[simp] theorem State.log_rx (s : State) (r : LogRecord) : (s.log r).rx = s.rx := rfl
@[simp] theorem State.log_out (s : State) (r : LogRecord) : (s.log r).out = s.out := rfl
@[simp] theorem State.log_pending (s : State) (r : LogRecord) : (s.log r).pending = s.pending := rfl

/-! ### updateSlot -/

@[simp] theorem State.updateSlot_pins (s : State) (i : SlotIx) (f : Slot → Slot) :
    (s.updateSlot i f).pins = s.pins := rfl
@[simp] theorem State.updateSlot_rdec (s : State) (i : SlotIx) (f : Slot → Slot) :
    (s.updateSlot i f).rdec = s.rdec := rfl
@[simp] theorem State.updateSlot_cfg (s : State) (i : SlotIx) (f : Slot → Slot) : (s.updateSlot i f).cfg = s.cfg := rfl
@[simp] theorem State.updateSlot_urt (s : State) (i : SlotIx) (f : Slot → Slot) :
    (s.updateSlot i f).urt = s.urt.update i f := rfl
@[simp] theorem State.updateSlot_pq (s : State) (i : SlotIx) (f : Slot → Slot) : (s.updateSlot i f).pq = s.pq := rfl
@[simp] theorem State.updateSlot_rab (s : State) (i : SlotIx) (f : Slot → Slot) : (s.updateSlot i f).rab = s.rab := rfl
@[simp] theorem State.updateSlot_stt (s : State) (i : SlotIx) (f : Slot → Slot) : (s.updateSlot i f).stt = s.stt := rfl
@[simp] theorem State.updateSlot_mli (s : State) (i : SlotIx) (f : Slot → Slot) : (s.updateSlot i f).mli = s.mli := rfl
@[simp] theorem State.updateSlot_flt (s : State) (i : SlotIx) (f : Slot → Slot) : (s.updateSlot i f).flt = s.flt := rfl
@[simp] theorem State.updateSlot_elog (s : State) (i : SlotIx) (f : Slot → Slot) :
    (s.updateSlot i f).elog = s.elog := rfl
@[simp] theorem State.updateSlot_pctl (s : State) (i : SlotIx) (f : Slot → Slot) :
    (s.updateSlot i f).pctl = s.pctl := rfl
@[simp] theorem State.updateSlot_tgen (s : State) (i : SlotIx) (f : Slot → Slot) :
    (s.updateSlot i f).tgen = s.tgen := rfl
@[simp] theorem State.updateSlot_rx (s : State) (i : SlotIx) (f : Slot → Slot) : (s.updateSlot i f).rx = s.rx := rfl
@[simp] theorem State.updateSlot_out (s : State) (i : SlotIx) (f : Slot → Slot) : (s.updateSlot i f).out = s.out := rfl
@[simp] theorem State.updateSlot_pending (s : State) (i : SlotIx) (f : Slot → Slot) :
    (s.updateSlot i f).pending = s.pending := rfl

/-! ### slotEnters -/

@[simp] theorem State.slotEnters_pins (s : State) (i : SlotIx) (st : SlotState) :
    (s.slotEnters i st).pins = s.pins := rfl
@[simp] theorem State.slotEnters_rdec (s : State) (i : SlotIx) (st : SlotState) :
    (s.slotEnters i st).rdec = s.rdec := rfl
@[simp] theorem State.slotEnters_cfg (s : State) (i : SlotIx) (st : SlotState) : (s.slotEnters i st).cfg = s.cfg := rfl
@[simp] theorem State.slotEnters_urt (s : State) (i : SlotIx) (st : SlotState) :
    (s.slotEnters i st).urt = s.urt.update i fun x => { x with state := st } := rfl
@[simp] theorem State.slotEnters_pq (s : State) (i : SlotIx) (st : SlotState) : (s.slotEnters i st).pq = s.pq := rfl
@[simp] theorem State.slotEnters_rab (s : State) (i : SlotIx) (st : SlotState) : (s.slotEnters i st).rab = s.rab := rfl
@[simp] theorem State.slotEnters_stt (s : State) (i : SlotIx) (st : SlotState) : (s.slotEnters i st).stt = s.stt := rfl
@[simp] theorem State.slotEnters_mli (s : State) (i : SlotIx) (st : SlotState) : (s.slotEnters i st).mli = s.mli := rfl
@[simp] theorem State.slotEnters_flt (s : State) (i : SlotIx) (st : SlotState) : (s.slotEnters i st).flt = s.flt := rfl
@[simp] theorem State.slotEnters_elog (s : State) (i : SlotIx) (st : SlotState) :
    (s.slotEnters i st).elog = s.elog := rfl
@[simp] theorem State.slotEnters_pctl (s : State) (i : SlotIx) (st : SlotState) :
    (s.slotEnters i st).pctl = s.pctl := rfl
@[simp] theorem State.slotEnters_tgen (s : State) (i : SlotIx) (st : SlotState) :
    (s.slotEnters i st).tgen = s.tgen := rfl
@[simp] theorem State.slotEnters_rx (s : State) (i : SlotIx) (st : SlotState) : (s.slotEnters i st).rx = s.rx := rfl
@[simp] theorem State.slotEnters_out (s : State) (i : SlotIx) (st : SlotState) : (s.slotEnters i st).out = s.out := rfl
@[simp] theorem State.slotEnters_pending (s : State) (i : SlotIx) (st : SlotState) :
    (s.slotEnters i st).pending = s.pending := rfl

/-! ### finish -/

@[simp] theorem State.finish_pins (s : State) (i : SlotIx) (st : RespStatus) (bs : List Byte) :
    (s.finish i st bs).pins = s.pins := rfl
@[simp] theorem State.finish_rdec (s : State) (i : SlotIx) (st : RespStatus) (bs : List Byte) :
    (s.finish i st bs).rdec = s.rdec := rfl
@[simp] theorem State.finish_cfg (s : State) (i : SlotIx) (st : RespStatus) (bs : List Byte) :
    (s.finish i st bs).cfg = s.cfg := rfl
@[simp] theorem State.finish_urt (s : State) (i : SlotIx) (st : RespStatus) (bs : List Byte) :
    (s.finish i st bs).urt = s.urt.update i fun x => { x with state := .done, status := some st, result := bs, tag := none } := rfl
@[simp] theorem State.finish_pq (s : State) (i : SlotIx) (st : RespStatus) (bs : List Byte) :
    (s.finish i st bs).pq = s.pq := rfl
@[simp] theorem State.finish_rab (s : State) (i : SlotIx) (st : RespStatus) (bs : List Byte) :
    (s.finish i st bs).rab = s.rab := rfl
@[simp] theorem State.finish_stt (s : State) (i : SlotIx) (st : RespStatus) (bs : List Byte) :
    (s.finish i st bs).stt = s.stt := rfl
@[simp] theorem State.finish_mli (s : State) (i : SlotIx) (st : RespStatus) (bs : List Byte) :
    (s.finish i st bs).mli = s.mli := rfl
@[simp] theorem State.finish_flt (s : State) (i : SlotIx) (st : RespStatus) (bs : List Byte) :
    (s.finish i st bs).flt = s.flt := rfl
@[simp] theorem State.finish_elog (s : State) (i : SlotIx) (st : RespStatus) (bs : List Byte) :
    (s.finish i st bs).elog = s.elog := rfl
@[simp] theorem State.finish_pctl (s : State) (i : SlotIx) (st : RespStatus) (bs : List Byte) :
    (s.finish i st bs).pctl = s.pctl := rfl
@[simp] theorem State.finish_tgen (s : State) (i : SlotIx) (st : RespStatus) (bs : List Byte) :
    (s.finish i st bs).tgen = s.tgen := rfl
@[simp] theorem State.finish_rx (s : State) (i : SlotIx) (st : RespStatus) (bs : List Byte) :
    (s.finish i st bs).rx = s.rx := rfl
@[simp] theorem State.finish_out (s : State) (i : SlotIx) (st : RespStatus) (bs : List Byte) :
    (s.finish i st bs).out = s.out := rfl
@[simp] theorem State.finish_pending (s : State) (i : SlotIx) (st : RespStatus) (bs : List Byte) :
    (s.finish i st bs).pending = s.pending := rfl

/-! ### moveStreams -/

@[simp] theorem State.moveStreams_pins (s : State) : (s.moveStreams).pins = s.pins := rfl
@[simp] theorem State.moveStreams_rdec (s : State) : (s.moveStreams).rdec = s.rdec := rfl
@[simp] theorem State.moveStreams_cfg (s : State) : (s.moveStreams).cfg = s.cfg := rfl
@[simp] theorem State.moveStreams_urt (s : State) : (s.moveStreams).urt = s.urt := rfl
@[simp] theorem State.moveStreams_pq (s : State) : (s.moveStreams).pq = s.pq := rfl
@[simp] theorem State.moveStreams_rab (s : State) : (s.moveStreams).rab = s.rab := rfl
@[simp] theorem State.moveStreams_stt (s : State) :
    (s.moveStreams).stt = { s.stt with entries := Vector.ofFn fun k => s.moveStream s.stt.entries[k] } := rfl
@[simp] theorem State.moveStreams_mli (s : State) : (s.moveStreams).mli = s.mli := rfl
@[simp] theorem State.moveStreams_flt (s : State) : (s.moveStreams).flt = s.flt := rfl
@[simp] theorem State.moveStreams_elog (s : State) : (s.moveStreams).elog = s.elog := rfl
@[simp] theorem State.moveStreams_pctl (s : State) : (s.moveStreams).pctl = s.pctl := rfl
@[simp] theorem State.moveStreams_tgen (s : State) : (s.moveStreams).tgen = s.tgen := rfl
@[simp] theorem State.moveStreams_rx (s : State) : (s.moveStreams).rx = s.rx := rfl
@[simp] theorem State.moveStreams_out (s : State) : (s.moveStreams).out = s.out := rfl
@[simp] theorem State.moveStreams_pending (s : State) : (s.moveStreams).pending = s.pending := rfl

/-! ### putTag -/

@[simp] theorem State.putTag_pins (s : State) (t : TagIx) (x : Tag) : (s.putTag t x).pins = s.pins := rfl
@[simp] theorem State.putTag_rdec (s : State) (t : TagIx) (x : Tag) : (s.putTag t x).rdec = s.rdec := rfl
@[simp] theorem State.putTag_cfg (s : State) (t : TagIx) (x : Tag) : (s.putTag t x).cfg = s.cfg := rfl
@[simp] theorem State.putTag_urt (s : State) (t : TagIx) (x : Tag) : (s.putTag t x).urt = s.urt := rfl
@[simp] theorem State.putTag_pq (s : State) (t : TagIx) (x : Tag) : (s.putTag t x).pq = s.pq := rfl
@[simp] theorem State.putTag_rab (s : State) (t : TagIx) (x : Tag) : (s.putTag t x).rab = s.rab := rfl
@[simp] theorem State.putTag_stt (s : State) (t : TagIx) (x : Tag) : (s.putTag t x).stt = s.stt := rfl
@[simp] theorem State.putTag_mli (s : State) (t : TagIx) (x : Tag) : (s.putTag t x).mli = Mli.put s.mli t x := rfl
@[simp] theorem State.putTag_flt (s : State) (t : TagIx) (x : Tag) : (s.putTag t x).flt = s.flt := rfl
@[simp] theorem State.putTag_elog (s : State) (t : TagIx) (x : Tag) : (s.putTag t x).elog = s.elog := rfl
@[simp] theorem State.putTag_pctl (s : State) (t : TagIx) (x : Tag) : (s.putTag t x).pctl = s.pctl := rfl
@[simp] theorem State.putTag_tgen (s : State) (t : TagIx) (x : Tag) : (s.putTag t x).tgen = s.tgen := rfl
@[simp] theorem State.putTag_rx (s : State) (t : TagIx) (x : Tag) : (s.putTag t x).rx = s.rx := rfl
@[simp] theorem State.putTag_out (s : State) (t : TagIx) (x : Tag) : (s.putTag t x).out = s.out := rfl
@[simp] theorem State.putTag_pending (s : State) (t : TagIx) (x : Tag) : (s.putTag t x).pending = s.pending := rfl

end Sys2Proof.Machine
end

