-- ==== Sys2Proof/Laws/Work.lean ====
section
/-! SUPPORT. What the shared operations of the blocks can do, said once: each is a chain of elementary changes, and what no elementary change touches stands. -/

namespace Sys2Proof.Machine

/-- What names a slot's request; no operation of the blocks changes it. -/
def Slot.key (x : Slot) : ReqKind × SourceNo × Byte × Word × Nat := (x.kind, x.source, x.itag, x.addr, x.count)

/-- One elementary change inside an event, with the guard its operation checks; `D` bounds the reported depths. -/
inductive Work (D : Nat) : State → State → Prop where
  | slot (s : State) (i) (f : Slot → Slot) : (∀ x, (f x).key = x.key) → (∀ x, (f x).state ≠ .held) →
      Work D s (s.updateSlot i f)
  | waiting (s : State) (l) : Work D s (s.withUrt { s.urt with postWait := l })
  | queue (s : State) (q) : QueueChange s.pq q → Work D s (s.withPq q)
  | buffer (s : State) (b) : BufferChange s.rab b → Work D s (s.withRab b)
  | streams (s : State) (t) : StreamChange D s.stt t → Work D s (s.withStt t)
  | flags (s : State) (x) : Work D s (s.withFlt { s.flt with flags := x })

/-- A chain of elementary changes. -/
inductive Works (D : Nat) : State → State → Prop where
  | refl {s : State} : Works D s s
  | tail {s t u : State} : Works D s t → Work D t u → Works D s u

theorem Works.trans {D : Nat} {s t u : State} (h : Works D s t) (k : Works D t u) : Works D s u := by
  induction k with
  | refl => exact h
  | tail _ w ih => exact ih.tail w

/-- Every reported depth is at most `D`. -/
def State.depthsWithin (s : State) (D : Nat) : Prop := ∀ g, s.rdec.depthReported g ≤ D

theorem State.exists_depthsWithin (s : State) : ∃ D, s.depthsWithin D := by
  obtain ⟨D, hD⟩ := Set.finite_range s.rdec.depthReported |>.bddAbove
  exact ⟨D, fun g => hD ⟨g, rfl⟩⟩

/-- What stands through every elementary change. -/
structure ServiceFrame (s t : State) : Prop where
  pins : t.pins = s.pins
  rdec : t.rdec = s.rdec
  cfg : t.cfg = s.cfg
  mli : t.mli = s.mli
  elog : t.elog = s.elog
  pctl : t.pctl = s.pctl
  tgen : t.tgen = s.tgen
  rx : t.rx = s.rx
  out : t.out = s.out
  pending : t.pending = s.pending
  arrival : t.urt.arrival = s.urt.arrival
  granted : t.urt.granted = s.urt.granted
  withheld : t.urt.withheld = s.urt.withheld
  keys : ∀ i : SlotIx, t.urt.slots[i].map Slot.key = s.urt.slots[i].map Slot.key
  faults : t.flt.entries = s.flt.entries
  ranks : t.flt.order = s.flt.order
  overflow : t.flt.ovf = s.flt.ovf

theorem ServiceFrame.refl (s : State) : ServiceFrame s s :=
  ⟨rfl, rfl, rfl, rfl, rfl, rfl, rfl, rfl, rfl, rfl, rfl, rfl, rfl, fun _ => rfl, rfl, rfl, rfl⟩

theorem ServiceFrame.trans {s t u : State} (h : ServiceFrame s t) (k : ServiceFrame t u) : ServiceFrame s u :=
  ⟨k.pins.trans h.pins, k.rdec.trans h.rdec, k.cfg.trans h.cfg, k.mli.trans h.mli, k.elog.trans h.elog,
    k.pctl.trans h.pctl, k.tgen.trans h.tgen, k.rx.trans h.rx, k.out.trans h.out, k.pending.trans h.pending,
    k.arrival.trans h.arrival, k.granted.trans h.granted, k.withheld.trans h.withheld,
    fun i => (k.keys i).trans (h.keys i), k.faults.trans h.faults, k.ranks.trans h.ranks,
    k.overflow.trans h.overflow⟩

theorem Urt.update_keys (u : Urt) (i j : SlotIx) (f : Slot → Slot) (hf : ∀ x, (f x).key = x.key) :
    (u.update i f).slots[j].map Slot.key = u.slots[j].map Slot.key := by
  simp only [Urt.update, Vector.get_set_fin]
  split
  · rename_i h; subst h
    cases u.slots[i] <;> simp [hf]
  · rfl

theorem Work.frame {D : Nat} {s t : State} (h : Work D s t) : ServiceFrame s t := by
  cases h with
  | slot i f hf _ =>
    exact ⟨rfl, rfl, rfl, rfl, rfl, rfl, rfl, rfl, rfl, rfl, rfl, rfl, rfl, fun j => s.urt.update_keys i j f hf, rfl, rfl,
      rfl⟩
  | waiting l => exact ⟨rfl, rfl, rfl, rfl, rfl, rfl, rfl, rfl, rfl, rfl, rfl, rfl, rfl, fun _ => rfl, rfl, rfl, rfl⟩
  | queue q _ => exact ⟨rfl, rfl, rfl, rfl, rfl, rfl, rfl, rfl, rfl, rfl, rfl, rfl, rfl, fun _ => rfl, rfl, rfl, rfl⟩
  | buffer b _ => exact ⟨rfl, rfl, rfl, rfl, rfl, rfl, rfl, rfl, rfl, rfl, rfl, rfl, rfl, fun _ => rfl, rfl, rfl, rfl⟩
  | streams t _ => exact ⟨rfl, rfl, rfl, rfl, rfl, rfl, rfl, rfl, rfl, rfl, rfl, rfl, rfl, fun _ => rfl, rfl, rfl, rfl⟩
  | flags x => exact ⟨rfl, rfl, rfl, rfl, rfl, rfl, rfl, rfl, rfl, rfl, rfl, rfl, rfl, fun _ => rfl, rfl, rfl, rfl⟩

theorem Works.frame {D : Nat} {s t : State} (h : Works D s t) : ServiceFrame s t := by
  induction h with
  | refl => exact ServiceFrame.refl _
  | tail _ w ih => exact ih.trans w.frame

theorem Works.one {D : Nat} {s t : State} (h : Work D s t) : Works D s t := .tail .refl h

theorem Works.depths {D : Nat} {s t : State} (h : Works D s t) (hd : s.depthsWithin D) : t.depthsWithin D := by
  intro g; rw [h.frame.rdec]; exact hd g

/-- A chain of changes, then one operation that is a chain from wherever it starts. -/
theorem Works.andThen {D : Nat} {s t u : State} (h : Works D s t) (hd : s.depthsWithin D)
    (k : t.depthsWithin D → Works D t u) : Works D s u := h.trans (k (h.depths hd))

/-! ### Each shared operation is a chain of elementary changes -/

section
variable {D : Nat}

theorem State.slotEnters_work (s : State) (i st) (h : st ≠ .held) : Works D s (s.slotEnters i st) :=
  .one (.slot s i _ (fun _ => rfl) fun _ => h)

theorem State.finish_work (s : State) (i st bs) : Works D s (s.finish i st bs) :=
  .one (.slot s i _ (fun _ => rfl) fun _ => by simp)

theorem State.moveStreams_work (s : State) (hd : s.depthsWithin D) : Works D s s.moveStreams :=
  .one (.streams s _ (.moves s.stt (fun k => s.rdec.depthReported s.stt.entries[k].region)
    (fun k => s.rdec.inRange s.stt.entries[k].region) (fun l => (s.rab.find l).isSome)
    (fun k => s.rdec.depthReported s.stt.entries[k].region + 1) fun k => hd _))

theorem State.notify_work (s : State) (src d) : Works D s (s.notify src d) := by
  unfold State.notify
  split
  · split
    · exact .one (.streams s _ (.notice ..))
    · exact .refl
  · exact .refl

theorem State.lookupOutcome_work (s : State) (i x d) : Works D s (s.lookupOutcome i x d) := by
  unfold State.lookupOutcome
  split
  · rename_i r _
    split
    · rename_i hv
      exact (Works.one (.buffer s _ (.hit s.rab r hv))).trans (State.finish_work _ ..)
    · exact (Works.one (.buffer s _ (.join s.rab r i))).trans (State.slotEnters_work _ _ _ (by simp))
  · rename_i hn
    split
    · rename_i r _
      exact (Works.one (.buffer s _ (.allocate s.rab r _ rfl hn))).trans (State.slotEnters_work _ _ _ (by simp))
    · exact State.slotEnters_work _ _ _ (by simp)

theorem State.lookup_work (s : State) (hd : s.depthsWithin D) (i x d) : Works D s (s.lookup i x d) :=
  ((s.lookupOutcome_work i x d).trans (State.notify_work _ ..)).andThen hd (State.moveStreams_work _)

theorem State.faultCheck_work (s : State) (hd : s.depthsWithin D) (i x d) : Works D s (s.faultCheck i x d) := by
  unfold State.faultCheck
  split
  · exact State.finish_work ..
  · split
    · exact State.lookup_work _ hd ..
    · exact State.slotEnters_work _ _ _ (by simp)

theorem State.serveRead_work (s : State) (hd : s.depthsWithin D) (i x d) : Works D s (s.serveRead i x d) := by
  unfold State.serveRead
  split
  · split
    · split
      · exact State.finish_work ..
      · exact State.slotEnters_work _ _ _ (by simp)
    · exact State.faultCheck_work _ hd ..
  · split
    · exact State.slotEnters_work _ _ _ (by simp)
    · exact State.faultCheck_work _ hd ..

theorem State.mergeWrite_work (s : State) (i x d) : Works D s (s.mergeWrite i x d) :=
  ((Works.one (.queue s _ (.merge s.pq ..))).trans (.one (.buffer _ _ (.patch s.rab ..)))).trans (State.finish_work ..)

theorem State.createEntry_work (s : State) (i x d) (h : s.pq.entries.length < Config.queueCapacity) :
    Works D s (s.createEntry i x d) :=
  ((Works.one (.queue s _ (.create s.pq _ _ _ _ _ h))).trans (.one (.buffer _ _ (.patch s.rab ..)))).trans
    (State.finish_work ..)

theorem State.joinPostWait_work (s : State) (i) : Works D s (s.joinPostWait i) :=
  (Works.one (.waiting s _)).trans (State.slotEnters_work _ _ _ (by simp))

theorem State.serveWrite_work (s : State) (i x d) : Works D s (s.serveWrite i x d) := by
  unfold State.serveWrite State.offerWrite
  split
  · split
    · exact State.mergeWrite_work ..
    · split
      · rename_i h; exact State.createEntry_work _ _ _ _ h.1
      · exact State.joinPostWait_work ..
  · exact State.slotEnters_work _ _ _ (by simp)

theorem State.serveFirst_work (s : State) (hd : s.depthsWithin D) (i) : Works D s (s.serveFirst i) := by
  unfold State.serveFirst
  split
  · exact .refl
  · split
    · exact .refl
    · split
      · exact State.serveRead_work _ hd ..
      · exact State.serveWrite_work ..
      · exact .refl
      · exact .refl

theorem State.releaseUpTo_work (n : Nat) (s : State) (hd : s.depthsWithin D) : Works D s (State.releaseUpTo n s) := by
  induction n generalizing s with
  | zero => exact .refl
  | succ n ih =>
    unfold State.releaseUpTo
    split
    · exact .refl
    · exact (s.serveFirst_work hd _).andThen hd (ih _)

theorem State.releaseSlots_work (s : State) (hd : s.depthsWithin D) : Works D s s.releaseSlots :=
  State.releaseUpTo_work 8 s hd

theorem State.completeFence_work (s : State) (i) : Works D s (s.completeFence i) := by
  unfold State.completeFence
  split
  · exact .refl
  · split
    · exact (Works.one (.flags s _)).trans (State.finish_work ..)
    · exact State.finish_work ..

/-- A fold of chains is a chain. -/
theorem Works.foldl {α : Type} (f : State → α → State) (hf : ∀ s a, s.depthsWithin D → Works D s (f s a)) (l : List α)
    (s : State) (hd : s.depthsWithin D) : Works D s (l.foldl f s) := by
  induction l generalizing s with
  | nil => exact .refl
  | cons a l ih => exact (hf s a hd).andThen hd (ih _)

theorem State.testFence_work (s : State) (i) : Works D s (s.testFence i) := by
  unfold State.testFence; split
  · exact State.completeFence_work ..
  · exact .refl

theorem State.testFences_work (s : State) (hd : s.depthsWithin D) : Works D s s.testFences :=
  Works.foldl _ (fun s i _ => s.testFence_work i) _ _ hd

theorem State.settle_work (s : State) (hd : s.depthsWithin D) : Works D s s.settle :=
  ((s.releaseSlots_work hd).andThen hd (State.testFences_work _)).andThen hd (State.moveStreams_work _)

theorem State.receive_work (s : State) (i) : Works D s (s.receive i) := by
  unfold State.receive
  split
  · exact .refl
  · split
    · exact .one (.slot s i _ (fun _ => rfl) fun _ => by simp [Slot.answerMalformed])
    · split
      · exact (Works.one (.queue s _ (.fence s.pq i))).trans (State.slotEnters_work _ _ _ (by simp))
      · split
        · exact .one (.slot s i _ (fun _ => rfl) fun _ => by simp)
        · exact .one (.slot s i _ (fun _ => rfl) fun _ => by simp)

theorem State.retryPostWait_work (s : State) : Works D s s.retryPostWait := by
  unfold State.retryPostWait
  split
  · exact .refl
  · refine (Works.one (.queue s _ (.room s.pq))).trans ?_
    dsimp only
    split
    · exact .refl
    · split
      · exact .refl
      · split
        · exact .refl
        · split
          · exact .refl
          · split
            · exact (Works.one (.waiting _ _)).trans (State.mergeWrite_work ..)
            · split
              · rename_i h
                exact (Works.one (.waiting _ _)).trans (State.createEntry_work _ _ _ _ h)
              · exact .refl

theorem State.leaveDrainWait_work (s : State) (hd : s.depthsWithin D) (i) : Works D s (s.leaveDrainWait i) := by
  unfold State.leaveDrainWait
  split
  · exact .refl
  · split
    · exact .refl
    · exact State.faultCheck_work _ hd ..

theorem State.releaseDrainWaits_work (s : State) (hd : s.depthsWithin D) : Works D s s.releaseDrainWaits :=
  Works.foldl _ (fun s i h => s.leaveDrainWait_work h i) _ _ hd

theorem State.removeEntry_work (s : State) (hd : s.depthsWithin D) (t) : Works D s (s.removeEntry t) :=
  ((((Works.one (.queue s _ (.remove s.pq t))).trans (State.retryPostWait_work _)).andThen hd
    (State.releaseSlots_work _)).andThen hd (State.releaseDrainWaits_work _)).andThen hd (State.releaseSlots_work _)
    |>.andThen hd (State.testFences_work _)

theorem State.releaseOneHeld_work (s : State) (hd : s.depthsWithin D) (i) : Works D s (s.releaseOneHeld i) :=
  (s.receive_work i).andThen hd (State.settle_work _)

theorem State.releaseHeld_work (s : State) (hd : s.depthsWithin D) : Works D s s.releaseHeld :=
  Works.foldl _ (fun s i h => s.releaseOneHeld_work h i) _ _ hd

end

/-! ### What every chain keeps -/

/-- No operation of the blocks puts a slot into HELD. -/
theorem Works.held {D : Nat} {s t : State} (h : Works D s t) {i : SlotIx} {x : Slot} (hx : t.urt.slots[i] = some x)
    (hs : x.state = .held) : s.urt.slots[i] = some x := by
  induction h generalizing x with
  | refl => exact hx
  | tail _ w ih =>
    refine ih ?_ hs
    cases w with
    | slot j f _ hf =>
      simp only [State.updateSlot, State.withUrt_urt, Urt.update, Vector.get_set_fin] at hx
      split at hx
      · obtain ⟨y, _, rfl⟩ := Option.map_eq_some_iff.1 hx
        exact absurd hs (hf y)
      · exact hx
    | _ => exact hx

/-- No operation of the blocks gives a Post Queue entry a tag. -/
theorem Works.tags {D : Nat} {s t : State} (h : Works D s t) {g : TagIx} {e' : Entry} (he : e' ∈ t.pq.entries)
    (ht : e'.tag = some g) : ∃ e ∈ s.pq.entries, e.tag = some g := by
  induction h generalizing e' with
  | refl => exact ⟨e', he, ht⟩
  | tail _ w ih =>
    cases w with
    | queue q c => obtain ⟨e, he, ht⟩ := c.tags he ht; exact ih he ht
    | _ => exact ih he ht

theorem Works.queueLaw {D : Nat} {s t : State} (h : Works D s t) (hs : s.queueLaw) : t.queueLaw := by
  induction h with
  | refl => exact hs
  | tail _ w ih => cases w with
    | queue q c => exact c.queueLaw ih
    | _ => exact ih

theorem Works.drainLaw {D : Nat} {s t : State} (h : Works D s t) (hs : s.drainLaw) : t.drainLaw := by
  induction h with
  | refl => exact hs
  | tail _ w ih => cases w with
    | queue q c => exact c.drainLaw ih
    | _ => exact ih

theorem Works.bufferLaw {D : Nat} {s t : State} (h : Works D s t) (hs : s.bufferLaw) : t.bufferLaw := by
  induction h with
  | refl => exact hs
  | tail _ w ih => cases w with
    | buffer b c => exact c.bufferLaw ih
    | _ => exact ih

theorem Works.recencyLaw {D : Nat} {s t : State} (h : Works D s t) (hs : s.recencyLaw) : t.recencyLaw := by
  induction h with
  | refl => exact hs
  | tail _ w ih => cases w with
    | buffer b c => exact c.recencyLaw ih
    | _ => exact ih

theorem Works.streamPairLaw {D : Nat} {s t : State} (h : Works D s t) (hs : s.streamPairLaw) : t.streamPairLaw := by
  induction h with
  | refl => exact hs
  | tail _ w ih => cases w with
    | streams t c => exact c.pairLaw ih
    | _ => exact ih

theorem Works.streamLeadLaw {s t : State} (h : Works 4 s t) (hs : s.streamLeadLaw) : t.streamLeadLaw := by
  induction h with
  | refl => exact hs
  | tail _ w ih => cases w with
    | streams t c => exact c.leadLaw ih
    | _ => exact ih

end Sys2Proof.Machine
end

