-- ==== Sys2Proof/Laws/Access.lean ====
section
/-! SUPPORT. What the ends of accesses, the tick and the issue step can do: chains of elementary changes that also reach the tags, the fault table and the log, and what they keep. -/

namespace Sys2Proof.Machine

/-- A chain of changes that may also reach tags, fault tracking and the log. -/
inductive Accesses (D : Nat) : State → State → Prop where
  | refl {s : State} : Accesses D s s
  | work {s t u : State} : Accesses D s t → Work D t u → Accesses D s u
  | tags {s t : State} (m) : Accesses D s t → TagChange t.mli m → Accesses D s (t.withMli m)
  | faults {s t : State} (f) : Accesses D s t → FaultChange t.flt f → Accesses D s (t.withFlt f)
  | log {s t : State} (r) : Accesses D s t → Accesses D s (t.log r)
  | issue {s t : State} (g) : Accesses D s t → t.pq.issuedCount < Config.drainLimit →
      Accesses D s (t.withPq (t.pq.issue g))

theorem Accesses.trans {D : Nat} {s t u : State} (h : Accesses D s t) (k : Accesses D t u) : Accesses D s u := by
  induction k with
  | refl => exact h
  | work _ w ih => exact ih.work w
  | tags m _ c ih => exact ih.tags m c
  | faults f _ c ih => exact ih.faults f c
  | log r _ ih => exact ih.log r
  | issue g _ c ih => exact ih.issue g c

theorem Works.accesses {D : Nat} {s t : State} (h : Works D s t) : Accesses D s t := by
  induction h with
  | refl => exact .refl
  | tail _ w ih => exact ih.work w

/-- What stands through every such chain. -/
structure AccessFrame (s t : State) : Prop where
  pins : t.pins = s.pins
  rdec : t.rdec = s.rdec
  cfg : t.cfg = s.cfg
  pctl : t.pctl = s.pctl
  tgen : t.tgen = s.tgen
  rx : t.rx = s.rx
  out : t.out = s.out
  pending : t.pending = s.pending
  arrival : t.urt.arrival = s.urt.arrival
  granted : t.urt.granted = s.urt.granted
  withheld : t.urt.withheld = s.urt.withheld
  keys : ∀ i : SlotIx, t.urt.slots[i].map Slot.key = s.urt.slots[i].map Slot.key

theorem ServiceFrame.access {s t : State} (h : ServiceFrame s t) : AccessFrame s t :=
  ⟨h.pins, h.rdec, h.cfg, h.pctl, h.tgen, h.rx, h.out, h.pending, h.arrival, h.granted, h.withheld, h.keys⟩

theorem AccessFrame.trans {s t u : State} (h : AccessFrame s t) (k : AccessFrame t u) : AccessFrame s u :=
  ⟨k.pins.trans h.pins, k.rdec.trans h.rdec, k.cfg.trans h.cfg, k.pctl.trans h.pctl, k.tgen.trans h.tgen,
    k.rx.trans h.rx, k.out.trans h.out, k.pending.trans h.pending, k.arrival.trans h.arrival,
    k.granted.trans h.granted, k.withheld.trans h.withheld, fun i => (k.keys i).trans (h.keys i)⟩

theorem Accesses.frame {D : Nat} {s t : State} (h : Accesses D s t) : AccessFrame s t := by
  induction h with
  | refl => exact (ServiceFrame.refl _).access
  | work _ w ih => exact ih.trans w.frame.access
  | tags m _ _ ih => exact ih.trans ⟨rfl, rfl, rfl, rfl, rfl, rfl, rfl, rfl, rfl, rfl, rfl, fun _ => rfl⟩
  | faults f _ _ ih => exact ih.trans ⟨rfl, rfl, rfl, rfl, rfl, rfl, rfl, rfl, rfl, rfl, rfl, fun _ => rfl⟩
  | log r _ ih => exact ih.trans ⟨rfl, rfl, rfl, rfl, rfl, rfl, rfl, rfl, rfl, rfl, rfl, fun _ => rfl⟩
  | issue g _ _ ih => exact ih.trans ⟨rfl, rfl, rfl, rfl, rfl, rfl, rfl, rfl, rfl, rfl, rfl, fun _ => rfl⟩

theorem Accesses.depths {D : Nat} {s t : State} (h : Accesses D s t) (hd : s.depthsWithin D) : t.depthsWithin D := by
  intro g; rw [h.frame.rdec]; exact hd g

theorem Accesses.andThen {D : Nat} {s t u : State} (h : Accesses D s t) (hd : s.depthsWithin D)
    (k : t.depthsWithin D → Accesses D t u) : Accesses D s u := h.trans (k (h.depths hd))

/-! ### Each operation is such a chain -/

section
variable {D : Nat}

theorem State.answerWaiter_work (l : LineData) (s : State) (i) : Works D s (State.answerWaiter l s i) := by
  unfold State.answerWaiter
  split
  · exact .refl
  · split
    · exact .refl
    · exact State.finish_work ..

theorem State.fillOk_work (s : State) (hd : s.depthsWithin D) (r m) : Works D s (s.fillOk r m) :=
  (Works.one (.buffer s _ (.fill s.rab r m))).andThen hd
    (Works.foldl _ (fun s i _ => State.answerWaiter_work _ s i) _ _)

theorem State.fillEnds_access (s : State) (hd : s.depthsWithin D) (r t k) : Accesses D s (s.fillEnds r t k) :=
  .log _ ((Works.one (.buffer s _ (.release s.rab r))).andThen hd
    (Works.foldl _ (fun s i _ => s.finish_work i k.status []) _ _)).accesses

theorem State.failOwner_work (s : State) (x k) : Works D s (s.failOwner x k) := by
  unfold State.failOwner
  split
  · exact State.finish_work ..
  · exact .refl

theorem State.readEnds_access (s : State) (x t k) : Accesses D s (s.readEnds x t k) :=
  .log _ (s.failOwner_work x k).accesses

theorem State.writeEnds_access (s : State) (x t k) : Accesses D s (s.writeEnds x t k) :=
  .log _ ((Works.one (.buffer s _ (.invalidate s.rab _))).trans (State.failOwner_work _ x k)).accesses

theorem State.readOk_work (s : State) (x m) : Works D s (s.readOk x m) := by
  unfold State.readOk
  split
  · exact State.answerWaiter_work ..
  · exact .refl

theorem State.writeOk_access (s : State) (x) : Accesses D s (s.writeOk x) := by
  unfold State.writeOk
  split
  · exact (Accesses.faults _ .refl (.clear s.flt _ _)).trans (State.finish_work ..).accesses
  · exact .faults _ .refl (.clear s.flt _ _)

theorem State.drainOk_access (s : State) (hd : s.depthsWithin D) (t) : Accesses D s (s.drainOk t) := by
  unfold State.drainOk
  split
  · exact (Accesses.faults _ .refl (.clear s.flt _ _)).andThen hd fun h => (State.removeEntry_work _ h t).accesses
  · exact .refl

theorem State.drainFailed_access (s : State) (e t k) : Accesses D s (s.drainFailed e t k) :=
  .log _ (((Accesses.faults _ .refl (.record s.flt e.line e.mask k)).faults _ (.flags _ _)).work
    (.buffer _ _ (.invalidate s.rab _)))

theorem State.drainEnds_access (s : State) (hd : s.depthsWithin D) (t k) : Accesses D s (s.drainEnds t k) := by
  unfold State.drainEnds
  split
  · exact (s.drainFailed_access _ t k).andThen hd fun h => (State.removeEntry_work _ h t).accesses
  · exact .refl

theorem State.accessEnds_access (s : State) (hd : s.depthsWithin D) (x t k) : Accesses D s (s.accessEnds x t k) := by
  unfold State.accessEnds
  split
  · split
    · exact s.fillEnds_access hd ..
    · exact .refl
  · split
    · exact s.fillEnds_access hd ..
    · exact .refl
  · exact s.readEnds_access ..
  · exact s.drainEnds_access hd ..
  · exact s.writeEnds_access ..

theorem State.accessOk_access (s : State) (hd : s.depthsWithin D) (x t m) : Accesses D s (s.accessOk x t m) := by
  unfold State.accessOk
  split
  · split
    · exact (s.fillOk_work hd ..).accesses
    · exact .refl
  · split
    · exact (s.fillOk_work hd ..).accesses
    · exact .refl
  · exact (s.readOk_work ..).accesses
  · exact s.accessEnds_access hd ..
  · exact s.accessEnds_access hd ..
  · exact s.accessEnds_access hd ..
  · exact s.drainOk_access hd ..
  · exact s.writeOk_access ..

theorem State.freeTag_access (s : State) (t) : Accesses D s (s.putTag t Tag.free) := .tags _ .refl (.free s.mli t)

theorem State.complete_access (s : State) (hd : s.depthsWithin D) (t ok m) : Accesses D s (s.complete t ok m) := by
  unfold State.complete
  split
  · exact .log _ .refl
  · exact .log _ (s.freeTag_access t)
  · split
    · exact (s.freeTag_access t).andThen hd fun h => State.accessOk_access _ h ..
    · exact (s.freeTag_access t).andThen hd fun h => State.accessEnds_access _ h ..

theorem State.testTag_access (s : State) (hd : s.depthsWithin D) (t) : Accesses D s (s.testTag t) := by
  unfold State.testTag State.quarantineTag
  split
  · rename_i h
    have ho : s.mli[t].state = .outstanding := by
      unfold Tag.due at h
      generalize s.mli[t] = x at *
      simp_all
    exact ((Accesses.tags _ .refl (.quarantine s.mli t ho)).andThen hd fun h => State.accessEnds_access _ h _ t _).andThen
      hd fun h => (State.settle_work _ h).accesses
  · exact .refl

theorem Accesses.foldl {α : Type} (f : State → α → State) (hf : ∀ s a, s.depthsWithin D → Accesses D s (f s a))
    (l : List α) (s : State) (hd : s.depthsWithin D) : Accesses D s (l.foldl f s) := by
  induction l generalizing s with
  | nil => exact .refl
  | cons a l ih => exact (hf s a hd).andThen hd (ih _)

theorem State.quarantineDue_access (s : State) (hd : s.depthsWithin D) : Accesses D s s.quarantineDue :=
  Accesses.foldl _ (fun s t h => s.testTag_access h t) _ _ hd

theorem State.reclaimTags_access (s : State) : Accesses D s s.reclaimTags := .log _ (.tags _ .refl (.reclaim s.mli))

theorem State.tickQueue_work (s : State) : Works D s s.tickQueue := .one (.queue s _ (.age s.pq))

theorem State.expireStreams_work (s : State) : Works D s s.expireStreams := .one (.streams s _ (.expire s.stt _))

theorem State.tickStreams_work (s : State) : Works D s s.tickStreams :=
  (Works.one (.streams s _ (.age s.stt))).trans (State.expireStreams_work _)

theorem State.tickTags_access (s : State) (hd : s.depthsWithin D) : Accesses D s s.tickTags :=
  (Accesses.tags _ .refl (.age s.mli)).andThen hd (State.quarantineDue_access _)

theorem State.doIf_access (b : Bool) (f : State → State) (s : State) (hf : Works D s (f s)) :
    Accesses D s (State.doIf b f s) := by
  unfold State.doIf; split
  · exact hf.accesses
  · exact .refl

/-- The tick: the stamp advances, the owners take the tick, the event closes with a HALT test. -/
theorem State.takeTick_access (o : TickOrder) (s : State) (hd : s.depthsWithin D) :
    ∃ t, Accesses D s.advanceStamp t ∧ s.takeTick o = t.haltTest := by
  refine ⟨_, ?_, rfl⟩
  refine (Accesses.andThen ?_ hd fun h => (State.settle_work _ h).accesses)
  refine .trans ?_ (State.doIf_access _ _ _ (State.tickStreams_work _))
  refine .trans ?_ (State.doIf_access _ _ _ (State.tickQueue_work _))
  refine Accesses.andThen ?_ hd fun h => State.tickTags_access _ h
  exact .trans (State.doIf_access _ _ _ (State.tickQueue_work _)) (State.doIf_access _ _ _ (State.tickStreams_work _))

/-! ### The tags stand while an access's end is handed on -/

theorem Works.mli {s t : State} (h : ∀ D, s.depthsWithin D → Works D s t) : t.mli = s.mli := by
  obtain ⟨D, hD⟩ := s.exists_depthsWithin
  exact (h D hD).frame.mli

theorem State.failWaiters_mli (st : RespStatus) (l : List SlotIx) (s : State) :
    (l.foldl (State.failWaiter st) s).mli = s.mli :=
  Works.mli fun _ h => Works.foldl (State.failWaiter st) (fun s i _ => s.finish_work i st []) l s h

theorem State.failOwner_mli (s : State) (x k) : (s.failOwner x k).mli = s.mli :=
  Works.mli fun _ _ => s.failOwner_work x k

theorem State.removeEntry_mli (s : State) (t) : (s.removeEntry t).mli = s.mli :=
  Works.mli fun _ h => s.removeEntry_work h t

/-- R118, R122: what the end of an access hands on changes no tag. -/
theorem State.accessEnds_mli (s : State) (x t k) : (s.accessEnds x t k).mli = s.mli := by
  have hf : ∀ r, (s.fillEnds r t k).mli = s.mli := fun r => by
    unfold State.fillEnds; rw [State.log_mli, State.failWaiters_mli, State.withRab_mli]
  unfold State.accessEnds
  split
  · split
    · exact hf _
    · rfl
  · split
    · exact hf _
    · rfl
  · unfold State.readEnds; rw [State.log_mli, State.failOwner_mli]
  · unfold State.drainEnds; split
    · rw [State.removeEntry_mli]
      unfold State.drainFailed; rw [State.log_mli, State.withRab_mli, State.withFlt_mli]
    · rfl
  · unfold State.writeEnds; rw [State.log_mli, State.failOwner_mli, State.withRab_mli]

theorem State.accessOk_mli (s : State) (x t m) : (s.accessOk x t m).mli = s.mli := by
  have hf : ∀ r m, (s.fillOk r m).mli = s.mli := fun r m => Works.mli fun _ h => s.fillOk_work h r m
  unfold State.accessOk
  split
  · split
    · exact hf ..
    · rfl
  · split
    · exact hf ..
    · rfl
  · exact Works.mli fun _ _ => s.readOk_work ..
  · exact State.accessEnds_mli ..
  · exact State.accessEnds_mli ..
  · exact State.accessEnds_mli ..
  · unfold State.drainOk; split
    · rw [State.removeEntry_mli, State.withFlt_mli]
    · rfl
  · unfold State.writeOk; split
    · unfold State.finish State.updateSlot; rw [State.withUrt_mli, State.withFlt_mli]
    · rfl

/-- The end of an event changes no tag. -/
theorem State.settle_mli (s : State) : s.settle.mli = s.mli := Works.mli fun _ h => s.settle_work h

/-- One tag tested: that tag alone is quarantined, if it is due. -/
theorem State.testTag_mli (s : State) (t : TagIx) : (s.testTag t).mli =
    if s.mli[t].due s.tgen.timeoutInForce = true then s.mli.set t s.mli[t].quarantine else s.mli := by
  unfold State.testTag
  split
  · unfold State.quarantineTag
    rw [State.settle_mli, State.accessEnds_mli]; rfl
  · rfl

/-- R122: exactly the due tags are quarantined. -/
theorem State.quarantineDue_mli (s : State) (g : TagIx) : s.quarantineDue.mli[g] =
    if s.mli[g].due s.tgen.timeoutInForce = true then s.mli[g].quarantine else s.mli[g] := by
  have key : ∀ (l : List TagIx) (s : State), l.Nodup → (l.foldl State.testTag s).mli[g] =
      if g ∈ l ∧ s.mli[g].due s.tgen.timeoutInForce = true then s.mli[g].quarantine else s.mli[g] := by
    intro l
    induction l with
    | nil => intro s _; simp
    | cons a l ih =>
      intro s hn
      have hn' := List.nodup_cons.1 hn
      rw [List.foldl_cons, ih _ hn'.2]
      have htg : (s.testTag a).tgen = s.tgen := by
        obtain ⟨D, hD⟩ := s.exists_depthsWithin
        exact (s.testTag_access hD a).frame.tgen
      have hm : (s.testTag a).mli[g] =
          if a = g ∧ s.mli[g].due s.tgen.timeoutInForce = true then s.mli[g].quarantine else s.mli[g] := by
        rw [State.testTag_mli]
        by_cases e : a = g
        · subst e
          by_cases hd : s.mli[a].due s.tgen.timeoutInForce = true
          · rw [if_pos hd, if_pos ⟨rfl, hd⟩, Vector.get_set_fin, if_pos rfl]
          · simp only [hd, and_false, if_false, Bool.false_eq_true]
        · rw [if_neg (show ¬ (a = g ∧ s.mli[g].due s.tgen.timeoutInForce = true) from fun h => e h.1)]
          split
          · rw [Vector.get_set_fin, if_neg e]
          · rfl
      rw [htg, hm]
      by_cases e : a = g
      · subst e
        simp only [hn'.1, false_and, if_false, true_and, List.mem_cons, true_or]
      · have : ¬ g = a := fun h => e h.symm
        simp only [e, false_and, if_false, List.mem_cons, this, false_or]
  unfold State.quarantineDue
  rw [key _ _ (List.nodup_finRange 16)]
  simp
/-! ### The issue step -/

theorem Queue.candidate_mem {q : Queue} {e : Entry} (h : q.candidate = some e) : e ∈ q.entries ∧ e.state ≠ .issued := by
  exact ⟨List.mem_of_find?_eq_some h, by simpa using List.find?_some h⟩

/-- The tag an issue takes is FREE. -/
theorem Mli.lowestFree_free {m : Mli} {t : TagIx} (h : Mli.lowestFree m = some t) : m[t].state = .free := by
  have := List.find?_some h
  generalize m[t] = x at *
  simpa using this

theorem State.drainOffer_some {s : State} {e : Entry} (h : s.drainOffer = some e) :
    s.pq.candidate = some e ∧ s.pq.issuedCount < Config.drainLimit ∧ Mli.barsDrain s.mli e.line = false := by
  unfold State.drainOffer at h
  split at h
  · exact absurd h (by simp)
  · rename_i e' he
    split at h
    · rename_i hc
      simp only [Option.some.injEq] at h; subst h
      exact ⟨he, hc.1, hc.2.1⟩
    · exact absurd h (by simp)

theorem State.choose_drain {s : State} {e : Entry} (h : s.choose = some (.drain e)) : s.drainOffer = some e := by
  unfold State.choose at h
  split at h <;> (try split at h) <;> simp_all

theorem State.choose_demand {s : State} {i : SlotIx} (h : s.choose = some (.demand i)) : s.demandPick = some i := by
  unfold State.choose at h
  split at h <;> (try split at h) <;> simp_all

theorem State.choose_prefetch {s : State} {k : StreamIx} (h : s.choose = some (.prefetch k)) : s.prefetchPick = some k := by
  unfold State.choose at h
  split at h <;> (try split at h) <;> simp_all

theorem State.prefetchPick_proposing {s : State} {k : StreamIx} (h : s.prefetchPick = some k) : s.proposing k = true := by
  unfold State.prefetchPick at h
  split at h
  · exact List.find?_some h
  · exact absurd h (by simp)

theorem State.issueDrain_access (s : State) (t e) (ht : s.mli[t].state = .free)
    (h : s.drainOffer = some e) : ∃ u m, Accesses D s u ∧ s.issueDrain t e = u.emit m :=
  ⟨_, _, (Accesses.tags _ .refl (.issue s.mli t _ ht rfl (fun _ => (State.drainOffer_some h).2.2)
    (fun hw => absurd hw (by simp [Tag.issued, AccessKind.isWrite])))).issue t
    (State.drainOffer_some h).2.1, rfl⟩

theorem State.issueRead_access (s : State) (t i x d) (ht : s.mli[t].state = .free)
    (hb : Mli.barsRead s.mli d.line = false) : ∃ u m, Accesses D s u ∧ s.issueRead t i x d = u.emit m := by
  unfold State.issueRead
  have hs : Accesses D s (s.updateSlot i fun y => { y with state := .fillWait, tag := some t }) :=
    (Works.one (.slot s i (fun y => { y with state := .fillWait, tag := some t }) (fun _ => rfl) fun _ => by simp)).accesses
  have ht' : ∀ k g src o, k.isWrite = false → Accesses D s
      ((s.updateSlot i fun y => { y with state := .fillWait, tag := some t }).putTag t
        (Tag.issued k d.line g src o 0#32)) := fun k g src o hk =>
    hs.tags _ (.issue s.mli t _ ht rfl (fun hw => absurd hw (by simp [Tag.issued, hk])) fun _ => hb)
  split
  · rename_i r _
    exact ⟨_, _, (ht' .demandRead _ _ _ rfl).work (.buffer _ _ (.tag s.rab r (some t))), rfl⟩
  · exact ⟨_, _, ht' .unbufferedRead _ _ _ rfl, rfl⟩

theorem State.issueDirect_access (s : State) (t i x d) (ht : s.mli[t].state = .free)
    (hb : Mli.barsDrain s.mli d.line = false) : ∃ u m, Accesses D s u ∧ s.issueDirect t i x d = u.emit m :=
  ⟨_, _, (Accesses.tags _
    (Works.one (.slot s i (fun y => { y with state := .memWait, tag := some t }) (fun _ => rfl) fun _ => by simp)).accesses
    (.issue s.mli t (Tag.issued .directWrite d.line d.region (some x.source) (.slot i) (x.mask d)) ht rfl (fun _ => hb)
    (fun hw => absurd hw (by simp [Tag.issued, AccessKind.isWrite])))).work
    (.buffer _ _ (.patch s.rab d.line (x.mask d) (x.lineBytes d))), rfl⟩

theorem State.demandPick_issuable {s : State} {i : SlotIx} (h : s.demandPick = some i) : s.demandIssuable i = true :=
  List.find?_some h

theorem State.issueDemand_access (s : State) (t i) (ht : s.mli[t].state = .free) (h : s.demandIssuable i = true) :
    ∃ u m, Accesses D s u ∧ s.issueDemand t i = u.emit m := by
  unfold State.demandIssuable at h
  unfold State.issueDemand
  split at h
  · exact absurd h (by simp)
  · rename_i x hx
    split at h
    · exact absurd h (by simp)
    · rename_i d hd
      simp only [Bool.and_eq_true] at h
      cases hk : x.kind <;> simp only [hk] at h
      · exact s.issueRead_access t i x d ht (by simpa using h.2)
      · simp only [Bool.and_eq_true, Bool.not_eq_true'] at h
        exact s.issueDirect_access t i x d ht h.2.1
      · exact absurd h.2 (by simp)
      · exact absurd h.2 (by simp)

theorem State.issuePrefetch_access (s : State) (hd : s.depthsWithin D) (t k) (ht : s.mli[t].state = .free)
    (h : s.proposing k = true) :
    (∃ u m, Accesses D s u ∧ s.issuePrefetch t k = u.emit m) ∨ s.issuePrefetch t k = s := by
  unfold State.proposing at h
  simp only [Bool.and_eq_true, Bool.not_eq_true', Option.isNone_iff_eq_none] at h
  unfold State.issuePrefetch
  split
  · exact .inr rfl
  · rename_i r _
    refine .inl ⟨_, _, ((Accesses.tags _ .refl (.issue s.mli t _ ht rfl (fun hw => absurd hw (by
      simp [Tag.issued, AccessKind.isWrite])) fun _ => h.2)).work (.buffer _ _ (.allocate s.rab r _ rfl h.1.1.2))).work
      (.streams _ _ (.issued s.stt k _ _ (hd _) h.1.1.1.1)), rfl⟩

/-- One readiness: at most one message leaves, and the rest is a chain of guarded changes. -/
theorem State.issueOne_access (s : State) (hd : s.depthsWithin D) :
    (∃ u m, Accesses D s u ∧ s.issueOne = u.emit m) ∨ s.issueOne = s := by
  unfold State.issueOne
  split
  · rename_i t e ht hc
    exact .inl (s.issueDrain_access t e (Mli.lowestFree_free ht) (State.choose_drain hc))
  · rename_i t i ht hc
    exact .inl (s.issueDemand_access t i (Mli.lowestFree_free ht) (State.demandPick_issuable (State.choose_demand hc)))
  · rename_i t k ht hc
    exact s.issuePrefetch_access hd t k (Mli.lowestFree_free ht) (State.prefetchPick_proposing (State.choose_prefetch hc))
  · exact .inr rfl

end

/-! ### What every chain keeps -/

theorem Accesses.queueLaw {D : Nat} {s t : State} (h : Accesses D s t) (hs : s.queueLaw) : t.queueLaw := by
  induction h with
  | work _ w ih => exact (Works.one w).queueLaw ih
  | issue g _ _ ih => exact Queue.issue_queueLaw g ih
  | _ => assumption

theorem Accesses.drainLaw {D : Nat} {s t : State} (h : Accesses D s t) (hs : s.drainLaw) : t.drainLaw := by
  induction h with
  | work _ w ih => exact (Works.one w).drainLaw ih
  | issue g _ c ih => exact Queue.issue_drainLaw g c ih
  | _ => assumption

theorem Accesses.bufferLaw {D : Nat} {s t : State} (h : Accesses D s t) (hs : s.bufferLaw) : t.bufferLaw := by
  induction h with
  | work _ w ih => exact (Works.one w).bufferLaw ih
  | _ => assumption

theorem Accesses.recencyLaw {D : Nat} {s t : State} (h : Accesses D s t) (hs : s.recencyLaw) : t.recencyLaw := by
  induction h with
  | work _ w ih => exact (Works.one w).recencyLaw ih
  | _ => assumption

theorem Accesses.streamPairLaw {D : Nat} {s t : State} (h : Accesses D s t) (hs : s.streamPairLaw) : t.streamPairLaw := by
  induction h with
  | work _ w ih => exact (Works.one w).streamPairLaw ih
  | _ => assumption

theorem Accesses.streamLeadLaw {s t : State} (h : Accesses 4 s t) (hs : s.streamLeadLaw) : t.streamLeadLaw := by
  induction h with
  | work _ w ih => exact (Works.one w).streamLeadLaw ih
  | _ => assumption

theorem Accesses.interlockLaw {D : Nat} {s t : State} (h : Accesses D s t) (hs : s.interlockLaw) : t.interlockLaw := by
  induction h with
  | refl => exact hs
  | work _ w ih => exact (congrArg Mli.interlockLaw w.frame.mli).mpr ih
  | tags m _ c ih => exact c.interlockLaw ih
  | faults _ _ _ ih => exact ih
  | log _ _ ih => exact ih
  | issue _ _ _ ih => exact ih

theorem Accesses.faultAndLogLaw {D : Nat} {s t : State} (h : Accesses D s t) (hs : s.faultAndLogLaw) :
    t.faultAndLogLaw := by
  induction h with
  | refl => exact hs
  | work _ w ih =>
    refine ⟨?_, by rw [w.frame.elog]; exact ih.2⟩
    unfold Flt.faultLaw
    rw [w.frame.faults, w.frame.ranks]
    exact ih.1
  | tags _ _ _ ih => exact ih
  | faults _ _ c ih => exact ⟨c.faultLaw ih.1, ih.2⟩
  | log r _ ih => exact ⟨ih.1, Elog.append_law ih.2 r⟩
  | issue _ _ _ ih => exact ih

end Sys2Proof.Machine
end

