-- ==== Sys2Proof/Laws/Event.lean ====
section
/-! SUPPORT. What any command can do to the blocks, said once, and the laws every event keeps because of it. -/

namespace Sys2Proof.Machine

/-- The blocks stand; pins, settings, regions, slots, path, time base and port may change, the configuration within its
ranges. -/
structure SameBlocks (s t : State) : Prop where
  pq : t.pq = s.pq
  rab : t.rab = s.rab
  stt : t.stt = s.stt
  mli : t.mli = s.mli
  flt : t.flt = s.flt
  elog : t.elog = s.elog
  config : s.configLaw → t.configLaw

/-- What an event is made of. -/
inductive Events : State → State → Prop where
  | refl {s : State} : Events s s
  | access {s t u : State} : Events s t → (∀ D, t.depthsWithin D → Accesses D t u) → Events s u
  | outer {s t u : State} : Events s t → SameBlocks t u → Events s u
  | elog {s t : State} (g) : Events s t → (t.elog.logLaw → g.logLaw) → Events s (t.withElog g)
  | reset {s t : State} : Events s t → Events s t.deviceReset

theorem Events.trans {s t u : State} (h : Events s t) (k : Events t u) : Events s u := by
  induction k with
  | refl => exact h
  | access _ a ih => exact ih.access a
  | outer _ b ih => exact ih.outer b
  | elog g _ c ih => exact ih.elog g c
  | reset _ ih => exact ih.reset

theorem Events.work {s t : State} (h : ∀ D, s.depthsWithin D → Works D s t) : Events s t :=
  .access .refl fun D hd => (h D hd).accesses

/-- A change outside the blocks and the configuration. -/
theorem Events.plain {s t : State} (h1 : t.pq = s.pq) (h2 : t.rab = s.rab) (h3 : t.stt = s.stt) (h4 : t.mli = s.mli)
    (h5 : t.flt = s.flt) (h6 : t.elog = s.elog) (h7 : t.rdec = s.rdec) (h8 : t.cfg = s.cfg) : Events s t :=
  .outer .refl ⟨h1, h2, h3, h4, h5, h6, fun h => by unfold State.configLaw at *; rw [h7, h8]; exact h⟩

theorem State.withPins_events (s : State) (x) : Events s (s.withPins x) := .plain rfl rfl rfl rfl rfl rfl rfl rfl
theorem State.withUrt_events (s : State) (x) : Events s (s.withUrt x) := .plain rfl rfl rfl rfl rfl rfl rfl rfl
theorem State.withPctl_events (s : State) (x) : Events s (s.withPctl x) := .plain rfl rfl rfl rfl rfl rfl rfl rfl
theorem State.withTgen_events (s : State) (x) : Events s (s.withTgen x) := .plain rfl rfl rfl rfl rfl rfl rfl rfl
theorem State.withRx_events (s : State) (x) : Events s (s.withRx x) := .plain rfl rfl rfl rfl rfl rfl rfl rfl
theorem State.emit_events (s : State) (m) : Events s (s.emit m) := .plain rfl rfl rfl rfl rfl rfl rfl rfl

/-! ### Operations over the path and the links -/

theorem State.haltTest_events (s : State) : Events s s.haltTest := by
  unfold State.haltTest
  split
  · exact (s.withPctl_events { s.pctl with path := .halt }).access fun D _ =>
      ((Works.one (.buffer (s.withPctl { s.pctl with path := .halt }) _ (.halt _))).tail
        (.streams _ _ (.clear _))).accesses
  · exact .refl

theorem State.settle_events (s : State) : Events s s.settle := .work fun _ h => s.settle_work h

theorem State.close_events (s : State) : Events s s.close := s.settle_events.trans (State.haltTest_events _)

theorem State.sendWithheld_events (s : State) : Events s s.sendWithheld := by
  unfold State.sendWithheld; split
  · exact .plain rfl rfl rfl rfl rfl rfl rfl rfl
  · exact .refl

theorem State.demandRises_events (s : State) : Events s s.demandRises := by
  unfold State.demandRises; split
  · exact (s.withPctl_events _).trans (State.haltTest_events _)
  · exact .refl

theorem State.demandFalls_events (s : State) : Events s s.demandFalls := by
  unfold State.demandFalls
  have hp : Events s (s.withPctl { s.pctl with path := .run }).sendWithheld :=
    (s.withPctl_events _).trans (State.sendWithheld_events _)
  split
  · exact .refl
  · exact hp
  · exact hp.trans (.work fun _ h => State.releaseHeld_work _ h)

theorem State.linkComesUp_events (s : State) : Events s s.linkComesUp := by
  unfold State.linkComesUp; split <;> exact .plain rfl rfl rfl rfl rfl rfl rfl rfl

theorem State.dropLink_events (s : State) : Events s s.dropLink :=
  (s.withUrt_events Urt.empty).access fun _ _ =>
    (((((Accesses.refl (s := s.withUrt Urt.empty)).work (.buffer _ s.rab.dropSlots (.dropSlots s.rab))).tags
      (Mli.dropSlotOwners s.mli) (.dropOwners s.mli)).work (.streams _ Stt.empty (.clear _))).work
      (.queue _ s.pq.dropFenceMarks (.dropMarks s.pq))).faults { s.flt with flags := 0#16 } (.flags s.flt 0#16)

theorem State.quarantineDue_events (s : State) : Events s s.quarantineDue :=
  .access .refl fun _ h => s.quarantineDue_access h

theorem State.takeTick_events (o : TickOrder) (s : State) : Events s (s.takeTick o) := by
  have h : Events s s.advanceStamp := .plain rfl rfl rfl rfl rfl rfl rfl rfl
  unfold State.takeTick
  refine Events.trans (h.access fun D hd => ?_) (State.close_events _)
  refine .trans ?_ (State.doIf_access _ _ _ (State.tickStreams_work _))
  refine .trans ?_ (State.doIf_access _ _ _ (State.tickQueue_work _))
  refine Accesses.andThen ?_ hd fun h => State.tickTags_access _ h
  exact .trans (State.doIf_access _ _ _ (State.tickQueue_work _)) (State.doIf_access _ _ _ (State.tickStreams_work _))

theorem State.issueOne_events (s : State) : Events s s.issueOne := by
  obtain ⟨D, hD⟩ := s.exists_depthsWithin
  rcases s.issueOne_access hD with ⟨u, m, ha, he⟩ | he
  · rw [he]
    refine Events.trans (.access .refl (u := u) fun D' hD' => ?_) (.plain rfl rfl rfl rfl rfl rfl rfl rfl)
    rcases s.issueOne_access hD' with ⟨u', m', h', he'⟩ | he'
    · have hu : u' = u := by
        have h := he'.symm.trans he
        have hout : u'.out = u.out := h'.frame.out.trans ha.frame.out.symm
        have := congrArg (fun x : State => x.withOut u.out) h
        calc u' = u'.withOut u'.out := rfl
          _ = (u'.emit m').withOut u.out := by rw [hout]; rfl
          _ = (u.emit m).withOut u.out := this
          _ = u := rfl
      exact hu ▸ h'
    · exfalso
      have h := congrArg State.out (he'.symm.trans he)
      have hl := congrArg List.length h
      rw [State.emit_out, ha.frame.out] at hl
      simp at hl
  · rw [he]; exact .refl

/-! ### Management frames -/

theorem State.setLatch_events (s : State) : Events s s.setLatch := by
  unfold State.setLatch; split
  · exact .plain rfl rfl rfl rfl rfl rfl rfl rfl
  · exact (s.withPctl_events _).trans (State.demandRises_events _)

theorem State.clearLatch_events (s : State) : Events s s.clearLatch := by
  unfold State.clearLatch; split
  · exact (s.withPctl_events _).trans (State.demandFalls_events _)
  · exact .plain rfl rfl rfl rfl rfl rfl rfl rfl

theorem quiesceFrame_events (s : State) : Events s (quiesceFrame s).state :=
  s.setLatch_events.trans (State.close_events _)

theorem resumeFrame_events (s : State) : Events s (resumeFrame s).state :=
  s.clearLatch_events.trans (State.close_events _)

theorem invalidateFrame_events (s : State) : Events s (invalidateFrame s).state :=
  (Events.work fun _ _ => (Works.one (.buffer s s.rab.invalidateAll (.invalidate s.rab fun _ => true))).tail
    (.streams _ Stt.empty (.clear _))).trans (State.close_events _)

theorem popLogFrame_events (s : State) : Events s (popLogFrame s).state := by
  unfold popLogFrame
  split
  · exact .refl
  · rename_i r rest hr
    refine .elog _ .refl fun h => ⟨?_, h.2⟩
    have h1 := h.1; rw [hr, List.length_cons] at h1
    exact Nat.le_of_succ_le h1

theorem clearLogFrame_events (s : State) : Events s (clearLogFrame s).state :=
  .elog _ .refl fun _ => ⟨Nat.zero_le _, Nat.zero_le _⟩

theorem clearFaultFrame_events (arg : Word) (s : State) : Events s (clearFaultFrame arg s).state := by
  unfold clearFaultFrame
  split
  · exact .access .refl fun _ _ => .faults _ .refl (.clearAll _)
  · split
    · split
      · exact .access .refl fun _ _ => .faults _ .refl (.remove _ _)
      · exact .refl
    · exact .refl

theorem reclaimFrame_events (s : State) : Events s (reclaimFrame s).state :=
  (Events.access .refl fun _ _ => s.reclaimTags_access).trans (State.close_events _)

theorem ackFlagsFrame_events (s : State) : Events s (ackFlagsFrame s).state :=
  (Events.elog (s := s) { s.elog with ovf := false } .refl fun h => h).access fun _ _ =>
    .faults { s.flt with ovf := false } .refl (.overflow s.flt false)

theorem frameAcceptable_ranges {f : GlobalFrame} (h : frameAcceptable f = true) :
    (frameSelects f 0 = true → f.memTop.toNat ≤ 4095) ∧ (frameSelects f 1 = true → f.tickDiv.toNat ≤ 255) ∧
    (frameSelects f 3 = true → 1 ≤ f.memTimeout.toNat ∧ f.memTimeout.toNat ≤ 255) ∧
    (frameSelects f 4 = true → 1 ≤ f.streamIdle.toNat ∧ f.streamIdle.toNat ≤ 255) ∧
    (frameSelects f 5 = true → 1 ≤ f.pqUrgentMark.toNat ∧ f.pqUrgentMark.toNat ≤ 16) := by
  simp only [frameAcceptable, Bool.and_eq_true, Bool.or_eq_true, Bool.not_eq_true', decide_eq_true_eq] at h
  obtain ⟨⟨⟨⟨⟨⟨_, h0⟩, h1⟩, _⟩, h3⟩, h4⟩, h5⟩ := h
  refine ⟨fun e => ?_, fun e => ?_, fun e => ?_, fun e => ?_, fun e => ?_⟩
  · exact h0.resolve_left (by simp [e])
  · exact h1.resolve_left (by simp [e])
  · exact h3.resolve_left (by simp [e])
  · exact h4.resolve_left (by simp [e])
  · exact h5.resolve_left (by simp [e])

theorem State.applyGlobal_config (s : State) (f : GlobalFrame) (hf : frameAcceptable f = true) (h : s.configLaw) :
    (s.applyGlobal f).configLaw := by
  obtain ⟨h0, h1, h3, h4, h5⟩ := frameAcceptable_ranges hf
  obtain ⟨a1, a2, a3, a4, a5, a6, a7, a8, a9, a10, a11, a12⟩ := h
  refine ⟨a1, a2, a3, a4, ?_, ?_, ?_, ?_, ?_, ?_, ?_, ?_⟩ <;>
    simp only [State.applyGlobal, Settings.written, State.withTgen_rdec, State.withTgen_cfg,
      State.withCfg_rdec, State.withCfg_cfg, State.withRdec_rdec] <;> split <;> first | assumption | skip
  · exact h0 ‹_›
  · exact h1 ‹_›
  · exact (h3 ‹_›).1
  · exact (h3 ‹_›).2
  · exact (h4 ‹_›).1
  · exact (h4 ‹_›).2
  · exact (h5 ‹_›).1
  · exact (h5 ‹_›).2

theorem globalFrame_events (f : GlobalFrame) (s : State) : Events s (globalFrame f s).state := by
  unfold globalFrame
  split
  · rename_i hf
    exact (Events.outer (s := s) (u := s.applyGlobal f) .refl
      ⟨rfl, rfl, rfl, rfl, rfl, rfl, s.applyGlobal_config f hf⟩).trans (State.close_events _)
  · exact .refl

/-- R15: what a region frame that is accepted carries is within its ranges. -/
theorem regionOfWords_legal {base remap control : Word} {r : RegionEntry}
    (h : regionOfWords base remap control = some r) : r.legal := by
  unfold regionOfWords at h
  split at h
  · exact absurd h (by simp)
  · split at h
    · exact absurd h (by simp)
    · rename_i hn
      simp only [Option.some.injEq] at h; subst h
      simp only [not_or, Nat.not_lt, ne_eq, Decidable.not_not] at hn
      obtain ⟨h1, h2, h3, h4, h5, h6⟩ := hn
      have h7 : field control 24 8 < 256 := BitVec.isLt _
      exact ⟨h1, h2, h3, h4, Nat.pos_of_ne_zero h5, by simp only; omega, h6⟩

theorem defaultRegionOfWords_legal {remap control : Word} {d : DefaultRegion}
    (h : defaultRegionOfWords remap control = some d) :
    1 ≤ d.deadline ∧ d.deadline ≤ 255 ∧ d.remap.toNat % 0x1000 = 0 := by
  unfold defaultRegionOfWords at h
  split at h
  · exact absurd h (by simp)
  · split at h
    · exact absurd h (by simp)
    · rename_i hn
      simp only [Option.some.injEq] at h; subst h
      simp only [not_or, ne_eq, Decidable.not_not] at hn
      have h7 : field control 24 8 < 256 := BitVec.isLt _
      exact ⟨Nat.pos_of_ne_zero hn.1, by simp only; omega, hn.2⟩

theorem regionFrame_events (g : RegionIx) (base remap control : Word) (s : State) :
    Events s (regionFrame g base remap control s).state := by
  unfold regionFrame
  split
  · rename_i r hr
    refine Events.trans ?_ (State.close_events _)
    refine (Events.outer (s := s) (u := s.withRdec { s.rdec with regions := s.rdec.regions.set g r }) .refl
      ⟨rfl, rfl, rfl, rfl, rfl, rfl, fun h => ⟨fun k => ?_, h.2⟩⟩).access fun _ _ =>
      ((Works.one (.buffer (s.withRdec { s.rdec with regions := s.rdec.regions.set g r }) (s.rab.rewriteNotice g)
        (.invalidate s.rab fun x => x.region == .num g))).tail (.streams _ (s.stt.rewriteNotice g)
        (.rewrite s.stt g))).accesses
    simp only [State.withRdec_rdec, Vector.get_set_fin]
    split
    · exact regionOfWords_legal hr
    · exact h.1 k
  · exact .refl

theorem defaultRegionFrame_events (remap control : Word) (s : State) :
    Events s (defaultRegionFrame remap control s).state := by
  unfold defaultRegionFrame
  split
  · rename_i d hd
    refine Events.trans (.outer (s := s) (u := s.withRdec { s.rdec with dflt := d }) .refl
      ⟨rfl, rfl, rfl, rfl, rfl, rfl, fun h => ?_⟩) (State.close_events _)
    obtain ⟨h1, h2, h3⟩ := defaultRegionOfWords_legal hd
    exact ⟨h.1, h1, h2, h3, h.2.2.2.2⟩
  · exact .refl

theorem objectFrame_events (o : PortObject) (ws : List Word) (s : State) : Events s (objectFrame o ws s).state := by
  unfold objectFrame
  split
  · exact globalFrame_events ..
  · exact defaultRegionFrame_events ..
  · exact regionFrame_events ..
  all_goals exact .refl

theorem commandFrame_events (n : BitVec 16) (arg : Word) (s : State) : Events s (commandFrame n arg s).state := by
  unfold commandFrame
  split
  · exact quiesceFrame_events s
  · exact resumeFrame_events s
  · exact invalidateFrame_events s
  · exact popLogFrame_events s
  · exact clearLogFrame_events s
  · exact clearFaultFrame_events arg s
  · exact reclaimFrame_events s
  · exact ackFlagsFrame_events s
  · exact .refl

theorem readFrame_events (n : BitVec 16) (s : State) : Events s (readFrame n s).state := by
  unfold readFrame; split <;> exact .refl

theorem Frame.run_events (f : Frame) (s : State) : Events s (f.run s).state := by
  cases f
  · exact readFrame_events ..
  · exact objectFrame_events ..
  · exact .refl
  · exact commandFrame_events ..
  · exact .refl

theorem State.takeFrame_events (s : State) (f : Frame) : Events s (s.takeFrame f) :=
  (f.run_events s).trans (State.withRx_events _ _)

theorem State.sampleBit_events (s : State) (msi : Bool) : Events s (s.sampleBit msi) := by
  unfold State.sampleBit
  split
  · exact .refl
  · split
    · unfold State.takeBit State.takeBytes
      split
      · exact s.withRx_events _
      · split
        · exact s.takeFrame_events _
        · exact s.withRx_events _
    · exact .refl
  · exact s.withRx_events _
  · exact .refl

theorem State.clockBit_events (s : State) (msi : Bool) : Events s (s.clockBit msi) := by
  unfold State.clockBit
  split
  · exact (s.emit_events _).trans (State.sampleBit_events _ _)
  · exact .refl

theorem Events.foldl {α : Type} {f : State → α → State} (hf : ∀ s a, Events s (f s a)) (l : List α) (s : State) :
    Events s (l.foldl f s) := by
  induction l generalizing s with
  | nil => exact .refl
  | cons a l ih => exact (hf s a).trans (ih _)

theorem State.clockBytes_events (s : State) (bytes : List Byte) : Events s (s.clockBytes bytes) :=
  .foldl (fun s b => .foldl State.clockBit_events (bitsHighFirst b) s) bytes s

/-! ### Every command -/

theorem State.quiet_events (s : State) : Events s s.quiet := .plain rfl rfl rfl rfl rfl rfl rfl rfl

theorem State.takeRequest_events (s : State) (i h a d) : Events s (s.takeRequest i h a d) := by
  unfold State.takeRequest
  split
  · exact .plain rfl rfl rfl rfl rfl rfl rfl rfl
  · exact ((s.withUrt_events _).trans (.work fun _ _ => State.receive_work _ i)).trans
      (State.close_events _)

theorem State.respond_events (s : State) (i) : Events s (s.respond i) := by
  unfold State.respond State.creditStep
  split
  · exact .refl
  · split <;> exact .plain rfl rfl rfl rfl rfl rfl rfl rfl

theorem State.releaseLink_events (s : State) : Events s s.releaseLink := by
  unfold State.releaseLink; split
  · exact s.linkComesUp_events
  · exact .refl

theorem State.releaseDemand_events (s : State) : Events s s.releaseDemand := by
  unfold State.releaseDemand; split
  · exact s.demandRises_events
  · exact .refl

/-- What any command can do. -/
theorem exec_events {c : Instr} {s t : State} (h : exec c s = .next t) : Events s t := by
  have q := s.quiet_events
  have pin : ∀ p, Events s (s.quiet.withPins p) := fun p => .plain rfl rfl rfl rfl rfl rfl rfl rfl
  cases c <;> simp only [exec] at h
  case req hd a d =>
    unfold execReq at h
    split at h
    · cases h; exact q
    · split at h
      · cases h; exact q.access fun _ _ => .log _ .refl
      · split at h
        · cases h; exact q.trans (State.takeRequest_events ..)
        · cases h
  case resp =>
    unfold execResp at h
    split at h
    · cases h; exact q
    · split at h
      · cases h; exact (q.trans (State.respond_events ..)).trans (State.close_events _)
      · cases h; exact q
  case orderRelease => cases h; exact (q.trans (.work fun _ h => State.releaseSlots_work _ h)).trans (State.close_events _)
  case postWaitRetry => cases h; exact (q.trans (.work fun _ _ => State.retryPostWait_work _)).trans (State.close_events _)
  case drainWaitRelease =>
    cases h; exact (q.trans (.work fun _ h => State.releaseDrainWaits_work _ h)).trans (State.close_events _)
  case fenceDone => cases h; exact q.trans (.work fun _ h => State.testFences_work _ h)
  case ilrstnAssert =>
    unfold execIlrstnAssert at h
    split at h <;> cases h
    · exact ((pin _).trans (State.dropLink_events _)).trans (State.close_events _)
    · exact pin _
  case ilrstnDeassert =>
    unfold execIlrstnDeassert at h
    split at h <;> cases h
    · exact (pin _).trans (State.linkComesUp_events _)
    · exact pin _
  case resetnAssert =>
    unfold execResetnAssert at h
    split at h
    · exact Host.Outcome.next.inj h ▸ Events.reset .refl
    · cases h; exact q
  case resetnRelease o =>
    unfold execResetnRelease at h
    split at h
    · cases h; exact q
    · split at h <;> cases h
      · exact ((pin _).trans (State.releaseLink_events _)).trans (State.releaseDemand_events _)
      · exact ((pin _).trans (State.releaseDemand_events _)).trans (State.releaseLink_events _)
  case readiness =>
    unfold execReadiness at h
    split at h <;> cases h
    · exact ((q.trans (.work fun _ h => State.moveStreams_work _ h)).trans (State.issueOne_events _)).trans
        (State.close_events _)
    · exact q
  case mcpl hd d =>
    unfold execMcpl at h
    split at h <;> cases h
    · exact (q.access fun _ h => State.complete_access _ h _ _ _).trans (State.close_events _)
    · exact q
  case tick o =>
    unfold execTick at h
    split at h <;> cases h
    · exact q.trans (State.takeTick_events _ _)
    · exact q
  case quarantine =>
    rw [← Host.Outcome.next.inj h]
    exact (q.trans (State.quarantineDue_events _)).trans (State.close_events _)
  case idleExpiry => cases h; exact q.trans (.work fun _ _ => State.expireStreams_work _)
  case deadlineReached => cases h; exact q
  case qreqAssert =>
    unfold execQreqAssert at h
    split at h <;> cases h
    · exact ((pin _).trans (State.demandRises_events _)).trans (State.close_events _)
    · exact pin _
  case qreqDeassert =>
    unfold execQreqDeassert at h
    split at h <;> cases h
    · exact ((pin _).trans (State.demandFalls_events _)).trans (State.close_events _)
    · exact pin _
  case haltEntry => cases h; exact q.trans (State.haltTest_events _)
  case mssnFall =>
    unfold execMssnFall at h
    split at h <;> cases h <;> exact .plain rfl rfl rfl rfl rfl rfl rfl rfl
  case mssnRise =>
    unfold execMssnRise at h
    split at h <;> cases h <;> exact .plain rfl rfl rfl rfl rfl rfl rfl rfl
  all_goals exact Host.Outcome.next.inj h ▸ q.trans (State.clockBytes_events _ _)

theorem State.clockReply_events (s : State) : Events s s.clockReply := by
  unfold State.clockReply; split
  · exact s.clockBit_events _
  all_goals exact .refl

theorem State.idle_events (s : State) : Events s s.idle := by
  have hr : Events s.quiet s.quiet.refclk := by
    unfold State.refclk
    split
    · split
      · exact (State.withTgen_events _ _).trans (State.takeTick_events _ _)
      · exact .plain rfl rfl rfl rfl rfl rfl rfl rfl
    · exact .refl
  exact (s.quiet_events.trans hr).trans (State.clockReply_events _)

/-- What any step can do. -/
theorem step_events {s t : State} (h : step s = .next t) : Events s t := by
  unfold step at h
  split at h
  · cases h; exact s.idle_events
  · rename_i rest _
    have hp : Events s { s with pending := rest } := .plain rfl rfl rfl rfl rfl rfl rfl rfl
    exact hp.trans (exec_events h)

/-! ### The laws the empty blocks have -/

theorem Queue.empty_laws : Queue.empty.queueLaw ∧ Queue.empty.drainLaw := by
  simp [Queue.queueLaw, Queue.drainLaw, Queue.empty, Queue.issuedCount]

theorem Rab.empty_laws : Rab.empty.bufferLaw ∧ Rab.empty.recencyLaw := by
  simp [Rab.bufferLaw, Rab.recencyLaw, Rab.empty, RabLine.free]

theorem Stt.empty_laws : Stt.empty.pairLaw ∧ ∀ k : StreamIx, Stt.empty.entries[k].leadLaw := by
  refine ⟨by simp [Stt.pairLaw, Stt.empty, Stream.free], fun k => ?_⟩
  simpa [Stt.empty] using Stream.free_lead

theorem Mli.empty_law : Mli.interlockLaw Mli.empty := by simp [Mli.interlockLaw, Mli.empty, Tag.free, Tag.claims]

theorem Flt.empty_law : Flt.empty.faultLaw := by simp [Flt.faultLaw, Flt.empty]

theorem Elog.empty_law : Elog.empty.logLaw := by simp [Elog.logLaw, Elog.empty]

/-! ### What every event keeps -/

theorem Events.queueLaw {s t : State} (h : Events s t) (hs : s.queueLaw) : t.queueLaw := by
  induction h with
  | refl => exact hs
  | @access t _ _ a ih =>
    obtain ⟨D, hD⟩ := t.exists_depthsWithin
    exact (a D hD).queueLaw ih
  | outer _ b ih => unfold State.queueLaw; rw [b.pq]; exact ih
  | elog g _ c ih => exact ih
  | reset _ _ => exact Queue.empty_laws.1

theorem Events.drainLaw {s t : State} (h : Events s t) (hs : s.drainLaw) : t.drainLaw := by
  induction h with
  | refl => exact hs
  | @access t _ _ a ih =>
    obtain ⟨D, hD⟩ := t.exists_depthsWithin
    exact (a D hD).drainLaw ih
  | outer _ b ih => unfold State.drainLaw; rw [b.pq]; exact ih
  | elog g _ c ih => exact ih
  | reset _ _ => exact Queue.empty_laws.2

theorem Events.bufferLaw {s t : State} (h : Events s t) (hs : s.bufferLaw) : t.bufferLaw := by
  induction h with
  | refl => exact hs
  | @access t _ _ a ih =>
    obtain ⟨D, hD⟩ := t.exists_depthsWithin
    exact (a D hD).bufferLaw ih
  | outer _ b ih => unfold State.bufferLaw; rw [b.rab]; exact ih
  | elog g _ c ih => exact ih
  | reset _ _ => exact Rab.empty_laws.1

theorem Events.recencyLaw {s t : State} (h : Events s t) (hs : s.recencyLaw) : t.recencyLaw := by
  induction h with
  | refl => exact hs
  | @access t _ _ a ih =>
    obtain ⟨D, hD⟩ := t.exists_depthsWithin
    exact (a D hD).recencyLaw ih
  | outer _ b ih => unfold State.recencyLaw; rw [b.rab]; exact ih
  | elog g _ c ih => exact ih
  | reset _ _ => exact Rab.empty_laws.2

theorem Events.streamPairLaw {s t : State} (h : Events s t) (hs : s.streamPairLaw) : t.streamPairLaw := by
  induction h with
  | refl => exact hs
  | @access t _ _ a ih =>
    obtain ⟨D, hD⟩ := t.exists_depthsWithin
    exact (a D hD).streamPairLaw ih
  | outer _ b ih => unfold State.streamPairLaw; rw [b.stt]; exact ih
  | elog g _ c ih => exact ih
  | reset _ _ => exact Stt.empty_laws.1

theorem Events.interlockLaw {s t : State} (h : Events s t) (hs : s.interlockLaw) : t.interlockLaw := by
  induction h with
  | refl => exact hs
  | @access t _ _ a ih =>
    obtain ⟨D, hD⟩ := t.exists_depthsWithin
    exact (a D hD).interlockLaw ih
  | outer _ b ih => unfold State.interlockLaw; rw [b.mli]; exact ih
  | elog g _ c ih => exact ih
  | reset _ _ => exact Mli.empty_law

theorem Events.faultAndLogLaw {s t : State} (h : Events s t) (hs : s.faultAndLogLaw) : t.faultAndLogLaw := by
  induction h with
  | refl => exact hs
  | @access t _ _ a ih =>
    obtain ⟨D, hD⟩ := t.exists_depthsWithin
    exact (a D hD).faultAndLogLaw ih
  | outer _ b ih => unfold State.faultAndLogLaw; rw [b.flt, b.elog]; exact ih
  | elog g _ c ih => exact ⟨ih.1, c ih.2⟩
  | reset _ _ => exact ⟨Flt.empty_law, Elog.empty_law⟩

theorem RegionEntry.default_legal : RegionEntry.default.legal := by
  simp [RegionEntry.legal, RegionEntry.default]

theorem State.reset_config : State.reset.configLaw := by
  refine ⟨fun g => ?_, ?_⟩
  · simpa [State.reset, Rdec.default] using RegionEntry.default_legal
  · simp [State.reset, Rdec.default, DefaultRegion.default, Settings.default]

theorem Events.configLaw {s t : State} (h : Events s t) (hs : s.configLaw) : t.configLaw := by
  induction h with
  | refl => exact hs
  | @access t _ _ a ih =>
    obtain ⟨D, hD⟩ := t.exists_depthsWithin
    unfold State.configLaw; rw [(a D hD).frame.rdec, (a D hD).frame.cfg]; exact ih
  | outer _ b ih => exact b.config ih
  | elog g _ c ih => exact ih
  | reset _ _ => exact State.reset_config

theorem State.configLaw_depths {s : State} (h : s.configLaw) : s.depthsWithin 4 := by
  intro g
  unfold Rdec.depthReported
  split
  · exact (h.1 g).2.2.2.1
  · exact Nat.zero_le _

/-- R91 holds along every event of a part whose configuration is within its ranges. -/
theorem Events.streamLeadLaw {s t : State} (h : Events s t) (hc : s.configLaw) (hs : s.streamLeadLaw) :
    t.streamLeadLaw := by
  induction h with
  | refl => exact hs
  | access e a ih => exact (a 4 (State.configLaw_depths (e.configLaw hc))).streamLeadLaw ih
  | outer _ b ih => unfold State.streamLeadLaw; rw [b.stt]; exact ih
  | elog g _ c ih => exact ih
  | reset _ _ => exact Stt.empty_laws.2

end Sys2Proof.Machine
end

