-- ==== Sys2Proof/Laws/Settled.lean ====
section
/-! SUPPORT. What the end of an event establishes: no slot releasable (R27), no fence ready (R36), no empty path in DRAIN (R147). -/

namespace Sys2Proof.Machine

/-! ### One slot served -/

/-- Slot `i` was served: every other slot stands, and slot `i` is not in ORDER_WAIT. -/
def Served (s t : State) (i : SlotIx) : Prop :=
  (∀ j, j ≠ i → t.urt.slots[j] = s.urt.slots[j]) ∧ ∀ x, t.urt.slots[i] = some x → x.state ≠ .orderWait

theorem Urt.update_other (u : Urt) (i j : SlotIx) (f : Slot → Slot) (h : j ≠ i) : (u.update i f).slots[j] = u.slots[j] := by
  simp only [Urt.update, Vector.get_set_fin, if_neg (Ne.symm h)]

theorem Urt.update_self (u : Urt) (i : SlotIx) (f : Slot → Slot) : (u.update i f).slots[i] = u.slots[i].map f := by
  simp only [Urt.update, Vector.get_set_fin, if_pos]

theorem Urt.update_served (s t : State) (i : SlotIx) (f : Slot → Slot) (ht : t.urt.slots = (s.urt.update i f).slots)
    (hf : ∀ x, (f x).state ≠ .orderWait) : Served s t i := by
  refine ⟨fun j h => by rw [ht]; exact Urt.update_other _ _ _ _ h, fun x hx => ?_⟩
  rw [ht, Urt.update_self] at hx
  cases h : s.urt.slots[i] with
  | none => rw [h] at hx; exact absurd hx (by simp)
  | some y => rw [h] at hx; simp only [Option.map_some, Option.some.injEq] at hx; exact hx ▸ hf y

theorem State.finish_served (s t : State) (i st bs) (h : t.urt.slots = s.urt.slots) : Served s (t.finish i st bs) i :=
  Urt.update_served s _ i (fun x => { x with state := .done, status := some st, result := bs, tag := none })
    (by simp [Urt.update, h]) fun _ => by simp

theorem State.slotEnters_served (s t : State) (i st) (h : t.urt.slots = s.urt.slots) (hst : st ≠ .orderWait) :
    Served s (t.slotEnters i st) i :=
  Urt.update_served s _ i (fun x => { x with state := st }) (by simp [Urt.update, h]) fun _ => hst

@[simp] theorem State.notify_urt (s : State) (src d) : (s.notify src d).urt = s.urt := by
  unfold State.notify; split <;> (try split) <;> rfl

theorem State.lookupOutcome_served (s : State) (i x d) : Served s (s.lookupOutcome i x d) i := by
  unfold State.lookupOutcome
  split
  · split
    · exact State.finish_served s _ _ _ _ rfl
    · exact State.slotEnters_served s _ _ _ rfl (by simp)
  · split <;> exact State.slotEnters_served s _ _ _ rfl (by simp)

theorem State.faultCheck_served (s : State) (i x d) : Served s (s.faultCheck i x d) i := by
  unfold State.faultCheck
  split
  · exact State.finish_served s _ _ _ _ rfl
  · split
    · have h := s.lookupOutcome_served i x d
      unfold State.lookup Served at *
      simpa only [State.moveStreams_urt, State.notify_urt] using h
    · exact State.slotEnters_served s _ _ _ rfl (by simp)

theorem State.serveRead_served (s : State) (i x d) : Served s (s.serveRead i x d) i := by
  unfold State.serveRead
  split
  · split
    · split
      · exact State.finish_served s _ _ _ _ rfl
      · exact State.slotEnters_served s _ _ _ rfl (by simp)
    · exact State.faultCheck_served ..
  · split
    · exact State.slotEnters_served s _ _ _ rfl (by simp)
    · exact State.faultCheck_served ..

theorem State.serveWrite_served (s : State) (i x d) : Served s (s.serveWrite i x d) i := by
  unfold State.serveWrite State.offerWrite
  split
  · split
    · exact State.finish_served s _ _ _ _ rfl
    · split
      · exact State.finish_served s _ _ _ _ rfl
      · exact State.slotEnters_served s _ _ _ rfl (by simp)
  · exact State.slotEnters_served s _ _ _ rfl (by simp)

theorem Urt.releasable_some {u : Urt} {i : SlotIx} (h : u.releasable i = true) :
    ∃ x d, u.slots[i] = some x ∧ x.decode = some d ∧ x.state = .orderWait ∧ x.kind.addressed = true := by
  unfold Urt.releasable at h
  split at h
  · exact absurd h (by simp)
  · rename_i x hx
    split at h
    · exact absurd h (by simp)
    · rename_i d hd
      simp only [Bool.and_eq_true, beq_iff_eq] at h
      exact ⟨x, d, hx, hd, h.1.1, h.1.2⟩

/-- A releasable slot that takes its first step leaves ORDER_WAIT, and no other slot changes. -/
theorem State.serveFirst_served (s : State) (i : SlotIx) (h : s.urt.releasable i = true) : Served s (s.serveFirst i) i := by
  obtain ⟨x, d, hx, hd, _, ha⟩ := Urt.releasable_some h
  unfold State.serveFirst
  cases hk : x.kind <;> simp only [hx, hd, hk]
  · exact State.serveRead_served ..
  · exact State.serveWrite_served ..
  · rw [hk] at ha; exact absurd ha (by simp [ReqKind.addressed])
  · rw [hk] at ha; exact absurd ha (by simp [ReqKind.addressed])

/-! ### Releases end (R27) -/

/-- The slots in ORDER_WAIT. -/
def Urt.waitingSet (u : Urt) : Finset SlotIx := Finset.univ.filter fun i => ∃ x, u.slots[i] = some x ∧ x.state = .orderWait

theorem State.serveFirst_waiting (s : State) (i : SlotIx) (h : s.urt.releasable i = true) :
    (s.serveFirst i).urt.waitingSet ⊂ s.urt.waitingSet := by
  have hs := s.serveFirst_served i h
  obtain ⟨x, d, hx, _, ho, _⟩ := Urt.releasable_some h
  refine Finset.ssubset_iff_of_subset (fun j hj => ?_) |>.2 ⟨i, ?_, ?_⟩
  · simp only [Urt.waitingSet, Finset.mem_filter, Finset.mem_univ, true_and] at *
    obtain ⟨y, hy, hyo⟩ := hj
    by_cases e : j = i
    · subst e; exact absurd hyo (hs.2 y hy)
    · exact ⟨y, by rw [← hs.1 j e]; exact hy, hyo⟩
  · simp only [Urt.waitingSet, Finset.mem_filter, Finset.mem_univ, true_and]
    exact ⟨x, hx, ho⟩
  · simp only [Urt.waitingSet, Finset.mem_filter, Finset.mem_univ, true_and, not_exists, not_and]
    exact fun y hy => hs.2 y hy

theorem State.releaseUpTo_settled (n : Nat) (s : State) (h : s.urt.waitingSet.card ≤ n) :
    (State.releaseUpTo n s).orderSettled := by
  induction n generalizing s with
  | zero =>
    intro i _
    by_contra hc
    have hr : s.urt.releasable i = true := by
      rcases Bool.eq_false_or_eq_true (s.urt.releasable i) with h | h
      · exact h
      · exact absurd h hc
    obtain ⟨x, d, hx, _, ho, _⟩ := Urt.releasable_some hr
    have : i ∈ s.urt.waitingSet := by
      simp only [Urt.waitingSet, Finset.mem_filter, Finset.mem_univ, true_and]; exact ⟨x, hx, ho⟩
    rw [Finset.card_eq_zero.1 (Nat.le_zero.1 h)] at this
    exact absurd this (Finset.notMem_empty _)
  | succ n ih =>
    unfold State.releaseUpTo
    split
    · rename_i hn
      intro i hi
      have := List.find?_eq_none.1 hn i hi
      simpa using this
    · rename_i i hi
      have hr : s.urt.releasable i = true := List.find?_some hi
      exact ih _ (Nat.le_of_lt_succ ((Finset.card_lt_card (s.serveFirst_waiting i hr)).trans_le h))

/-- R27: after the releases nothing is releasable. -/
theorem State.releaseSlots_settled (s : State) : s.releaseSlots.orderSettled :=
  State.releaseUpTo_settled 8 s ((Finset.card_le_univ _).trans (by simp))

/-! ### Fences are tested to the end (R36) -/

theorem State.fenceReady_slot {s : State} {i : SlotIx} (h : s.fenceReady i = true) :
    ∃ x, s.urt.slots[i] = some x ∧ x.kind = .fence ∧ x.state = .fenceWait := by
  unfold State.fenceReady Urt.slotHas at h
  simp only [Bool.and_eq_true] at h
  cases hx : s.urt.slots[i] with
  | none => rw [hx] at h; exact absurd h.1.1 (by simp)
  | some x =>
    rw [hx] at h
    simp only [Bool.and_eq_true, beq_iff_eq] at h
    exact ⟨x, rfl, h.1.1⟩

/-- A fence slot is DONE: what the completion of a ready fence changes of the slots. -/
theorem State.completeFence_slots (s : State) (i : SlotIx) (x : Slot) (hx : s.urt.slots[i] = some x) :
    ∃ st, (s.completeFence i).urt =
      s.urt.update i fun y => { y with state := .done, status := some st, result := [], tag := none } := by
  unfold State.completeFence
  simp only [hx]
  split
  · exact ⟨_, rfl⟩
  · exact ⟨_, rfl⟩

theorem State.completeFence_pq (s : State) (i : SlotIx) : (s.completeFence i).pq = s.pq := by
  unfold State.completeFence; split <;> (try split) <;> rfl

/-- A slot whose kind is FENCE plays no part in the order of lines or in another fence's conditions. -/
theorem Urt.update_fence_has (u : Urt) (i j : SlotIx) (x : Slot) (f : Slot → Slot) (p : Slot → Bool)
    (hx : u.slots[i] = some x) (hp : p (f x) = p x) : (u.update i f).slotHas j p = u.slotHas j p := by
  by_cases e : j = i
  · subst e
    unfold Urt.slotHas
    rw [Urt.update_self, hx]
    exact hp
  · unfold Urt.slotHas
    rw [Urt.update_other _ _ _ _ e]

/-- Completing a ready fence: that fence is no longer ready, every other is as ready as before. -/
theorem State.completeFence_ready (s : State) (i j : SlotIx) (h : s.fenceReady i = true) :
    (s.completeFence i).fenceReady j = (decide (j ≠ i) && s.fenceReady j) := by
  obtain ⟨x, hx, hk, hst⟩ := s.fenceReady_slot h
  obtain ⟨st, hu⟩ := s.completeFence_slots i x hx
  unfold State.fenceReady
  rw [hu, State.completeFence_pq]
  have h2 : (s.urt.update i fun y => { y with state := .done, status := some st, result := [], tag := none }).olderWritesSettled j
      = s.urt.olderWritesSettled j := by
    unfold Urt.olderWritesSettled
    refine congrArg (fun p => List.all (s.urt.older j) p) (funext fun k => ?_)
    rw [Urt.update_fence_has s.urt i k x _ _ hx]
    have : (x.kind == ReqKind.wr) = false := by rw [hk]; rfl
    simp only [this, Bool.false_and]
  rw [h2]
  by_cases e : j = i
  · subst e
    have : (s.urt.update j fun y => { y with state := .done, status := some st, result := [], tag := none }).slotHas j
        (fun x => x.kind == .fence && x.state == .fenceWait) = false := by
      unfold Urt.slotHas
      rw [Urt.update_self, hx]
      simp only [Option.map_some, hk]; rfl
    rw [this]; simp
  · have : (s.urt.update i fun y => { y with state := .done, status := some st, result := [], tag := none }).slotHas j
        (fun x => x.kind == .fence && x.state == .fenceWait) =
        s.urt.slotHas j (fun x => x.kind == .fence && x.state == .fenceWait) := by
      unfold Urt.slotHas; rw [Urt.update_other _ _ _ _ e]
    rw [this]; simp [e]

theorem State.testFence_ready (s : State) (i j : SlotIx) :
    (s.testFence i).fenceReady j = (decide (j ≠ i) && s.fenceReady j) := by
  unfold State.testFence
  split
  · rename_i h; exact s.completeFence_ready i j h
  · rename_i h
    by_cases e : j = i
    · subst e; simpa using h
    · simp [e]

theorem State.testFence_arrival (s : State) (i) : (s.testFence i).urt.arrival = s.urt.arrival :=
  (State.testFence_work (D := 0) s i).frame.arrival

/-- R36: after the tests no fence is ready. -/
theorem State.testFences_settled (s : State) : s.testFences.fencesSettled := by
  have key : ∀ (l : List SlotIx) (s : State) (j : SlotIx), (j ∈ l ∨ s.fenceReady j = false) →
      (l.foldl State.testFence s).fenceReady j = false := by
    intro l
    induction l with
    | nil => intro s j h; simpa using h
    | cons a l ih =>
      intro s j h
      refine ih _ j ?_
      rw [State.testFence_ready]
      by_cases e : j = a
      · exact .inr (by simp [e])
      · rcases h with h | h
        · exact .inl ((List.mem_cons.1 h).resolve_left e)
        · exact .inr (by simp [h])
  have harr : ∀ (l : List SlotIx) (s : State), (l.foldl State.testFence s).urt.arrival = s.urt.arrival := by
    intro l
    induction l with
    | nil => intro s; rfl
    | cons a l ih => intro s; exact (ih _).trans (s.testFence_arrival a)
  intro i hi
  unfold State.testFences at hi
  rw [harr] at hi
  exact key _ _ _ (.inl hi)

/-- The fence tests leave the releases as they stand. -/
theorem State.completeFence_releasable (s : State) (i j : SlotIx) (h : s.fenceReady i = true) :
    (s.completeFence i).urt.releasable j = s.urt.releasable j := by
  obtain ⟨x, hx, hk, hst⟩ := s.fenceReady_slot h
  obtain ⟨st, hu⟩ := s.completeFence_slots i x hx
  rw [hu]
  have hb : ∀ y d, ((s.urt.update i fun y => { y with state := .done, status := some st, result := [], tag := none }).older j).all
      (fun k => !(s.urt.update i fun y => { y with state := .done, status := some st, result := [], tag := none }).slotHas k
        fun o => o.blocks y d) = ((s.urt.older j).all fun k => !s.urt.slotHas k fun o => o.blocks y d) := by
    intro y d
    refine congrArg (fun p => List.all (s.urt.older j) p) (funext fun k => ?_)
    rw [Urt.update_fence_has s.urt i k x _ _ hx ?_]
    simp [Slot.blocks, Slot.lineCarrying, hk, ReqKind.addressed]
  unfold Urt.releasable
  by_cases e : j = i
  · subst e
    rw [Urt.update_self, hx]
    simp only [Option.map_some, hk, ReqKind.addressed]
    cases x.decode <;> simp
  · rw [Urt.update_other _ _ _ _ e]
    cases s.urt.slots[j] with
    | none => rfl
    | some y =>
      simp only
      cases y.decode with
      | none => rfl
      | some d => simp only [hb]

theorem State.testFences_releasable (s : State) (j : SlotIx) : s.testFences.urt.releasable j = s.urt.releasable j := by
  have key : ∀ (l : List SlotIx) (s : State), (l.foldl State.testFence s).urt.releasable j = s.urt.releasable j := by
    intro l
    induction l with
    | nil => intro s; rfl
    | cons a l ih =>
      intro s
      refine (ih _).trans ?_
      unfold State.testFence
      split
      · rename_i h; exact s.completeFence_releasable a j h
      · rfl
  exact key _ s

theorem State.fenceReady_congr {s t : State} (hu : t.urt = s.urt) (hq : t.pq = s.pq) (j : SlotIx) :
    t.fenceReady j = s.fenceReady j := by unfold State.fenceReady; rw [hu, hq]

/-- What `settle` establishes. -/
theorem State.settle_settled (s : State) : s.settle.orderSettled ∧ s.settle.fencesSettled := by
  unfold State.settle
  refine ⟨fun i hi => ?_, fun i hi => ?_⟩
  · rw [State.moveStreams_urt] at *
    rw [State.testFences_releasable]
    refine s.releaseSlots_settled i ?_
    rwa [(State.testFences_work (D := s.releaseSlots.exists_depthsWithin.choose) _
      s.releaseSlots.exists_depthsWithin.choose_spec).frame.arrival] at hi
  · rw [State.fenceReady_congr (State.moveStreams_urt _) (State.moveStreams_pq _)]
    exact State.testFences_settled _ i hi

/-! ### The HALT test -/

theorem State.haltTest_urt (s : State) : s.haltTest.urt = s.urt := by unfold State.haltTest; split <;> rfl
theorem State.haltTest_pq (s : State) : s.haltTest.pq = s.pq := by unfold State.haltTest; split <;> rfl
theorem State.haltTest_mli (s : State) : s.haltTest.mli = s.mli := by unfold State.haltTest; split <;> rfl
theorem State.haltTest_pins (s : State) : s.haltTest.pins = s.pins := by unfold State.haltTest; split <;> rfl
theorem State.haltTest_rdec (s : State) : s.haltTest.rdec = s.rdec := by unfold State.haltTest; split <;> rfl
theorem State.haltTest_cfg (s : State) : s.haltTest.cfg = s.cfg := by unfold State.haltTest; split <;> rfl
theorem State.haltTest_flt (s : State) : s.haltTest.flt = s.flt := by unfold State.haltTest; split <;> rfl
theorem State.haltTest_elog (s : State) : s.haltTest.elog = s.elog := by unfold State.haltTest; split <;> rfl
theorem State.haltTest_tgen (s : State) : s.haltTest.tgen = s.tgen := by unfold State.haltTest; split <;> rfl
theorem State.haltTest_rx (s : State) : s.haltTest.rx = s.rx := by unfold State.haltTest; split <;> rfl
theorem State.haltTest_out (s : State) : s.haltTest.out = s.out := by unfold State.haltTest; split <;> rfl
theorem State.haltTest_pending (s : State) : s.haltTest.pending = s.pending := by unfold State.haltTest; split <;> rfl

/-- R147: after the test the path is not in DRAIN while it is empty. -/
theorem State.haltTest_holds (s : State) : s.haltTest.drainHolds := by
  unfold State.drainHolds State.haltTest
  split
  · intro h; exact absurd h (by simp [State.enterHalt])
  · rename_i h
    intro hp
    by_contra hc
    exact h ⟨hp, by simpa using hc⟩

/-- What the end of an event establishes. -/
theorem State.close_settled (s : State) : s.close.orderSettled ∧ s.close.fencesSettled ∧ s.close.drainHolds := by
  have h := s.settle_settled
  refine ⟨fun i hi => ?_, fun i hi => ?_, State.haltTest_holds _⟩
  · unfold State.close at *; rw [State.haltTest_urt] at *; exact h.1 i hi
  · unfold State.close at *
    rw [State.fenceReady_congr (State.haltTest_urt _) (State.haltTest_pq _)]
    rw [State.haltTest_urt] at hi
    exact h.2 i hi

/-! ### Streams that have moved on (R98) -/

theorem Stream.moveOn_region (depth : Nat) (r h : LineAddr → Bool) (n : Nat) (e : Stream) :
    (Stream.moveOn depth r h n e).region = e.region := (Stream.moveOn_key depth r h n e).2.2

/-- After `n` moves of a lead that can make at most `n`, nothing moves. -/
theorem Stream.moveOn_done (depth : Nat) (r held : LineAddr → Bool) (n : Nat) (e : Stream)
    (hn : depth < 2 ^ 27 - 1) (h : depth < e.lead + n) :
    ((Stream.moveOn depth r held n e).reaches depth r && held (Stream.moveOn depth r held n e).next) = false := by
  induction n generalizing e with
  | zero =>
    simp only [Stream.moveOn, Bool.and_eq_false_iff]
    refine .inl ?_
    cases hr : e.reaches depth r
    · rfl
    · have := (Stream.reaches_iff e depth r).1 hr
      omega
  | succ n ih =>
    unfold Stream.moveOn
    split
    · rename_i hc
      simp only [Bool.and_eq_true] at hc
      have hr := (Stream.reaches_iff e depth r).1 hc.1
      refine ih _ ?_
      rw [Stream.lead_succ e hr.2.2.1 (by omega)]; omega
    · rename_i hc
      simpa using hc

/-- R98: after the moves no entry that could move on has a NEXT that is held. -/
theorem State.moveStreams_settled (s : State) (hd : ∀ g, s.rdec.depthReported g < 2 ^ 27 - 1) :
    s.moveStreams.streamsSettled := by
  intro k
  simp only [State.moveStreams_stt, State.moveStreams_rdec, State.moveStreams_rab, Vector.get_ofFn_fin, State.moveStream,
    Stream.moveOn_region]
  exact Stream.moveOn_done _ _ _ _ _ (hd _) (by omega)

theorem Stream.moveOn_still {depth : Nat} {r held : LineAddr → Bool} {n : Nat} {e : Stream}
    (h : (e.reaches depth r && held e.next) = false) : Stream.moveOn depth r held n e = e := by
  cases n with
  | zero => rfl
  | succ n => unfold Stream.moveOn; rw [h]; rfl

/-! ### In a settled part the end of an event changes nothing -/

theorem State.releaseSlots_still {s : State} (h : s.orderSettled) : s.releaseSlots = s := by
  unfold State.releaseSlots State.releaseUpTo
  have : (s.urt.arrival.find? fun i => s.urt.releasable i) = none :=
    List.find?_eq_none.2 fun i hi => by rw [h i hi]; simp
  rw [this]

theorem State.testFences_still {s : State} (h : s.fencesSettled) : s.testFences = s := by
  unfold State.testFences
  have : ∀ l : List SlotIx, (∀ i ∈ l, s.fenceReady i = false) → l.foldl State.testFence s = s := by
    intro l
    induction l with
    | nil => intro _; rfl
    | cons a l ih =>
      intro hl
      have ha : s.testFence a = s := by
        unfold State.testFence; rw [hl a (by simp)]; rfl
      rw [List.foldl_cons, ha]
      exact ih fun i hi => hl i (by simp [hi])
  exact this _ h

theorem State.moveStreams_still {s : State} (h : s.streamsSettled) : s.moveStreams = s := by
  have : (Vector.ofFn fun k => s.moveStream s.stt.entries[k]) = s.stt.entries := by
    ext i hi
    have := Stream.moveOn_still (n := s.rdec.depthReported s.stt.entries[(⟨i, hi⟩ : Fin 4)].region + 1)
      (held := fun l => (s.rab.find l).isSome) (h ⟨i, hi⟩)
    simpa [State.moveStream] using this
  unfold State.moveStreams
  rw [this]; rfl

theorem State.haltTest_still {s : State} (h : s.drainHolds) : s.haltTest = s := by
  unfold State.haltTest
  split
  · rename_i hc; rw [h hc.1] at hc; exact absurd hc.2 (by simp)
  · rfl

theorem State.settle_still {s : State} (h1 : s.orderSettled) (h2 : s.fencesSettled) (h3 : s.streamsSettled) :
    s.settle = s := by
  unfold State.settle
  rw [State.releaseSlots_still h1, State.testFences_still h2, State.moveStreams_still h3]

/-- In a settled part the end of an event changes nothing. -/
theorem State.Settled.close {s : State} (h : s.Settled) : s.close = s := by
  unfold State.close
  rw [State.settle_still h.order h.fences h.streams, State.haltTest_still h.drain]

/-- What settledness reads of the state. -/
theorem State.Settled.congr {s t : State} (h : s.Settled) (hu : t.urt = s.urt) (hq : t.pq = s.pq) (hs : t.stt = s.stt)
    (hb : t.rab = s.rab) (hr : t.rdec = s.rdec) (hp : t.pctl.path = s.pctl.path) (hm : t.mli = s.mli) : t.Settled := by
  refine ⟨?_, ?_, ?_, ?_, ?_, ?_⟩
  · unfold State.orderSettled; rw [hu]; exact h.order
  · intro i hi; rw [State.fenceReady_congr hu hq]; exact h.fences i (hu ▸ hi)
  · unfold State.streamsSettled; rw [hs, hb, hr]; exact h.streams
  · unfold State.drainHolds State.pathEmpty; rw [hp, hu, hq, hm]; exact h.drain
  · intro i hi; unfold State.drainWaitOver; rw [hu, hq]; exact h.waits i (hu ▸ hi)
  · rw [hq]; exact h.room

end Sys2Proof.Machine
end

