-- ==== Sys2Proof/Laws/Insert.lean ====
section
/-! SUPPORT. What a settled part keeps when a request takes the young end of the arrival list, and how far the releases of that event reach. -/

namespace Sys2Proof.Machine

/-! ### Where a slot stands in the arrival list -/

theorem takeWhile_append_mem {l m : List SlotIx} {j : SlotIx} (h : j ∈ l) :
    (l ++ m).takeWhile (fun k => k != j) = l.takeWhile fun k => k != j := by
  induction l with
  | nil => exact absurd h (by simp)
  | cons a l ih =>
    simp only [List.cons_append, List.takeWhile_cons]
    by_cases e : a = j
    · simp [e]
    · have : (a != j) = true := by simpa using e
      simp only [this, if_true]
      rw [ih ((List.mem_cons.1 h).resolve_left fun h => e h.symm)]

theorem takeWhile_append_new {l : List SlotIx} {i : SlotIx} (h : i ∉ l) :
    (l ++ [i]).takeWhile (fun k => k != i) = l := by
  induction l with
  | nil => simp
  | cons a l ih =>
    simp only [List.mem_cons, not_or] at h
    have : (a != i) = true := by simpa using fun e => h.1 e.symm
    simp only [List.cons_append, List.takeWhile_cons, this, if_true, ih h.2]

theorem dropWhile_append_new {l : List SlotIx} {i : SlotIx} (h : i ∉ l) :
    (l ++ [i]).dropWhile (fun k => k != i) = [i] := by
  induction l with
  | nil => simp
  | cons a l ih =>
    simp only [List.mem_cons, not_or] at h
    have : (a != i) = true := by simpa using fun e => h.1 e.symm
    simp only [List.cons_append, List.dropWhile_cons, this, if_true, ih h.2]

theorem Urt.mem_older {u : Urt} {i j : SlotIx} (h : j ∈ u.older i) : j ∈ u.arrival ∧ j ≠ i := by
  refine ⟨List.takeWhile_subset _ h, ?_⟩
  simpa using List.mem_takeWhile_imp h

/-- Slot `i` of `v` is a new youngest slot over the slots of `u`. -/
structure Youngest (u v : Urt) (i : SlotIx) : Prop where
  new : i ∉ u.arrival
  arrival : v.arrival = u.arrival ++ [i]
  others : ∀ j : SlotIx, j ≠ i → v.slots[j] = u.slots[j]

theorem Youngest.older {u v : Urt} {i j : SlotIx} (h : Youngest u v i) (hj : j ∈ u.arrival) : v.older j = u.older j := by
  unfold Urt.older; rw [h.arrival]; exact takeWhile_append_mem hj

theorem Youngest.older_self {u v : Urt} {i : SlotIx} (h : Youngest u v i) : v.older i = u.arrival := by
  unfold Urt.older; rw [h.arrival]; exact takeWhile_append_new h.new

theorem Youngest.younger_self {u v : Urt} {i : SlotIx} (h : Youngest u v i) : v.younger i = [] := by
  unfold Urt.younger; rw [h.arrival, dropWhile_append_new h.new]; rfl

theorem Youngest.ne {u v : Urt} {i j : SlotIx} (h : Youngest u v i) (hj : j ∈ u.arrival) : j ≠ i :=
  fun e => h.new (e ▸ hj)

theorem Youngest.has {u v : Urt} {i j : SlotIx} (h : Youngest u v i) (hj : j ∈ u.arrival) (p : Slot → Bool) :
    v.slotHas j p = u.slotHas j p := by
  unfold Urt.slotHas; rw [h.others j (h.ne hj)]

theorem Youngest.all_older {u v : Urt} {i j : SlotIx} (h : Youngest u v i) (hj : j ∈ u.arrival) (p : Slot → Bool) :
    ((v.older j).all fun k => !v.slotHas k p) = (u.older j).all fun k => !u.slotHas k p := by
  rw [h.older hj]
  refine Bool.eq_iff_iff.2 ?_
  simp only [List.all_eq_true]
  exact forall_congr' fun k => forall_congr' fun hk => by rw [h.has (Urt.mem_older hk).1]

theorem Youngest.releasable {u v : Urt} {i j : SlotIx} (h : Youngest u v i) (hj : j ∈ u.arrival) :
    v.releasable j = u.releasable j := by
  unfold Urt.releasable
  rw [h.others j (h.ne hj)]
  cases u.slots[j] with
  | none => rfl
  | some x =>
    simp only
    cases x.decode with
    | none => rfl
    | some d => simp only [h.all_older hj]

theorem Youngest.olderWrites {u v : Urt} {i j : SlotIx} (h : Youngest u v i) (hj : j ∈ u.arrival) :
    v.olderWritesSettled j = u.olderWritesSettled j := h.all_older hj _

theorem Urt.take_youngest (u : Urt) (i : SlotIx) (x : Slot) (h : i ∉ u.arrival) : Youngest u (u.take i x) i :=
  ⟨h, rfl, fun j hj => by simp only [Urt.take, Vector.get_set_fin, if_neg (Ne.symm hj)]⟩

theorem Urt.take_self (u : Urt) (i : SlotIx) (x : Slot) : (u.take i x).slots[i] = some x := by
  simp only [Urt.take, Vector.get_set_fin, if_pos]

/-- A slot found free is not in the arrival list. -/
theorem State.lowestFree_new {s : State} {i : SlotIx} (ha : s.arrivalLaw) (h : s.urt.lowestFree = some i) :
    i ∉ s.urt.arrival := by
  intro hc
  have h1 := List.find?_some h
  have h2 := (ha.2 i).1 hc
  generalize s.urt.slots[i] = x at *
  cases x <;> simp_all

/-! ### Settledness with a new youngest slot -/

theorem Youngest.orderSettled {s t : State} {i : SlotIx} (h : Youngest s.urt t.urt i) (hs : s.orderSettled)
    (hi : t.urt.releasable i = false) : t.orderSettled := by
  intro j hj
  rw [h.arrival] at hj
  rcases List.mem_append.1 hj with hj | hj
  · rw [h.releasable hj]; exact hs j hj
  · rw [List.mem_singleton.1 hj]; exact hi

theorem Youngest.fencesSettled {s t : State} {i : SlotIx} (h : Youngest s.urt t.urt i) (hs : s.fencesSettled)
    (hq : ∀ j ∈ s.urt.arrival, s.pq.lists j = true → t.pq.lists j = true) (hi : t.fenceReady i = false) :
    t.fencesSettled := by
  intro j hj
  rw [h.arrival] at hj
  rcases List.mem_append.1 hj with hj | hj
  · have := hs j hj
    unfold State.fenceReady at *
    rw [h.has hj, h.olderWrites hj]
    cases hl : s.pq.lists j
    · rw [hl] at this
      simp only [Bool.not_false, Bool.and_true] at this
      simp only [this, Bool.false_and]
    · simp [hq j hj hl]
  · rw [List.mem_singleton.1 hj]; exact hi

theorem Youngest.drainHolds {u : Urt} {t : State} {i : SlotIx} (h : Youngest u t.urt i) : t.drainHolds := by
  intro _
  unfold State.pathEmpty
  rw [h.arrival]
  have : (u.arrival ++ [i]).isEmpty = false := by cases u.arrival <;> rfl
  rw [this]; rfl

theorem Youngest.waitsSettled {s t : State} {i : SlotIx} (h : Youngest s.urt t.urt i) (hs : s.waitsSettled)
    (hq : ∀ d, s.pq.holdsBack d = true → t.pq.holdsBack d = true) (hi : t.drainWaitOver i = false) : t.waitsSettled := by
  intro j hj
  rw [h.arrival] at hj
  rcases List.mem_append.1 hj with hj | hj
  · have := hs j hj
    unfold State.drainWaitOver at *
    rw [h.others j (h.ne hj)]
    cases hx : s.urt.slots[j] with
    | none => rfl
    | some x =>
      rw [hx] at this
      simp only at *
      cases hd : x.decode with
      | none => rfl
      | some d =>
        rw [hd] at this
        simp only at *
        rcases Bool.eq_false_or_eq_true (s.pq.holdsBack d) with hb | hb
        · simp [hq d hb]
        · rw [hb] at this; simp only [Bool.not_false, Bool.and_true] at this; simp only [this, Bool.false_and]
  · rw [List.mem_singleton.1 hj]; exact hi

/-- R98 reads only which lines the buffer holds. -/
theorem State.streamsSettled_congr {s t : State} (h : s.streamsSettled) (hs : t.stt = s.stt) (hr : t.rdec = s.rdec)
    (hb : ∀ l, (t.rab.find l).isSome = true → (s.rab.find l).isSome = true) : t.streamsSettled := by
  intro k
  have := h k
  rw [hs, hr]
  rw [Bool.and_eq_false_iff] at *
  rcases this with h1 | h1
  · exact .inl h1
  · refine .inr ?_
    by_contra hc
    rw [Bool.not_eq_false] at hc
    rw [hb _ hc] at h1
    exact absurd h1 (by simp)

/-- A settled part with one more, youngest, slot that is neither releasable nor a ready fence is settled. -/
theorem State.Settled.insert {s t : State} {i : SlotIx} (h : s.Settled) (hy : Youngest s.urt t.urt i)
    (hi : t.urt.releasable i = false) (hf : t.fenceReady i = false)
    (hq : ∀ j ∈ s.urt.arrival, s.pq.lists j = true → t.pq.lists j = true) (hs : t.stt = s.stt) (hr : t.rdec = s.rdec)
    (hb : ∀ l, (t.rab.find l).isSome = true → (s.rab.find l).isSome = true)
    (hw : ∀ d, s.pq.holdsBack d = true → t.pq.holdsBack d = true) (hd : t.drainWaitOver i = false)
    (hm : t.pq.room = false) : t.Settled :=
  ⟨hy.orderSettled h.order hi, hy.fencesSettled h.fences hq hf, State.streamsSettled_congr h.streams hs hr hb,
    hy.drainHolds, hy.waitsSettled h.waits hw hd, hm⟩

/-! ### Releases that end after one slot -/

theorem State.releaseUpTo_still {s : State} (h : s.orderSettled) (n : Nat) : State.releaseUpTo n s = s := by
  cases n with
  | zero => rfl
  | succ n =>
    unfold State.releaseUpTo
    have : (s.urt.arrival.find? fun i => s.urt.releasable i) = none :=
      List.find?_eq_none.2 fun i hi => by rw [h i hi]; simp
    rw [this]

/-- Only the youngest slot is releasable, and its first step releases no other. -/
theorem State.releaseSlots_youngest {s t : State} {i : SlotIx} (hy : Youngest s.urt t.urt i) (hs : s.orderSettled)
    (hi : t.urt.releasable i = true) (h : (t.serveFirst i).orderSettled) : t.releaseSlots = t.serveFirst i := by
  unfold State.releaseSlots
  have hf : (t.urt.arrival.find? fun j => t.urt.releasable j) = some i := by
    rw [hy.arrival, List.find?_append, List.find?_eq_none.2 fun j hj => by rw [hy.releasable hj, hs j hj]; simp]
    simp [hi]
  rw [State.releaseUpTo, hf]
  exact State.releaseUpTo_still h 7

/-! ### What the end of an event leaves alone -/

theorem State.releaseUpTo_slot (n : Nat) (s : State) (i : SlotIx) (x : Slot) (hx : s.urt.slots[i] = some x)
    (h : x.state ≠ .orderWait) : (State.releaseUpTo n s).urt.slots[i] = some x := by
  induction n generalizing s with
  | zero => exact hx
  | succ n ih =>
    cases hj : s.urt.arrival.find? fun i => s.urt.releasable i with
    | none =>
      have e : State.releaseUpTo (n + 1) s = s := by unfold State.releaseUpTo; rw [hj]
      rw [e]; exact hx
    | some j =>
      have e : State.releaseUpTo (n + 1) s = State.releaseUpTo n (s.serveFirst j) := by
        rw [State.releaseUpTo, hj]
      rw [e]
      have hr : s.urt.releasable j = true := List.find?_some hj
      obtain ⟨y, _, hy, _, ho, _⟩ := Urt.releasable_some hr
      have hne : i ≠ j := by
        intro e; subst e
        rw [hx] at hy; injection hy with hy; exact h (hy ▸ ho)
      exact ih _ (((s.serveFirst_served j hr).1 i hne).trans hx)

theorem State.testFence_slot (s : State) (i j : SlotIx) (x : Slot) (hx : s.urt.slots[i] = some x)
    (h : x.state ≠ .fenceWait) : (s.testFence j).urt.slots[i] = some x := by
  unfold State.testFence
  split
  · rename_i hr
    obtain ⟨y, hy, _, hs⟩ := State.fenceReady_slot hr
    have hne : i ≠ j := by
      intro e; subst e
      rw [hx] at hy; injection hy with hy; exact h (hy ▸ hs)
    obtain ⟨st, hu⟩ := s.completeFence_slots j y hy
    exact (congrArg (fun u : Urt => u.slots[i]) hu).trans ((Urt.update_other _ _ _ _ hne).trans hx)
  · exact hx

/-- A slot outside ORDER_WAIT and FENCE_WAIT stands through the end of an event. -/
theorem State.settle_slot (s : State) (i : SlotIx) (x : Slot) (hx : s.urt.slots[i] = some x) (h1 : x.state ≠ .orderWait)
    (h2 : x.state ≠ .fenceWait) : s.settle.urt.slots[i] = some x := by
  have hf : ∀ (l : List SlotIx) (s : State), s.urt.slots[i] = some x → (l.foldl State.testFence s).urt.slots[i] = some x := by
    intro l
    induction l with
    | nil => exact fun _ h => h
    | cons a l ih => exact fun s h => ih _ (s.testFence_slot i a x h h2)
  unfold State.settle
  rw [State.moveStreams_urt]
  exact hf _ _ (s.releaseUpTo_slot 8 i x hx h1)

/-- With no slot in ORDER_WAIT the releases find nothing. -/
theorem State.releaseSlots_idle {s : State} (h : ∀ j : SlotIx, s.urt.slotHas j (fun y => y.state == .orderWait) = false) :
    s.releaseSlots = s := by
  refine State.releaseSlots_still fun i _ => ?_
  have := h i
  unfold Urt.slotHas at this
  unfold Urt.releasable
  cases hx : s.urt.slots[i] with
  | none => rfl
  | some x =>
    rw [hx] at this
    simp only at *
    cases x.decode with
    | none => rfl
    | some d => simp only [this, Bool.false_and]

/-- The fence tests reach slots and source flags only. -/
theorem State.testFences_blocks (s : State) : s.testFences.pq = s.pq ∧ s.testFences.rab = s.rab ∧ s.testFences.stt = s.stt := by
  have hc : ∀ (s : State) (i : SlotIx), (s.testFence i).pq = s.pq ∧ (s.testFence i).rab = s.rab ∧ (s.testFence i).stt = s.stt := by
    intro s i
    unfold State.testFence
    split
    · unfold State.completeFence
      split
      · exact ⟨rfl, rfl, rfl⟩
      · split <;> exact ⟨rfl, rfl, rfl⟩
    · exact ⟨rfl, rfl, rfl⟩
  have key : ∀ (l : List SlotIx) (s : State), (l.foldl State.testFence s).pq = s.pq ∧
      (l.foldl State.testFence s).rab = s.rab ∧ (l.foldl State.testFence s).stt = s.stt := by
    intro l
    induction l with
    | nil => exact fun _ => ⟨rfl, rfl, rfl⟩
    | cons a l ih =>
      intro s
      obtain ⟨h1, h2, h3⟩ := ih (s.testFence a)
      obtain ⟨k1, k2, k3⟩ := hc s a
      exact ⟨h1.trans k1, h2.trans k2, h3.trans k3⟩
  exact key _ s
end Sys2Proof.Machine
end

