-- ==== Sys2Proof/Laws/Port.lean ====
section
/-! SUPPORT. The Management Port's shift: bytes and words cross it unchanged, a whole request takes its frame once, and bits outside REQUEST and REPLY change nothing. -/

namespace Sys2Proof.Machine

/-! ### Bytes, words and numbers on the serial port -/

theorem byteOfBits_bits (b : Byte) : byteOfBits (bitsHighFirst b) = b := by
  refine BitVec.eq_of_getLsbD_eq fun i hi => ?_
  interval_cases i <;>
    simp [byteOfBits, bitsHighFirst]

theorem packFields_four (a b c d p q r t : Nat) : packFields [(a, p), (b, q), (c, r), (d, t)] =
    BitVec.ofNat 32 (a * 2 ^ p + (b * 2 ^ q + (c * 2 ^ r + d * 2 ^ t))) := by simp [packFields]

theorem byteAt_toNat (w : Word) (k : Nat) : (w.extractLsb' k 8).toNat = w.toNat / 2 ^ k % 2 ^ 8 := by
  rw [BitVec.extractLsb'_toNat, Nat.shiftRight_eq_div_pow]

theorem wordOfBytes_highFirst (w : Word) :
    wordOfBytes (w.extractLsb' 0 8) (w.extractLsb' 8 8) (w.extractLsb' 16 8) (w.extractLsb' 24 8) = w := by
  unfold wordOfBytes
  rw [packFields_four, byteAt_toNat, byteAt_toNat, byteAt_toNat, byteAt_toNat]
  apply BitVec.eq_of_toNat_eq
  have := w.isLt
  rw [BitVec.toNat_ofNat]
  omega

theorem numberOfBytes_bytes (n : BitVec 16) : numberOfBytes (n.extractLsb' 8 8) (n.extractLsb' 0 8) = n := by
  apply BitVec.eq_of_toNat_eq
  have := n.isLt
  simp only [numberOfBytes, BitVec.extractLsb'_toNat, BitVec.toNat_ofNat, Nat.shiftRight_eq_div_pow]
  omega

theorem wordsHighFirst_bytes (ws : List Word) : wordsHighFirst (ws.flatMap bytesHighFirst) = ws := by
  induction ws with
  | nil => rfl
  | cons w ws ih =>
    rw [List.flatMap_cons]
    simp only [bytesHighFirst, List.cons_append, List.nil_append, wordsHighFirst, wordOfBytes_highFirst]
    exact congrArg _ ih

theorem bytesHighFirst_length (ws : List Word) : (ws.flatMap bytesHighFirst).length = 4 * ws.length := by
  induction ws with
  | nil => rfl
  | cons w ws ih => rw [List.flatMap_cons, List.length_append, ih, List.length_cons]; simp only [bytesHighFirst, List.length_cons, List.length_nil]; omega

/-! ### Which bytes are a whole request (R173) -/

theorem frameOfBytes_command (n : BitVec 16) (arg : Word) : frameOfBytes (commandBytes n arg) = some (.command n arg) := by
  show some (Frame.command _ _) = _
  rw [numberOfBytes_bytes, wordOfBytes_highFirst]

theorem frameOfBytes_write (n : BitVec 16) (o : PortObject) (ws : List Word) (ho : objectOf n = some o)
    (hw : ws.length = o.wordCount) : frameOfBytes (writeBytes n ws) = some (.write o ws) := by
  simp only [frameOfBytes, writeBytes, numberBytes, List.cons_append, List.nil_append, numberOfBytes_bytes, ho,
    bytesHighFirst_length, hw, wordsHighFirst_bytes, if_true, BitVec.toNat_ofNat]

theorem frameOfBytes_writeUnknown (n : BitVec 16) (ho : objectOf n = none) :
    frameOfBytes (headBytes 0x02#8 n) = some .writeUnknown := by
  simp [frameOfBytes, headBytes, numberBytes, numberOfBytes_bytes, ho]

theorem frameOfBytes_read (n : BitVec 16) : frameOfBytes (headBytes 0x01#8 n) = some (.read n) := by
  simp [frameOfBytes, headBytes, numberBytes, numberOfBytes_bytes]

theorem frameOfBytes_unknownOpcode (op : BitVec 8) (n : BitVec 16) (h : op.toNat = 0 ∨ 3 < op.toNat) :
    frameOfBytes (headBytes op n) = some .unknownOpcode := by
  simp only [frameOfBytes, headBytes, numberBytes]
  split <;> first | omega | rfl

/-- Fewer bytes than a request has are no request. -/
theorem frameOfBytes_short (op hi lo : Byte) (rest : List Byte)
    (h : match op.toNat with
      | 2 => ∃ o, objectOf (numberOfBytes hi lo) = some o ∧ rest.length < 4 * o.wordCount
      | 3 => rest.length < 4
      | _ => False) : frameOfBytes (op :: hi :: lo :: rest) = none := by
  unfold frameOfBytes
  split at h
  · rename_i e
    obtain ⟨o, ho, hl⟩ := h
    simp only [e, ho, if_neg (Nat.ne_of_lt hl)]
  · rename_i e
    simp only [e]
    match rest, h with
    | [], _ => rfl
    | [_], _ => rfl
    | [_, _], _ => rfl
    | [_, _, _], _ => rfl
    | _ :: _ :: _ :: _ :: _, h => simp at h; omega
  · exact h.elim

/-- A whole request has no whole request before it. -/
theorem frameOfBytes_prefix {p q : List Byte} {f : Frame} (h : frameOfBytes (p ++ q) = some f) (hq : q ≠ []) :
    frameOfBytes p = none := by
  match p with
  | [] => rfl
  | [_] => rfl
  | [_, _] => rfl
  | op :: hi :: lo :: rest =>
    have hl : 0 < q.length := List.length_pos_iff.2 hq
    simp only [List.cons_append, frameOfBytes] at h ⊢
    split at h
    · split at h
      · rename_i e; rw [List.append_eq_nil_iff] at e; exact absurd e.2 hq
      · exact absurd h (by simp)
    · split at h
      · split at h
        · rename_i e; rw [List.length_append] at e; rw [if_neg (by omega)]
        · exact absurd h (by simp)
      · split at h
        · rename_i e; rw [List.append_eq_nil_iff] at e; exact absurd e.2 hq
        · exact absurd h (by simp)
    · split at h
      · rename_i e
        have := congrArg List.length e
        rw [List.length_append] at this
        simp only [List.length_cons, List.length_nil] at this
        split
        · simp only [List.length_cons, List.length_nil] at this; omega
        · rfl
      · exact absurd h (by simp)
    · split at h
      · rename_i e; rw [List.append_eq_nil_iff] at e; exact absurd e.2 hq
      · exact absurd h (by simp)

/-! ### The shift (R172, R174) -/

/-- `s` with `n` more filler bits gone out on MSO. -/
def State.filler (s : State) (n : Nat) : State := s.withOut (s.out ++ List.replicate n (.mso true))

theorem State.filler_filler (s : State) (m n : Nat) : (s.filler m).filler n = s.filler (m + n) := by
  simp only [State.filler, State.withOut, List.append_assoc, List.replicate_append_replicate]

theorem State.emit_filler (s : State) : s.emit (.mso true) = s.filler 1 := rfl

theorem State.clockBit_request {s : State} {bytes : List Byte} {bits : List Bool} (hp : s.pins.mssn = false)
    (hr : s.pins.resetn = true) (hx : s.rx = .request bytes bits) (msi : Bool) :
    s.clockBit msi = (s.filler 1).takeBit bytes bits msi := by
  have h1 : s.mso = some true := by unfold State.mso; rw [hp, hx]; rfl
  unfold State.clockBit
  rw [h1]
  show (s.filler 1).sampleBit msi = _
  have h2 : (s.filler 1).rx = .request bytes bits := hx
  have h3 : (s.filler 1).pins.resetn = true := hr
  unfold State.sampleBit
  rw [h2]
  simp only [h3, if_true]

/-- Bits that do not end a byte. -/
theorem State.clockBits_request {s : State} {bytes : List Byte} {bits : List Bool} (hp : s.pins.mssn = false)
    (hr : s.pins.resetn = true) (hx : s.rx = .request bytes bits) (more : List Bool)
    (h : bits.length + more.length < 8) :
    more.foldl State.clockBit s = (s.filler more.length).withRx (.request bytes (bits ++ more)) := by
  induction more generalizing s bits with
  | nil =>
    rw [List.foldl_nil, List.append_nil, ← hx]
    simp [State.filler, State.withOut, State.withRx]
  | cons b more ih =>
    rw [List.length_cons] at h
    rw [List.foldl_cons, State.clockBit_request hp hr hx]
    unfold State.takeBit
    rw [if_pos (by omega), ih (s := (s.filler 1).withRx (.request bytes (bits ++ [b]))) hp hr rfl (by simp; omega)]
    simp only [State.filler, State.withOut, State.withRx, List.append_assoc, List.cons_append, List.nil_append,
      List.length_cons, List.replicate_succ, List.replicate_zero]

theorem bitsHighFirst_split (b : Byte) : ∃ bits last, bitsHighFirst b = bits ++ [last] ∧ bits.length = 7 :=
  ⟨[b.getLsbD 7, b.getLsbD 6, b.getLsbD 5, b.getLsbD 4, b.getLsbD 3, b.getLsbD 2, b.getLsbD 1], b.getLsbD 0, rfl, rfl⟩

/-- Eight periods in REQUEST take one byte. -/
theorem State.clockByte_request {s : State} {bytes : List Byte} (hp : s.pins.mssn = false) (hr : s.pins.resetn = true)
    (hx : s.rx = .request bytes []) (b : Byte) :
    ∃ bits, s.clockByte b = ((s.filler 8).withRx (.request bytes bits)).takeBytes (bytes ++ [b]) := by
  obtain ⟨bits, last, hb, hl⟩ := bitsHighFirst_split b
  refine ⟨bits, ?_⟩
  unfold State.clockByte
  rw [hb, List.foldl_append, State.clockBits_request hp hr hx bits (by simp [hl]), List.nil_append, List.foldl_cons,
    List.foldl_nil,
    State.clockBit_request (s := (s.filler bits.length).withRx (.request bytes bits)) (bytes := bytes) (bits := bits) hp hr
      rfl, State.takeBit, if_neg (by omega), ← hb, byteOfBits_bits, hl, show (8 : Nat) = 7 + 1 from rfl,
    ← State.filler_filler]
  rfl

theorem State.takeBytes_none {s : State} {bytes : List Byte} (h : frameOfBytes bytes = none) :
    s.takeBytes bytes = s.withRx (.request bytes []) := by unfold State.takeBytes; rw [h]

theorem State.takeBytes_some {s : State} {bytes : List Byte} {f : Frame} (h : frameOfBytes bytes = some f) :
    s.takeBytes bytes = s.takeFrame f := by unfold State.takeBytes; rw [h]

/-- Bytes that do not end the request are held. -/
theorem State.clockBytes_request {s : State} {bytes : List Byte} (hp : s.pins.mssn = false) (hr : s.pins.resetn = true)
    (hx : s.rx = .request bytes []) (more : List Byte)
    (h : ∀ p q, more = p ++ q → p ≠ [] → frameOfBytes (bytes ++ p) = none) :
    s.clockBytes more = (s.filler (8 * more.length)).withRx (.request (bytes ++ more) []) := by
  induction more generalizing s bytes with
  | nil =>
    simp only [State.clockBytes, List.foldl_nil, List.append_nil, ← hx]
    simp [State.filler, State.withOut, State.withRx]
  | cons b more ih =>
    obtain ⟨bits, hb⟩ := State.clockByte_request hp hr hx b
    unfold State.clockBytes at *
    rw [List.foldl_cons, hb, State.takeBytes_none (h [b] more rfl (by simp)),
      ih (s := ((s.filler 8).withRx (.request bytes bits)).withRx (.request (bytes ++ [b]) [])) hp hr rfl fun p q e _ => by
        rw [List.append_assoc]; exact h (b :: p) q (by rw [e]; rfl) (by simp)]
    simp only [State.filler, State.withOut, State.withRx, List.append_assoc, List.cons_append, List.nil_append,
      List.length_cons, List.replicate_append_replicate]
    congr 3
    omega

/-- The bytes of a whole request, clocked in from the start of a frame, take the frame (R173, R174). -/
theorem State.clockBytes_frame {s : State} {bytes : List Byte} {f : Frame} (hp : s.pins.mssn = false)
    (hr : s.pins.resetn = true) (hx : s.rx = .request [] []) (hf : frameOfBytes bytes = some f) :
    ∃ before bits, s.clockBytes bytes = ((s.filler (8 * bytes.length)).withRx (.request before bits)).takeFrame f := by
  rcases List.eq_nil_or_concat bytes with e | ⟨init, b, e⟩
  · rw [e] at hf; exact absurd hf (by simp [frameOfBytes])
  · subst e
    have h1 := State.clockBytes_request hp hr hx init fun p q e _ => by
      rw [List.nil_append]; subst e
      exact frameOfBytes_prefix (q := q ++ [b]) (f := f) (by simpa using hf) (by simp)
    obtain ⟨bits, hb⟩ := State.clockByte_request (s := (s.filler (8 * init.length)).withRx (.request ([] ++ init) []))
      hp hr rfl b
    refine ⟨init, bits, ?_⟩
    unfold State.clockBytes at *
    rw [List.concat_eq_append, List.foldl_append, h1, List.foldl_cons, List.foldl_nil, hb, List.nil_append,
      State.takeBytes_some (by simpa using hf)]
    simp only [State.filler, State.withOut, State.withRx, List.append_assoc, List.length_append, List.length_cons,
      List.length_nil, List.replicate_append_replicate]
    rfl

/-- Bits that nobody takes: in TRAIL, and in IDLE while MSSn is low, MSO shows FFh and nothing else happens. -/
theorem State.clockBytes_untaken {s : State} (hp : s.pins.mssn = false) (hx : s.rx = .trail ∨ s.rx = .idle) (bytes : List Byte) :
    s.clockBytes bytes = s.filler (8 * bytes.length) := by
  have hbit : ∀ (s : State) (msi : Bool), s.pins.mssn = false → s.rx = .trail ∨ s.rx = .idle → s.clockBit msi = s.filler 1 := by
    intro s msi hp hx
    have h1 : s.mso = some true := by unfold State.mso; rw [hp]; rcases hx with hx | hx <;> rw [hx] <;> rfl
    unfold State.clockBit
    rw [h1]
    show (s.filler 1).sampleBit msi = _
    have h2 : (s.filler 1).rx = s.rx := rfl
    unfold State.sampleBit
    rw [h2]
    rcases hx with hx | hx <;> rw [hx]
  have hbits : ∀ (l : List Bool) (s : State), s.pins.mssn = false → s.rx = .trail ∨ s.rx = .idle →
      l.foldl State.clockBit s = s.filler l.length := by
    intro l
    induction l with
    | nil => intro s _ _; simp [State.filler, State.withOut]
    | cons a l ih =>
      intro s hp hx
      rw [List.foldl_cons, hbit s a hp hx, ih (s.filler 1) hp hx, State.filler_filler, List.length_cons, Nat.add_comm]
  induction bytes generalizing s with
  | nil => simp [State.clockBytes, State.filler, State.withOut]
  | cons b bytes ih =>
    have h8 : s.clockByte b = s.filler 8 := hbits (bitsHighFirst b) s hp hx
    have h := ih (s := s.filler 8) hp hx
    unfold State.clockBytes at *
    rw [List.foldl_cons, h8, h, State.filler_filler, List.length_cons]
    congr 1
    omega

/-- While MSSn is high the port does not run (R172). -/
theorem State.clockBytes_deselected {s : State} (hp : s.pins.mssn = true) (bytes : List Byte) : s.clockBytes bytes = s := by
  have hbit : ∀ msi, s.clockBit msi = s := fun msi => by unfold State.clockBit State.mso; rw [if_pos hp]
  have hbyte : ∀ b, s.clockByte b = s := fun b => by
    unfold State.clockByte bitsHighFirst; simp only [List.foldl_cons, List.foldl_nil, hbit]
  induction bytes with
  | nil => rfl
  | cons b bytes ih => unfold State.clockBytes at *; rw [List.foldl_cons, hbyte, ih]

/-- The bytes of a whole request after the start of a frame: FFh goes out, and the frame is taken once (R172, R173, R174). -/
theorem State.clockBytes_start {s : State} {bytes : List Byte} {f : Frame} (h : s.frameStart)
    (hf : frameOfBytes bytes = some f) :
    ∃ before bits, s.quiet.clockBytes bytes =
      ((s.withOut (fillerOut bytes.length)).withRx (.request before bits)).takeFrame f := by
  obtain ⟨before, bits, e⟩ := State.clockBytes_frame (s := s.quiet) h.2.1 h.1 h.2.2 hf
  exact ⟨before, bits, e.trans (congrArg (fun l => ((s.withOut l).withRx (.request before bits)).takeFrame f)
    (List.nil_append _))⟩

/-- The bytes of a part of a request after the start of a frame are held (R174). -/
theorem State.clockBytes_part {s : State} {bytes : List Byte} (h : s.frameStart)
    (hf : ∀ p q, bytes = p ++ q → p ≠ [] → frameOfBytes p = none) :
    s.quiet.clockBytes bytes = (s.withOut (fillerOut bytes.length)).withRx (.request bytes []) := by
  have e := State.clockBytes_request (s := s.quiet) h.2.1 h.1 h.2.2 bytes hf
  exact e.trans (congrArg (fun l => (s.withOut l).withRx (.request bytes [])) (List.nil_append _))

/-! ### The reply (R174, R175) -/

/-- Every picture has the word count of its object (section 11.7.5). -/
theorem State.objectWords_length (s : State) (o : PortObject) : (s.objectWords o).length = o.wordCount := by
  cases o with
  | logHead => unfold State.objectWords State.logHeadWords; dsimp only; split <;> rfl
  | fault i => unfold State.objectWords State.faultWords; dsimp only; split <;> rfl
  | ident => rfl
  | globals => rfl
  | status => rfl
  | dflt => rfl
  | region g => rfl

/-- One MSCK period in REPLY: the bit whose turn it is goes out, and the reply is one bit shorter. -/
theorem State.clockBit_reply {s : State} {r : Reply} (hp : s.pins.mssn = false) (hx : s.rx = .reply r) (msi : Bool) :
    s.clockBit msi = (s.emit (.mso r.level)).shiftReply r := by
  have h1 : s.mso = some r.level := by unfold State.mso; rw [hp, hx]; rfl
  have h2 : (s.emit (.mso r.level)).rx = .reply r := hx
  unfold State.clockBit
  rw [h1]
  unfold State.sampleBit
  simp only [h2]

end Sys2Proof.Machine
end

