-- ==== Sys2Proof/Tests/Slice0.lean ====
section
/-! SUPPORT. Tests of the model: ill-formed operands the check refuses, and single steps whose expected results are read from the spec's examples and rules. -/

namespace Sys2Proof.Tests

open Sys2Proof.Machine

/-! ### Helpers -/

/-- A field of the next state. -/
def after {α : Type} (o : Host.Outcome State Fault Refusal) (f : State → α) : Option α :=
  match o with
  | .next s => some (f s)
  | .fault _ => none
  | .refused _ => none

def noWords : Vector Word 8 := Vector.replicate 8 0#32

/-- A REQ header (R182). -/
def reqHeader (kind source itag count : Nat) : Word := packFields [(kind, 0), (source, 4), (itag, 8), (count, 16)]

/-- An MCPL header: FAIL flag, DATA flag, TAG (R183). -/
def mcplHeader (fail data tag : Nat) : Word := packFields [(tag, 0), (data, 30), (fail, 31)]

/-- The part out of reset with the link up and the path RUN. -/
def up : State :=
  { State.reset with
    pins := { resetn := true, ilrstn := true, qreq := false, mssn := true }
    urt := { Urt.empty with granted := 8 } }

/-- A NORMAL region over the low 2 GiB with POST 1, MERGE 1, DEPTH 2. -/
def normalRegion : RegionEntry :=
  { RegionEntry.default with enable := true, sizeLog := 31, type := .normal, post := true, merge := true, depth := 2 }

def upNormal : State :=
  { up with rdec := { up.rdec with regions := up.rdec.regions.set 0 normalRegion } }

/-- The part at the start of a frame. -/
def inFrame (s : State) : State := { s with rx := .request [] [], pins := { s.pins with mssn := false } }

def lineFull (b : Byte) : LineData := Vector.replicate 32 b

/-- The decode result of a NORMAL, posting, merging write or read of line `l` at offset `o` in region 0. -/
def dec (l : LineAddr) (o : Nat) : DecodeResult :=
  { region := .num 0, type := .normal, post := true, merge := true, wprot := false, deadline := 16, depth := 2, line := l,
    offset := o }

def slotOf (k : ReqKind) (src : SourceNo) (count : Nat) (d : Option DecodeResult) (st : SlotState) : Slot :=
  { kind := k, source := src, itag := 0#8, addr := 0#32, count := count, data := lineFull 0xAA#8, decode := d, state := st,
    status := none, result := [], tag := none }

/-- `s` with one more slot at index `i`, the youngest. -/
def addSlot (s : State) (i : SlotIx) (x : Slot) : State :=
  { s with urt := { s.urt with
      slots := s.urt.slots.set i (some x), arrival := s.urt.arrival ++ [i], granted := s.urt.granted - 1 } }

def entryOf (l : LineAddr) (mask : ByteMask) (src : SourceSet) (st : EntryState) (t : Option TagIx) : Entry :=
  { line := l, region := .num 0, mask := mask, data := lineFull 0x11#8, sources := src, fences := 0#8, state := st,
    age := 0, deadline := 16, tag := t }

def withEntries (s : State) (es : List Entry) : State := { s with pq := { entries := es, room := false } }

def withTag (s : State) (t : TagIx) (x : Tag) : State := { s with mli := s.mli.set t x }

def tagOf (k : AccessKind) (l : LineAddr) (src : Option SourceNo) (o : Option Owner) (mask : ByteMask) : Tag :=
  { state := .outstanding, kind := k, line := l, region := .num 0, source := src, age := 0, owner := o, mask := mask }

def withLine (s : State) (r : LineIx) (x : RabLine) (recency : List LineIx) : State :=
  { s with rab := { lines := s.rab.lines.set r x, recency := recency } }

def validLine (l : LineAddr) (b : Byte) (o : Origin) : RabLine :=
  { RabLine.free with state := .valid, line := l, data := lineFull b, region := .num 0, origin := o }

/-! ### Well-formedness: one ill-formed term for each check -/

/-- R182: a RD carries no data words. -/
theorem test_wf_rd_with_data_refused :
    (Instr.req (reqHeader 1 0 0 8) 0#32 (noWords.set 0 1#32)).wellFormed = false := by decide
/-- R182: a WR of 4 bytes carries one data word. -/
theorem test_wf_wr_second_word_refused :
    (Instr.req (reqHeader 2 0 0 4) 0#32 (noWords.set 1 1#32)).wellFormed = false := by decide
/-- R182: a FENCE carries the header alone. -/
theorem test_wf_fence_with_addr_refused : (Instr.req (reqHeader 3 0 0 0) 4#32 noWords).wellFormed = false := by decide
theorem test_wf_wr_accepted : (Instr.req (reqHeader 2 0 0 4) 8#32 (noWords.set 0 1#32)).wellFormed = true := by decide
/-- R183: without the DATA flag no data words follow. -/
theorem test_wf_mcpl_refused : (Instr.mcpl (mcplHeader 0 0 3) (noWords.set 0 1#32)).wellFormed = false := by decide

/-- A global configuration frame with every word 0 but those given. -/
def frameOf (select memTimeout tickDiv : Word) : GlobalFrame :=
  { select := select, memTop := 0#32, tickDiv := tickDiv, tickHold := 0#32, memTimeout := memTimeout, streamIdle := 0#32,
    pqUrgentMark := 0#32, attnMask := 0#32 }

theorem test_wf_mem_top_refused : (Instr.memTopWrite (frameOf 0x7E#32 0#32 0#32)).wellFormed = false := by decide
theorem test_wf_tick_div_refused : (Instr.tickDivWrite (frameOf 0x7D#32 0#32 0#32)).wellFormed = false := by decide
theorem test_wf_tick_hold_refused : (Instr.tickHoldWrite (frameOf 0x7B#32 0#32 0#32)).wellFormed = false := by decide
theorem test_wf_mem_timeout_refused : (Instr.memTimeoutWrite (frameOf 0x77#32 0#32 0#32)).wellFormed = false := by decide
theorem test_wf_stream_idle_refused : (Instr.streamIdleWrite (frameOf 0x6F#32 0#32 0#32)).wellFormed = false := by decide
theorem test_wf_pq_mark_refused : (Instr.pqUrgentMarkWrite (frameOf 0x5F#32 0#32 0#32)).wellFormed = false := by decide
theorem test_wf_attn_mask_refused : (Instr.attnMaskWrite (frameOf 0x3F#32 0#32 0#32)).wellFormed = false := by decide
/-- The global configuration object has rows of its own. -/
theorem test_wf_write_refused : (Instr.write 0x0001#16 []).wellFormed = false := by decide
/-- R173: a WRITE to the status object carries six words. -/
theorem test_wf_write_short_refused : (Instr.write 0x0002#16 [0#32]).wellFormed = false := by decide
theorem test_wf_unknown_command_refused : (Instr.unknownCommand 0x0008#16 0#32).wellFormed = false := by decide
theorem test_wf_unknown_opcode_refused : (Instr.unknownOpcode 0x03#8 0#16).wellFormed = false := by decide

/-! ### Decode: the table of section 1.6 -/

def exampleRdec : Rdec :=
  { regions := ((Rdec.default.regions.set 0
      { RegionEntry.default with enable := true, base := 0x10800000#32, sizeLog := 20, wprot := true }).set 1
      { RegionEntry.default with
          enable := true, base := 0x10000000#32, sizeLog := 24, type := .normal, post := true, merge := true, depth := 2,
          remap := 0xF0000000#32 }).set 2
      { RegionEntry.default with
          enable := true, base := 0x20000000#32, sizeLog := 28, type := .ordered, post := true, remap := 0xF0000000#32 }
    dflt := DefaultRegion.default
    memTopField := 511 }

theorem test_decode_example_a :
    ((exampleRdec.result 0x10000040#32).region, (exampleRdec.result 0x10000040#32).line,
      exampleRdec.answer .rd 0x10000040#32) = (.num 1, 0x2#27, none) := by decide
theorem test_decode_example_b :
    ((exampleRdec.result 0x10800010#32).line, (exampleRdec.result 0x10800010#32).offset,
      exampleRdec.answer .wr 0x10800010#32) = (0x840000#27, 16, some .protect) := by decide
theorem test_decode_example_e :
    ((exampleRdec.result 0x40000000#32).region, exampleRdec.answer .rd 0x40000000#32) = (.dflt, some .range) := by decide
theorem test_decode_example_g :
    ((exampleRdec.result 0x10FFFFE0#32).region, (exampleRdec.result 0x10FFFFE0#32).line) = (.num 1, 0x7FFFF#27) := by
  decide

/-! ### Layouts (section 11.7) -/

/-- R175: the status picture at the first link-up: link up, GRANTED 8, 16 FREE tags. -/
theorem test_status_words_at_link_up :
    up.statusWords = [0x00000010#32, 0x00000080#32, 0#32, 0#32, 0x00000010#32, 0#32] := by decide
/-- R177: the global configuration object after device reset. -/
theorem test_global_words_at_reset :
    State.reset.globalWords = [0#32, 4095#32, 15#32, 0#32, 64#32, 32#32, 12#32, 0x09#32] := by decide
/-- R178: a region's control word after device reset: SIZE_LOG 12, DEADLINE 16. -/
theorem test_region_words_at_reset : RegionEntry.default.words = [0#32, 0#32, 0x100C0000#32] := by decide
/-- R180. -/
theorem test_ident_words : identWords = [0x24100B50#32, 0x00000101#32, 0x10101008#32, 0x10080408#32] := by decide
/-- R182: header 2 (WR), SOURCE 5, ITAG A5h, COUNT 33. -/
theorem test_req_header_fields :
    (reqKind 0x0021A552#32, reqSource 0x0021A552#32, reqItag 0x0021A552#32, reqCount 0x0021A552#32)
      = (.wr, 5, 0xA5#8, 33) := by decide

/-! ### Requests and responses -/

/-- R23: a REQ with GRANTED 0 is dropped and recorded with its SOURCE. -/
theorem test_req_overrun :
    after (execReq (reqHeader 1 5 0 4) 0#32 noWords { up with urt := Urt.empty })
      (fun t => (t.urt.arrival, t.elog.records.map fun r => (r.kind, r.sources)))
      = some ([], [(.creditOverrun, some 0x0020#16)]) := by decide

/-- Section 12.2 event 1: a posted write settles, patches line 6, creates an OPEN entry. -/
theorem test_req_posted_write :
    after (execReq (reqHeader 2 2 0 16) 0x12000#32 (Vector.replicate 8 0x11111111#32)
        (withLine upNormal 6 (validLine 0x900#27 0x5A#8 .demand) [6]))
      (fun t => (t.urt.granted, t.pq.entries.map fun e => (e.state, e.mask, e.sources),
        takeBytes 15 2 t.rab.lines[6].data))
      = some (7, [(.opened, 0xFFFF#32, 0x4#16)], [0x11#8, 0x5A#8]) := by decide

/-- R38, R22: the response of the oldest eligible slot leaves with CR 1; slot 1 of the same source waits. -/
theorem test_resp_oldest_of_source :
    after (execResp (addSlot (addSlot up 0 { slotOf .wr 2 4 none .done with status := some .ok }) 1
        { slotOf .wr 2 4 none .done with status := some .malformed }))
      (fun t => (t.urt.arrival, t.urt.granted, t.out))
      = some ([1], 7, [.resp { kind := .wrDone, source := 2, itag := 0#8, status := .ok, cr := true, data := [] }]) := by
  decide

/-- R27: a write in ORDER_WAIT without a blocker posts; the read behind it is then forwarded from its entry. -/
theorem test_order_release_forwards :
    after (execOrderRelease (addSlot (addSlot up 1 (slotOf .wr 2 8 (some (dec 0x40#27 0)) .orderWait)) 2
        (slotOf .rd 1 4 (some (dec 0x40#27 0)) .orderWait)))
      (fun t => (t.pq.entries.length, t.urt.slots[2].map fun x => (x.state, x.result)))
      = some (1, some (.done, [0xAA#8, 0xAA#8, 0xAA#8, 0xAA#8])) := by decide

/-- R50: the room of a removal lets the oldest POST_WAIT write create its entry. -/
theorem test_post_wait_retry :
    after (execPostWaitRetry { addSlot up 3 (slotOf .wr 2 8 (some (dec 0x40#27 0)) .postWait) with
        pq := { entries := [], room := true }
        urt := { (addSlot up 3 (slotOf .wr 2 8 (some (dec 0x40#27 0)) .postWait)).urt with postWait := [3] } })
      (fun t => (t.pq.entries.length, t.urt.postWait, t.pq.room)) = some (1, [], false) := by decide

/-- R28: a read in DRAIN_WAIT whose entries are gone passes the fault check and hits a VALID line. -/
theorem test_drain_wait_release :
    after (execDrainWaitRelease (withLine (addSlot up 0 (slotOf .rd 1 2 (some (dec 0x40#27 0)) .drainWait)) 5
        (validLine 0x40#27 0x44#8 .prefetch) [5]))
      (fun t => (t.urt.slots[0].map fun x => (x.state, x.result), t.rab.lines[5].origin))
      = some (some (.done, [0x44#8, 0x44#8]), .demand) := by decide

/-- R36: the older of two fences of one source takes the flag. -/
theorem test_fence_done_older_takes_flag :
    after (execFenceDone { addSlot (addSlot up 0 (slotOf .fence 7 0 none .fenceWait)) 1
        (slotOf .fence 7 0 none .fenceWait) with flt := { Flt.empty with flags := 0x80#16 } })
      (fun t => (t.urt.slots[0].bind Slot.status, t.urt.slots[1].bind Slot.status, t.flt.flags))
      = some (some .faulted, some .ok, 0#16) := by decide

/-! ### Resets -/

/-- R39: the allocating read is discarded, its unissued line is freed; the credits are 0. -/
theorem test_ilrstn_assert :
    after (execIlrstnAssert (withLine (addSlot up 0 (slotOf .rd 1 4 (some (dec 0x40#27 0)) .issueWait)) 0
        (RabLine.fresh 0x40#27 (.num 0) .demand [0] none) []))
      (fun t => (t.urt, t.rab.lines[0].state)) = some (Urt.empty, .free) := by decide
/-- R41: in DRAIN the 8 credits are withheld. -/
theorem test_ilrstn_deassert_in_drain :
    after (execIlrstnDeassert { up with
        pins := { up.pins with ilrstn := false }, urt := Urt.empty, pctl := { path := .drain, latch := true } })
      (fun t => (t.urt.granted, t.urt.withheld, t.out)) = some (0, 8, []) := by decide
/-- R154: a device reset empties the Post Queue and returns the path to RUN. -/
theorem test_resetn_assert :
    after (execResetnAssert { withEntries up [entryOf 1#27 1#32 1#16 .opened none] with
        pctl := { path := .drain, latch := true } })
      (fun t => (t.pq.entries, t.pctl.path, t.pctl.latch, t.mrstAsserted)) = some ([], .run, false, true) := by decide
/-- R154: with QREQ asserted and the link first, HALT with GRANTED 8. -/
theorem test_resetn_release_link_first :
    after (execResetnRelease .linkFirst { State.reset with pins := { State.reset.pins with qreq := true } })
      (fun t => (t.pctl.path, t.urt.granted, t.urt.withheld, t.out)) = some (.halt, 8, 0, [.credit 8]) := by decide
/-- R154: with the demand first, all 8 credits are withheld. -/
theorem test_resetn_release_demand_first :
    after (execResetnRelease .demandFirst { State.reset with pins := { State.reset.pins with qreq := true } })
      (fun t => (t.pctl.path, t.urt.granted, t.urt.withheld, t.out)) = some (.halt, 0, 8, []) := by decide

/-! ### Memory Link -/

/-- R110: without urgency a demand read goes before the drain candidate, on the lowest FREE tag. -/
theorem test_readiness_demand_first :
    after (execReadiness (addSlot (withEntries up [entryOf 0x50#27 0xF#32 1#16 .opened none]) 0
        (slotOf .rd 1 4 (some { dec 0x40#27 0 with type := .bypass }) .issueWait)))
      (fun t => (t.out, t.urt.slots[0].map fun x => (x.state, x.tag), t.mli[0].kind))
      = some ([.mreq (.lread 0 0x40#27)], some (.fillWait, some 0), .unbufferedRead) := by decide
/-- R57, R110: an aged candidate drains before the demand read. -/
theorem test_readiness_urgent_drain :
    after (execReadiness (addSlot (withEntries up [{ entryOf 0x50#27 0xF#32 1#16 .opened none with age := 16 }]) 0
        (slotOf .rd 1 4 (some { dec 0x40#27 0 with type := .bypass }) .issueWait)))
      (fun t => (t.pq.entries.map fun e => (e.state, e.tag), t.mli[0].kind))
      = some ([(.issued, some 0)], .drainWrite) := by decide
/-- The part in section 12.4, event 3: the drain of line B00h on tag 3 is about to fail. -/
def drainFails : State :=
  withLine (withTag (withEntries (addSlot (addSlot up 0 (slotOf .fence 7 0 none .fenceWait)) 1
      (slotOf .rd 4 8 (some (dec 0xB00#27 4)) .drainWait))
    [{ entryOf 0xB00#27 0xFF#32 0x80#16 .issued (some 3) with fences := 1#8 }]) 3
    (tagOf .drainWrite 0xB00#27 none (some .entry) 0xFF#32)) 2 (validLine 0xB00#27 0x11#8 .demand) [2]

/-- Section 12.4 event 3: a drain fails; the fence reports FAULTED, the read LINE_FAULT. -/
theorem test_mcpl_drain_fail_slots :
    after (execMcpl (mcplHeader 1 0 3) noWords drainFails)
      (fun t => (t.urt.slots[0].bind Slot.status, t.urt.slots[1].bind Slot.status))
      = some (some .faulted, some .lineFault) := by decide
/-- The same event: the flag is read and cleared, the line is freed, the record is tracked. -/
theorem test_mcpl_drain_fail_rest :
    after (execMcpl (mcplHeader 1 0 3) noWords drainFails)
      (fun t => (t.flt.flags, t.rab.lines[2].state, t.elog.records.map fun r => (r.kind, r.untracked)))
      = some (0#16, .free, [(.drainFail, some false)]) := by decide
/-- Section 12.3 event 3: memory data fills only the bytes outside PATCH. -/
theorem test_mcpl_fill_keeps_patch :
    after (execMcpl (mcplHeader 0 1 4) (Vector.replicate 8 0x44444444#32)
        (withTag (withLine up 5 { RabLine.fresh 0xA00#27 (.num 0) .prefetch [] (some 4) with
            patch := 0xF#32, data := placeBytes 0 4 (lineFull 0xAA#8) } []) 4
          (tagOf .prefetchRead 0xA00#27 none (some (.line 5)) 0#32)))
      (fun t => (t.rab.lines[5].state, t.rab.lines[5].origin, takeBytes 3 2 t.rab.lines[5].data, t.rab.recency))
      = some (.valid, .prefetch, [0xAA#8, 0x44#8], [5]) := by decide

/-! ### Time -/

/-- A direct write of line 610h OUTSTANDING with AGE 63, its slot gone. -/
def agedWrite (age : Nat) : State :=
  withTag up 9 { tagOf .directWrite 0x610#27 (some 3) none 0xFF#32 with age := age }

/-- R122, R158: at AGE 64 the tag is quarantined; the record carries the stamp the tick produced. -/
theorem test_tick_quarantines :
    after (execTick { queueFirst := true, streamsFirst := true } (agedWrite 63))
      (fun t => (t.mli[9].state, t.tgen.stamp, t.elog.records.map fun r => (r.kind, r.stamp)))
      = some (.quarantined, 1#16, [(.writeTimeout, 1#16)]) := by decide +kernel
/-- R157: no tick while TICK_HOLD is 1. -/
theorem test_tick_held :
    after (execTick { queueFirst := true, streamsFirst := true }
        { agedWrite 63 with cfg := { Settings.default with tickHold := true } })
      (fun t => (t.mli[9].state, t.tgen.stamp)) = some (.outstanding, 0#16) := by decide
theorem test_quarantine :
    after (execQuarantine (agedWrite 64)) (fun t => (t.mli[9].state, t.mli[9].line)) = some (.quarantined, 0x610#27) := by
  decide +kernel
/-- R95: an entry whose IDLE is at STREAM_IDLE is freed. -/
theorem test_idle_expiry :
    after (execIdleExpiry { up with stt := { Stt.empty with
        entries := Stt.empty.entries.set 1 { Stream.fresh 4 1 0x100#27 with idle := 32 } } })
      (fun t => t.stt) = some Stt.empty := by decide
/-- R58: the candidate at its deadline makes draining urgent, and nothing stored changes. -/
theorem test_deadline_reached :
    after (execDeadlineReached (withEntries up [{ entryOf 1#27 1#32 1#16 .opened none with age := 16 }]))
      (fun t => (t.urgent, t.pq.entries.map Entry.age)) = some (true, [16]) := by decide
/-- R155: a REFCLK period advances the prescaler. -/
theorem test_idle_refclk : after (step up) (fun t => (t.tgen.prescaler, t.tgen.stamp)) = some (1, 0#16) := by decide

/-! ### Quiesce -/

/-- R145: an empty path passes through DRAIN into HALT in the event of the rise. -/
theorem test_qreq_assert_empty_path :
    after (execQreqAssert (withLine up 0 (validLine 1#27 0#8 .demand) [0]))
      (fun t => (t.pctl.path, t.qack, t.rab)) = some (.halt, true, Rab.empty) := by decide
/-- Section 12.6 event 10: the withheld credit goes out, the HELD read allocates a line. -/
theorem test_qreq_deassert_from_halt :
    after (execQreqDeassert { addSlot upNormal 0 (slotOf .rd 3 8 none .held) with
        pins := { up.pins with qreq := true }, pctl := { path := .halt, latch := false }
        urt := { (addSlot upNormal 0 (slotOf .rd 3 8 none .held)).urt with granted := 6, withheld := 1 } })
      (fun t => (t.pctl.path, t.out, t.urt.granted, t.urt.slots[0].map Slot.state, t.rab.lines[0].state))
      = some (.run, [.credit 1], 7, some .issueWait, .filling) := by decide
theorem test_halt_entry :
    after (execHaltEntry { up with pctl := { path := .drain, latch := true } }) (fun t => t.pctl.path) = some .halt := by
  decide

/-! ### Management Port -/

theorem test_mssn_fall : after (execMssnFall up) (fun t => t.rx) = some (.request [] []) := by decide
/-- R174: a frame still in REQUEST has no effect. -/
theorem test_mssn_rise : after (execMssnRise (inFrame up)) (fun t => (t.rx, t.out)) = some (.idle, []) := by decide
/-- R144: QUIESCE while QREQ is asserted sets the latch and changes nothing else. -/
theorem test_quiesce_under_qreq :
    after (execQuiesce 0#32 { inFrame up with pins := { (inFrame up).pins with qreq := true }
                                              pctl := { path := .halt, latch := false } })
      (fun t => (t.pctl.path, t.pctl.latch, t.rx)) = some (.halt, true, Receiver.answering .ok) := by decide +kernel
/-- A frame that was never started has no effect (R174). -/
theorem test_quiesce_without_frame : after (execQuiesce 0#32 up) (fun t => (t.pctl, t.out)) = some (up.pctl, []) := by decide +kernel
/-- R144: RESUME while QREQ is asserted leaves demand standing. -/
theorem test_resume_under_qreq :
    after (execResume 0#32 { inFrame up with pins := { (inFrame up).pins with qreq := true }
                                             pctl := { path := .halt, latch := true } })
      (fun t => (t.pctl.path, t.pctl.latch)) = some (.halt, false) := by decide +kernel
/-- R84: VALID lines go, FILLING lines are marked DROP. -/
theorem test_invalidate_rab :
    after (execInvalidateRab 0#32 (withLine (withLine (inFrame up) 0 (validLine 1#27 0#8 .demand) [0]) 1
        (RabLine.fresh 2#27 (.num 0) .demand [] (some 0)) [0]))
      (fun t => (t.rab.lines[0].state, t.rab.lines[1].drop, t.rab.recency)) = some (.free, true, []) := by decide +kernel
/-- R166: POP_LOG of an empty log is REFUSED. -/
theorem test_pop_log_empty :
    after (execPopLog 0#32 (inFrame up)) (fun t => (t.elog, t.rx)) = some (Elog.empty, Receiver.answering .refused) := by decide +kernel
/-- R167: LOG_OVF is left as it stands. -/
theorem test_clear_log :
    after (execClearLog 0#32 { inFrame up with elog := { records := [strayRecord 0#16 2], dropped := 3, ovf := true } })
      (fun t => t.elog) = some { records := [], dropped := 0, ovf := true } := by decide +kernel
/-- Chapter 7 example, event 8: CLEAR_FAULT of a free index is REFUSED. -/
theorem test_clear_fault_free_index :
    after (execClearFault 2#32 (inFrame up)) (fun t => t.rx) = some (Receiver.answering .refused) := by decide +kernel
theorem test_clear_fault_all :
    after (execClearFault 0x100#32 { inFrame up with flt := Flt.empty.record 0x12#27 0xF0#32 .fail })
      (fun t => (t.flt, t.rx)) = some (Flt.empty, Receiver.answering .ok) := by decide +kernel
/-- Section 10.6 event 6: the quarantined tag is freed, RECLAIM carries COUNT 1. -/
theorem test_reclaim_tags :
    after (execReclaimTags 0#32 (withTag (inFrame up) 9 { tagOf .directWrite 0x610#27 (some 3) none 1#32 with
        state := .quarantined }))
      (fun t => (t.mli[9].state, t.elog.records.map fun r => (r.kind, r.count)))
      = some (.free, [(.reclaim, some 1)]) := by decide +kernel
theorem test_ack_flags :
    after (execAckFlags 0#32 { inFrame up with
        elog := { records := [], dropped := 1, ovf := true }, flt := { Flt.empty with ovf := true } })
      (fun t => (t.elog.ovf, t.elog.dropped, t.flt.ovf)) = some (false, 1, false) := by decide +kernel
/-- R3: MEM_TOP 511. -/
theorem test_mem_top_write :
    after (execMemTopWrite { frameOf 0x01#32 0#32 0#32 with memTop := 511#32 } (inFrame up))
      (fun t => (t.rdec.memTop, t.rx)) = some (0x20000000, Receiver.answering .ok) := by decide +kernel
/-- R156: the prescaler restarts at the write. -/
theorem test_tick_div_write :
    after (execTickDivWrite (frameOf 0x02#32 0#32 63#32) { inFrame up with tgen := { Tgen.default with prescaler := 600 } })
      (fun t => (t.cfg.tickDiv, t.tgen.prescaler)) = some (63, 0) := by decide +kernel
/-- R157: a write of 0 while TICK_HOLD is 0 does not restart the count. -/
theorem test_tick_hold_write_same :
    after (execTickHoldWrite (frameOf 0x04#32 0#32 0#32) { inFrame up with tgen := { Tgen.default with prescaler := 600 } })
      (fun t => t.tgen.prescaler) = some 600 := by decide +kernel
/-- Section 11.3 example: select 08h, MEM_TIMEOUT 200; the prescaler goes on from 700. -/
theorem test_mem_timeout_write :
    after (execMemTimeoutWrite (frameOf 0x08#32 200#32 0#32) { inFrame up with tgen := { Tgen.default with prescaler := 700 } })
      (fun t => (t.cfg.memTimeout, t.cfg.tickDiv, t.tgen.prescaler)) = some (200, 15, 700) := by decide +kernel
/-- Section 11.3 example: select 28h with PQ_URGENT_MARK 0 is refused whole. -/
theorem test_pq_urgent_mark_write_refused :
    after (execPqUrgentMarkWrite (frameOf 0x28#32 200#32 0#32) (inFrame up))
      (fun t => (t.cfg.memTimeout, t.rx)) = some (64, Receiver.answering .badValue) := by decide +kernel
theorem test_stream_idle_write_refused :
    after (execStreamIdleWrite (frameOf 0x10#32 0#32 0#32) (inFrame up))
      (fun t => (t.cfg.streamIdle, t.rx)) = some (32, Receiver.answering .badValue) := by decide +kernel
/-- R170: disabling the last enabled true cause deasserts ATTN at the write. -/
theorem test_attn_mask_write :
    after (execAttnMaskWrite (frameOf 0x40#32 0#32 0#32)
        { inFrame up with elog := { Elog.empty with records := [strayRecord 0#16 2] } })
      (fun t => (t.attn, t.cfg.attnMask)) = some (false, 0#6) := by decide +kernel
/-- R15: BYPASS with DEPTH 6 is refused. -/
theorem test_region_rewrite_refused :
    after (execRegionRewrite 1 0#32 0#32 0x100C0601#32 (inFrame up))
      (fun t => (t.rdec, t.rx)) = some (Rdec.default, Receiver.answering .badValue) := by decide +kernel
/-- R13: the notice frees the region's VALID line. -/
theorem test_region_rewrite_notice :
    after (execRegionRewrite 0 0#32 0#32 0x100C0000#32 (withLine (inFrame up) 3 (validLine 1#27 0#8 .demand) [3]))
      (fun t => (t.rab, t.rx)) = some (Rab.empty, Receiver.answering .ok) := by decide +kernel
theorem test_default_region_write :
    after (execDefaultRegionWrite 0x1000#32 0x10000002#32 (inFrame up))
      (fun t => (t.rdec.dflt.type, t.rdec.dflt.remap)) = some (.ordered, 0x1000#32) := by decide +kernel
/-- R173, R176: an unknown object is answered at byte 3. -/
theorem test_write_unknown_object :
    after (execWrite 0x0030#16 [] (inFrame up)) (fun t => t.rx) = some (Receiver.answering .badObject) := by decide +kernel
/-- R176: a read-only object takes its words and is REFUSED. -/
theorem test_write_read_only :
    after (execWrite 0x0003#16 [0#32, 0#32, 0#32] (inFrame up)) (fun t => t.rx) = some (Receiver.answering .refused) := by decide +kernel
theorem test_unknown_command :
    after (execUnknownCommand 0x0009#16 0#32 (inFrame up)) (fun t => t.rx) = some (Receiver.answering .badObject) := by decide +kernel
theorem test_unknown_opcode :
    after (execUnknownOpcode 0x04#8 0x0000#16 (inFrame up)) (fun t => t.rx) = some (Receiver.answering .refused) := by decide +kernel

/-- R172, R174: seven bytes of a COMMAND frame shift FFh out and end in REPLY. -/
theorem test_frame_shifts_filler : after (execPopLog 0#32 (inFrame up)) (fun t => t.out) = some (fillerOut 7) := by decide +kernel
/-- R173: a WRITE of an unknown object is answered at byte 3: its first word finds the status byte 01h on MSO, then FFh. -/
theorem test_status_byte_on_mso :
    after (execWrite 0x0030#16 [0#32] (inFrame up)) (fun t => (t.rx, (t.out.drop 24).take 9))
      = some (.trail, [.mso false, .mso false, .mso false, .mso false, .mso false, .mso false, .mso false, .mso true,
        .mso true]) := by decide +kernel
/-- R174: a request with a word still to come is held. -/
theorem test_request_in_progress :
    after (execWrite 0x0008#16 [0x01020304#32] (inFrame up)) (fun t => t.rx)
      = some (.request [2#8, 0#8, 8#8, 1#8, 2#8, 3#8, 4#8] []) := by decide +kernel
/-- The log head being read: its status byte has one bit left, and a record has come since the request. -/
def readingLog (clocked : Nat) (words : List Word) : State :=
  { inFrame up with
    elog := { Elog.empty with records := [strayRecord 0x1234#16 2] }
    rx := .reply { status := .ok, object := some .logHead, words := words, clocked := clocked } }
/-- R165, R175: the picture is taken when the first data word begins, so the record stands in it. -/
theorem test_picture_after_status :
    after (step (readingLog 7 [])) (fun t => (t.rx, t.out))
      = some (.reply { status := .ok, object := some .logHead, words := (strayRecord 0x1234#16 2).words, clocked := 8 },
        [.mso false]) := by decide +kernel
/-- R174, R175: the last bit of the last word; the picture has not moved; the receiver is in TRAIL. -/
theorem test_reply_ends :
    after (step (readingLog 103 [0#32, 0#32, 1#32])) (fun t => (t.rx, t.out)) = some (.trail, [.mso true]) := by decide +kernel

/-! ### Witnesses: states and operands that meet the hypotheses of each statement, clause by clause -/

/-- `State.Settled` as a check. -/
def settledB (s : State) : Bool :=
  s.urt.arrival.all (fun i => !s.urt.releasable i) && s.urt.arrival.all (fun i => !s.fenceReady i) &&
    (List.finRange 4).all (fun k =>
      !((s.stt.entries[k].reaches (s.rdec.depthReported s.stt.entries[k].region)
        (s.rdec.inRange s.stt.entries[k].region)) && (s.rab.find s.stt.entries[k].next).isSome)) &&
    (s.pctl.path != .drain || !s.pathEmpty) && s.urt.arrival.all (fun i => !s.drainWaitOver i) && !s.pq.room

theorem settled_of {s : State} (h : settledB s = true) : s.Settled := by
  simp only [settledB, Bool.and_eq_true, List.all_eq_true, Bool.not_eq_true', Bool.or_eq_true, bne_iff_ne, ne_eq] at h
  obtain ⟨⟨⟨⟨⟨h1, h2⟩, h3⟩, h4⟩, h5⟩, h6⟩ := h
  exact ⟨h1, h2, fun k => h3 k (List.mem_finRange k), fun h => h4.resolve_left (fun hn => hn h), h5, h6⟩

/-- `State.arrivalLaw` as a check. -/
def arrivalB (s : State) : Bool :=
  decide s.urt.arrival.Nodup && (List.finRange 8).all fun i => decide (i ∈ s.urt.arrival) == s.urt.slots[i].isSome

theorem arrival_of {s : State} (h : arrivalB s = true) : s.arrivalLaw := by
  simp only [arrivalB, Bool.and_eq_true, decide_eq_true_eq, List.all_eq_true, beq_iff_eq] at h
  refine ⟨h.1, fun i => ?_⟩
  rw [← h.2 i (List.mem_finRange i), decide_eq_true_iff]

/-- A command that completes answers some next state. -/
theorem next_of {o : Host.Outcome State Fault Refusal} (h : (after o fun _ => ()) = some ()) : ∃ t, o = .next t := by
  cases o with
  | next t => exact ⟨t, rfl⟩
  | fault f => cases h
  | refused r => cases h

/-- The hypotheses the statements about an arriving request share. -/
def Ready (s : State) (i : SlotIx) : Prop :=
  s.Settled ∧ s.arrivalLaw ∧ s.linkUp = true ∧ 0 < s.urt.granted ∧ s.urt.lowestFree = some i ∧ s.pctl.path ≠ .halt

def readyB (s : State) (i : SlotIx) : Bool :=
  settledB s && arrivalB s && s.linkUp && decide (0 < s.urt.granted) && s.urt.lowestFree == some i && s.pctl.path != .halt

theorem ready_of {s : State} {i : SlotIx} (h : readyB s i = true) : Ready s i := by
  simp only [readyB, Bool.and_eq_true, decide_eq_true_eq, beq_iff_eq, bne_iff_ne, ne_eq] at h
  obtain ⟨⟨⟨⟨⟨h1, h2⟩, h3⟩, h4⟩, h5⟩, h6⟩ := h
  exact ⟨settled_of h1, arrival_of h2, h3, h4, h5, h6⟩

/-- The slot of an arriving request at its first step. -/
def arriving (s : State) (header addr : Word) : Slot :=
  { slotOfReq header addr noWords .orderWait with decode := some (s.rdec.result addr) }

/-- The hypotheses of WriteFirstStep and ReadFirstStep before their clauses. -/
def FirstStep (k : ReqKind) (s : State) (header addr : Word) (i : SlotIx) : Prop :=
  Ready s i ∧ (arriving s header addr).kind = k ∧ (arriving s header addr).malformed = false ∧
    s.rdec.answer k addr = none ∧
    ∀ j ∈ s.urt.arrival, s.urt.slotHas j (fun o => o.blocks (arriving s header addr) (s.rdec.result addr)) = false

def firstStepB (k : ReqKind) (s : State) (header addr : Word) (i : SlotIx) : Bool :=
  readyB s i && decide ((arriving s header addr).kind = k) && !(arriving s header addr).malformed &&
    decide (s.rdec.answer k addr = none) &&
    s.urt.arrival.all fun j => !s.urt.slotHas j fun o => o.blocks (arriving s header addr) (s.rdec.result addr)

theorem firstStep_of {k s header addr i} (h : firstStepB k s header addr i = true) : FirstStep k s header addr i := by
  simp only [firstStepB, Bool.and_eq_true, decide_eq_true_eq, List.all_eq_true, Bool.not_eq_true'] at h
  obtain ⟨⟨⟨⟨h1, h2⟩, h3⟩, h4⟩, h5⟩ := h
  exact ⟨ready_of h1, h2, h3, h4, h5⟩

/-- The path in DRAIN under QREQ. -/
def draining (s : State) : State :=
  { s with pins := { s.pins with qreq := true }, pctl := { path := .drain, latch := false } }

/-- The path in HALT under QREQ, two credits withheld. -/
def halted : State :=
  { up with
    pins := { up.pins with qreq := true }, pctl := { path := .halt, latch := false }
    urt := { Urt.empty with granted := 6, withheld := 2 } }

/-- The same demand, held by the latch. -/
def latched (s : State) : State :=
  { s with pins := { s.pins with qreq := false }, pctl := { s.pctl with latch := true } }

def doneSlot : Slot := { slotOf .wr 2 4 none .done with status := some .ok }

/-- `n` entries of lines 1 to `n`. -/
def entriesUpTo (n : Nat) : List Entry := (List.range n).map fun k => entryOf (BitVec.ofNat 27 (k + 1)) 1#32 1#16 .sealed none

def wrFull : Word := reqHeader 2 15 0 32
def rdFour : Word := reqHeader 1 0 0 4

theorem witness_idleStep :
    (State.reset.pending = [] ∧ State.reset.pins.resetn = false) ∧
    ({ up with cfg := { up.cfg with tickHold := true } }.pending = [] ∧
      { up with cfg := { up.cfg with tickHold := true } }.cfg.tickHold = true) ∧
    (up.pending = [] ∧ up.pins.resetn = true ∧ up.cfg.tickHold = false ∧ 1022 + 1 < (up.cfg.tickDiv + 1) * 64 ∧
      (up.cfg.tickDiv + 1) * 64 ≤ 1023 + 1) := by decide
/-- A reply under way: a bit of the status byte, its last bit with and without words to come, a bit of a word, the last bit. -/
theorem witness_replyUnderWay :
    (readingLog 0 []).pending = [] ∧ (readingLog 0 []).pins.mssn = false ∧ 0 + 1 ≠ 8 ∧ 0 + 1 < 8 * (1 + 4 * 0) ∧ 7 + 1 = 8 ∧
    (readingLog 7 []).rx = .reply { status := .ok, object := some .logHead, words := [], clocked := 7 } ∧
    Receiver.answering .ok = .reply { status := .ok, object := none, words := [], clocked := 0 } ∧
    102 + 1 < 8 * (1 + 4 * 3) ∧ 8 * (1 + 4 * 3) ≤ 103 + 1 ∧ (∀ r, up.rx ≠ .reply r) :=
  ⟨rfl, rfl, by decide, by decide, rfl, rfl, rfl, by decide, by decide, fun r h => by cases h⟩
theorem witness_everyCommand : up.creditLaw ∧ up.arrivalLaw := ⟨by unfold State.creditLaw; decide, arrival_of (by decide)⟩
theorem witness_reqWithoutCredit :
    ({ up with urt := Urt.empty }.linkUp = true ∧ { up with urt := Urt.empty }.urt.granted = 0) ∧
    State.reset.linkUp = false := by decide
/-- Slots 0 to 6 taken: the lowest free slot is the last one. -/
def sevenTaken : State :=
  { up with urt := { up.urt with
      slots := (Vector.replicate 8 (some doneSlot)).set 7 none, arrival := [0, 1, 2, 3, 4, 5, 6], granted := 1 } }
theorem witness_reqTakesLowest :
    sevenTaken.linkUp = true ∧ 0 < sevenTaken.urt.granted ∧ sevenTaken.urt.slots[(7 : SlotIx)] = none ∧
    ∀ j : SlotIx, j < 7 → sevenTaken.urt.slots[j] ≠ none := by decide
theorem witness_reqInHalt :
    halted.linkUp = true ∧ 0 < halted.urt.granted ∧ halted.urt.lowestFree = some 0 ∧ halted.pctl.path = .halt := by decide
/-- Malformed: an unknown KIND, COUNT 0, COUNT 33, a read that crosses its line by one byte. -/
theorem witness_reqMalformed :
    Ready up 0 ∧ reqKind (reqHeader 4 0 0 0) = .unknown ∧ (reqKind (reqHeader 1 0 0 0) = .rd ∧ reqCount (reqHeader 1 0 0 0) = 0) ∧
    (reqKind (reqHeader 2 0 0 33) = .wr ∧ 32 < reqCount (reqHeader 2 0 0 33)) ∧
    (reqKind (reqHeader 1 0 0 2) = .rd ∧ 32 < (31#32).toNat % 32 + reqCount (reqHeader 1 0 0 2)) :=
  ⟨ready_of (by decide), by decide⟩
/-- With the memory top at 1 MiB: the first address above it, and the last below it in a region with WPROT. -/
def lowTop : State :=
  { upNormal with rdec := { upNormal.rdec with
      memTopField := 0, regions := upNormal.rdec.regions.set 0 { normalRegion with wprot := true } } }
theorem witness_reqRangeProtect :
    Ready lowTop 0 ∧ (slotOfReq rdFour 0x100000#32 noWords .done).kind = .rd ∧
    (slotOfReq rdFour 0x100000#32 noWords .done).malformed = false ∧
    lowTop.rdec.memTop ≤ (lowTop.rdec.memAddr 0x100000#32).toNat ∧
    (slotOfReq (reqHeader 2 0 0 4) 0xFFFFC#32 noWords .done).kind = .wr ∧
    (slotOfReq (reqHeader 2 0 0 4) 0xFFFFC#32 noWords .done).malformed = false ∧
    (lowTop.rdec.memAddr 0xFFFFC#32).toNat < lowTop.rdec.memTop ∧ (lowTop.rdec.result 0xFFFFC#32).wprot = true :=
  ⟨ready_of (by decide), by decide⟩
/-- Merge; creation as the sixteenth entry; POST_WAIT behind sixteen entries, and behind an older waiting write; direct. -/
theorem witness_writeFirstStep :
    (FirstStep .wr (withEntries upNormal [entryOf 0#27 1#32 1#16 .opened none]) wrFull 0#32 0 ∧
      (upNormal.rdec.result 0#32).posts = true ∧
      (withEntries upNormal [entryOf 0#27 1#32 1#16 .opened none]).pq.canMerge (upNormal.rdec.result 0#32) = true) ∧
    (FirstStep .wr (withEntries upNormal (entriesUpTo 15)) wrFull 0#32 0 ∧
      (withEntries upNormal (entriesUpTo 15)).pq.canMerge (upNormal.rdec.result 0#32) = false ∧
      (withEntries upNormal (entriesUpTo 15)).pq.entries.length < 16 ∧ upNormal.urt.postWait = []) ∧
    (FirstStep .wr (withEntries upNormal (entriesUpTo 16)) wrFull 0#32 0 ∧
      (withEntries upNormal (entriesUpTo 16)).pq.canMerge (upNormal.rdec.result 0#32) = false ∧
      16 ≤ (withEntries upNormal (entriesUpTo 16)).pq.entries.length) ∧
    (FirstStep .wr up wrFull 0#32 0 ∧ (up.rdec.result 0#32).posts = false) :=
  ⟨⟨firstStep_of (by decide), by decide⟩, ⟨firstStep_of (by decide), by decide⟩, ⟨firstStep_of (by decide), by decide⟩,
    firstStep_of (by decide), by decide⟩
/-- An older write of the line waits for its issue: it blocks the write and the read that arrive. -/
def blocking : State := addSlot upNormal 0 (slotOf .wr 2 4 (some { dec 0#27 0 with post := false }) .issueWait)
theorem witness_blocked :
    ∀ h ∈ [wrFull, rdFour], Ready blocking 1 ∧ (arriving blocking h 0#32).malformed = false ∧
      ∃ j ∈ blocking.urt.arrival,
        blocking.urt.slotHas j (fun o => o.blocks (arriving blocking h 0#32) (blocking.rdec.result 0#32)) = true := by
  intro h hh
  simp only [List.mem_cons, List.not_mem_nil, or_false] at hh
  rcases hh with rfl | rfl
  · exact ⟨ready_of (by decide), by decide⟩
  · exact ⟨ready_of (by decide), by decide⟩
/-- A patch of a line the buffer holds in its last line, and of one it does not hold. -/
theorem witness_patch :
    let b := (withLine up 15 (validLine 7#27 0#8 .demand) [15]).rab
    (b.lines[(15 : LineIx)].state ≠ .free ∧ b.lines[(15 : LineIx)].line = 7#27 ∧
      ∀ q : LineIx, q < 15 → b.lines[q].state = .free ∨ b.lines[q].line ≠ 7#27) ∧
    ∀ r : LineIx, b.lines[r].state = .free ∨ b.lines[r].line ≠ 8#27 := by decide
/-- A notice that trains the last entry, one that takes a free entry, one that takes the idlest. -/
theorem witness_notice :
    let e : Stream := { Stream.fresh 4 0 0x10#27 with dir := .up, conf := 2, next := 0x11#27 }
    let full : Stt := { Stt.empty with entries := Vector.ofFn fun k => { e with source := Fin.ofNat 16 k.val, idle := k.val } }
    (full.entries[(3 : StreamIx)].valid = true ∧ full.entries[(3 : StreamIx)].source = 3 ∧
      ∀ j : StreamIx, j < 3 → ¬(full.entries[j].valid = true ∧ full.entries[j].source = 3 ∧ full.entries[j].region = 0)) ∧
    (∀ k : StreamIx, ¬(Stt.empty.entries[k].valid = true ∧ Stt.empty.entries[k].source = 4 ∧ Stt.empty.entries[k].region = 0)) ∧
    ∀ k : StreamIx, ¬(full.entries[k].valid = true ∧ full.entries[k].source = 9 ∧ full.entries[k].region = 0) := by decide
theorem witness_postQueueMerge :
    (withEntries up (entriesUpTo 2)).pq.entries = [] ++ entryOf 1#27 1#32 1#16 .sealed none :: [entryOf 2#27 1#32 1#16 .sealed none] ∧
    ∀ x ∈ [entryOf 2#27 1#32 1#16 .sealed none], x.line ≠ (entryOf 1#27 1#32 1#16 .sealed none).line := by decide
/-- Forwarding, DRAIN_WAIT of a NORMAL read, DRAIN_WAIT of a BYPASS read, LINE_FAULT, ISSUE_WAIT of a BYPASS read. -/
theorem witness_readFirstStepQueue :
    (∀ m ∈ [(0xF#32, true), (0x7#32, false)],
      FirstStep .rd (withEntries upNormal [entryOf 0#27 m.1 1#16 .sealed none]) rdFour 0#32 0 ∧
      (withEntries upNormal [entryOf 0#27 m.1 1#16 .sealed none]).pq.youngest (upNormal.rdec.result 0#32).line =
        some (entryOf 0#27 m.1 1#16 .sealed none) ∧
      maskWithin ((arriving upNormal rdFour 0#32).mask (upNormal.rdec.result 0#32)) m.1 = m.2) ∧
    (FirstStep .rd (withEntries up [entryOf 0#27 1#32 1#16 .sealed none]) rdFour 0#32 0 ∧
      (up.rdec.result 0#32).type ≠ .normal ∧
      (withEntries up [entryOf 0#27 1#32 1#16 .sealed none]).pq.holdsBack (up.rdec.result 0#32) = true) ∧
    (FirstStep .rd { upNormal with flt := Flt.empty.record 0#27 0x8#32 .fail } rdFour 0#32 0 ∧
      upNormal.pq.holdsBack (upNormal.rdec.result 0#32) = false ∧
      (Flt.empty.record 0#27 0x8#32 .fail).failedBytes (upNormal.rdec.result 0#32).line
        ((arriving upNormal rdFour 0#32).mask (upNormal.rdec.result 0#32)) = true) ∧
    (FirstStep .rd up rdFour 0#32 0 ∧ up.pq.holdsBack (up.rdec.result 0#32) = false ∧
      up.flt.failedBytes (up.rdec.result 0#32).line ((arriving up rdFour 0#32).mask (up.rdec.result 0#32)) = false) := by
  refine ⟨?_, ⟨firstStep_of (by decide), by decide⟩, ⟨firstStep_of (by decide), by decide⟩, firstStep_of (by decide), by decide⟩
  intro m hm
  simp only [List.mem_cons, List.not_mem_nil, or_false] at hm
  rcases hm with rfl | rfl
  · exact ⟨firstStep_of (by decide), by decide⟩
  · exact ⟨firstStep_of (by decide), by decide⟩
/-- Every line FILLING with a line of its own: no victim. -/
def allFilling : State :=
  { upNormal with rab :=
      { lines := Vector.ofFn fun r => RabLine.fresh (BitVec.ofNat 27 (r.val + 1)) (.num 0) .demand [] none, recency := [] } }
/-- A hit, a join, no line to allocate, an allocation. -/
theorem witness_readFirstStepBuffer :
    (FirstStep .rd (withLine upNormal 15 (validLine 0#27 0#8 .demand) [15]) rdFour 0#32 0 ∧
      (withLine upNormal 15 (validLine 0#27 0#8 .demand) [15]).rab.find (upNormal.rdec.result 0#32).line = some 15) ∧
    (FirstStep .rd allFilling rdFour 0x200#32 0 ∧ allFilling.rab.find (upNormal.rdec.result 0x200#32).line = some 15 ∧
      allFilling.rab.lines[(15 : LineIx)].state = .filling) ∧
    (FirstStep .rd allFilling rdFour 0#32 0 ∧ allFilling.rab.find (upNormal.rdec.result 0#32).line = none ∧
      allFilling.rab.demandVictim = none) ∧
    (FirstStep .rd upNormal rdFour 0#32 0 ∧ upNormal.rab.find (upNormal.rdec.result 0#32).line = none ∧
      upNormal.rab.demandVictim = some 0) :=
  ⟨⟨firstStep_of (by decide), by decide⟩, ⟨firstStep_of (by decide), by decide⟩, ⟨firstStep_of (by decide), by decide⟩,
    firstStep_of (by decide), by decide⟩
/-- A fence behind an unsettled write, behind an entry, behind nothing. -/
theorem witness_fence :
    reqKind (reqHeader 3 7 0 0) = .fence ∧
    (Ready (addSlot up 0 (slotOf .wr 2 4 (some (dec 1#27 0)) .memWait)) 1 ∧
      ∃ j ∈ (addSlot up 0 (slotOf .wr 2 4 (some (dec 1#27 0)) .memWait)).urt.arrival,
        (addSlot up 0 (slotOf .wr 2 4 (some (dec 1#27 0)) .memWait)).urt.slotHas j
          (fun o => o.kind == .wr && (o.unsettled || o.state == .memWait)) = true) ∧
    (Ready (withEntries up (entriesUpTo 1)) 0 ∧ (withEntries up (entriesUpTo 1)).pq.entries ≠ []) ∧
    (Ready up 0 ∧ (∀ j ∈ up.urt.arrival, up.urt.slotHas j (fun o => o.kind == .wr && (o.unsettled || o.state == .memWait)) = false) ∧
      up.pq.entries = []) :=
  ⟨by decide, ⟨ready_of (by decide), by decide⟩, ⟨ready_of (by decide), by decide⟩, ready_of (by decide), by decide⟩

/-- A DONE slot behind an older one of another source that is not DONE. -/
def answers : State := addSlot (addSlot up 3 (slotOf .rd 7 4 (some (dec 1#27 0)) .issueWait)) 1 doneSlot
theorem witness_resp :
    State.reset.linkUp = false ∧ (up.linkUp = true ∧ ∀ j ∈ up.urt.arrival, up.urt.eligible j = false) ∧
    ∀ s ∈ [answers, draining answers],
      s.Settled ∧ s.arrivalLaw ∧ s.linkUp = true ∧ (1 : SlotIx) ∈ s.urt.arrival ∧ s.urt.slots[(1 : SlotIx)] = some doneSlot ∧
      s.urt.eligible 1 = true ∧ ∀ j ∈ s.urt.older 1, s.urt.eligible j = false := by
  refine ⟨by decide, by decide, fun s hs => ?_⟩
  simp only [List.mem_cons, List.not_mem_nil, or_false] at hs
  rcases hs with rfl | rfl
  · exact ⟨settled_of (by decide), arrival_of (by decide), by decide⟩
  · exact ⟨settled_of (by decide), arrival_of (by decide), by decide⟩
theorem witness_respSent :
    ∃ t, exec .resp answers = .next t ∧ PortMessage.resp (doneSlot.resp true) ∈ t.out := ⟨_, rfl, by decide⟩
theorem witness_orderRelease :
    (1 : SlotIx) ∈ (addSlot up 1 (slotOf .wr 2 8 (some (dec 0x40#27 0)) .orderWait)).urt.arrival ∧
    (addSlot up 1 (slotOf .wr 2 8 (some (dec 0x40#27 0)) .orderWait)).urt.releasable 1 = true := by decide
/-- A write in POST_WAIT at slot 3 while the queue holds `es` and has just made room. -/
def waiting (es : List Entry) : State :=
  { addSlot up 3 (slotOf .wr 2 8 (some (dec 0x40#27 0)) .postWait) with
    pq := { entries := es, room := true }
    urt := { (addSlot up 3 (slotOf .wr 2 8 (some (dec 0x40#27 0)) .postWait)).urt with postWait := [3] } }
/-- A full queue with an OPEN entry for the line; fifteen entries of other lines. -/
theorem witness_postWaitRetry :
    ∀ es ∈ [entriesUpTo 15 ++ [entryOf 0x40#27 1#32 1#16 .opened none], entriesUpTo 15],
      (waiting es).pq.room = true ∧ (waiting es).urt.postWait = [3] ∧
      (waiting es).urt.slots[(3 : SlotIx)] = some (slotOf .wr 2 8 (some (dec 0x40#27 0)) .postWait) ∧
      (∀ j : SlotIx, (waiting es).urt.slotHas j (fun y => y.state == .orderWait) = false) ∧
      ((waiting es).pq.canMerge (dec 0x40#27 0) = true ∨ (waiting es).pq.entries.length < 16) := by decide
/-- The read in DRAIN_WAIT with a failed byte, without one outside NORMAL, without one in NORMAL. -/
theorem witness_drainWaitRelease :
    let s (d : DecodeResult) (f : Flt) : State := { addSlot up 0 (slotOf .rd 1 2 (some d) .drainWait) with flt := f }
    ∀ c ∈ [(dec 0x40#27 30, Flt.empty.record 0x40#27 0x80000000#32 .timeout, true),
        ({ dec 0x40#27 0 with type := .bypass }, Flt.empty, false), (dec 0x40#27 0, Flt.empty, false)],
      (0 : SlotIx) ∈ (s c.1 c.2.1).urt.arrival ∧ (s c.1 c.2.1).pq.holdsBack c.1 = false ∧
      (s c.1 c.2.1).flt.failedBytes c.1.line ((slotOf .rd 1 2 (some c.1) .drainWait).mask c.1) = c.2.2 := by decide
theorem witness_fenceDone :
    let s := addSlot up 5 (slotOf .fence 15 0 none .fenceWait)
    (5 : SlotIx) ∈ s.urt.arrival ∧ s.fenceReady 5 = true ∧ s.urt.older 5 = [] := by decide
/-- Each event of the frame statement completes. -/
theorem witness_insideEvents :
    ∀ c ∈ [Instr.orderRelease, .postWaitRetry, .drainWaitRelease, .fenceDone, .readiness, .quarantine, .idleExpiry,
        .mcpl (mcplHeader 1 0 3) noWords, .tick { queueFirst := true, streamsFirst := true }],
      (after (exec c up) fun _ => ()) = some () := by decide
/-- RUN; DRAIN with an entry left; DRAIN with nothing left but slots. -/
theorem witness_ilrstnAssert :
    (up.pins.ilrstn = true ∧ up.pins.resetn = true ∧ up.pctl.path ≠ .drain) ∧
    (draining (withEntries up (entriesUpTo 1))).pq.entries ≠ [] ∧
    ((draining answers).pctl.path = .drain ∧ (draining answers).pq.entries = [] ∧
      ∀ g : TagIx, (draining answers).mli[g].state ≠ .outstanding) := by decide
def linkDown (s : State) : State := { s with pins := { s.pins with ilrstn := false }, urt := Urt.empty }
theorem witness_ilrstnDeassert :
    ((linkDown up).pins.ilrstn = false ∧ (linkDown up).pins.resetn = true ∧ (linkDown up).pctl.path = .run) ∧
    (linkDown halted).pctl.path ≠ .run ∧ up.pins.ilrstn = true ∧ State.reset.pins.resetn = false := by decide
theorem witness_resetnAssert : up.pins.resetn = true := by decide
/-- The four settings of QREQ and ILRSTn under reset. -/
theorem witness_resetnRelease :
    ∀ q ∈ [false, true], ∀ l ∈ [false, true],
      let s : State := { State.reset with pins := { State.reset.pins with qreq := q, ilrstn := l } }
      s.pins.resetn = false ∧ s.pctl.path = .run ∧ s.urt = Urt.empty ∧ s.pq.entries = [] ∧
      ∀ g : TagIx, s.mli[g].state ≠ .outstanding := by decide
/-- A read in ISSUE_WAIT with its allocated line, one without a line, a direct write. -/
def issuing (k : ReqKind) : State := addSlot up 0 (slotOf k 1 4 (some { dec 0x40#27 0 with post := false }) .issueWait)
def issuingFill : State := withLine (issuing .rd) 2 (RabLine.fresh 0x40#27 (.num 0) .demand [0] none) []
/-- A stream about to propose line 11h. -/
def proposes : State :=
  { upNormal with stt := { Stt.empty with
      entries := Stt.empty.entries.set 1 { Stream.fresh 4 0 0x10#27 with dir := .up, conf := 2, next := 0x11#27 } } }
/-- Fifteen tags taken: the last one is the lowest FREE. -/
def oneTagLeft : State :=
  { withEntries up (entriesUpTo 1) with
    mli := (Vector.ofFn fun g => tagOf .unbufferedRead (BitVec.ofNat 27 (g.val + 100)) none none 0#32).set 15 Tag.free }
theorem witness_readiness :
    State.reset.pins.resetn = false ∧
    (up.Settled ∧ up.drainOffer = none ∧ up.demandPick = none ∧ up.prefetchPick = none) ∧
    (oneTagLeft.Settled ∧ Mli.lowestFree oneTagLeft.mli = some 15 ∧
      oneTagLeft.drainOffer = some (entryOf 1#27 1#32 1#16 .sealed none) ∧ oneTagLeft.demandPick = none) ∧
    (∀ s ∈ [issuing .rd, issuingFill, issuing .wr], s.Settled ∧ Mli.lowestFree s.mli = some 0 ∧ s.demandPick = some 0 ∧
      s.drainOffer = none) ∧
    ((issuing .rd).rab.unissuedFillOf 0 = none ∧ issuingFill.rab.unissuedFillOf 0 = some 2) ∧
    (proposes.Settled ∧ proposes.drainOffer = none ∧ proposes.demandPick = none ∧ proposes.prefetchPick = some 1 ∧
      proposes.rab.prefetchVictim = some 0) := by
  refine ⟨by decide, ⟨settled_of (by decide), by decide⟩, ⟨settled_of (by decide), by decide⟩, fun s hs => ?_, by decide,
    settled_of (by decide), by decide⟩
  simp only [List.mem_cons, List.not_mem_nil, or_false] at hs
  rcases hs with rfl | rfl | rfl
  · exact ⟨settled_of (by decide), by decide⟩
  · exact ⟨settled_of (by decide), by decide⟩
  · exact ⟨settled_of (by decide), by decide⟩
/-- No slot in ORDER_WAIT beside the direct write; the line after the proposed one is not held after its issue. -/
theorem witness_readinessSettles :
    (∀ j : SlotIx, (issuing .wr).urt.slotHas j (fun y => y.state == .orderWait) = false) ∧
    proposes.stt.entries[(1 : StreamIx)].dir = .up ∧
    (0 : StreamIx) ≠ 1 ∧ proposes.stt.entries[(0 : StreamIx)].next ≠ proposes.stt.entries[(1 : StreamIx)].next ∧
    after (exec .readiness proposes) (fun t => t.rab.find (proposes.stt.entries[(1 : StreamIx)].next + 1#27)) = some none := by
  decide +kernel
theorem witness_strayLate :
    mcplTag (mcplHeader 0 0 15) = 15 ∧ State.reset.pins.resetn = false ∧
    (up.Settled ∧ up.pins.resetn = true ∧ up.mli[(15 : TagIx)].state = .free) ∧
    ((withTag up 15 { tagOf .directWrite 1#27 none none 1#32 with state := .quarantined }).Settled ∧
      (withTag up 15 { tagOf .directWrite 1#27 none none 1#32 with state := .quarantined }).mli[(15 : TagIx)].state =
        .quarantined) :=
  ⟨by decide, by decide, ⟨settled_of (by decide), by decide⟩, settled_of (by decide), by decide⟩
theorem witness_drainCompletion :
    (flag (mcplHeader 0 0 3) 31 = false ∧ flag (mcplHeader 1 0 3) 31 = true ∧ mcplTag (mcplHeader 0 0 3) = 3 ∧
      mcplTag (mcplHeader 1 0 3) = 3) ∧
    drainFails.pins.resetn = true ∧ drainFails.mli[(3 : TagIx)].state = .outstanding ∧
    drainFails.mli[(3 : TagIx)].kind = .drainWrite ∧ (drainFails.pq.ofTag 3).isSome = true := by decide
/-- The premises of `State.DrainEnded`: the fence that the entry alone held back; without the read, nothing in DRAIN_WAIT. -/
theorem witness_drainEnded :
    drainFails.urt.postWait = [] ∧ (∀ j : SlotIx, drainFails.urt.slotHas j (fun y => y.state == .orderWait) = false) ∧
    ((0 : SlotIx) ∈ drainFails.urt.arrival ∧ drainFails.urt.slots[(0 : SlotIx)] = some (slotOf .fence 7 0 none .fenceWait) ∧
      drainFails.urt.older 0 = [] ∧ drainFails.urt.olderWritesSettled 0 = true ∧
      ∀ y ∈ drainFails.pq.entries, y.tag ≠ some 3 → y.fences.getLsbD 0 = false) ∧
    (∀ j : SlotIx, up.urt.slotHas j (fun y => y.state == .drainWait) = false) ∧ up.pctl.path ≠ .drain := by decide
/-- `n` failed lines, 1 to `n`. -/
def faultsUpTo (n : Nat) : Flt := (List.range n).foldl (fun f k => f.record (BitVec.ofNat 27 (k + 1)) 1#32 .fail) Flt.empty
/-- A line that has an entry, the last free index, a full table. -/
theorem witness_faultTable :
    ((faultsUpTo 8).find 8#27 = some 7 ∧ (faultsUpTo 8).entries[(7 : FaultIx)] = some { line := 8#27, failed := 1#32, kind := .fail }) ∧
    ((faultsUpTo 7).find 8#27 = none ∧ (faultsUpTo 7).entries[(7 : FaultIx)] = none ∧
      ∀ j : FaultIx, j < 7 → (faultsUpTo 7).entries[j] ≠ none) ∧
    ((faultsUpTo 8).find 9#27 = none ∧ ∀ i : FaultIx, (faultsUpTo 8).entries[i] ≠ none) := by decide
/-- A line write that clears the last failed byte, one that leaves some, one of a line without an entry. -/
theorem witness_clearBytes :
    (faultsUpTo 8).find 8#27 = some 7 ∧ (1#32 &&& ~~~ 1#32 = 0#32) ∧ (1#32 &&& ~~~ 2#32 ≠ 0#32) ∧
    (faultsUpTo 8).find 9#27 = none := by decide
/-- A fill of line 5 on tag 15 with slot 0 waiting. -/
def filling (drop : Bool) : State :=
  withTag (withLine (addSlot up 0 (slotOf .rd 1 4 (some (dec 0xA00#27 28)) .fillWait)) 5
    { RabLine.fresh 0xA00#27 (.num 0) .demand [0] (some 15) with drop := drop } []) 15
    (tagOf .demandRead 0xA00#27 none (some (.line 5)) 0#32)
theorem witness_fillCompletion :
    (∀ h ∈ [(0, 1, false, true), (1, 0, true, false), (0, 0, false, false)],
      mcplTag (mcplHeader h.1 h.2.1 15) = 15 ∧ flag (mcplHeader h.1 h.2.1 15) 31 = h.2.2.1 ∧
      flag (mcplHeader h.1 h.2.1 15) 30 = h.2.2.2) ∧
    ∀ drop ∈ [false, true], (filling drop).pins.resetn = true ∧ (filling drop).mli[(15 : TagIx)].state = .outstanding ∧
      (filling drop).mli[(15 : TagIx)].kind = .demandRead ∧ (filling drop).mli[(15 : TagIx)].owner = some (.line 5) ∧
      (filling drop).rab.lines[(5 : LineIx)].state = .filling ∧ (filling drop).rab.lines[(5 : LineIx)].waiters = [0] ∧
      (filling drop).rab.lines[(5 : LineIx)].drop = drop ∧
      (∀ j : SlotIx, (filling drop).urt.slotHas j (fun y => y.state == .orderWait) = false) ∧
      (filling drop).pctl.path ≠ .drain := by decide
theorem witness_slotAccess :
    ∀ k ∈ [(AccessKind.unbufferedRead, ReqKind.rd, SlotState.fillWait), (.directWrite, .wr, .memWait)],
      let s := withTag (addSlot up 7 (slotOf k.2.1 1 4 (some (dec 1#27 0)) k.2.2)) 15 (tagOf k.1 1#27 (some 1) (some (.slot 7)) 0xF#32)
      s.pins.resetn = true ∧ s.mli[(15 : TagIx)].state = .outstanding ∧ s.mli[(15 : TagIx)].owner = some (.slot 7) ∧
      s.mli[(15 : TagIx)].kind = k.1 ∧ s.urt.slots[(7 : SlotIx)] = some (slotOf k.2.1 1 4 (some (dec 1#27 0)) k.2.2) := by
  decide
/-- Accesses whose slot is gone, in RUN and in DRAIN. -/
def ownerless (k : AccessKind) : State := withTag up 15 (tagOf k 1#27 (some 1) none 0xF#32)
theorem witness_ownerless :
    (∀ k ∈ [AccessKind.unbufferedRead, .directWrite],
      ((ownerless k).Settled ∧ (ownerless k).pins.resetn = true ∧ (ownerless k).mli[(15 : TagIx)].state = .outstanding ∧
        (ownerless k).mli[(15 : TagIx)].owner = none ∧ (ownerless k).mli[(15 : TagIx)].kind = k) ∧
      (draining (ownerless k)).Settled) := by
  intro k hk
  simp only [List.mem_cons, List.not_mem_nil, or_false] at hk
  rcases hk with rfl | rfl
  · exact ⟨⟨settled_of (by decide), by decide⟩, settled_of (by decide)⟩
  · exact ⟨⟨settled_of (by decide), by decide⟩, settled_of (by decide)⟩
/-- A timeout of each kind: a fill, an owned access, an ownerless one, a drain. -/
theorem witness_timeout :
    (∀ drop ∈ [false, true], (filling drop).mli[(15 : TagIx)].state = .outstanding ∧
      (filling drop).mli[(15 : TagIx)].kind = .demandRead ∧ (filling drop).mli[(15 : TagIx)].owner = some (.line 5)) ∧
    (drainFails.mli[(3 : TagIx)].state = .outstanding ∧ drainFails.mli[(3 : TagIx)].kind = .drainWrite ∧
      (drainFails.pq.ofTag 3).isSome = true) ∧
    (ownerless .directWrite).mli[(15 : TagIx)].kind = .directWrite := by decide
/-- No tick; a tag one tick before its limit; a tag at its limit; none due. -/
theorem witness_tick :
    State.reset.pins.resetn = false ∧ up.cfg.tickHold = false ∧
    (min ((agedWrite 62).mli[(9 : TagIx)].age + 1) 255 < up.cfg.memTimeout ∧
      (agedWrite 62).mli[(9 : TagIx)].state = .outstanding) ∧
    up.cfg.memTimeout ≤ min ((agedWrite 63).mli[(9 : TagIx)].age + 1) 255 ∧
    ((agedWrite 62).Settled ∧ ∀ g : TagIx, (agedWrite 62).mli[g].state = .outstanding →
      min ((agedWrite 62).mli[g].age + 1) 255 < (agedWrite 62).cfg.memTimeout) :=
  ⟨by decide, by decide, by decide, by decide, settled_of (by decide), by decide⟩
/-- The pin: under reset, under the latch; with an occupied slot, with nothing left. -/
theorem witness_demandRisePin :
    (State.reset.pins.resetn = false ∧ (latched up).pctl.latch = true ∧ (draining up).pins.qreq = true) ∧
    (answers.Settled ∧ answers.pins.qreq = false ∧ answers.pins.resetn = true ∧ answers.pctl.latch = false ∧
      answers.pctl.path = .run ∧ answers.urt.arrival ≠ []) ∧
    (up.Settled ∧ up.pins.qreq = false ∧ up.pctl.latch = false ∧ up.pctl.path = .run ∧ up.urt.arrival = [] ∧
      up.pq.entries = [] ∧ ∀ g : TagIx, up.mli[g].state ≠ .outstanding) :=
  ⟨by decide, ⟨settled_of (by decide), by decide⟩, settled_of (by decide), by decide⟩
theorem witness_demandRiseFrame :
    ((inFrame halted).Settled ∧ (inFrame halted).frameStart ∧
      (inFrame halted).pins.qreq = true) ∧
    ((inFrame answers).Settled ∧ (inFrame answers).pins.qreq = false ∧ (inFrame answers).pctl.latch = false ∧
      (inFrame answers).pctl.path = .run ∧ (inFrame answers).urt.arrival ≠ []) ∧
    ((inFrame up).Settled ∧ (inFrame up).pins.qreq = false ∧ (inFrame up).urt.arrival = [] ∧ (inFrame up).pq.entries = [] ∧
      ∀ g : TagIx, (inFrame up).mli[g].state ≠ .outstanding) :=
  ⟨⟨settled_of (by decide), by decide⟩, ⟨settled_of (by decide), by decide⟩, settled_of (by decide), by decide⟩
/-- From DRAIN with a slot left and from HALT, with credits withheld and with the link down; by the pin and by RESUME. -/
theorem witness_demandFall :
    (up.pins.qreq = false ∧ State.reset.pins.resetn = false ∧ (latched up).pctl.latch = true) ∧
    (∀ s ∈ [halted, { draining answers with urt := { (draining answers).urt with granted := 5, withheld := 1 } }],
      (s.Settled ∧ s.pins.qreq = true ∧ s.pins.resetn = true ∧ s.pctl.latch = false ∧ s.linkUp = true ∧ 0 < s.urt.withheld ∧
        (s.pctl.path = .drain ∨ (s.pctl.path = .halt ∧ ∀ j : SlotIx, s.urt.slotHas j (fun x => x.state == .held) = false))) ∧
      ((inFrame (latched s)).Settled ∧ (inFrame (latched s)).frameStart ∧ (inFrame (latched s)).pins.qreq = false ∧
        (inFrame (latched s)).pctl.latch = true)) ∧
    ((linkDown halted).Settled ∧ (linkDown halted).linkUp = false ∧ (inFrame (latched (linkDown halted))).Settled) := by
  refine ⟨by decide, fun s hs => ?_, settled_of (by decide), by decide, settled_of (by decide)⟩
  simp only [List.mem_cons, List.not_mem_nil, or_false] at hs
  rcases hs with rfl | rfl
  · exact ⟨⟨settled_of (by decide), by decide⟩, settled_of (by decide), by decide⟩
  · exact ⟨⟨settled_of (by decide), by decide⟩, settled_of (by decide), by decide⟩
/-- HALT with a held malformed read and a held valid write. -/
def holding : State :=
  addSlot (addSlot { halted with urt := { halted.urt with granted := 8, withheld := 0 } } 0 (slotOf .rd 1 0 none .held)) 7
    (slotOf .wr 1 32 none .held)
theorem witness_heldReleased :
    (holding.arrivalLaw ∧ (inFrame (latched holding)).arrivalLaw) ∧ holding.pctl.path = .halt ∧ holding.pins.resetn = true ∧
    (holding.pins.qreq = true ∧ holding.pctl.latch = false) ∧
    ((inFrame (latched holding)).frameStart ∧ (inFrame (latched holding)).pins.qreq = false ∧
      (inFrame (latched holding)).pctl.latch = true) ∧ holding.linkUp = true ∧
    (slotOf .rd 1 0 none .held).malformed = true ∧ (slotOf .wr 1 32 none .held).malformed = false :=
  ⟨⟨arrival_of (by decide), arrival_of (by decide)⟩, by decide⟩
theorem witness_haltEntry :
    up.pctl.path ≠ .drain ∧ (draining answers).urt.arrival ≠ [] ∧
    ((draining up).pctl.path = .drain ∧ (draining up).urt.arrival = [] ∧ (draining up).pq.entries = [] ∧
      ∀ g : TagIx, (draining up).mli[g].state ≠ .outstanding) := by decide
theorem witness_receiver :
    (up.pins.mssn = true ∧ up.pins.resetn = true) ∧ ((inFrame up).pins.mssn = false ∧ State.reset.pins.resetn = false) ∧
    ((Instr.quiesce 0#32).isFrame = true ∧ { inFrame up with rx := .idle }.pins.mssn = false ∧
      { inFrame up with rx := .trail }.rx = .trail ∧ (∀ r, (inFrame State.reset).rx ≠ .reply r) ∧
      (readingLog 0 []).pins.mssn = false) := by
  refine ⟨by decide, by decide, by decide, by decide, rfl, ?_, by decide⟩
  intro r h
  cases h
/-- The hypotheses every frame of the port shares. -/
theorem witness_frame : (inFrame up).Settled ∧ (inFrame up).frameStart := ⟨settled_of (by decide), rfl, rfl, rfl⟩
theorem witness_popLog :
    { inFrame up with elog := { Elog.empty with records := [strayRecord 0#16 2] } }.elog.records = strayRecord 0#16 2 :: [] ∧
    (inFrame up).elog.records = [] := by decide
/-- The last index occupied, the last index free, ALL, the first argument that names nothing. -/
theorem witness_clearFault :
    ((7#32).toNat = (7 : FaultIx).val ∧ (faultsUpTo 8).entries[(7 : FaultIx)] ≠ none ∧
      (faultsUpTo 7).entries[(7 : FaultIx)] = none) ∧ (0x100#32).toNat = 0x100 ∧
    (8 ≤ (8#32).toNat ∧ (8#32).toNat ≠ 0x100) := by decide
/-- Every word at the top of its range, every word at the bottom; each word just out of its range, an unknown select bit. -/
theorem witness_globalFrame :
    (∀ f ∈ [GlobalFrame.mk 0x7F#32 4095#32 255#32 1#32 255#32 255#32 16#32 0xFFFFFFFF#32,
        GlobalFrame.mk 0x7F#32 0#32 0#32 0#32 1#32 1#32 1#32 0#32],
      (Instr.memTopWrite f).globalFrameOf = some f ∧ f.select.toNat < 128 ∧ f.memTop.toNat ≤ 4095 ∧ f.tickDiv.toNat ≤ 255 ∧
      f.tickHold.toNat ≤ 1 ∧ (1 ≤ f.memTimeout.toNat ∧ f.memTimeout.toNat ≤ 255) ∧
      (1 ≤ f.streamIdle.toNat ∧ f.streamIdle.toNat ≤ 255) ∧ (1 ≤ f.pqUrgentMark.toNat ∧ f.pqUrgentMark.toNat ≤ 16)) ∧
    (128 ≤ (128#32).toNat ∧ 4095 < (4096#32).toNat ∧ 255 < (256#32).toNat ∧ 1 < (2#32).toNat ∧ 16 < (17#32).toNat) := by
  decide
/-- The smallest and the greatest region; each field just out of its range. -/
theorem witness_regionFrame :
    (∀ c ∈ [(0xFFFFF000#32, 0x010C0000#32), (0x80000000#32, 0xFF1F043D#32)],
      12 ≤ (c.2.extractLsb' 16 5).toNat ∧ (c.2.extractLsb' 16 5).toNat ≤ 31 ∧ c.1.toNat % 2 ^ (c.2.extractLsb' 16 5).toNat = 0 ∧
      (c.2.extractLsb' 1 2).toNat ≤ 2 ∧ (c.2.extractLsb' 8 3).toNat ≤ 4 ∧ 1 ≤ (c.2.extractLsb' 24 8).toNat) ∧
    ((0x010B0000#32).extractLsb' 16 5).toNat < 12 ∧ (0x800#32).toNat % 2 ^ 12 ≠ 0 ∧ ((0x010C0006#32).extractLsb' 1 2).toNat = 3 ∧
    4 < ((0x010C0500#32).extractLsb' 8 3).toNat ∧ ((0x000C0000#32).extractLsb' 24 8).toNat = 0 ∧ (0xFFF#32).toNat % 0x1000 ≠ 0 := by
  simp
theorem witness_defaultRegionFrame :
    (((0x01000004#32).extractLsb' 1 2).toNat ≤ 2 ∧ 1 ≤ ((0x01000004#32).extractLsb' 24 8).toNat ∧
      (0xFFFFF000#32).toNat % 0x1000 = 0) ∧
    ((0x01000006#32).extractLsb' 1 2).toNat = 3 ∧ ((0x00000004#32).extractLsb' 24 8).toNat = 0 ∧
    (0x800#32).toNat % 0x1000 ≠ 0 := by decide
/-- Unknown objects at the edges of the map, read-only objects, unknown commands and opcodes at their edges. -/
theorem witness_unservedFrames :
    (∀ o ∈ [0x4#16, 0x7#16, 0x9#16, 0xF#16, 0x18#16, 0x1F#16, 0x28#16, 0xFFFF#16],
      4 ≤ o.toNat ∧ o.toNat ≠ 8 ∧ (o.toNat < 0x10 ∨ 0x17 < o.toNat) ∧ (o.toNat < 0x20 ∨ 0x27 < o.toNat)) ∧
    ((0#16).toNat = 0 ∧ (2#16).toNat = 2 ∧ (3#16).toNat = 3 ∧ 0x20 ≤ (0x20#16).toNat ∧ (0x27#16).toNat ≤ 0x27) ∧
    ((0#16).toNat = 0 ∧ 8 < (9#16).toNat) ∧ ((0#8).toNat = 0 ∧ 3 < (4#8).toNat) := by
  simp
/-- A request one word short, the heads of a COMMAND and of a WRITE that go on, numbers of no object. -/
theorem witness_requestsInProgress :
    (objectOf 0x17#16 = some (.region 7) ∧ [0#32, 0#32].length < (PortObject.region 7).wordCount) ∧ (3#8).toNat = 3 ∧
    ((2#8).toNat = 2 ∧ objectOf 0x8#16 ≠ none) ∧ objectOf 0x28#16 = none := by
  refine ⟨⟨by decide, by decide⟩, by decide, ⟨by decide, by decide⟩, by decide⟩
theorem witness_readFrame : (objectOf 0x27#16).isSome = true := by rfl
/-- The first and the last bit of the status byte and of the words. -/
theorem witness_mso :
    (7 < 8 ∧ 8 ≤ (readingLog 8 [1#32, 2#32, 3#32]).elog.records.length + 7) ∧
    [1#32, 2#32, 3#32][(8 - 8) / 32]? = some 1#32 ∧ [1#32, 2#32, 3#32][(103 - 8) / 32]? = some 3#32 := by decide
/-- First and last address of a region, and an address of no region. -/
theorem witness_decode :
    (exampleRdec.regions[(0 : RegionIx)].enable = true ∧
      exampleRdec.regions[(0 : RegionIx)].base.toNat ≤ (0x10800000#32).toNat ∧
      (0x108FFFFF#32).toNat ≤ exampleRdec.regions[(0 : RegionIx)].base.toNat + 2 ^ exampleRdec.regions[(0 : RegionIx)].sizeLog - 1) ∧
    (∀ h : RegionIx, ¬(exampleRdec.regions[h].enable = true ∧ exampleRdec.regions[h].base.toNat ≤ (0x40000000#32).toNat ∧
        (0x40000000#32).toNat ≤ exampleRdec.regions[h].base.toNat + 2 ^ exampleRdec.regions[h].sizeLog - 1)) := by decide
theorem witness_logAppends :
    { Elog.empty with records := List.replicate 15 (strayRecord 0#16 2) }.records.length < 16 ∧
    16 ≤ { Elog.empty with records := List.replicate 16 (strayRecord 0#16 2) }.records.length := by decide
theorem witness_regionRoundTrip :
    RegionEntry.default.legal ∧ { RegionEntry.default with sizeLog := 31, depth := 4, deadline := 255 }.legal := by
  unfold RegionEntry.legal; decide

/-- A drain is about to fail, its completion in front of the queue. -/
def busy : State := { drainFails with pending := [.mcpl (mcplHeader 1 0 3) noWords] }
theorem witness_stepsComplete :
    (∃ t, step busy = .next t) ∧ (∃ t, step State.reset = .next t) ∧ (∃ t, step { halted with pending := [.resp] } = .next t) :=
  ⟨next_of (by decide), next_of (by decide), next_of (by decide)⟩
theorem witness_creditLaw : busy.creditLaw := by unfold State.creditLaw; decide
theorem witness_tagLaw : busy.interlockLaw := by unfold State.interlockLaw Mli.interlockLaw; decide
theorem witness_queueBufferLaws : busy.queueLaw ∧ busy.drainLaw ∧ busy.bufferLaw ∧ busy.recencyLaw :=
  ⟨by unfold State.queueLaw Queue.queueLaw; decide, by unfold State.drainLaw Queue.drainLaw; decide,
    by unfold State.bufferLaw Rab.bufferLaw; decide, by unfold State.recencyLaw Rab.recencyLaw; decide⟩
theorem witness_portLaw : busy.portLaw ∧ (inFrame up).portLaw ∧ (readingLog 8 [1#32, 2#32, 3#32]).portLaw := by
  refine ⟨⟨fun h => absurd rfl h, fun _ _ h => (by cases h), fun _ h => (by cases h)⟩,
    ⟨fun _ => ⟨rfl, rfl⟩, fun bytes bits h => ?_, fun _ h => (by cases h)⟩,
    ⟨fun _ => ⟨rfl, rfl⟩, fun _ _ h => (by cases h), fun r h => ?_⟩⟩
  · cases h; exact ⟨by decide, rfl⟩
  · cases h; decide
theorem witness_faultLogLaw : busy.faultAndLogLaw := by
  unfold State.faultAndLogLaw Flt.faultLaw Elog.logLaw; decide
theorem witness_streamConfigLaws : proposes.streamPairLaw ∧ proposes.streamLeadLaw ∧ proposes.configLaw :=
  ⟨by unfold State.streamPairLaw Stt.pairLaw; decide, by unfold State.streamLeadLaw Stream.leadLaw; decide,
    by unfold State.configLaw RegionEntry.legal; decide⟩
theorem witness_haltLaw : halted.haltLaw ∧ halted.arrivalLaw ∧ busy.haltLaw ∧ busy.arrivalLaw :=
  ⟨by unfold State.haltLaw; decide, arrival_of (by decide), by unfold State.haltLaw; decide, arrival_of (by decide)⟩
/-- A fill on its tag with its waiter in FILL_WAIT; a fill whose waiter is in ISSUE_WAIT. -/
theorem witness_ownerLaw : (filling false).OwnerLaw ∧ issuingFill.OwnerLaw := by
  have f : ∀ r : LineIx, (filling false).rab.lines[r].state = .filling → r = 5 := by decide
  have g : ∀ r : LineIx, issuingFill.rab.lines[r].state = .filling → r = 2 := by decide
  have o : ∀ g : TagIx, (filling false).mli[g].state = .outstanding → g = 15 := by decide
  have n : ∀ g : TagIx, issuingFill.mli[g].state ≠ .outstanding := by decide
  have u : ∀ i : SlotIx, ∀ x ∈ (filling false).urt.slots[i], x.tag = none := by decide
  have v : ∀ i : SlotIx, ∀ x ∈ issuingFill.urt.slots[i], x.tag = none := by decide
  refine ⟨⟨fun r h i hi => ?_, fun r t h e => ?_, fun r h e => ?_, fun t r h e => ?_, fun t i h e => ?_,
    fun i x h e => absurd (u i x h) e⟩, ⟨fun r h i hi => ?_, fun r t h e => ?_, fun r h e => ?_, fun t r h e => ?_,
    fun t i h e => ?_, fun i x h e => absurd (v i x h) e⟩⟩
  · cases f r h
    have hi : i = 0 := by simpa [filling, withTag, withLine, RabLine.fresh] using hi
    subst hi
    exact ⟨_, _, rfl, rfl, rfl, rfl, .inl rfl, fun t ht => by cases ht⟩
  · cases f r h
    have e : (15 : TagIx) = t := Option.some.inj e
    subst e
    decide
  · cases f r h; cases e
  · cases o t h
    have e : (5 : LineIx) = r := by injection e with e; injection e
    subst e
    decide
  · cases o t h; cases e
  · cases g r h
    have hi : i = 0 := by simpa [issuingFill, withLine, RabLine.fresh] using hi
    subst hi
    exact ⟨_, _, rfl, rfl, rfl, rfl, .inr ⟨rfl, rfl⟩, fun t ht => by cases ht⟩
  · cases g r h; cases e
  · cases g r h; exact ⟨0, [], rfl, by decide, by decide⟩
  · exact absurd h (n t)
  · exact absurd h (n t)
theorem witness_settled : busy.Settled ∧ busy.configLaw ∧ halted.Settled :=
  ⟨settled_of (by decide), by unfold State.configLaw RegionEntry.legal; decide, settled_of (by decide)⟩
theorem witness_resetLaw : State.reset.resetLaw ∧ up.resetLaw :=
  ⟨fun _ => rfl, fun h => absurd h (by decide)⟩

end Sys2Proof.Tests
end

section
/-! PROOFS. Chapter 1 and what arrives: the decode of an address (R6, R7, R10), requests answered at their decode moment
(R8, R9, R18), the frames of the region table (R12 to R15, R178), and the laws of streams and configuration (R1, R90, R91,
R177). -/

namespace Sys2Proof.Machine

/-! ### Decode (R6, R7, R10) -/

theorem RegionEntry.matchesAddr_iff (r : RegionEntry) (addr : Word) : r.matchesAddr addr = true ↔
    r.enable = true ∧ r.base.toNat ≤ addr.toNat ∧ addr.toNat ≤ r.base.toNat + 2 ^ r.sizeLog - 1 := by
  have := Nat.two_pow_pos r.sizeLog
  simp only [RegionEntry.matchesAddr, RegionEntry.spans, Bool.and_eq_true, decide_eq_true_eq]
  exact and_congr_right fun _ => and_congr_right fun _ => by omega

theorem Rdec.matching_eq_some_iff (d : Rdec) (addr : Word) (g : RegionIx) : d.matching addr = some g ↔
    d.regions[g].matchesAddr addr = true ∧ ∀ h < g, d.regions[h].matchesAddr addr = false := by
  unfold Rdec.matching
  rw [← Fin.find?_eq_find?_finRange, Fin.find?_eq_some_iff]

theorem Rdec.matching_eq_none_iff (d : Rdec) (addr : Word) : d.matching addr = none ↔
    ∀ h : RegionIx, d.regions[h].matchesAddr addr = false := by
  unfold Rdec.matching
  rw [← Fin.find?_eq_find?_finRange, Fin.find?_eq_none_iff]

theorem lineOf_add (a b : Word) : lineOf (a + b) = BitVec.ofNat 27 ((a.toNat + b.toNat) % 2 ^ 32 / 32) := by
  apply BitVec.eq_of_toNat_eq
  rw [lineOf, BitVec.extractLsb'_toNat, BitVec.toNat_add, BitVec.toNat_ofNat, Nat.shiftRight_eq_div_pow]

theorem offsetOf_add (a b : Word) : offsetOf (a + b) = (a.toNat + b.toNat) % 2 ^ 32 % 32 := by
  rw [offsetOf, BitVec.toNat_add]

/-- R6, R7, R10 where a numbered region matches. -/
theorem Rdec.result_of_some {d : Rdec} {addr : Word} {g : RegionIx} (h : d.matching addr = some g) : d.result addr =
    { region := .num g, type := d.regions[g].type, post := d.regions[g].post, merge := d.regions[g].merge,
      wprot := d.regions[g].wprot, deadline := d.regions[g].deadline, depth := d.regions[g].depth,
      line := lineOf (addr + d.regions[g].remap), offset := offsetOf (addr + d.regions[g].remap) } := by
  simp only [Rdec.result, Rdec.memAddr, h]

/-- R2, R6, R7, R10 where no numbered region matches. -/
theorem Rdec.result_of_none {d : Rdec} {addr : Word} (h : d.matching addr = none) : d.result addr =
    { region := .dflt, type := d.dflt.type, post := d.dflt.post, merge := d.dflt.merge, wprot := d.dflt.wprot,
      deadline := d.dflt.deadline, depth := 0, line := lineOf (addr + d.dflt.remap),
      offset := offsetOf (addr + d.dflt.remap) } := by
  simp only [Rdec.result, Rdec.memAddr, h]

/-- Settles O49: the search of R6 finds the matching region with the lowest index, and the decode result is read off it. -/
theorem decodePicksLowestRegion : Obligations.DecodePicksLowestRegion := by
  intro d addr
  refine ⟨fun g hen hlo hhi hlow => ?_, fun hno => ?_⟩
  · have hm : d.matching addr = some g := by
      rw [Rdec.matching_eq_some_iff]
      refine ⟨(RegionEntry.matchesAddr_iff _ _).2 ⟨hen, hlo, hhi⟩, fun h hh => Bool.eq_false_iff.2 fun hc => ?_⟩
      exact hlow h hh ((RegionEntry.matchesAddr_iff _ _).1 hc)
    rw [Rdec.result_of_some hm, lineOf_add, offsetOf_add]
  · have hm : d.matching addr = none := by
      rw [Rdec.matching_eq_none_iff]
      exact fun h => Bool.eq_false_iff.2 fun hc => hno h ((RegionEntry.matchesAddr_iff _ _).1 hc)
    rw [Rdec.result_of_none hm, lineOf_add, offsetOf_add]

/-! ### A request answered at its decode moment (R8, R9, R18) -/

/-- R8: at or above the memory top RANGE is the answer, whatever the region says of writes. -/
theorem Rdec.answer_range {d : Rdec} {addr : Word} (k : ReqKind) (h : d.memTop ≤ (d.memAddr addr).toNat) :
    d.answer k addr = some .range := by
  rw [Rdec.answer, if_pos h]

/-- R9: a write below the memory top to a region with WPROT. -/
theorem Rdec.answer_protect {d : Rdec} {addr : Word} (h : (d.memAddr addr).toNat < d.memTop)
    (hw : (d.result addr).wprot = true) : d.answer .wr addr = some .protect := by
  rw [Rdec.answer, if_neg (Nat.not_le.2 h), if_pos ⟨rfl, hw⟩]

/-- R18: which requests are malformed. -/
theorem slotOfReq_malformed_iff (header addr : Word) (data : Vector Word 8) (st : SlotState) :
    (slotOfReq header addr data st).malformed = true ↔
      reqKind header = .unknown ∨ ((reqKind header = .rd ∨ reqKind header = .wr) ∧
        (reqCount header = 0 ∨ 32 < reqCount header ∨ 32 < addr.toNat % 32 + reqCount header)) := by
  unfold Slot.malformed slotOfReq
  cases h : reqKind header <;> simp [ReqKind.addressed, offsetOf, or_assoc]

/-- A RD or WR holds the ADDR it came with (R17). -/
theorem slotOfReq_addr {header : Word} (addr : Word) (data : Vector Word 8) (st : SlotState)
    (h : reqKind header = .rd ∨ reqKind header = .wr) : (slotOfReq header addr data st).addr = addr := by
  rcases h with h | h <;> simp [slotOfReq, h, ReqKind.addressed]

/-- R18: the decode moment of a malformed request. -/
theorem State.receive_malformed {s : State} {i : SlotIx} {x : Slot} (hx : s.urt.slots[i] = some x)
    (hm : x.malformed = true) : s.receive i = s.updateSlot i Slot.answerMalformed := by
  simp only [State.receive, hx, hm, if_true]

/-- R8, R9: the decode moment of a valid RD or WR that decode answers. -/
theorem State.receive_answered {s : State} {i : SlotIx} {x : Slot} {st : RespStatus} (hx : s.urt.slots[i] = some x)
    (hm : x.malformed = false) (hk : x.kind ≠ .fence) (ha : s.rdec.answer x.kind x.addr = some st) :
    s.receive i = s.updateSlot i fun y =>
      { y with decode := some (s.rdec.result x.addr), state := .done, status := some st } := by
  simp only [State.receive, hx, hm, Bool.false_eq_true, if_false, if_neg hk, ha]

theorem Urt.update_take (u : Urt) (i : SlotIx) (x : Slot) (f : Slot → Slot) :
    (u.take i x).update i f = u.take i (f x) := by
  simp [Urt.update, Urt.take]

theorem Urt.releasable_of_state {u : Urt} {i : SlotIx} {x : Slot} (hx : u.slots[i] = some x)
    (h : x.state ≠ .orderWait) : u.releasable i = false := by
  refine Bool.eq_false_iff.2 fun hr => ?_
  obtain ⟨y, _, hy, _, ho, _⟩ := Urt.releasable_some hr
  exact h (Option.some.inj (hx.symm.trans hy) ▸ ho)

theorem State.fenceReady_of_state {s : State} {i : SlotIx} {x : Slot} (hx : s.urt.slots[i] = some x)
    (h : x.state ≠ .fenceWait) : s.fenceReady i = false := by
  refine Bool.eq_false_iff.2 fun hr => ?_
  obtain ⟨y, hy, _, ho⟩ := State.fenceReady_slot hr
  exact h (Option.some.inj (hx.symm.trans hy) ▸ ho)

theorem State.drainWaitOver_of_state {s : State} {i : SlotIx} {x : Slot} (hx : s.urt.slots[i] = some x)
    (h : x.state ≠ .drainWait) : s.drainWaitOver i = false := by
  simp only [State.drainWaitOver, hx]
  split
  · rfl
  · simp [h]

/-- A REQ is taken into slot `i` at its decode moment: the link is up, there is a credit, the slot is the lowest free one,
and the path is not in HALT (R17, R23, R24, R37). -/
structure State.Admits (s : State) (i : SlotIx) : Prop where
  link : s.linkUp = true
  credit : 0 < s.urt.granted
  slot : s.urt.lowestFree = some i
  path : s.pctl.path ≠ .halt

/-- The whole event of a REQ that is taken outside HALT. -/
theorem State.Admits.exec_req {s : State} {i : SlotIx} (h : s.Admits i) (header addr : Word) (data : Vector Word 8) :
    exec (.req header addr data) s =
      .next (((s.quiet.withUrt (s.urt.take i (slotOfReq header addr data .orderWait))).receive i).close) := by
  show execReq header addr data s = _
  have hp : s.quiet.pctl.path ≠ .halt := h.path
  simp only [execReq, h.link, Bool.true_eq_false, if_false, Nat.ne_of_gt h.credit, h.slot, State.takeRequest, if_neg hp,
    State.quiet_urt]

/-- A settled part is settled with one more slot that is DONE. -/
theorem State.Settled.take_done {s : State} {i : SlotIx} {y : Slot} (h : s.Settled) (ha : s.arrivalLaw)
    (hf : s.urt.lowestFree = some i) (hy : y.state = .done) : (s.quiet.withUrt (s.urt.take i y)).Settled := by
  have hs : (s.quiet.withUrt (s.urt.take i y)).urt.slots[i] = some y := s.urt.take_self i y
  exact h.insert (i := i) (s.urt.take_youngest i y (State.lowestFree_new ha hf))
    (Urt.releasable_of_state hs (by simp [hy])) (State.fenceReady_of_state hs (by simp [hy])) (fun _ _ hl => hl) rfl rfl
    (fun _ hl => hl) (fun _ hl => hl) (State.drainWaitOver_of_state hs (by simp [hy])) h.room

/-- A REQ whose decode moment makes its slot DONE: the slot as it then stands is taken, and nothing else happens. -/
theorem State.Admits.exec_req_done {s : State} {i : SlotIx} (h : s.Admits i) (hs : s.Settled) (ha : s.arrivalLaw)
    (header addr : Word) (data : Vector Word 8) (f : Slot → Slot)
    (hr : (s.quiet.withUrt (s.urt.take i (slotOfReq header addr data .orderWait))).receive i =
      (s.quiet.withUrt (s.urt.take i (slotOfReq header addr data .orderWait))).updateSlot i f)
    (hd : (f (slotOfReq header addr data .orderWait)).state = .done) :
    exec (.req header addr data) s =
      .next { s with out := [], urt := s.urt.take i (f (slotOfReq header addr data .orderWait)) } := by
  have hu : (s.quiet.withUrt (s.urt.take i (slotOfReq header addr data .orderWait))).updateSlot i f =
      s.quiet.withUrt (s.urt.take i (f (slotOfReq header addr data .orderWait))) :=
    congrArg s.quiet.withUrt (s.urt.update_take i _ f)
  rw [h.exec_req, hr, hu, (hs.take_done ha h.slot hd).close]
  rfl

/-- R8, R9: a valid RD or WR that decode answers is DONE with that answer, and nothing else happens. -/
theorem State.Admits.exec_req_answered {s : State} {i : SlotIx} (h : s.Admits i) (hs : s.Settled) (ha : s.arrivalLaw)
    (header addr : Word) (data : Vector Word 8) (hk : reqKind header = .rd ∨ reqKind header = .wr)
    (hm : (slotOfReq header addr data .orderWait).malformed = false) {st : RespStatus}
    (hst : s.rdec.answer (reqKind header) addr = some st) :
    exec (.req header addr data) s = .next { s with
      out := []
      urt := s.urt.take i { slotOfReq header addr data .done with
        decode := some (s.rdec.result addr), status := some st } } := by
  have haddr := slotOfReq_addr addr data .orderWait hk
  have hkind : (slotOfReq header addr data .orderWait).kind = reqKind header := rfl
  have hf : (slotOfReq header addr data .orderWait).kind ≠ .fence := by
    rcases hk with hk | hk <;> simp [hkind, hk]
  refine h.exec_req_done hs ha header addr data
    (fun y => { y with decode := some (s.rdec.result addr), state := .done, status := some st }) ?_ rfl
  have hr := State.receive_answered (s := s.quiet.withUrt (s.urt.take i (slotOfReq header addr data .orderWait)))
    (s.urt.take_self i _) hm hf (st := st) (by rw [haddr]; exact hst)
  rw [haddr] at hr
  exact hr

/-- Settles O7: each of the three answers makes the slot DONE at the decode moment, and in a settled part nothing
follows. -/
theorem reqAnsweredAtArrival : Obligations.ReqAnsweredAtArrival := by
  intro s header addr data i x hs ha hlink hcredit hslot hpath hx
  have h : s.Admits i := ⟨hlink, hcredit, hslot, hpath⟩
  subst hx
  refine ⟨fun hmal => ?_, fun hk hm htop => ?_, fun hk hm htop hw => ?_⟩
  · exact h.exec_req_done hs ha header addr data Slot.answerMalformed
      (State.receive_malformed (s.urt.take_self i _) ((slotOfReq_malformed_iff ..).2 hmal)) rfl
  · exact h.exec_req_answered hs ha header addr data hk hm (Rdec.answer_range _ htop)
  · have hwr : reqKind header = .wr := hk
    exact h.exec_req_answered hs ha header addr data (.inr hwr) hm (hwr ▸ Rdec.answer_protect htop hw)

/-! ### Frames that are accepted or rejected (R173, R174) -/

/-- A WRITE frame with all its words, from the start of a frame, is taken once. -/
theorem State.clockBytes_write {s : State} {n : BitVec 16} {o : PortObject} {ws : List Word} (h : s.frameStart)
    (ho : objectOf n = some o) (hw : ws.length = o.wordCount) : ∃ before bits, s.quiet.clockBytes (writeBytes n ws) =
      ((s.withOut (fillerOut (3 + 4 * ws.length))).withRx (.request before bits)).takeFrame (.write o ws) := by
  have hl : (writeBytes n ws).length = 3 + 4 * ws.length := by
    simp only [writeBytes, numberBytes, List.length_append, List.length_cons, List.length_nil, bytesHighFirst_length]
  rw [← hl]
  exact State.clockBytes_start h (frameOfBytes_write n o ws ho hw)

theorem State.takeFrame_accepted {s t : State} {f : Frame} (h : f.run s = accepted t) :
    s.takeFrame f = t.withRx (.answering .ok) := by
  unfold State.takeFrame; rw [h]; rfl

theorem State.takeFrame_rejected {s : State} {f : Frame} {st : FrameStatus} (h : f.run s = rejected st s) :
    s.takeFrame f = s.withRx (.answering st) := by
  unfold State.takeFrame; rw [h]; rfl

/-- Settledness reads the streams, the slots, the Post Queue, the tags and the path. -/
theorem State.Settled.of_streamsSettled {s t : State} (h : s.Settled) (hu : t.urt = s.urt) (hq : t.pq = s.pq)
    (hp : t.pctl.path = s.pctl.path) (hm : t.mli = s.mli) (hs : t.streamsSettled) : t.Settled where
  order := by unfold State.orderSettled; rw [hu]; exact h.order
  fences := fun i hi => by rw [State.fenceReady_congr hu hq]; exact h.fences i (hu ▸ hi)
  streams := hs
  drain := by unfold State.drainHolds State.pathEmpty; rw [hp, hu, hq, hm]; exact h.drain
  waits := fun i hi => by unfold State.drainWaitOver; rw [hu, hq]; exact h.waits i (hu ▸ hi)
  room := hq ▸ h.room

/-! ### TYPE codes (R178) -/

theorem typeOfCode_of_le {n : Nat} (h : n ≤ 2) :
    typeOfCode n = some (if n = 0 then .bypass else if n = 1 then .ordered else .normal) := by
  match n, h with
  | 0, _ => rfl
  | 1, _ => rfl
  | 2, _ => rfl

/-! ### The default region's frame (R14, R15) -/

/-- R15, R178: the values of a default-region frame that is accepted. -/
theorem defaultRegionOfWords_eq_some {remap control : Word} (ht : field control 1 2 ≤ 2) (hd : 1 ≤ field control 24 8)
    (hr : remap.toNat % 0x1000 = 0) : defaultRegionOfWords remap control = some
      { type := if field control 1 2 = 0 then .bypass else if field control 1 2 = 1 then .ordered else .normal,
        post := flag control 3, merge := flag control 4, wprot := flag control 5, deadline := field control 24 8,
        remap := remap } := by
  unfold defaultRegionOfWords
  rw [typeOfCode_of_le ht]
  exact if_neg (not_or.2 ⟨Nat.ne_of_gt hd, not_not.2 hr⟩)

/-- R15, R178: what makes a default-region frame BAD_VALUE. -/
theorem defaultRegionOfWords_eq_none {remap control : Word}
    (h : field control 1 2 = 3 ∨ field control 24 8 = 0 ∨ remap.toNat % 0x1000 ≠ 0) :
    defaultRegionOfWords remap control = none := by
  unfold defaultRegionOfWords
  rcases h with ht | hv
  · rw [ht]; rfl
  · split
    · rfl
    · exact if_pos hv

/-- R14: no report of the Region Decoder to the Stream Table reads the default region. -/
theorem State.Settled.withDefault {s : State} (h : s.Settled) (d : DefaultRegion) :
    (s.withRdec { s.rdec with dflt := d }).Settled :=
  h.of_streamsSettled rfl rfl rfl rfl h.streams

/-- R14: a default-region frame that is accepted, taken by a settled part. -/
theorem defaultRegionFrame_accepted {s : State} {remap control : Word} {d : DefaultRegion} (h : s.Settled)
    (hd : defaultRegionOfWords remap control = some d) :
    defaultRegionFrame remap control s = accepted (s.withRdec { s.rdec with dflt := d }) := by
  simp only [defaultRegionFrame, hd, (h.withDefault d).close]

theorem defaultRegionFrame_rejected {remap control : Word} (s : State) (hd : defaultRegionOfWords remap control = none) :
    defaultRegionFrame remap control s = rejected .badValue s := by
  simp only [defaultRegionFrame, hd]

/-- Settles O45: the frame's words are in range or not, and a replaced D leaves a settled part settled. -/
theorem defaultRegionFrameReplacesD : Obligations.DefaultRegionFrameReplacesD := by
  intro s remap control type deadline hstart htype hdl
  subst htype hdl
  obtain ⟨before, bits, hclock⟩ := State.clockBytes_write (n := 0x0008#16) (o := .dflt) (ws := [remap, control]) hstart
    rfl rfl
  have hexec : exec (.defaultRegionWrite remap control) s =
      .next (s.quiet.clockBytes (writeBytes 0x0008#16 [remap, control])) := rfl
  rw [hexec, hclock]
  refine ⟨fun hset ht hd hr => ?_, fun hbad => ?_⟩
  · have hu : ((s.withOut (fillerOut 11)).withRx (.request before bits)).Settled :=
      hset.congr rfl rfl rfl rfl rfl rfl rfl
    exact congrArg Host.Outcome.next (State.takeFrame_accepted (f := .write .dflt [remap, control])
      (defaultRegionFrame_accepted hu (defaultRegionOfWords_eq_some ht hd hr)))
  · exact congrArg Host.Outcome.next (State.takeFrame_rejected (f := .write .dflt [remap, control])
      (defaultRegionFrame_rejected _ (defaultRegionOfWords_eq_none hbad)))

/-! ### A numbered region's frame (R12, R13, R15) -/

/-- R15, R178: the entry of a region frame that is accepted. -/
theorem regionOfWords_eq_some {base remap control : Word} (hlo : 12 ≤ field control 16 5) (hhi : field control 16 5 ≤ 31)
    (hb : base.toNat % 2 ^ field control 16 5 = 0) (ht : field control 1 2 ≤ 2) (hdp : field control 8 3 ≤ 4)
    (hd : 1 ≤ field control 24 8) (hr : remap.toNat % 0x1000 = 0) : regionOfWords base remap control = some
      { enable := flag control 0, base := base, sizeLog := field control 16 5,
        type := if field control 1 2 = 0 then .bypass else if field control 1 2 = 1 then .ordered else .normal,
        post := flag control 3, merge := flag control 4, depth := field control 8 3, deadline := field control 24 8,
        wprot := flag control 5, remap := remap } := by
  unfold regionOfWords
  rw [typeOfCode_of_le ht]
  refine if_neg ?_
  simp only [not_or, Nat.not_lt, ne_eq, not_not]
  exact ⟨hlo, hhi, hb, hdp, Nat.ne_of_gt hd, hr⟩

/-- R15, R178: what makes a region frame BAD_VALUE. -/
theorem regionOfWords_eq_none {base remap control : Word}
    (h : field control 16 5 < 12 ∨ base.toNat % 2 ^ field control 16 5 ≠ 0 ∨ field control 1 2 = 3 ∨
      4 < field control 8 3 ∨ field control 24 8 = 0 ∨ remap.toNat % 0x1000 ≠ 0) :
    regionOfWords base remap control = none := by
  unfold regionOfWords
  split
  · rfl
  · rename_i t ht
    have htype : field control 1 2 ≠ 3 := fun e => by rw [e] at ht; exact absurd ht (by simp [typeOfCode])
    exact if_pos (by tauto)

theorem Rab.find_isSome_iff (b : Rab) (l : LineAddr) : (b.find l).isSome = true ↔ ∃ r : LineIx, b.lines[r].holds l = true := by
  unfold Rab.find
  rw [← Fin.find?_eq_find?_finRange, Fin.isSome_find?_iff]

theorem RabLine.holds_of_invalidate {x : RabLine} {l : LineAddr} (h : x.invalidate.holds l = true) : x.holds l = true := by
  simp only [RabLine.holds, Bool.and_eq_true, bne_iff_ne, beq_iff_eq] at *
  obtain ⟨hs, hl⟩ := RabLine.invalidate_face x h.1
  exact ⟨hs ▸ h.1, hl ▸ h.2⟩

/-- An invalidation leaves no line held that was not (section 4.6). -/
theorem Rab.find_of_invalidate {b : Rab} {sel : RabLine → Bool} {l : LineAddr}
    (h : ((b.invalidate sel).find l).isSome = true) : (b.find l).isSome = true := by
  rw [Rab.find_isSome_iff] at *
  obtain ⟨r, hr⟩ := h
  refine ⟨r, ?_⟩
  simp only [Rab.invalidate, Vector.get_ofFn_fin] at hr
  split at hr
  · exact RabLine.holds_of_invalidate hr
  · exact hr

/-- R83: what a rewrite notice does to each line and to the recency list. -/
theorem Rab.rewriteNotice_eq (b : Rab) (g : RegionIx) : b.rewriteNotice g =
    { lines := Vector.ofFn fun r =>
        if b.lines[r].region = .num g ∧ b.lines[r].state = .valid then RabLine.free
        else if b.lines[r].region = .num g ∧ b.lines[r].state = .filling then { b.lines[r] with drop := true }
        else b.lines[r]
      recency := b.recency.filter fun r => b.lines[r].region != .num g } := by
  have hline : ∀ x : RabLine, (if (x.region == .num g) = true then x.invalidate else x) =
      if x.region = .num g ∧ x.state = .valid then RabLine.free
      else if x.region = .num g ∧ x.state = .filling then { x with drop := true } else x := by
    intro x
    by_cases hg : x.region = .num g
    · cases hs : x.state <;> simp [hg, hs, RabLine.invalidate]
    · simp [hg]
  unfold Rab.rewriteNotice Rab.invalidate
  simp only [hline]
  rfl

/-- R103: what a rewrite notice does to each stream. -/
theorem Stt.rewriteNotice_eq (t : Stt) (g : RegionIx) : t.rewriteNotice g =
    { t with entries := Vector.ofFn fun k =>
        if t.entries[k].valid = true ∧ t.entries[k].region = g then Stream.free else t.entries[k] } := by
  simp only [Stt.rewriteNotice, Bool.and_eq_true, beq_iff_eq]

theorem Stream.reaches_of_not_valid {e : Stream} (h : e.valid = false) (depth : Nat) (r : LineAddr → Bool) :
    e.reaches depth r = false := by
  simp [Stream.reaches, h]

/-- R11, R97: the reports on a region read its own entry and the memory top. -/
theorem Rdec.reports_set_other (d : Rdec) {g k : RegionIx} (r : RegionEntry) (h : g ≠ k) :
    Rdec.depthReported { d with regions := d.regions.set g r } k = d.depthReported k ∧
      Rdec.inRange { d with regions := d.regions.set g r } k = d.inRange k := by
  have hk : (d.regions.set g r)[k] = d.regions[k] := by rw [Vector.get_set_fin, if_neg h]
  refine ⟨?_, funext fun l => ?_⟩
  · simp only [Rdec.depthReported, hk]
  · simp only [Rdec.inRange, hk]; rfl

/-- R13: the notices free every stream of the rewritten region; the others' reports stand, and no line is newly held, so no
stream can move on. -/
theorem State.rewriteRegion_streamsSettled {s : State} (h : s.streamsSettled) (g : RegionIx) (r : RegionEntry) :
    (s.rewriteRegion g r).streamsSettled := by
  intro k
  have hentry : (s.rewriteRegion g r).stt.entries[k] =
      if s.stt.entries[k].valid = true ∧ s.stt.entries[k].region = g then Stream.free else s.stt.entries[k] := by
    show (s.stt.rewriteNotice g).entries[k] = _
    rw [Stt.rewriteNotice_eq]
    exact Vector.get_ofFn_fin _ k
  rw [hentry]
  by_cases hv : s.stt.entries[k].valid = true
  · by_cases hg : s.stt.entries[k].region = g
    · rw [if_pos ⟨hv, hg⟩, Stream.reaches_of_not_valid rfl, Bool.false_and]
    · rw [if_neg fun hc => hg hc.2]
      obtain ⟨hdepth, hrange⟩ := s.rdec.reports_set_other r (Ne.symm hg)
      have hold := h k
      show (Stream.reaches _ (Rdec.depthReported { s.rdec with regions := s.rdec.regions.set g r } _)
        (Rdec.inRange { s.rdec with regions := s.rdec.regions.set g r } _) &&
        ((s.rab.rewriteNotice g).find _).isSome) = false
      rw [hdepth, hrange]
      rw [Bool.and_eq_false_iff] at *
      exact hold.imp_right fun hn => Bool.eq_false_iff.2 fun hc =>
        Bool.eq_false_iff.1 hn (Rab.find_of_invalidate hc)
  · rw [if_neg fun hc => hv hc.1, Stream.reaches_of_not_valid (Bool.eq_false_iff.2 hv), Bool.false_and]

theorem State.Settled.rewriteRegion {s : State} (h : s.Settled) (g : RegionIx) (r : RegionEntry) :
    (s.rewriteRegion g r).Settled :=
  h.of_streamsSettled rfl rfl rfl rfl (State.rewriteRegion_streamsSettled h.streams g r)

/-- R12, R13: a region frame that is accepted, taken by a settled part. -/
theorem regionFrame_accepted {s : State} {base remap control : Word} {r : RegionEntry} (h : s.Settled) (g : RegionIx)
    (hr : regionOfWords base remap control = some r) :
    regionFrame g base remap control s = accepted (s.rewriteRegion g r) := by
  simp only [regionFrame, hr, (h.rewriteRegion g r).close]

theorem regionFrame_rejected {base remap control : Word} (s : State) (g : RegionIx)
    (hr : regionOfWords base remap control = none) : regionFrame g base remap control s = rejected .badValue s := by
  simp only [regionFrame, hr]

theorem objectOf_region (g : RegionIx) : objectOf (BitVec.ofNat 16 (0x0010 + g.val)) = some (.region g) := by
  revert g; decide

/-- Settles O44: the frame's words are in range or not, and a rewritten region with its notices leaves a settled part
settled. -/
theorem regionFrameReplacesEntry : Obligations.RegionFrameReplacesEntry := by
  intro s g base remap control sizeLog type depth deadline hstart hsize htype hdepth hdl
  subst hsize htype hdepth hdl
  obtain ⟨before, bits, hclock⟩ := State.clockBytes_write (ws := [base, remap, control]) hstart (objectOf_region g) rfl
  have hexec : exec (.regionRewrite g base remap control) s =
      .next (s.quiet.clockBytes (writeBytes (BitVec.ofNat 16 (0x0010 + g.val)) [base, remap, control])) := rfl
  rw [hexec, hclock]
  refine ⟨fun hset hlo hhi hb ht hdp hd hr => ?_, fun hbad => ?_⟩
  · have hu : ((s.withOut (fillerOut 15)).withRx (.request before bits)).Settled :=
      hset.congr rfl rfl rfl rfl rfl rfl rfl
    rw [← Rab.rewriteNotice_eq, ← Stt.rewriteNotice_eq]
    exact congrArg Host.Outcome.next (State.takeFrame_accepted (f := .write (.region g) [base, remap, control])
      (regionFrame_accepted hu g (regionOfWords_eq_some hlo hhi hb ht hdp hd hr)))
  · exact congrArg Host.Outcome.next (State.takeFrame_rejected (f := .write (.region g) [base, remap, control])
      (regionFrame_rejected _ g (regionOfWords_eq_none hbad)))

/-! ### Streams and configuration (R1, R90, R91, R177) -/

/-- Settles O56: every step is a chain of events, each of which keeps the three laws; the leads stay within 1 to 5 because
the configuration law bounds every reported depth by 4. -/
theorem everyStepKeepsStreamAndConfigLaws : Obligations.EveryStepKeepsStreamAndConfigLaws := by
  intro s t hpair hlead hconfig hstep
  have he : Events s t := step_events hstep
  exact ⟨he.streamPairLaw hpair, he.streamLeadLaw hconfig hlead, he.configLaw hconfig⟩

end Sys2Proof.Machine
end

section
/-! PROOFS. Chapter 2: requests without a credit, in HALT, and on a free slot (R17, R23, R24, R37); the link's resets (R21, R39
to R41); the frame of the events inside the part; the part at device reset. -/

namespace Sys2Proof.Machine

/-! ### REQ (R17, R23, R24, R37) -/

/-- R17, R23: what a REQ does, by the link, the credits and the free slots. -/
theorem exec_req_taken {s : State} {header addr : Word} {data : Vector Word 8} {i : SlotIx} (hl : s.linkUp = true)
    (hg : 0 < s.urt.granted) (hi : s.urt.lowestFree = some i) :
    exec (.req header addr data) s = .next (s.quiet.takeRequest i header addr data) := by
  simp only [exec, execReq, hl, hi, Nat.ne_of_gt hg, if_false, Bool.true_eq_false]

theorem exec_req_down {s : State} (header addr : Word) (data : Vector Word 8) (hl : s.linkUp = false) :
    exec (.req header addr data) s = .next s.quiet := by
  simp only [exec, execReq, hl, if_true]

theorem exec_req_overrun {s : State} (header addr : Word) (data : Vector Word 8) (hl : s.linkUp = true)
    (hg : s.urt.granted = 0) :
    exec (.req header addr data) s = .next (s.quiet.creditOverrun (reqSource header)) := by
  simp only [exec, execReq, hl, hg, if_false, if_true, Bool.true_eq_false]

/-- Settles O4: the two guards of a REQ. -/
theorem reqWithoutCreditIsRecorded : Obligations.ReqWithoutCreditIsRecorded := fun _ header addr data =>
  ⟨fun hl hg => exec_req_overrun header addr data hl hg, fun hl => exec_req_down header addr data hl⟩

/-- Settles O6: in HALT a request takes its slot and nothing else is done. -/
theorem reqInHaltIsHeld : Obligations.ReqInHaltIsHeld := fun s header addr data i hl hg hi hp => by
  rw [exec_req_taken hl hg hi, State.takeRequest, if_pos (show s.quiet.pctl.path = .halt from hp)]
  rfl

theorem Urt.lowestFree_of {u : Urt} {i : SlotIx} (hi : u.slots[i] = none) (hlt : ∀ j : SlotIx, j < i → u.slots[j] ≠ none) :
    u.lowestFree = some i := by
  refine Fin.find?_eq_find?_finRange.symm.trans (Fin.find?_eq_some_iff.2 ⟨Option.isNone_iff_eq_none.2 hi, fun j hj => ?_⟩)
  cases h : u.slots[j] with
  | none => exact absurd h (hlt j hj)
  | some x => rfl

/-- R147: a path with a slot is not empty. -/
theorem State.haltTest_of_arrival {s : State} (h : s.urt.arrival ≠ []) : s.haltTest = s :=
  State.haltTest_still fun _ => by simp [State.pathEmpty, h]

/-- R24: what a request that takes a slot leaves of the part as it was when the slot was set up. -/
theorem State.takeRequest_frame (s : State) (i : SlotIx) (header addr : Word) (data : Vector Word 8) :
    ∃ st, ServiceFrame (s.withUrt (s.urt.take i (slotOfReq header addr data st))) (s.takeRequest i header addr data) := by
  unfold State.takeRequest
  split
  · exact ⟨_, .refl _⟩
  · refine ⟨.orderWait, ?_⟩
    obtain ⟨D, hD⟩ := (s.withUrt (s.urt.take i (slotOfReq header addr data .orderWait))).exists_depthsWithin
    have hw := (State.receive_work (D := D) (s.withUrt (s.urt.take i (slotOfReq header addr data .orderWait))) i).andThen hD
      (State.settle_work _)
    unfold State.close
    rw [State.haltTest_of_arrival (by rw [hw.frame.arrival]; simp [Urt.take])]
    exact hw.frame

/-- Settles O5: the slot is the free one of the lowest index, and the event that follows is made of service steps. -/
theorem reqTakesLowestFreeSlot : Obligations.ReqTakesLowestFreeSlot := fun s header addr data i hl hg hi hlt => by
  refine ⟨_, exec_req_taken hl hg (Urt.lowestFree_of hi hlt), ?_⟩
  obtain ⟨st, hf⟩ := s.quiet.takeRequest_frame i header addr data
  refine ⟨hf.arrival, ?_, hf.withheld, ?_, fun j hj => ?_, hf.pins, hf.rdec, hf.cfg, hf.pctl, hf.mli, hf.elog, hf.faults,
    hf.overflow, hf.tgen, hf.rx, hf.out⟩
  · rw [hf.granted]
    exact Nat.sub_add_cancel hg
  · have hk := hf.keys i
    rw [State.withUrt_urt, Urt.take_self] at hk
    obtain ⟨x, hx, hkey⟩ := Option.map_eq_some_iff.1 hk
    obtain ⟨h1, h2, h3, _⟩ : x.kind = _ ∧ x.source = _ ∧ x.itag = _ ∧ x.addr = _ ∧ x.count = _ := by
      simpa only [Slot.key, Prod.mk.injEq] using hkey
    exact ⟨x, hx, h1, h2, h3⟩
  · refine (hf.keys j).trans ?_
    rw [State.withUrt_urt]
    simp only [Urt.take, Vector.get_set_fin, if_neg (Ne.symm hj)]
    rfl

/-! ### The resets of the link (R21, R39 to R41) -/

/-- Settles O20: the credits of a link that comes up, by the path. -/
theorem ilrstnDeassertBringsLinkUp : Obligations.IlrstnDeassertBringsLinkUp := fun s => by
  refine ⟨fun hi hr hp => ?_, fun hi hr hp => ?_, fun h => ?_⟩
  · show execIlrstnDeassert s = _
    rw [execIlrstnDeassert, if_pos ⟨hi, hr⟩, State.linkComesUp, if_pos (by exact hp)]
    rfl
  · show execIlrstnDeassert s = _
    rw [execIlrstnDeassert, if_pos ⟨hi, hr⟩, State.linkComesUp, if_neg (by exact hp)]
    rfl
  · show execIlrstnDeassert s = _
    rw [execIlrstnDeassert, if_neg (fun hc => h.elim (fun h => by rw [h] at hc; exact absurd hc.1 (by simp))
      fun h => by rw [h] at hc; exact absurd hc.2 (by simp))]
    rfl

/-- Nothing is left to serve without a slot and without a stream in use. -/
theorem State.settle_of_empty {s : State} (ha : s.urt.arrival = []) (hs : s.stt = Stt.empty) : s.settle = s := by
  refine State.settle_still (fun i hi => ?_) (fun i hi => ?_) fun k => ?_
  · rw [ha] at hi; exact absurd hi (by simp)
  · rw [ha] at hi; exact absurd hi (by simp)
  · rw [hs]; simp [Stt.empty, Stream.free, Stream.reaches]

theorem State.pathEmpty_iff (s : State) : s.pathEmpty = true ↔
    s.urt.arrival = [] ∧ s.pq.entries = [] ∧ ∀ g : TagIx, s.mli[g].state ≠ .outstanding := by
  have ht : (s.mli.toList.any fun x => x.state == .outstanding) = false ↔ ∀ g : TagIx, s.mli[g].state ≠ .outstanding := by
    rw [List.any_eq_false]
    refine ⟨fun h g => by simpa using h s.mli[g] (by simp), fun h x hx => ?_⟩
    obtain ⟨n, hn, rfl⟩ := List.getElem_of_mem hx
    simpa using h ⟨n, by simpa using hn⟩
  rw [← ht]
  simp [State.pathEmpty, and_assoc]

/-- R128: taking the owners of the slots' tags ends no access. -/
theorem Mli.dropSlotOwners_state (m : Mli) (g : TagIx) : (Mli.dropSlotOwners m)[g].state = m[g].state := by
  simp only [Mli.dropSlotOwners, Vector.get_ofFn_fin]
  generalize m[g] = x
  rcases x.owner with _ | (_ | _ | _) <;> rfl

/-- Settles O19: the discarded slots leave nothing to serve, so the event ends in the HALT test. -/
theorem ilrstnAssertDiscardsSlots : Obligations.IlrstnAssertDiscardsSlots := fun s t hi hr ht => by
  have he : exec .ilrstnAssert s = .next t.haltTest := by
    show execIlrstnAssert s = _
    rw [execIlrstnAssert, if_pos ⟨hi, hr⟩, State.close, State.settle_of_empty rfl rfl, ht]
    rfl
  have hempty : t.pathEmpty = true ↔ s.pq.entries = [] ∧ ∀ g : TagIx, s.mli[g].state ≠ .outstanding := by
    rw [State.pathEmpty_iff]
    have hm : ∀ g : TagIx, t.mli[g].state = s.mli[g].state := fun g => by
      rw [ht]; exact Mli.dropSlotOwners_state s.mli g
    refine ⟨fun h => ⟨?_, fun g => hm g ▸ h.2.2 g⟩, fun h => ⟨by rw [ht], ?_, fun g => (hm g).symm ▸ h.2 g⟩⟩
    · have := h.2.1; rw [ht] at this; simpa using this
    · rw [ht, h.1]; rfl
  have hpath : t.pctl = s.pctl := by rw [ht]
  refine ⟨fun h => ?_, fun hp hq hg => ?_⟩
  · rw [he, State.haltTest, if_neg fun hc => ?_]
    obtain ⟨hq, hg⟩ := hempty.1 hc.2
    rcases h with h | h | ⟨g, h⟩
    · exact h (hpath ▸ hc.1)
    · exact h hq
    · exact hg g h
  · rw [he, State.haltTest, if_pos ⟨by rw [hpath]; exact hp, hempty.2 ⟨hq, hg⟩⟩, ht]
    rfl

/-! ### The part at device reset -/

theorem State.reset_settled : State.reset.Settled where
  order := fun _ h => absurd h (by simp [State.reset, Urt.empty])
  fences := fun _ h => absurd h (by simp [State.reset, Urt.empty])
  streams := fun k => by simp [State.reset, Stt.empty, Stream.free, Stream.reaches]
  drain := fun h => absurd h (by simp [State.reset, Pctl.default])
  waits := fun _ h => absurd h (by simp [State.reset, Urt.empty])
  room := rfl

theorem State.reset_ownerLaw : State.reset.OwnerLaw := by
  have hl : ∀ r : LineIx, State.reset.rab.lines[r].state ≠ .filling := fun r => by
    simp [State.reset, Rab.empty, RabLine.free]
  have hg : ∀ g : TagIx, State.reset.mli[g].state ≠ .outstanding := fun g => by simp [State.reset, Mli.empty, Tag.free]
  exact ⟨fun r h => absurd h (hl r), fun r _ h => absurd h (hl r), fun r h => absurd h (hl r), fun g _ h => absurd h (hg g),
    fun g _ h => absurd h (hg g), fun _ _ h => absurd h (by simp [State.reset, Urt.empty])⟩

/-- Settles O60: every block is empty. -/
theorem resetMeetsTheLaws : Obligations.ResetMeetsTheLaws :=
  ⟨⟨rfl, rfl, rfl⟩, Mli.empty_law, Queue.empty_laws.1, Queue.empty_laws.2, Rab.empty_laws.1, Rab.empty_laws.2,
    ⟨Flt.empty_law, Elog.empty_law⟩, Stt.empty_laws.1, Stt.empty_laws.2, State.reset_config,
    fun h => absurd h (by simp [State.reset, Pctl.default]),
    ⟨List.nodup_nil, fun i => by simp [State.reset, Urt.empty]⟩, State.reset_settled, fun _ => rfl, State.reset_ownerLaw,
    ⟨fun h => absurd rfl h, fun _ _ h => absurd h (by simp [State.reset]), fun _ h => absurd h (by simp [State.reset])⟩⟩

/-! ### The frame of the events inside the part -/

/-- What the events inside the part leave: pins, regions, settings, latch, receiver, the requests held and the credits. -/
structure InsideFrame (s t : State) : Prop where
  pins : t.pins = s.pins
  rdec : t.rdec = s.rdec
  cfg : t.cfg = s.cfg
  latch : t.pctl.latch = s.pctl.latch
  rx : t.rx = s.rx
  pending : t.pending = s.pending
  arrival : t.urt.arrival = s.urt.arrival
  granted : t.urt.granted = s.urt.granted
  withheld : t.urt.withheld = s.urt.withheld
  keys : ∀ i : SlotIx, t.urt.slots[i].map Slot.key = s.urt.slots[i].map Slot.key

theorem AccessFrame.inside {s t : State} (h : AccessFrame s t) : InsideFrame s t :=
  ⟨h.pins, h.rdec, h.cfg, by rw [h.pctl], h.rx, h.pending, h.arrival, h.granted, h.withheld, h.keys⟩

theorem InsideFrame.trans {s t u : State} (h : InsideFrame s t) (k : InsideFrame t u) : InsideFrame s u :=
  ⟨k.pins.trans h.pins, k.rdec.trans h.rdec, k.cfg.trans h.cfg, k.latch.trans h.latch, k.rx.trans h.rx,
    k.pending.trans h.pending, k.arrival.trans h.arrival, k.granted.trans h.granted, k.withheld.trans h.withheld,
    fun i => (k.keys i).trans (h.keys i)⟩

theorem State.quiet_inside (s : State) : InsideFrame s s.quiet :=
  ⟨rfl, rfl, rfl, rfl, rfl, rfl, rfl, rfl, rfl, fun _ => rfl⟩

theorem State.emit_inside (s : State) (m : PortMessage) : InsideFrame s (s.emit m) :=
  ⟨rfl, rfl, rfl, rfl, rfl, rfl, rfl, rfl, rfl, fun _ => rfl⟩

theorem State.advanceStamp_inside (s : State) : InsideFrame s s.advanceStamp :=
  ⟨rfl, rfl, rfl, rfl, rfl, rfl, rfl, rfl, rfl, fun _ => rfl⟩

theorem State.haltTest_latch (s : State) : s.haltTest.pctl.latch = s.pctl.latch := by
  unfold State.haltTest
  split <;> rfl

theorem State.haltTest_inside (s : State) : InsideFrame s s.haltTest :=
  ⟨s.haltTest_pins, s.haltTest_rdec, s.haltTest_cfg, s.haltTest_latch, s.haltTest_rx, s.haltTest_pending,
    by rw [State.haltTest_urt], by rw [State.haltTest_urt], by rw [State.haltTest_urt], fun _ => by rw [State.haltTest_urt]⟩

/-- The end of an event is service steps and a HALT test. -/
theorem State.close_inside (s : State) : InsideFrame s s.close := by
  obtain ⟨D, hD⟩ := s.exists_depthsWithin
  exact (s.settle_work hD).frame.access.inside.trans (State.haltTest_inside _)

theorem State.close_tgen (s : State) : s.close.tgen = s.tgen := by
  obtain ⟨D, hD⟩ := s.exists_depthsWithin
  exact (State.haltTest_tgen _).trans (s.settle_work hD).frame.tgen

/-- What releases leave besides: fault table, log, tags, and the messages of the event. -/
structure ReleaseFrame (s t : State) : Prop extends InsideFrame s t where
  elog : t.elog = s.elog
  faults : t.flt.entries = s.flt.entries
  ranks : t.flt.order = s.flt.order
  overflow : t.flt.ovf = s.flt.ovf
  mli : t.mli = s.mli
  out : t.out = s.out
  tgen : t.tgen = s.tgen

theorem ServiceFrame.release {s t : State} (h : ServiceFrame s t) : ReleaseFrame s t :=
  ⟨h.access.inside, h.elog, h.faults, h.ranks, h.overflow, h.mli, h.out, h.tgen⟩

theorem ReleaseFrame.trans {s t u : State} (h : ReleaseFrame s t) (k : ReleaseFrame t u) : ReleaseFrame s u :=
  ⟨h.toInsideFrame.trans k.toInsideFrame, k.elog.trans h.elog, k.faults.trans h.faults, k.ranks.trans h.ranks,
    k.overflow.trans h.overflow, k.mli.trans h.mli, k.out.trans h.out, k.tgen.trans h.tgen⟩

theorem State.haltTest_release (s : State) : ReleaseFrame s s.haltTest :=
  ⟨s.haltTest_inside, s.haltTest_elog, by rw [State.haltTest_flt], by rw [State.haltTest_flt], by rw [State.haltTest_flt],
    s.haltTest_mli, s.haltTest_out, s.haltTest_tgen⟩

theorem State.close_release (s : State) : ReleaseFrame s s.close := by
  obtain ⟨D, hD⟩ := s.exists_depthsWithin
  exact (s.settle_work hD).frame.release.trans (State.haltTest_release _)

/-- An event of the release rows: service steps, then the end of the event. -/
theorem ReleaseFrame.ofWorks {s t : State} (h : ∀ D, s.depthsWithin D → Works D s t) : ReleaseFrame s t := by
  obtain ⟨D, hD⟩ := s.exists_depthsWithin
  exact (h D hD).frame.release

/-- R109: an issue leaves the log and the fault table. -/
theorem State.issueOne_records (s : State) : s.issueOne.elog = s.elog ∧ s.issueOne.flt = s.flt := by
  have hd : ∀ t i, (s.issueDemand t i).elog = s.elog ∧ (s.issueDemand t i).flt = s.flt := by
    intro t i
    unfold State.issueDemand
    split
    · exact ⟨rfl, rfl⟩
    · split
      · exact ⟨rfl, rfl⟩
      · split
        · unfold State.issueRead
          dsimp only
          split <;> exact ⟨rfl, rfl⟩
        all_goals exact ⟨rfl, rfl⟩
  unfold State.issueOne
  split
  · exact ⟨rfl, rfl⟩
  · exact hd ..
  · unfold State.issuePrefetch
    split <;> exact ⟨rfl, rfl⟩
  · exact ⟨rfl, rfl⟩

theorem State.issueOne_inside (s : State) : InsideFrame s s.issueOne ∧ s.issueOne.tgen = s.tgen := by
  obtain ⟨D, hD⟩ := s.exists_depthsWithin
  rcases s.issueOne_access hD with ⟨u, m, ha, he⟩ | he
  · rw [he]; exact ⟨ha.frame.inside.trans (State.emit_inside _ _), ha.frame.tgen⟩
  · rw [he]; exact ⟨(ServiceFrame.refl s).access.inside, rfl⟩

/-- The four release rows are service steps and the end of the event. -/
theorem exec_release_frame {c : Instr} {s t : State} (h : exec c s = .next t)
    (hc : c = .orderRelease ∨ c = .postWaitRetry ∨ c = .drainWaitRelease ∨ c = .fenceDone) : ReleaseFrame s.quiet t := by
  rcases hc with rfl | rfl | rfl | rfl <;> obtain rfl := Host.Outcome.next.inj h
  · exact (ReleaseFrame.ofWorks fun _ h => State.releaseSlots_work _ h).trans (State.close_release _)
  · exact (ReleaseFrame.ofWorks fun _ _ => State.retryPostWait_work _).trans (State.close_release _)
  · exact (ReleaseFrame.ofWorks fun _ h => State.releaseDrainWaits_work _ h).trans (State.close_release _)
  · exact ReleaseFrame.ofWorks fun _ h => State.testFences_work _ h

/-- READINESS with RESETn high: stream moves, an issue, the end of the event. -/
theorem exec_readiness {s : State} (h : s.pins.resetn = true) :
    exec .readiness s = .next s.quiet.moveStreams.issueOne.close := if_pos h

theorem exec_readiness_reset {s : State} (h : ¬ s.pins.resetn = true) : exec .readiness s = .next s.quiet := if_neg h

theorem exec_readiness_frame {s t : State} (h : exec .readiness s = .next t) :
    InsideFrame s.quiet t ∧ t.tgen = s.tgen ∧ t.elog = s.elog ∧ t.flt.entries = s.flt.entries ∧
      t.flt.order = s.flt.order ∧ t.flt.ovf = s.flt.ovf := by
  by_cases hr : s.pins.resetn = true
  · rw [exec_readiness hr] at h
    obtain rfl := Host.Outcome.next.inj h
    have hm := ReleaseFrame.ofWorks (s := s.quiet) fun _ h => State.moveStreams_work _ h
    have hc := State.close_release s.quiet.moveStreams.issueOne
    obtain ⟨hi, ht⟩ := State.issueOne_inside s.quiet.moveStreams
    obtain ⟨he, hf⟩ := State.issueOne_records s.quiet.moveStreams
    refine ⟨(hm.toInsideFrame.trans hi).trans hc.toInsideFrame, hc.tgen.trans ht, hc.elog.trans he, ?_, ?_, ?_⟩
    · rw [hc.faults, hf]; rfl
    · rw [hc.ranks, hf]; rfl
    · rw [hc.overflow, hf]; rfl
  · rw [exec_readiness_reset hr] at h
    obtain rfl := Host.Outcome.next.inj h
    exact ⟨(ServiceFrame.refl _).access.inside, rfl, rfl, rfl, rfl, rfl⟩

/-- The rows that end accesses or age: the ends of accesses are chains of guarded changes. -/
theorem exec_access_frame {c : Instr} {s t : State} (h : exec c s = .next t)
    (hc : c = .quarantine ∨ c = .idleExpiry ∨ (∃ h d, c = .mcpl h d) ∨ ∃ o, c = .tick o) :
    InsideFrame s.quiet t ∧ ((∀ o, c ≠ .tick o) → t.tgen = s.tgen) := by
  obtain ⟨D, hD⟩ := s.quiet.exists_depthsWithin
  rcases hc with rfl | rfl | ⟨hd, d, rfl⟩ | ⟨o, rfl⟩
  · obtain rfl := Host.Outcome.next.inj h
    have ha := (State.quarantineDue_access (D := D) s.quiet hD).frame
    exact ⟨ha.inside.trans (State.close_inside _), fun _ => (State.close_tgen _).trans ha.tgen⟩
  · obtain rfl := Host.Outcome.next.inj h
    exact ⟨(State.expireStreams_work (D := D) s.quiet).frame.access.inside, fun _ => rfl⟩
  · simp only [exec, execMcpl] at h
    split at h <;> obtain rfl := Host.Outcome.next.inj h
    · have ha := (State.complete_access (D := D) s.quiet hD (mcplTag hd) (mcplOk hd) (mcplData hd d)).frame
      exact ⟨ha.inside.trans (State.close_inside _), fun _ => (State.close_tgen _).trans ha.tgen⟩
    · exact ⟨(ServiceFrame.refl _).access.inside, fun _ => rfl⟩
  · refine ⟨?_, fun hn => absurd rfl (hn o)⟩
    simp only [exec, execTick] at h
    split at h <;> obtain rfl := Host.Outcome.next.inj h
    · obtain ⟨u, ha, he⟩ := State.takeTick_access (D := D) o s.quiet hD
      rw [he]
      exact ((State.advanceStamp_inside _).trans ha.frame.inside).trans (State.haltTest_inside _)
    · exact (ServiceFrame.refl _).access.inside

/-- Settles O18: the frames of the release rows, of READINESS, and of the rows that end accesses or age. -/
theorem insideEventsKeepRequestsAndConfiguration : Obligations.InsideEventsKeepRequestsAndConfiguration := by
  intro c s t hc h
  have frame : InsideFrame s.quiet t ∧ ((∀ o, c ≠ .tick o) → t.tgen = s.tgen) ∧
      (c = .orderRelease ∨ c = .postWaitRetry ∨ c = .drainWaitRelease ∨ c = .fenceDone ∨ c = .readiness →
        t.elog = s.elog ∧ t.flt.entries = s.flt.entries ∧ t.flt.order = s.flt.order ∧ t.flt.ovf = s.flt.ovf) ∧
      (c = .orderRelease ∨ c = .postWaitRetry ∨ c = .drainWaitRelease ∨ c = .fenceDone → t.mli = s.mli ∧ t.out = []) := by
    have acc : c = .quarantine ∨ c = .idleExpiry ∨ (∃ h d, c = .mcpl h d) ∨ (∃ o, c = .tick o) →
        InsideFrame s.quiet t ∧ ((∀ o, c ≠ .tick o) → t.tgen = s.tgen) := exec_access_frame h
    have rel : c = .orderRelease ∨ c = .postWaitRetry ∨ c = .drainWaitRelease ∨ c = .fenceDone → ReleaseFrame s.quiet t :=
      exec_release_frame h
    have whole : ReleaseFrame s.quiet t → InsideFrame s.quiet t ∧ ((∀ o, c ≠ .tick o) → t.tgen = s.tgen) ∧
        (c = .orderRelease ∨ c = .postWaitRetry ∨ c = .drainWaitRelease ∨ c = .fenceDone ∨ c = .readiness →
          t.elog = s.elog ∧ t.flt.entries = s.flt.entries ∧ t.flt.order = s.flt.order ∧ t.flt.ovf = s.flt.ovf) ∧
        (c = .orderRelease ∨ c = .postWaitRetry ∨ c = .drainWaitRelease ∨ c = .fenceDone → t.mli = s.mli ∧ t.out = []) :=
      fun r => ⟨r.toInsideFrame, fun _ => r.tgen, fun _ => ⟨r.elog, r.faults, r.ranks, r.overflow⟩, fun _ => ⟨r.mli, r.out⟩⟩
    rcases hc with hc | hc | hc | hc | hc | hc | hc | hc | hc
    · exact whole (rel (.inl hc))
    · exact whole (rel (.inr (.inl hc)))
    · exact whole (rel (.inr (.inr (.inl hc))))
    · exact whole (rel (.inr (.inr (.inr hc))))
    · subst hc
      obtain ⟨hi, ht, hrec⟩ := exec_readiness_frame h
      exact ⟨hi, fun _ => ht, fun _ => hrec, fun hc => by simp at hc⟩
    · obtain ⟨hi, ht⟩ := acc (.inl hc); subst hc
      exact ⟨hi, ht, fun hc => by simp at hc, fun hc => by simp at hc⟩
    · obtain ⟨hi, ht⟩ := acc (.inr (.inl hc)); subst hc
      exact ⟨hi, ht, fun hc => by simp at hc, fun hc => by simp at hc⟩
    · obtain ⟨hi, ht⟩ := acc (.inr (.inr (.inl hc))); obtain ⟨_, _, rfl⟩ := hc
      exact ⟨hi, ht, fun hc => by simp at hc, fun hc => by simp at hc⟩
    · obtain ⟨hi, ht⟩ := acc (.inr (.inr (.inr hc))); obtain ⟨_, rfl⟩ := hc
      exact ⟨hi, ht, fun hc => by simp at hc, fun hc => by simp at hc⟩
  obtain ⟨f, ht, hrec, hm⟩ := frame
  exact ⟨f.pins, f.rdec, f.cfg, f.latch, f.rx, f.pending, f.arrival, f.granted, f.withheld, f.keys, ht, hrec, hm⟩

end Sys2Proof.Machine
end

section
/-! PROOFS. Chapter 2, the moves of service: what the service steps of the Request Table can do to a slot, each with the
state it finds the slot in, and the laws that every chain of them keeps. -/

namespace Sys2Proof.Machine

/-! ### The moves -/

/-- The states in which a slot waits for a service step of its own (R25). -/
def SlotState.awaitsService (st : SlotState) : Prop :=
  st = .orderWait ∨ st = .drainWait ∨ st = .postWait ∨ st = .fenceWait

/-- A state a request that has arrived outside HALT can be in (R25, R37). -/
def SlotState.notHeld (st : SlotState) : Prop := st ≠ .held

/-- One move of the service of slots that are in a state of `W`. -/
inductive Move (W : SlotState → Prop) : State → State → Prop where
  | finish {s : State} {i : SlotIx} {x : Slot} (st bs) : s.urt.slots[i] = some x → W x.state → Move W s (s.finish i st bs)
  | drainWait {s : State} {i : SlotIx} {x : Slot} {d} : s.urt.slots[i] = some x → W x.state → x.decode = some d →
      s.pq.holdsBack d = true → Move W s (s.slotEnters i .drainWait)
  | issueWait {s : State} {i : SlotIx} {x : Slot} : s.urt.slots[i] = some x → W x.state → Move W s (s.slotEnters i .issueWait)
  | postWait {s : State} {i : SlotIx} {x : Slot} : s.urt.slots[i] = some x → W x.state → Move W s (s.joinPostWait i)
  | join {s : State} {i : SlotIx} {x : Slot} {d r} : s.urt.slots[i] = some x → W x.state → x.kind = .rd →
      x.decode = some d → s.rab.find d.line = some r → s.rab.lines[r].state ≠ .valid →
      Move W s ((s.withRab (s.rab.join r i)).slotEnters i .fillWait)
  | allocate {s : State} {i : SlotIx} {x : Slot} {d r} : s.urt.slots[i] = some x → W x.state → x.kind = .rd →
      x.decode = some d → s.rab.find d.line = none → s.rab.demandVictim = some r →
      Move W s ((s.withRab (s.rab.allocate r (RabLine.fresh d.line d.region .demand [i] none))).slotEnters i .issueWait)
  | hit {s : State} (r : LineIx) : s.rab.lines[r].state = .valid → Move W s (s.withRab (s.rab.hit r))
  | patch {s : State} (l m b) : Move W s (s.withRab (s.rab.patch l m b))
  | merge {s : State} (l m b src f) : Move W s (s.withPq (s.pq.merge l m b src f))
  | create {s : State} {i : SlotIx} {x : Slot} (d m b src f) : s.urt.slots[i] = some x → x.state ≠ .held →
      Move W s (s.withPq (s.pq.create d m b src f))
  | waiting {s : State} (l) : Move W s (s.withUrt { s.urt with postWait := l })
  | room {s : State} : Move W s (s.withPq { s.pq with room := false })
  | notice {s : State} {i : SlotIx} {x : Slot} (src g l) : s.urt.slots[i] = some x → x.state ≠ .held →
      Move W s (s.withStt (s.stt.notice src g l))
  | streams {s : State} : Move W s s.moveStreams
  | flag {s : State} {i : SlotIx} {x : Slot} : s.urt.slots[i] = some x → x.kind = .fence → x.state = .fenceWait →
      Move W s (s.withFlt (s.flt.clearFlag x.source))

/-- A chain of moves. -/
inductive Moves (W : SlotState → Prop) : State → State → Prop where
  | refl {s : State} : Moves W s s
  | tail {s t u : State} : Moves W s t → Move W t u → Moves W s u

section
variable {W : SlotState → Prop}

theorem Moves.one {s t : State} (h : Move W s t) : Moves W s t := .tail .refl h

theorem Moves.trans {s t u : State} (h : Moves W s t) (k : Moves W t u) : Moves W s u := by
  induction k with
  | refl => exact h
  | tail _ m ih => exact ih.tail m

theorem Moves.foldl {α : Type} {f : State → α → State} (hf : ∀ s a, Moves W s (f s a)) (l : List α) (s : State) :
    Moves W s (l.foldl f s) := by
  induction l generalizing s with
  | nil => exact .refl
  | cons a l ih => exact (hf s a).trans (ih _)

/-! ### Each service step is a chain of moves -/

/-- R31: a slot's lookup, with its notice. -/
theorem State.lookup_moves {s : State} {i : SlotIx} {x : Slot} {d : DecodeResult} (hx : s.urt.slots[i] = some x)
    (hw : W x.state) (hk : x.kind = .rd) (hd : x.decode = some d) (hh : ∀ st, W st → st ≠ .held) :
    Moves W s (s.lookup i x d) := by
  have outcome : ∀ u : State, u.urt = s.urt → u.rab = s.rab → Moves W u (u.lookupOutcome i x d) := by
    intro u hu hb
    have hxu : u.urt.slots[i] = some x := by rw [hu]; exact hx
    unfold State.lookupOutcome
    split
    · rename_i r hr
      split
      · rename_i hv
        exact (Moves.one (.hit r hv)).tail (.finish _ _ hxu hw)
      · rename_i hv
        exact .one (.join hxu hw hk hd hr hv)
    · rename_i hn
      split
      · rename_i r hr
        exact .one (.allocate hxu hw hk hd hn hr)
      · exact .one (.issueWait hxu hw)
  have noticed : ∀ u : State, (s.lookupOutcome i x d).notify x.source d = (s.notify x.source d).lookupOutcome i x d := by
    intro _
    unfold State.lookupOutcome
    have h1 : (s.notify x.source d).rab = s.rab := by unfold State.notify; split <;> (try split) <;> rfl
    rw [h1]
    split <;> split <;> (unfold State.notify; split <;> (try split) <;> rfl)
  have hn : Moves W s (s.notify x.source d) := by
    unfold State.notify
    split
    · split
      · exact .one (.notice _ _ _ hx (hh _ hw))
      · exact .refl
    · exact .refl
  have h1 : (s.notify x.source d).rab = s.rab := by unfold State.notify; split <;> (try split) <;> rfl
  unfold State.lookup
  rw [noticed s]
  exact (hn.trans (outcome _ (State.notify_urt ..) h1)).tail .streams

theorem State.faultCheck_moves {s : State} {i : SlotIx} {x : Slot} {d : DecodeResult} (hx : s.urt.slots[i] = some x)
    (hw : W x.state) (hk : x.kind = .rd) (hd : x.decode = some d) (hh : ∀ st, W st → st ≠ .held) :
    Moves W s (s.faultCheck i x d) := by
  unfold State.faultCheck
  split
  · exact .one (.finish _ _ hx hw)
  · split
    · exact State.lookup_moves hx hw hk hd hh
    · exact .one (.issueWait hx hw)

theorem Queue.hasLine_of_youngest {q : Queue} {l : LineAddr} {e : Entry} (h : q.youngest l = some e) : q.hasLine l = true := by
  have := List.mem_filter.1 (List.mem_of_getLast? h)
  exact List.any_eq_true.2 ⟨e, this⟩

theorem Queue.holdsBack_of_youngest {q : Queue} {d : DecodeResult} {e : Entry} (hn : d.type = .normal)
    (h : q.youngest d.line = some e) : q.holdsBack d = true := by
  rw [Queue.holdsBack, if_neg (by simp [hn])]
  exact Queue.hasLine_of_youngest h

theorem State.serveRead_moves {s : State} {i : SlotIx} {x : Slot} {d : DecodeResult} (hx : s.urt.slots[i] = some x)
    (hw : W x.state) (hk : x.kind = .rd) (hd : x.decode = some d) (hh : ∀ st, W st → st ≠ .held) :
    Moves W s (s.serveRead i x d) := by
  unfold State.serveRead
  split
  · rename_i hn
    split
    · rename_i e he
      split
      · exact .one (.finish _ _ hx hw)
      · exact .one (.drainWait hx hw hd (Queue.holdsBack_of_youngest hn he))
    · exact State.faultCheck_moves hx hw hk hd hh
  · split
    · rename_i hb; exact .one (.drainWait hx hw hd hb)
    · exact State.faultCheck_moves hx hw hk hd hh

theorem State.mergeWrite_moves {s : State} {i : SlotIx} {x : Slot} (d : DecodeResult) (hx : s.urt.slots[i] = some x)
    (hw : W x.state) : Moves W s (s.mergeWrite i x d) :=
  ((Moves.one (.merge ..)).tail (.patch ..)).tail (.finish _ _ hx hw)

theorem State.createEntry_moves {s : State} {i : SlotIx} {x : Slot} (d : DecodeResult) (hx : s.urt.slots[i] = some x)
    (hw : W x.state) (hh : ∀ st, W st → st ≠ .held) : Moves W s (s.createEntry i x d) :=
  ((Moves.one (.create d _ _ _ _ hx (hh _ hw))).tail (.patch ..)).tail (.finish _ _ hx hw)

theorem State.serveWrite_moves {s : State} {i : SlotIx} {x : Slot} (d : DecodeResult) (hx : s.urt.slots[i] = some x)
    (hw : W x.state) (hh : ∀ st, W st → st ≠ .held) : Moves W s (s.serveWrite i x d) := by
  unfold State.serveWrite State.offerWrite
  split
  · split
    · exact State.mergeWrite_moves d hx hw
    · split
      · exact State.createEntry_moves d hx hw hh
      · exact .one (.postWait hx hw)
  · exact .one (.issueWait hx hw)

end

theorem SlotState.awaitsService.ne_held {st : SlotState} (h : st.awaitsService) : st ≠ .held := by
  rcases h with h | h | h | h <;> simp [h]

section
variable {W : SlotState → Prop} (hW : ∀ st : SlotState, st.awaitsService → W st)
include hW

theorem Move.widen {s t : State} (h : Move SlotState.awaitsService s t) : Move W s t := by
  cases h with
  | finish st bs hx hw => exact .finish st bs hx (hW _ hw)
  | drainWait hx hw hd hb => exact .drainWait hx (hW _ hw) hd hb
  | issueWait hx hw => exact .issueWait hx (hW _ hw)
  | postWait hx hw => exact .postWait hx (hW _ hw)
  | join hx hw hk hd hf hv => exact .join hx (hW _ hw) hk hd hf hv
  | allocate hx hw hk hd hf hv => exact .allocate hx (hW _ hw) hk hd hf hv
  | hit r hv => exact .hit r hv
  | patch l m b => exact .patch l m b
  | merge l m b src f => exact .merge l m b src f
  | create d m b src f hx hs => exact .create d m b src f hx hs
  | waiting l => exact .waiting l
  | room => exact .room
  | notice src g l hx hs => exact .notice src g l hx hs
  | streams => exact .streams
  | flag hx hk hs => exact .flag hx hk hs

theorem Moves.widen {s t : State} (h : Moves SlotState.awaitsService s t) : Moves W s t := by
  induction h with
  | refl => exact .refl
  | tail _ m ih => exact ih.tail (m.widen hW)

end

/-- R27: the first step of a releasable slot. -/
theorem State.serveFirst_moves {s : State} {i : SlotIx} (h : s.urt.releasable i = true) :
    Moves SlotState.awaitsService s (s.serveFirst i) := by
  obtain ⟨x, d, hx, hd, ho, ha⟩ := Urt.releasable_some h
  have hw : x.state.awaitsService := .inl ho
  unfold State.serveFirst
  cases hk : x.kind <;> simp only [hx, hd, hk]
  · exact State.serveRead_moves hx hw hk hd fun _ h => h.ne_held
  · exact State.serveWrite_moves d hx hw fun _ h => h.ne_held
  · exact .refl
  · exact .refl

theorem State.releaseUpTo_moves (n : Nat) (s : State) : Moves SlotState.awaitsService s (State.releaseUpTo n s) := by
  induction n generalizing s with
  | zero => exact .refl
  | succ n ih =>
    unfold State.releaseUpTo
    split
    · exact .refl
    · rename_i i hi
      exact (State.serveFirst_moves (List.find?_some hi)).trans (ih _)

theorem State.releaseSlots_moves (s : State) : Moves SlotState.awaitsService s s.releaseSlots := s.releaseUpTo_moves 8

theorem State.testFence_moves (s : State) (i : SlotIx) : Moves SlotState.awaitsService s (s.testFence i) := by
  unfold State.testFence
  split
  · rename_i h
    obtain ⟨x, hx, hk, hs⟩ := State.fenceReady_slot h
    have hw : x.state.awaitsService := .inr (.inr (.inr hs))
    unfold State.completeFence
    simp only [hx]
    split
    · exact (Moves.one (.flag hx hk hs)).tail (.finish _ _ hx hw)
    · exact .one (.finish _ _ hx hw)
  · exact .refl

theorem State.testFences_moves (s : State) : Moves SlotState.awaitsService s s.testFences :=
  .foldl State.testFence_moves _ _

theorem State.settle_moves (s : State) : Moves SlotState.awaitsService s s.settle :=
  (s.releaseSlots_moves.trans (State.testFences_moves _)).tail .streams

/-- R50, R53 step 3: the offer, once the room is taken. -/
theorem State.retryPostWait_offer {s : State} (h : ¬ s.pq.room = false) :
    Moves SlotState.awaitsService (s.withPq { s.pq with room := false }) s.retryPostWait := by
  have taken : ∀ {u : State} {i : SlotIx} {x : Slot} (l : List SlotIx), u.urt.slots[i] = some x → x.state = .postWait →
      (u.withUrt { u.urt with postWait := l }).urt.slots[i] = some x ∧ x.state.awaitsService :=
    fun _ hx hp => ⟨hx, .inr (.inr (.inl hp))⟩
  unfold State.retryPostWait
  rw [if_neg h]
  dsimp only
  split
  · exact .refl
  · rename_i i rest _
    split
    · exact .refl
    · rename_i x hx
      split
      · exact .refl
      · rename_i d _
        split
        · exact .refl
        · rename_i hp
          obtain ⟨hx', hw⟩ := taken rest hx (not_not.1 hp)
          split
          · exact (Moves.one (.waiting rest)).trans (State.mergeWrite_moves d hx' hw)
          · split
            · exact (Moves.one (.waiting rest)).trans (State.createEntry_moves d hx' hw fun _ h => h.ne_held)
            · exact .refl

theorem State.retryPostWait_moves (s : State) : Moves SlotState.awaitsService s s.retryPostWait := by
  by_cases h : s.pq.room = false
  · rw [State.retryPostWait, if_pos h]; exact .refl
  · exact (Moves.one .room).trans (State.retryPostWait_offer h)

/-! ### What every move keeps of the slots -/

/-- What a move makes of the slot it serves: the request and its decode result stand, the slot is in none of the states
that only an arrival, a decode moment or an issue gives (R25). -/
structure Slot.Moved (x y : Slot) : Prop where
  key : y.key = x.key
  data : y.data = x.data
  decode : y.decode = x.decode
  tag : y.tag = none ∨ y.tag = x.tag
  state : y.state = .done ∨ y.state = .drainWait ∨ y.state = .postWait ∨ y.state = .issueWait ∨ y.state = .fillWait
  status : y.state = .done ∨ y.status = x.status

section
variable {W : SlotState → Prop}

theorem Urt.update_cases (u : Urt) (i : SlotIx) {x : Slot} (f : Slot → Slot) (hx : u.slots[i] = some x) (j : SlotIx) :
    (u.update i f).slots[j] = u.slots[j] ∨ (j = i ∧ (u.update i f).slots[j] = some (f x)) := by
  by_cases e : j = i
  · subst e; exact .inr ⟨rfl, by rw [Urt.update_self, hx]; rfl⟩
  · exact .inl (Urt.update_other _ _ _ _ e)

/-- What one move does to each slot. -/
theorem Move.slots {s t : State} (m : Move W s t) (j : SlotIx) : t.urt.slots[j] = s.urt.slots[j] ∨
    ∃ x y, s.urt.slots[j] = some x ∧ t.urt.slots[j] = some y ∧ W x.state ∧ x.Moved y ∧
      (y.state = .drainWait → ∃ d, x.decode = some d ∧ s.pq.holdsBack d = true) := by
  have served : ∀ {u : State} {i : SlotIx} {x : Slot} (f : Slot → Slot), u.urt.slots[i] = some x → W x.state →
      x.Moved (f x) → ((f x).state = .drainWait → ∃ d, x.decode = some d ∧ u.pq.holdsBack d = true) →
      (u.urt.update i f).slots[j] = u.urt.slots[j] ∨
        ∃ x y, u.urt.slots[j] = some x ∧ (u.urt.update i f).slots[j] = some y ∧ W x.state ∧ x.Moved y ∧
          (y.state = .drainWait → ∃ d, x.decode = some d ∧ u.pq.holdsBack d = true) := by
    intro u i x f hx hw hm hd
    rcases Urt.update_cases u.urt i f hx j with h | ⟨e, h⟩
    · exact .inl h
    · exact .inr ⟨x, f x, e ▸ hx, h, hw, hm, hd⟩
  cases m with
  | finish st bs hx hw => exact served _ hx hw ⟨rfl, rfl, rfl, .inl rfl, .inl rfl, .inl rfl⟩ (by simp)
  | drainWait hx hw hd hb => exact served _ hx hw ⟨rfl, rfl, rfl, .inr rfl, by simp, .inr rfl⟩ fun _ => ⟨_, hd, hb⟩
  | issueWait hx hw => exact served _ hx hw ⟨rfl, rfl, rfl, .inr rfl, by simp, .inr rfl⟩ (by simp)
  | postWait hx hw => exact served (fun x => { x with state := .postWait }) hx hw ⟨rfl, rfl, rfl, .inr rfl, by simp, .inr rfl⟩ (by simp)
  | join hx hw _ _ _ _ => exact served _ hx hw ⟨rfl, rfl, rfl, .inr rfl, by simp, .inr rfl⟩ (by simp)
  | allocate hx hw _ _ _ _ => exact served _ hx hw ⟨rfl, rfl, rfl, .inr rfl, by simp, .inr rfl⟩ (by simp)
  | _ => exact .inl rfl

/-- No move puts a slot into a state that only an arrival, a decode moment or an issue gives. -/
theorem Moves.slot_before {s t : State} (h : Moves W s t) {i : SlotIx} {y : Slot} (hy : t.urt.slots[i] = some y)
    (hs : y.state = .orderWait ∨ y.state = .fenceWait ∨ y.state = .memWait ∨ y.state = .held) :
    s.urt.slots[i] = some y := by
  induction h with
  | refl => exact hy
  | tail _ m ih =>
    rcases m.slots i with e | ⟨x, z, _, hz, _, hm, _⟩
    · exact ih (e ▸ hy)
    · obtain rfl := Option.some.inj (hz.symm.trans hy)
      rcases hm.state with h | h | h | h | h <;> simp [h] at hs

/-- A slot in a state that is not served stands. -/
theorem Moves.slot_stands {s t : State} (h : Moves W s t) {i : SlotIx} {x : Slot} (hx : s.urt.slots[i] = some x)
    (hs : ¬ W x.state) : t.urt.slots[i] = some x := by
  induction h with
  | refl => exact hx
  | tail _ m ih =>
    rcases m.slots i with e | ⟨z, _, hz, _, hw, _⟩
    · exact e.trans ih
    · exact absurd (Option.some.inj (hz.symm.trans ih) ▸ hw) hs

/-- The decode result of a request stands (R10). -/
theorem Moves.decode {s t : State} (h : Moves W s t) (i : SlotIx) :
    t.urt.slots[i].map Slot.decode = s.urt.slots[i].map Slot.decode := by
  induction h with
  | refl => rfl
  | tail _ m ih =>
    rw [← ih]
    rcases m.slots i with e | ⟨x, y, hx, hy, _, hm, _⟩
    · rw [e]
    · rw [hx, hy]; exact congrArg some hm.decode

theorem Move.arrival {s t : State} (m : Move W s t) : t.urt.arrival = s.urt.arrival := by cases m <;> rfl

theorem Move.mli {s t : State} (m : Move W s t) : t.mli = s.mli := by cases m <;> rfl

theorem Move.pctl {s t : State} (m : Move W s t) : t.pctl = s.pctl := by cases m <;> rfl

/-! ### Waiting reads and the room of a removal (R28, R29, R50) -/

/-- Some entry meets `p`; this only gets easier as entries are merged into, sealed, or added. -/
theorem updateYoungest_mem {l : LineAddr} {f : Entry → Entry} {es : List Entry} {e : Entry} (h : e ∈ es) :
    e ∈ updateYoungest l f es ∨ f e ∈ updateYoungest l f es := by
  induction es with
  | nil => exact absurd h (by simp)
  | cons a es ih =>
    unfold updateYoungest
    rcases List.mem_cons.1 h with h | h
    · subst h; split
      · exact .inl (by simp)
      · split
        · exact .inr (by simp)
        · exact .inl (by simp)
    · split
      · rcases ih h with h | h
        · exact .inl (by simp [h])
        · exact .inr (by simp [h])
      · split <;> exact .inl (by simp [h])

/-- Every entry of `q` has one in `q'` for its line and of its region. -/
def Queue.Covers (q' q : Queue) : Prop := ∀ e ∈ q.entries, ∃ e' ∈ q'.entries, e'.line = e.line ∧ e'.region = e.region

theorem Queue.Covers.holdsBack {q q' : Queue} (h : q'.Covers q) {d : DecodeResult} (hd : q.holdsBack d = true) :
    q'.holdsBack d = true := by
  unfold Queue.holdsBack Queue.hasLineOrRegion Queue.hasLine at *
  split at hd
  · rename_i ht
    rw [if_pos ht]
    obtain ⟨e, he, hp⟩ := List.any_eq_true.1 hd
    obtain ⟨e', he', hl, hr⟩ := h e he
    exact List.any_eq_true.2 ⟨e', he', by rw [hl, hr]; exact hp⟩
  · rename_i ht
    rw [if_neg ht]
    obtain ⟨e, he, hp⟩ := List.any_eq_true.1 hd
    obtain ⟨e', he', hl, _⟩ := h e he
    exact List.any_eq_true.2 ⟨e', he', by rw [hl]; exact hp⟩

theorem Queue.merge_covers (q : Queue) (l m b src f) : (q.merge l m b src f).Covers q := fun e he => by
  rcases updateYoungest_mem (l := l) (f := fun e => e.mergeWrite m b src f) he with h | h
  · exact ⟨e, h, rfl, rfl⟩
  · exact ⟨_, h, rfl, rfl⟩

theorem Entry.seal_region (e : Entry) : e.seal.region = e.region := by unfold Entry.seal; split <;> rfl

theorem Queue.create_covers (q : Queue) (d m b src f) : (q.create d m b src f).Covers q := fun e he => by
  refine ⟨if e.line = d.line then e.seal else e, List.mem_append_left _ (List.mem_map.2 ⟨e, he, rfl⟩), ?_⟩
  split
  · exact ⟨e.seal_line, e.seal_region⟩
  · exact ⟨rfl, rfl⟩

theorem Queue.Covers.refl (q : Queue) : q.Covers q := fun e he => ⟨e, he, rfl, rfl⟩

theorem Queue.Covers.trans {q r u : Queue} (h : r.Covers q) (k : u.Covers r) : u.Covers q := fun e he => by
  obtain ⟨e', he', hl, hr⟩ := h e he
  obtain ⟨e'', he'', hl', hr'⟩ := k e' he'
  exact ⟨e'', he'', hl'.trans hl, hr'.trans hr⟩

/-- No move takes an entry out of the Post Queue. -/
theorem Move.covers {s t : State} (m : Move W s t) : t.pq.Covers s.pq := by
  cases m with
  | merge l m b src f => exact Queue.merge_covers _ _ _ _ _ _
  | create d m b src f _ _ => exact Queue.create_covers _ _ _ _ _ _
  | _ => exact Queue.Covers.refl _

theorem Moves.room {s t : State} (h : Moves W s t) (hr : s.pq.room = false) : t.pq.room = false := by
  induction h with
  | refl => exact hr
  | tail _ m ih => cases m <;> first | exact ih | rfl

theorem State.drainWaitOver_iff (s : State) (i : SlotIx) : s.drainWaitOver i = true ↔ ∃ x d, s.urt.slots[i] = some x ∧
    x.decode = some d ∧ x.kind = .rd ∧ x.state = .drainWait ∧ s.pq.holdsBack d = false := by
  unfold State.drainWaitOver
  cases hx : s.urt.slots[i] with
  | none => simp
  | some x =>
    cases hd : x.decode with
    | none => simp [hd]
    | some d => simp [hd, and_assoc]

/-- What may be over of a read's wait after a move was over before it. -/
theorem Move.drainWaitOver {s t : State} (m : Move W s t) {i : SlotIx} (h : t.drainWaitOver i = true) :
    s.drainWaitOver i = true := by
  obtain ⟨y, d, hy, hd, hk, hs, hb⟩ := (State.drainWaitOver_iff _ _).1 h
  have hb' : s.pq.holdsBack d = false :=
    Bool.eq_false_iff.2 fun hc => by rw [m.covers.holdsBack hc] at hb; exact absurd hb (by simp)
  rcases m.slots i with e | ⟨x, z, _, hz, _, hm, hw⟩
  · exact (State.drainWaitOver_iff _ _).2 ⟨y, d, e ▸ hy, hd, hk, hs, hb'⟩
  · obtain rfl := Option.some.inj (hz.symm.trans hy)
    obtain ⟨d', hd', hc⟩ := hw hs
    rw [hm.decode, hd'] at hd
    rw [Option.some.inj hd, hb'] at hc
    exact absurd hc (by simp)

theorem Moves.drainWaitOver {s t : State} (h : Moves W s t) {i : SlotIx} (ht : t.drainWaitOver i = true) :
    s.drainWaitOver i = true := by
  induction h with
  | refl => exact ht
  | tail _ m ih => exact ih (m.drainWaitOver ht)

theorem Moves.arrival {s t : State} (h : Moves W s t) : t.urt.arrival = s.urt.arrival := by
  induction h with
  | refl => rfl
  | tail _ m ih => exact m.arrival.trans ih

theorem Moves.mli {s t : State} (h : Moves W s t) : t.mli = s.mli := by
  induction h with
  | refl => rfl
  | tail _ m ih => exact m.mli.trans ih

theorem Moves.pctl {s t : State} (h : Moves W s t) : t.pctl = s.pctl := by
  induction h with
  | refl => rfl
  | tail _ m ih => exact m.pctl.trans ih

theorem Moves.waitsSettled {s t : State} (h : Moves W s t) (hs : s.waitsSettled) : t.waitsSettled := fun i hi =>
  Bool.eq_false_iff.2 fun hc => absurd (h.drainWaitOver hc) (by rw [hs i (h.arrival ▸ hi)]; simp)

/-! ### Source fault flags (R138, R139) -/

theorem Flt.clearFlag_flag (f : Flt) (a src : SourceNo) :
    (f.clearFlag a).flags.getLsbD src = (f.flags.getLsbD src && decide (a ≠ src)) := by
  have h : (a.val = src.val) ↔ a = src := Fin.ext_iff.symm
  unfold Flt.clearFlag sourceBit
  rw [BitVec.getLsbD_and, BitVec.getLsbD_not, BitVec.getLsbD_twoPow]
  simp [src.isLt, h]

/-- A source none of whose fences waits keeps its flag. -/
theorem Moves.flag {s t : State} (h : Moves W s t) {src : SourceNo}
    (hs : ∀ (i : SlotIx) (x : Slot), s.urt.slots[i] = some x → x.state = .fenceWait → x.source ≠ src) :
    t.flt.flags.getLsbD src = s.flt.flags.getLsbD src := by
  induction h with
  | refl => rfl
  | tail k m ih =>
    cases m with
    | flag hx _ hst =>
      rw [← ih]
      have hne := hs _ _ (k.slot_before hx (.inr (.inl hst))) hst
      exact (Flt.clearFlag_flag ..).trans (by simp [hne])
    | _ => exact ih

/-- No move sets a flag. -/
theorem Moves.flag_clear {s t : State} (h : Moves W s t) {src : SourceNo} (hs : s.flt.flags.getLsbD src = false) :
    t.flt.flags.getLsbD src = false := by
  induction h with
  | refl => exact hs
  | tail _ m ih =>
    cases m with
    | flag _ _ _ => exact (Flt.clearFlag_flag ..).trans (by simp only [ih, Bool.false_and])
    | _ => exact ih

end

end Sys2Proof.Machine
end

section
/-! PROOFS. The owner law (R67, R71, R72, R107): how it is kept where references go, and where they come. -/

namespace Sys2Proof.Machine

/-! ### Where references go -/

/-- Nothing refers to slot `j`: it is no waiter of a FILLING line, and no OUTSTANDING tag is its own. -/
structure State.Unreferenced (s : State) (j : SlotIx) : Prop where
  waiters : ∀ r : LineIx, s.rab.lines[r].state = .filling → j ∉ s.rab.lines[r].waiters
  owners : ∀ g : TagIx, s.mli[g].state = .outstanding → s.mli[g].owner ≠ some (.slot j)

/-- The states in which a slot waits on memory or on a fill (R25). -/
def SlotState.onMemory (st : SlotState) : Prop := st = .fillWait ∨ st = .issueWait ∨ st = .memWait

theorem SlotState.awaitsService.not_onMemory {st : SlotState} (h : st.awaitsService) : ¬ st.onMemory := by
  rcases h with h | h | h | h <;> simp [h, SlotState.onMemory]

theorem State.OwnerLaw.unreferenced {s : State} (h : s.OwnerLaw) {j : SlotIx}
    (hj : ∀ x, s.urt.slots[j] = some x → ¬ x.state.onMemory) : s.Unreferenced j where
  waiters := fun r hr hm => by
    obtain ⟨x, _, hx, _, _, _, hst, _⟩ := h.waiters r hr j hm
    exact hj x hx (hst.elim .inl fun h => .inr (.inl h.1))
  owners := fun g hg ho => by
    obtain ⟨x, hx, _, hst⟩ := h.slotTags g j hg ho
    exact hj x hx (hst.elim .inl fun h => .inr (.inr h))

/-- A slot outside FILL_WAIT and MEM_WAIT holds no tag. -/
theorem State.OwnerLaw.tag_none {s : State} (h : s.OwnerLaw) {i : SlotIx} {x : Slot} (hx : s.urt.slots[i] = some x)
    (h1 : x.state ≠ .fillWait) (h2 : x.state ≠ .memWait) : x.tag = none := by
  by_contra hc
  exact (h.heldTags i x hx hc).elim h1 h2

/-- What the law asks of the FILLING lines, the tags and the slots when the tags of `E` end: those of a line that fills on
goes on, and a slot that changes is referred to by nothing that goes on. -/
structure State.References (s t : State) (E : TagIx → Prop) : Prop where
  tags : ∀ g : TagIx, t.mli[g].state = .outstanding ↔ s.mli[g].state = .outstanding ∧ ¬ E g
  records : ∀ g : TagIx, t.mli[g].state = .outstanding → t.mli[g].owner = s.mli[g].owner ∧ t.mli[g].kind = s.mli[g].kind
  lines : ∀ r : LineIx, t.rab.lines[r].state = .filling ↔
    s.rab.lines[r].state = .filling ∧ ∀ g, s.rab.lines[r].tag = some g → ¬ E g
  fills : ∀ r : LineIx, t.rab.lines[r].state = .filling → t.rab.lines[r].line = s.rab.lines[r].line ∧
    t.rab.lines[r].waiters = s.rab.lines[r].waiters ∧ t.rab.lines[r].tag = s.rab.lines[r].tag
  slots : ∀ j : SlotIx, t.urt.slots[j] = s.urt.slots[j] ∨
    ((∀ r : LineIx, t.rab.lines[r].state = .filling → j ∉ s.rab.lines[r].waiters) ∧
      (∀ g : TagIx, t.mli[g].state = .outstanding → s.mli[g].owner ≠ some (.slot j)) ∧
      ∀ y, t.urt.slots[j] = some y → y.tag = none)

theorem State.References.ownerLaw {s t : State} {E : TagIx → Prop} (k : State.References s t E) (h : s.OwnerLaw) :
    t.OwnerLaw where
  waiters := fun r hr i hi => by
    obtain ⟨hl, hw, ht⟩ := k.fills r hr
    rw [hw] at hi
    obtain ⟨x, d, hx, hk, hd, hdl, hst, htag⟩ := h.waiters r ((k.lines r).1 hr).1 i hi
    rcases k.slots i with e | ⟨hno, _, _⟩
    · refine ⟨x, d, e.trans hx, hk, hd, hdl.trans hl.symm, ?_, ?_⟩
      · rw [ht]; exact hst
      · rw [ht]; exact htag
    · exact absurd hi (hno r hr)
  issued := fun r g hr hg => by
    obtain ⟨_, _, ht⟩ := k.fills r hr
    rw [ht] at hg
    obtain ⟨hf, hE⟩ := (k.lines r).1 hr
    obtain ⟨ho, hown, hkind⟩ := h.issued r g hf hg
    have hgo := (k.tags g).2 ⟨ho, hE g hg⟩
    obtain ⟨e1, e2⟩ := k.records g hgo
    exact ⟨hgo, e1.trans hown, by rw [e2]; exact hkind⟩
  unissued := fun r hr ht => by
    obtain ⟨_, hw, ht'⟩ := k.fills r hr
    rw [ht'] at ht
    obtain ⟨i, rest, hwr, hi, hrest⟩ := h.unissued r ((k.lines r).1 hr).1 ht
    have same : ∀ j ∈ s.rab.lines[r].waiters, t.urt.slots[j] = s.urt.slots[j] := fun j hj =>
      (k.slots j).resolve_right fun hc => hc.1 r hr hj
    refine ⟨i, rest, hw.trans hwr, ?_, fun j hj => ?_⟩
    · rw [Urt.slotHas, same i (hwr ▸ List.mem_cons_self)]; exact hi
    · rw [Urt.slotHas, same j (hwr ▸ List.mem_cons_of_mem _ hj)]; exact hrest j hj
  lineTags := fun g r hg ho => by
    obtain ⟨hs, hE⟩ := (k.tags g).1 hg
    obtain ⟨hf, ht⟩ := h.lineTags g r hs ((k.records g hg).1 ▸ ho)
    have hr := (k.lines r).2 ⟨hf, fun g' hg' => Option.some.inj (ht.symm.trans hg') ▸ hE⟩
    exact ⟨hr, (k.fills r hr).2.2.trans ht⟩
  slotTags := fun g i hg ho => by
    obtain ⟨hs, _⟩ := (k.tags g).1 hg
    rw [(k.records g hg).1] at ho
    obtain ⟨x, hx, hrest⟩ := h.slotTags g i hs ho
    exact ⟨x, ((k.slots i).resolve_right fun hc => hc.2.1 g hg ho).trans hx, hrest⟩
  heldTags := fun i y hy ht => by
    rcases k.slots i with e | ⟨_, _, hno⟩
    · exact h.heldTags i y (e.symm.trans hy) ht
    · exact absurd (hno y hy) ht

/-- What the law reads of a line: whether it fills, and then the line, its waiters and its tag. -/
def RabLine.SameFill (x y : RabLine) : Prop := (y.state = .filling ↔ x.state = .filling) ∧
  (x.state = .filling → y.line = x.line ∧ y.waiters = x.waiters ∧ y.tag = x.tag)

theorem RabLine.SameFill.refl (x : RabLine) : x.SameFill x := ⟨Iff.rfl, fun _ => ⟨rfl, rfl, rfl⟩⟩

/-- No tag ends; slots that nothing refers to may change. -/
theorem State.OwnerLaw.keep {s t : State} (h : s.OwnerLaw)
    (hm : ∀ g : TagIx, (t.mli[g].state = .outstanding ↔ s.mli[g].state = .outstanding) ∧
      (s.mli[g].state = .outstanding → t.mli[g].owner = s.mli[g].owner ∧ t.mli[g].kind = s.mli[g].kind))
    (hl : ∀ r : LineIx, s.rab.lines[r].SameFill t.rab.lines[r])
    (hs : ∀ j : SlotIx, t.urt.slots[j] = s.urt.slots[j] ∨ (s.Unreferenced j ∧ ∀ y, t.urt.slots[j] = some y → y.tag = none)) :
    t.OwnerLaw :=
  State.References.ownerLaw (E := fun _ => False) (h := h)
    { tags := fun g => by simpa using (hm g).1
      records := fun g hg => (hm g).2 ((hm g).1.1 hg)
      lines := fun r => by simpa using (hl r).1
      fills := fun r hr => (hl r).2 ((hl r).1.1 hr)
      slots := fun j => (hs j).imp id fun ⟨hu, hy⟩ =>
        ⟨fun r hr => hu.waiters r ((hl r).1.1 hr), fun g hg => hu.owners g ((hm g).1.1 hg), hy⟩ }

/-- Neither tags nor slots change. -/
theorem State.OwnerLaw.keep_lines {s t : State} (h : s.OwnerLaw) (hm : t.mli = s.mli)
    (hs : ∀ j : SlotIx, t.urt.slots[j] = s.urt.slots[j]) (hl : ∀ r : LineIx, s.rab.lines[r].SameFill t.rab.lines[r]) :
    t.OwnerLaw :=
  h.keep (fun g => by rw [hm]; exact ⟨Iff.rfl, fun _ => ⟨rfl, rfl⟩⟩) hl fun j => .inl (hs j)

/-- Only slots change, and only such that nothing refers to. -/
theorem State.OwnerLaw.keep_slots {s t : State} (h : s.OwnerLaw) (hm : t.mli = s.mli) (hb : t.rab = s.rab)
    (hs : ∀ j : SlotIx, t.urt.slots[j] = s.urt.slots[j] ∨ (s.Unreferenced j ∧ ∀ y, t.urt.slots[j] = some y → y.tag = none)) :
    t.OwnerLaw :=
  h.keep (fun g => by rw [hm]; exact ⟨Iff.rfl, fun _ => ⟨rfl, rfl⟩⟩) (fun r => by rw [hb]; exact .refl _) hs

/-- One slot that waits for service changes. -/
theorem State.OwnerLaw.serve {s : State} (h : s.OwnerLaw) {i : SlotIx} {x : Slot} (f : Slot → Slot)
    (hx : s.urt.slots[i] = some x) (hw : x.state.awaitsService) (ht : (f x).tag = none ∨ (f x).tag = x.tag) :
    (s.updateSlot i f).OwnerLaw := by
  have hno : ∀ y, s.urt.slots[i] = some y → ¬ y.state.onMemory := fun y hy =>
    Option.some.inj (hx.symm.trans hy) ▸ hw.not_onMemory
  have htag : x.tag = none := h.tag_none hx (fun e => hno x hx (.inl e)) fun e => hno x hx (.inr (.inr e))
  refine h.keep_slots rfl rfl fun j => ?_
  rcases Urt.update_cases s.urt i f hx j with e | ⟨e, e'⟩
  · exact .inl e
  · subst e
    exact .inr ⟨h.unreferenced hno, fun y hy => Option.some.inj (e'.symm.trans hy) ▸ ht.elim id fun ht => ht.trans htag⟩

/-! ### Where references come -/

theorem Rab.update_line (b : Rab) (r q : LineIx) (f : RabLine → RabLine) :
    (b.update r f).lines[q] = if r = q then f b.lines[r] else b.lines[q] := by
  simp only [Rab.update, Vector.get_set_fin]

/-- R71: a slot in FILL_WAIT joins the waiters of the line it reads. -/
theorem State.OwnerLaw.join {s : State} (h : s.OwnerLaw) {i : SlotIx} {x : Slot} {d : DecodeResult} {r : LineIx}
    (hx : s.urt.slots[i] = some x) (hst : x.state = .fillWait) (htag : x.tag = none) (hk : x.kind = .rd)
    (hd : x.decode = some d) (hl : s.rab.lines[r].line = d.line) :
    (s.withRab (s.rab.join r i)).OwnerLaw := by
  have line : ∀ q : LineIx, (s.rab.join r i).lines[q] =
      if r = q then { s.rab.lines[r] with waiters := s.rab.lines[r].waiters ++ [i], origin := .demand }
      else s.rab.lines[q] := fun q => Rab.update_line ..
  have face : ∀ q : LineIx, (s.rab.join r i).lines[q].state = s.rab.lines[q].state ∧
      (s.rab.join r i).lines[q].line = s.rab.lines[q].line ∧ (s.rab.join r i).lines[q].tag = s.rab.lines[q].tag := by
    intro q; rw [line]; split
    · rename_i e; subst e; exact ⟨rfl, rfl, rfl⟩
    · exact ⟨rfl, rfl, rfl⟩
  constructor
  case waiters =>
    intro q hq j hj
    obtain ⟨e1, e2, e3⟩ := face q
    simp only [State.withRab_rab] at hq hj ⊢
    rw [e1] at hq; rw [e2, e3]
    rw [line] at hj
    split at hj
    · rename_i e; subst e
      rcases List.mem_append.1 hj with hj | hj
      · exact h.waiters r hq j hj
      · obtain rfl := List.mem_singleton.1 hj
        exact ⟨x, d, hx, hk, hd, hl.symm, .inl hst, fun g hg => absurd hg (by simp [htag])⟩
    · exact h.waiters q hq j hj
  case issued =>
    intro q g hq hg
    obtain ⟨e1, _, e3⟩ := face q
    exact h.issued q g (e1 ▸ hq) (e3 ▸ hg)
  case unissued =>
    intro q hq ht
    obtain ⟨e1, _, e3⟩ := face q
    obtain ⟨i0, rest, hwr, hi0, hrest⟩ := h.unissued q (e1 ▸ hq) (e3 ▸ ht)
    simp only [State.withRab_rab, State.withRab_urt]
    rw [line]
    split
    · rename_i e; subst e
      refine ⟨i0, rest ++ [i], congrArg (· ++ [i]) hwr, hi0, fun j hj => ?_⟩
      rcases List.mem_append.1 hj with hj | hj
      · exact hrest j hj
      · obtain rfl := List.mem_singleton.1 hj
        simp only [Urt.slotHas, hx]; simp [hst]
    · exact ⟨i0, rest, hwr, hi0, hrest⟩
  case lineTags =>
    intro g q hg ho
    obtain ⟨e1, _, e3⟩ := face q
    obtain ⟨hq, ht⟩ := h.lineTags g q hg ho
    exact ⟨e1.trans hq, e3.trans ht⟩
  case slotTags => exact h.slotTags
  case heldTags => exact h.heldTags

/-- R72: a slot in ISSUE_WAIT allocates a line that was not FILLING. -/
theorem State.OwnerLaw.allocate {s : State} (h : s.OwnerLaw) {i : SlotIx} {x : Slot} {d : DecodeResult} {r : LineIx}
    (hx : s.urt.slots[i] = some x) (hst : x.state = .issueWait) (hk : x.kind = .rd) (hd : x.decode = some d)
    (hr : s.rab.lines[r].state ≠ .filling) :
    (s.withRab (s.rab.allocate r (RabLine.fresh d.line d.region .demand [i] none))).OwnerLaw := by
  have htag : x.tag = none := h.tag_none hx (by simp [hst]) (by simp [hst])
  have line : ∀ q : LineIx, (s.rab.allocate r (RabLine.fresh d.line d.region .demand [i] none)).lines[q] =
      if r = q then RabLine.fresh d.line d.region .demand [i] none else s.rab.lines[q] := fun q => by
    simp only [Rab.allocate, Vector.get_set_fin]
  constructor
  case waiters =>
    intro q hq j hj
    simp only [State.withRab_rab, line] at hq hj ⊢
    by_cases e : r = q
    · rw [if_pos e] at hj ⊢
      obtain rfl := List.mem_singleton.1 hj
      exact ⟨x, d, hx, hk, hd, rfl, .inr ⟨hst, rfl⟩, fun g hg => absurd hg (by simp [htag])⟩
    · rw [if_neg e] at hq hj ⊢
      exact h.waiters q hq j hj
  case issued =>
    intro q g hq hg
    simp only [State.withRab_rab, line] at hq hg
    split at hg
    · exact absurd hg (by simp [RabLine.fresh])
    · rename_i e
      rw [if_neg e] at hq
      exact h.issued q g hq hg
  case unissued =>
    intro q hq ht
    simp only [State.withRab_rab, line] at hq ht ⊢
    split
    · exact ⟨i, [], rfl, by simp only [State.withRab_urt, Urt.slotHas, hx]; simp [hst], by simp⟩
    · rename_i e
      rw [if_neg e] at hq ht
      exact h.unissued q hq ht
  case lineTags =>
    intro g q hg ho
    obtain ⟨hq, ht⟩ := h.lineTags g q hg ho
    have hne : r ≠ q := fun e => hr (e ▸ hq)
    simp only [State.withRab_rab, line, if_neg hne]
    exact ⟨hq, ht⟩
  case slotTags => exact h.slotTags
  case heldTags => exact h.heldTags

/-! ### What every chain of moves keeps of the references -/

theorem Rab.lowestFree_state {b : Rab} {r : LineIx} (h : b.lowestFree = some r) : b.lines[r].state = .free := by
  have := List.find?_some h
  generalize b.lines[r] = x at *
  simpa using this

/-- R72: the line a demand allocation takes does not fill. -/
theorem Rab.demandVictim_state {b : Rab} {r : LineIx} (hb : b.recencyLaw) (h : b.demandVictim = some r) :
    b.lines[r].state ≠ .filling := by
  unfold Rab.demandVictim at h
  split at h
  · rename_i q hq
    obtain rfl := Option.some.inj h
    rw [Rab.lowestFree_state hq]; simp
  · have := (hb.2 r).1 (List.mem_of_mem_head? h)
    rw [this]; simp

/-- R75: the line a prefetch allocation takes does not fill. -/
theorem Rab.prefetchVictim_state {b : Rab} {r : LineIx} (hb : b.recencyLaw) (h : b.prefetchVictim = some r) :
    b.lines[r].state ≠ .filling := by
  unfold Rab.prefetchVictim at h
  split at h
  · rename_i q hq
    obtain rfl := Option.some.inj h
    rw [Rab.lowestFree_state hq]; simp
  · have := (hb.2 r).1 (List.mem_of_find?_eq_some h)
    rw [this]; simp

theorem Rab.find_some {b : Rab} {l : LineAddr} {r : LineIx} (h : b.find l = some r) :
    b.lines[r].state ≠ .free ∧ b.lines[r].line = l := by
  have := List.find?_some h
  generalize b.lines[r] = x at *
  simpa [RabLine.holds] using this

theorem RabLine.patchBytes_sameFill (x : RabLine) (m : ByteMask) (b : LineData) : x.SameFill (x.patchBytes m b) := by
  unfold RabLine.patchBytes RabLine.SameFill
  split <;> simp_all

theorem Rab.patch_sameFill (b : Rab) (l m dt) (r : LineIx) : b.lines[r].SameFill (b.patch l m dt).lines[r] := by
  unfold Rab.patch
  split
  · rw [Rab.update_line]
    split
    · rename_i e; subst e; exact RabLine.patchBytes_sameFill ..
    · exact .refl _
  · exact .refl _

theorem RabLine.invalidate_sameFill (x : RabLine) : x.SameFill x.invalidate := by
  unfold RabLine.invalidate RabLine.SameFill
  split <;> simp_all [RabLine.free]

theorem Rab.invalidate_sameFill (b : Rab) (sel : RabLine → Bool) (r : LineIx) :
    b.lines[r].SameFill (b.invalidate sel).lines[r] := by
  simp only [Rab.invalidate, Vector.get_ofFn_fin]
  split
  · exact RabLine.invalidate_sameFill _
  · exact .refl _

/-- What a move does to the buffer is one of its changes, or nothing. -/
theorem Move.buffer {W : SlotState → Prop} {s t : State} (m : Move W s t) : t.rab = s.rab ∨ BufferChange s.rab t.rab := by
  cases m with
  | join _ _ _ _ _ _ => exact .inr (.join ..)
  | allocate _ _ _ _ hn _ => exact .inr (.allocate _ _ _ rfl hn)
  | hit r hv => exact .inr (.hit _ r hv)
  | patch l m b => exact .inr (.patch ..)
  | _ => exact .inl rfl

theorem Move.bufferLaw {W : SlotState → Prop} {s t : State} (m : Move W s t) (h : s.bufferLaw) : t.bufferLaw := by
  rcases m.buffer with e | c
  · unfold State.bufferLaw; rw [e]; exact h
  · exact c.bufferLaw h

theorem Move.recencyLaw {W : SlotState → Prop} {s t : State} (m : Move W s t) (h : s.recencyLaw) : t.recencyLaw := by
  rcases m.buffer with e | c
  · unfold State.recencyLaw; rw [e]; exact h
  · exact c.recencyLaw h

theorem Move.ownerLaw {s t : State} (m : Move SlotState.awaitsService s t) (h : s.OwnerLaw) (hr : s.recencyLaw) :
    t.OwnerLaw := by
  have entered : ∀ {i : SlotIx} {x : Slot} (st : SlotState), s.urt.slots[i] = some x → x.state.awaitsService →
      (s.slotEnters i st).OwnerLaw ∧ (s.slotEnters i st).urt.slots[i] = some { x with state := st } ∧ x.tag = none := by
    intro i x st hx hw
    refine ⟨h.serve _ hx hw (.inr rfl), ?_, ?_⟩
    · exact (Urt.update_self ..).trans (by rw [hx]; rfl)
    · exact h.tag_none hx (fun e => hw.not_onMemory (.inl e)) fun e => hw.not_onMemory (.inr (.inr e))
  cases m with
  | finish st bs hx hw => exact h.serve _ hx hw (.inl rfl)
  | drainWait hx hw _ _ => exact (entered _ hx hw).1
  | issueWait hx hw => exact (entered _ hx hw).1
  | postWait hx hw => exact (h.serve (fun x => { x with state := .postWait }) hx hw (.inr rfl)).keep_slots rfl rfl fun _ => .inl rfl
  | join hx hw hk hd hf _ =>
    obtain ⟨ho, hx', htag⟩ := entered .fillWait hx hw
    exact ho.join hx' rfl htag hk hd (Rab.find_some hf).2
  | allocate hx hw hk hd hn hv =>
    obtain ⟨ho, hx', _⟩ := entered .issueWait hx hw
    exact ho.allocate hx' rfl hk hd (Rab.demandVictim_state hr hv)
  | hit r hv =>
    refine h.keep_lines rfl (fun _ => rfl) fun q => ?_
    simp only [State.withRab_rab, Rab.hit, Vector.get_set_fin]
    split
    · rename_i e; subst e; simp [RabLine.SameFill]
    · exact .refl _
  | patch l m b => exact h.keep_lines rfl (fun _ => rfl) fun q => Rab.patch_sameFill ..
  | _ => exact h.keep_slots rfl rfl fun _ => .inl rfl

end Sys2Proof.Machine
end

section
/-! PROOFS. What the commands outside the Initiator Link are made of: one list of deeds, what each leaves of the link, and the
first law (R20) with what rests on it. -/

namespace Sys2Proof.Machine

/-! ### The deeds -/

/-- Everything stands but regions, settings, faults, log, time base, receiver, and messages other than responses. -/
structure Aside (s t : State) : Prop where
  urt : t.urt = s.urt
  pq : t.pq = s.pq
  rab : t.rab = s.rab
  stt : t.stt = s.stt
  mli : t.mli = s.mli
  path : t.pctl.path = s.pctl.path
  link : t.linkUp = s.linkUp
  pending : t.pending = s.pending
  responses : ∀ r, PortMessage.resp r ∈ t.out → PortMessage.resp r ∈ s.out

/-- The tags that are OUTSTANDING are the same, with their owners and kinds. -/
def Mli.SameOutstanding (m n : Mli) : Prop := ∀ g : TagIx, (n[g].state = .outstanding ↔ m[g].state = .outstanding) ∧
  (m[g].state = .outstanding → n[g].owner = m[g].owner ∧ n[g].kind = m[g].kind)

/-- One deed of an event outside the Initiator Link. -/
inductive Deed : State → State → Prop where
  | moves {s t : State} : Moves SlotState.awaitsService s t → Deed s t
  | drainWaits {s : State} : Deed s s.releaseDrainWaits
  | ends {s : State} {g : TagIx} (x : Tag) (k) : s.mli[g].state = .outstanding → x.state ≠ .outstanding →
      Deed s ((s.putTag g x).accessEnds s.mli[g] g k)
  | oks {s : State} {g : TagIx} (m) : s.mli[g].state = .outstanding →
      Deed s ((s.putTag g Tag.free).accessOk s.mli[g] g m)
  | issue {s : State} : Deed s s.issueOne
  | tags {s : State} (m : Mli) : Mli.SameOutstanding s.mli m → Deed s (s.withMli m)
  | queueAges {s : State} : Deed s s.tickQueue
  | streams {s : State} (n : Stt) : (∀ k : StreamIx, n.entries[k].valid = true → s.stt.entries[k].valid = true) →
      Deed s (s.withStt n)
  | invalidate {s : State} (sel) : Deed s (s.withRab (s.rab.invalidate sel))
  | halt {s : State} : Deed s s.haltTest
  | aside {s t : State} : Aside s t → Deed s t
  | path {s : State} (p : Pctl) : p.path ≠ .halt → Deed s (s.withPctl p)
  | withheld {s : State} : Deed s s.sendWithheld
  | held {s : State} : s.pctl.path ≠ .halt → Deed s s.releaseHeld

/-- A chain of deeds. -/
inductive Deeds : State → State → Prop where
  | refl {s : State} : Deeds s s
  | tail {s t u : State} : Deeds s t → Deed t u → Deeds s u

theorem Deeds.one {s t : State} (h : Deed s t) : Deeds s t := .tail .refl h

theorem Deeds.trans {s t u : State} (h : Deeds s t) (k : Deeds t u) : Deeds s u := by
  induction k with
  | refl => exact h
  | tail _ d ih => exact ih.tail d

theorem Deeds.foldl {α : Type} {f : State → α → State} (hf : ∀ s a, Deeds s (f s a)) (l : List α) (s : State) :
    Deeds s (l.foldl f s) := by
  induction l generalizing s with
  | nil => exact .refl
  | cons a l ih => exact (hf s a).trans (ih _)

theorem Deeds.emit {s : State} {m : PortMessage} (hm : ∀ r, m ≠ .resp r) : Deeds s (s.emit m) :=
  .one (.aside ⟨rfl, rfl, rfl, rfl, rfl, rfl, rfl, rfl, fun r hr => by
    rcases List.mem_append.1 hr with h | h
    · exact h
    · exact absurd (List.mem_singleton.1 h).symm (hm r)⟩)

/-- A change to what no deed reads. -/
theorem Deeds.plain {s t : State} (h1 : t.urt = s.urt) (h2 : t.pq = s.pq) (h3 : t.rab = s.rab) (h4 : t.stt = s.stt)
    (h5 : t.mli = s.mli) (h6 : t.pctl.path = s.pctl.path) (h7 : t.linkUp = s.linkUp) (h8 : t.pending = s.pending)
    (h9 : t.out = s.out) : Deeds s t :=
  .one (.aside ⟨h1, h2, h3, h4, h5, h6, h7, h8, fun _ h => h9 ▸ h⟩)

/-! ### Each operation is made of deeds -/

theorem State.withRx_deeds (s : State) (x) : Deeds s (s.withRx x) := .plain rfl rfl rfl rfl rfl rfl rfl rfl rfl
theorem State.withTgen_deeds (s : State) (x) : Deeds s (s.withTgen x) := .plain rfl rfl rfl rfl rfl rfl rfl rfl rfl
theorem State.withFlt_deeds (s : State) (x) : Deeds s (s.withFlt x) := .plain rfl rfl rfl rfl rfl rfl rfl rfl rfl
theorem State.withElog_deeds (s : State) (x) : Deeds s (s.withElog x) := .plain rfl rfl rfl rfl rfl rfl rfl rfl rfl
theorem State.withRdec_deeds (s : State) (x) : Deeds s (s.withRdec x) := .plain rfl rfl rfl rfl rfl rfl rfl rfl rfl
theorem State.log_deeds (s : State) (r) : Deeds s (s.log r) := .plain rfl rfl rfl rfl rfl rfl rfl rfl rfl

theorem State.settle_deeds (s : State) : Deeds s s.settle := .one (.moves s.settle_moves)

theorem State.close_deeds (s : State) : Deeds s s.close := s.settle_deeds.tail .halt

/-- A tag that is not OUTSTANDING becomes another that is not. -/
theorem Mli.put_sameOutstanding {m : Mli} {g : TagIx} {x : Tag} (h1 : m[g].state ≠ .outstanding)
    (h2 : x.state ≠ .outstanding) : Mli.SameOutstanding m (Mli.put m g x) := fun a => by
  unfold Mli.put
  rw [Vector.get_set_fin]
  split
  · rename_i e; subst e
    exact ⟨⟨fun h => absurd h h2, fun h => absurd h h1⟩, fun h => absurd h h1⟩
  · exact ⟨Iff.rfl, fun _ => ⟨rfl, rfl⟩⟩

theorem Mli.age_sameOutstanding (m : Mli) : Mli.SameOutstanding m (Mli.age m) := fun g => by
  unfold Mli.age
  rw [Vector.get_ofFn_fin]
  split
  · exact ⟨Iff.rfl, fun _ => ⟨rfl, rfl⟩⟩
  · exact ⟨Iff.rfl, fun _ => ⟨rfl, rfl⟩⟩

theorem Mli.reclaim_sameOutstanding (m : Mli) : Mli.SameOutstanding m (Mli.reclaim m) := fun g => by
  unfold Mli.reclaim
  rw [Vector.get_ofFn_fin]
  split
  · rename_i h
    rw [h]
    exact ⟨by simp [Tag.free], fun h => absurd h (by simp)⟩
  · exact ⟨Iff.rfl, fun _ => ⟨rfl, rfl⟩⟩

theorem State.complete_deeds (s : State) (g ok m) : Deeds s (s.complete g ok m) := by
  unfold State.complete
  split
  · exact s.log_deeds _
  · rename_i h
    exact (Deeds.one (.tags _ (Mli.put_sameOutstanding (by rw [h]; simp) (by simp [Tag.free])))).trans
      (State.log_deeds _ _)
  · rename_i h
    split
    · exact .one (.oks m h)
    · exact .one (.ends Tag.free .fail h (by simp [Tag.free]))

theorem Tag.due_outstanding {x : Tag} {n : Nat} (h : x.due n = true) : x.state = .outstanding := by
  unfold Tag.due at h
  exact (by simpa using h : x.state = .outstanding ∧ n ≤ x.age).1

theorem State.quarantineTag_deeds {s : State} {g : TagIx} (h : s.mli[g].state = .outstanding) : Deeds s (s.quarantineTag g) :=
  (Deeds.one (.ends _ .timeout h (by simp [Tag.quarantine]))).trans (State.settle_deeds _)

theorem State.quarantineDue_deeds (s : State) : Deeds s s.quarantineDue := by
  refine .foldl (fun s g => ?_) _ s
  unfold State.testTag
  split
  · rename_i h; exact State.quarantineTag_deeds (Tag.due_outstanding h)
  · exact .refl

theorem Stt.ageIdle_valid (t : Stt) (k : StreamIx) : t.ageIdle.entries[k].valid = t.entries[k].valid := by
  simp only [Stt.ageIdle, Vector.get_ofFn_fin]
  split <;> rfl

theorem Stt.expire_valid {t : Stt} {n : Nat} {k : StreamIx} (h : (t.expire n).entries[k].valid = true) :
    t.entries[k].valid = true := by
  simp only [Stt.expire, Vector.get_ofFn_fin] at h
  split at h
  · exact absurd h (by simp [Stream.free])
  · exact h

theorem Stt.rewriteNotice_valid {t : Stt} {g : RegionIx} {k : StreamIx} (h : (t.rewriteNotice g).entries[k].valid = true) :
    t.entries[k].valid = true := by
  simp only [Stt.rewriteNotice, Vector.get_ofFn_fin] at h
  split at h
  · exact absurd h (by simp [Stream.free])
  · exact h

theorem Stt.empty_valid (k : StreamIx) : Stt.empty.entries[k].valid = false := by simp [Stt.empty, Stream.free]

theorem State.expireStreams_deeds (s : State) : Deeds s s.expireStreams :=
  .one (.streams _ fun _ h => Stt.expire_valid h)

theorem State.tickStreams_deeds (s : State) : Deeds s s.tickStreams :=
  (Deeds.one (.streams s.stt.ageIdle fun k h => Stt.ageIdle_valid s.stt k ▸ h)).trans (State.expireStreams_deeds _)

theorem State.clearStreams_deeds (s : State) : Deeds s (s.withStt Stt.empty) :=
  .one (.streams _ fun k h => absurd h (by rw [Stt.empty_valid]; simp))

theorem State.doIf_deeds (b : Bool) {f : State → State} (s : State) (hf : Deeds s (f s)) : Deeds s (State.doIf b f s) := by
  unfold State.doIf
  split
  · exact hf
  · exact .refl

theorem State.tickTags_deeds (s : State) : Deeds s s.tickTags :=
  (Deeds.one (.tags (Mli.age s.mli) (Mli.age_sameOutstanding _))).trans (State.quarantineDue_deeds _)

/-- How an event ends: nothing that service reads has changed, or releases, fence tests, stream moves and the HALT test follow
what was done. -/
def State.Ended (s t : State) : Prop := (Aside s t ∧ t.rdec = s.rdec) ∨ ∃ u, Deeds s u ∧ t = u.close

theorem State.Ended.deeds {s t : State} (h : State.Ended s t) : Deeds s t := by
  rcases h with ⟨h, _⟩ | ⟨u, h, rfl⟩
  · exact .one (.aside h)
  · exact h.trans u.close_deeds

theorem Aside.refl (s : State) : Aside s s := ⟨rfl, rfl, rfl, rfl, rfl, rfl, rfl, rfl, fun _ h => h⟩

theorem State.Ended.refl (s : State) : State.Ended s s := .inl ⟨.refl s, rfl⟩

/-- A change to what no service step reads. -/
theorem State.Ended.plain {s t : State} (h1 : t.urt = s.urt) (h2 : t.pq = s.pq) (h3 : t.rab = s.rab) (h4 : t.stt = s.stt)
    (h5 : t.mli = s.mli) (h6 : t.pctl.path = s.pctl.path) (h7 : t.linkUp = s.linkUp) (h8 : t.pending = s.pending)
    (h9 : t.out = s.out) (h10 : t.rdec = s.rdec) : State.Ended s t :=
  .inl ⟨⟨h1, h2, h3, h4, h5, h6, h7, h8, fun _ h => h9 ▸ h⟩, h10⟩

theorem State.Ended.close {s u : State} (h : Deeds s u) : State.Ended s u.close := .inr ⟨u, h, rfl⟩

theorem State.takeTick_ended (o : TickOrder) (s : State) : State.Ended s (s.takeTick o) := by
  unfold State.takeTick
  refine .close ?_
  refine .trans ?_ (State.doIf_deeds _ _ (State.tickStreams_deeds _))
  refine .trans ?_ (State.doIf_deeds _ _ (.one .queueAges))
  refine .trans ?_ (State.tickTags_deeds _)
  refine .trans ?_ (State.doIf_deeds _ _ (State.tickStreams_deeds _))
  exact (s.withTgen_deeds _).trans (State.doIf_deeds _ _ (.one .queueAges))

theorem State.demandRises_deeds (s : State) : Deeds s s.demandRises := by
  unfold State.demandRises
  split
  · exact (Deeds.one (.path _ (by simp))).tail .halt
  · exact .refl

theorem State.sendWithheld_pctl (s : State) : s.sendWithheld.pctl = s.pctl := by
  unfold State.sendWithheld
  split <;> rfl

theorem State.demandFalls_deeds (s : State) : Deeds s s.demandFalls := by
  have hp : Deeds s (s.withPctl { s.pctl with path := .run }).sendWithheld := (Deeds.one (.path _ (by simp))).tail .withheld
  unfold State.demandFalls
  split
  · exact .refl
  · exact hp
  · exact hp.tail (.held (by rw [State.sendWithheld_pctl]; simp))

theorem State.withLatch_deeds (s : State) (b : Bool) : Deeds s (s.withPctl { s.pctl with latch := b }) :=
  .plain rfl rfl rfl rfl rfl rfl rfl rfl rfl

theorem State.setLatch_deeds (s : State) : Deeds s s.setLatch := by
  unfold State.setLatch
  split
  · exact s.withLatch_deeds _
  · exact (s.withLatch_deeds _).trans (State.demandRises_deeds _)

theorem State.clearLatch_deeds (s : State) : Deeds s s.clearLatch := by
  unfold State.clearLatch
  split
  · exact (s.withLatch_deeds _).trans (State.demandFalls_deeds _)
  · exact s.withLatch_deeds _

/-! ### Management frames -/

theorem commandFrame_ended (n : BitVec 16) (arg : Word) (s : State) : State.Ended s (commandFrame n arg s).state := by
  unfold commandFrame
  split
  · exact .close s.setLatch_deeds
  · exact .close s.clearLatch_deeds
  · exact .close ((Deeds.one (.invalidate _)).trans (State.clearStreams_deeds _))
  · unfold popLogFrame
    split
    · exact .refl s
    · exact .plain rfl rfl rfl rfl rfl rfl rfl rfl rfl rfl
  · exact .plain rfl rfl rfl rfl rfl rfl rfl rfl rfl rfl
  · unfold clearFaultFrame
    split
    · exact .plain rfl rfl rfl rfl rfl rfl rfl rfl rfl rfl
    · split
      · split
        · exact .plain rfl rfl rfl rfl rfl rfl rfl rfl rfl rfl
        · exact .refl s
      · exact .refl s
  · exact .close ((Deeds.one (.tags _ (Mli.reclaim_sameOutstanding _))).trans (State.log_deeds _ _))
  · exact .plain rfl rfl rfl rfl rfl rfl rfl rfl rfl rfl
  · exact .refl s

theorem State.rewriteRegion_deeds (s : State) (g r) : Deeds s (s.rewriteRegion g r) :=
  ((s.withRdec_deeds _).tail (.invalidate _)).tail (.streams _ fun _ h => Stt.rewriteNotice_valid h)

theorem objectFrame_ended (o : PortObject) (ws : List Word) (s : State) : State.Ended s (objectFrame o ws s).state := by
  unfold objectFrame
  split
  · unfold globalFrame
    split
    · exact .close (.plain (t := s.applyGlobal _) rfl rfl rfl rfl rfl rfl rfl rfl rfl)
    · exact .refl s
  · unfold defaultRegionFrame
    split
    · exact .close (s.withRdec_deeds _)
    · exact .refl s
  · unfold regionFrame
    split
    · exact .close (s.rewriteRegion_deeds _ _)
    · exact .refl s
  all_goals exact .refl s

theorem Frame.run_ended (f : Frame) (s : State) : State.Ended s (f.run s).state := by
  cases f
  case read n =>
    show State.Ended s (readFrame n s).state
    unfold readFrame
    split <;> exact .refl s
  case write o ws => exact objectFrame_ended o ws s
  case command n arg => exact commandFrame_ended n arg s
  all_goals exact .refl s

theorem State.sampleBit_deeds (s : State) (msi : Bool) : Deeds s (s.sampleBit msi) := by
  unfold State.sampleBit
  split
  · exact .refl
  · split
    · unfold State.takeBit State.takeBytes
      split
      · exact s.withRx_deeds _
      · split
        · exact (Frame.run_ended _ s).deeds.trans (State.withRx_deeds _ _)
        · exact s.withRx_deeds _
    · exact .refl
  · exact s.withRx_deeds _
  · exact .refl

theorem State.clockBit_deeds (s : State) (msi : Bool) : Deeds s (s.clockBit msi) := by
  unfold State.clockBit
  split
  · exact (Deeds.emit (by simp)).trans (State.sampleBit_deeds _ _)
  · exact .refl

theorem State.clockBytes_deeds (s : State) (bytes : List Byte) : Deeds s (s.clockBytes bytes) :=
  .foldl (fun s b => .foldl State.clockBit_deeds (bitsHighFirst b) s) bytes s

/-! ### Every command outside the Initiator Link -/

/-- The commands that move requests, responses or the link itself. -/
def Instr.atLink : Instr → Bool
  | .req _ _ _ => true
  | .resp => true
  | .ilrstnAssert => true
  | .ilrstnDeassert => true
  | .resetnAssert => true
  | .resetnRelease _ => true
  | _ => false

/-- The commands that clock a frame in, and those whose event has no further end. -/
def Instr.endless (c : Instr) : Bool :=
  c.isFrame || c == .fenceDone || c == .idleExpiry || c == .haltEntry

theorem exec_ended {c : Instr} {s : State} (hc : Instr.atLink c = false) (he : Instr.endless c = false) :
    ∃ t, exec c s = .next t ∧ State.Ended s.quiet t := by
  have pin : ∀ b, Deeds s.quiet (s.quiet.withPins { s.pins with qreq := b }) := fun _ =>
    .plain rfl rfl rfl rfl rfl rfl rfl rfl rfl
  cases c
  case req => cases hc
  case resp => cases hc
  case ilrstnAssert => cases hc
  case ilrstnDeassert => cases hc
  case resetnAssert => cases hc
  case resetnRelease => cases hc
  case orderRelease => exact ⟨_, rfl, .close (.one (.moves (State.releaseSlots_moves _)))⟩
  case postWaitRetry => exact ⟨_, rfl, .close (.one (.moves (State.retryPostWait_moves _)))⟩
  case drainWaitRelease => exact ⟨_, rfl, .close (.one .drainWaits)⟩
  case readiness =>
    by_cases h : s.pins.resetn = true
    · exact ⟨_, if_pos h, .close ((Deeds.one (.moves (.one .streams))).tail .issue)⟩
    · exact ⟨_, if_neg h, .refl _⟩
  case mcpl hd d =>
    by_cases h : s.pins.resetn = true
    · exact ⟨_, if_pos h, .close (State.complete_deeds _ _ _ _)⟩
    · exact ⟨_, if_neg h, .refl _⟩
  case tick o =>
    by_cases h : s.ticking = true
    · exact ⟨_, if_pos h, State.takeTick_ended _ _⟩
    · exact ⟨_, if_neg h, .refl _⟩
  case quarantine => exact ⟨_, rfl, .close (State.quarantineDue_deeds _)⟩
  case deadlineReached => exact ⟨_, rfl, .refl _⟩
  case qreqAssert =>
    by_cases h : s.pins.qreq = false ∧ s.pins.resetn = true ∧ s.pctl.latch = false
    · exact ⟨_, if_pos h, .close ((pin true).trans (State.demandRises_deeds _))⟩
    · exact ⟨_, if_neg h, .plain rfl rfl rfl rfl rfl rfl rfl rfl rfl rfl⟩
  case qreqDeassert =>
    by_cases h : s.pins.qreq = true ∧ s.pins.resetn = true ∧ s.pctl.latch = false
    · exact ⟨_, if_pos h, .close ((pin false).trans (State.demandFalls_deeds _))⟩
    · exact ⟨_, if_neg h, .plain rfl rfl rfl rfl rfl rfl rfl rfl rfl rfl⟩
  case mssnFall =>
    by_cases h : s.pins.mssn = true ∧ s.pins.resetn = true
    · exact ⟨_, if_pos h, .plain rfl rfl rfl rfl rfl rfl rfl rfl rfl rfl⟩
    · exact ⟨_, if_neg h, .plain rfl rfl rfl rfl rfl rfl rfl rfl rfl rfl⟩
  case mssnRise =>
    by_cases h : s.pins.mssn = false
    · exact ⟨_, if_pos h, .plain rfl rfl rfl rfl rfl rfl rfl rfl rfl rfl⟩
    · exact ⟨_, if_neg h, .refl _⟩
  all_goals simp [Instr.endless, Instr.isFrame] at he

/-- A frame's command clocks its bytes in. -/
theorem exec_frame {c : Instr} (s : State) (hc : c.isFrame = true) : ∃ bytes, exec c s = .next (s.quiet.clockBytes bytes) := by
  cases c <;> first | exact absurd hc Bool.false_ne_true | exact ⟨_, rfl⟩

theorem exec_deeds {c : Instr} {s : State} (hc : Instr.atLink c = false) :
    ∃ t, exec c s = .next t ∧ Deeds s.quiet t := by
  by_cases he : Instr.endless c = false
  · obtain ⟨t, ht, h⟩ := exec_ended (s := s) hc he
    exact ⟨t, ht, h.deeds⟩
  · simp only [Instr.endless, Bool.not_eq_false, Bool.or_eq_true, beq_iff_eq] at he
    rcases he with ((hf | rfl) | rfl) | rfl
    · obtain ⟨bytes, h⟩ := exec_frame s hf
      exact ⟨_, h, State.clockBytes_deeds _ _⟩
    · exact ⟨_, rfl, .one (.moves (State.testFences_moves _))⟩
    · exact ⟨_, rfl, State.expireStreams_deeds _⟩
    · exact ⟨_, rfl, .one .halt⟩

theorem State.clockReply_deeds (s : State) : Deeds s s.clockReply := by
  unfold State.clockReply
  split
  · exact s.clockBit_deeds _
  all_goals exact .refl

theorem State.idle_deeds (s : State) : Deeds s.quiet s.idle := by
  refine Deeds.trans ?_ (State.clockReply_deeds _)
  unfold State.refclk
  split
  · split
    · exact (State.withTgen_deeds _ _).trans (State.takeTick_ended _ _).deeds
    · exact State.withTgen_deeds _ _
  · exact .refl

/-! ### What every deed leaves of the link -/

/-- What the deeds leave of the Initiator Link and the queue of commands; credits may move from WITHHELD to GRANTED. -/
structure LinkFrame (s t : State) : Prop where
  pending : t.pending = s.pending
  link : t.linkUp = s.linkUp
  arrival : t.urt.arrival = s.urt.arrival
  credits : t.urt.withheld + t.urt.granted = s.urt.withheld + s.urt.granted
  responses : ∀ r, PortMessage.resp r ∈ t.out → PortMessage.resp r ∈ s.out

theorem LinkFrame.refl (s : State) : LinkFrame s s := ⟨rfl, rfl, rfl, rfl, fun _ h => h⟩

theorem LinkFrame.trans {s t u : State} (h : LinkFrame s t) (k : LinkFrame t u) : LinkFrame s u :=
  ⟨k.pending.trans h.pending, k.link.trans h.link, k.arrival.trans h.arrival, k.credits.trans h.credits,
    fun r hr => h.responses r (k.responses r hr)⟩

theorem AccessFrame.link {s t : State} (h : AccessFrame s t) : LinkFrame s t :=
  ⟨h.pending, by unfold State.linkUp; rw [h.pins], h.arrival, by rw [h.withheld, h.granted], fun _ hr => h.out ▸ hr⟩

theorem Accesses.link {s t : State} (h : ∀ D, s.depthsWithin D → Accesses D s t) : LinkFrame s t := by
  obtain ⟨D, hD⟩ := s.exists_depthsWithin
  exact (h D hD).frame.link

theorem Move.frame {W : SlotState → Prop} {s t : State} (m : Move W s t) : t.pending = s.pending ∧ t.pins = s.pins ∧
    t.urt.granted = s.urt.granted ∧ t.urt.withheld = s.urt.withheld ∧ t.out = s.out := by
  cases m <;> exact ⟨rfl, rfl, rfl, rfl, rfl⟩

theorem Moves.link {W : SlotState → Prop} {s t : State} (h : Moves W s t) : LinkFrame s t := by
  induction h with
  | refl => exact .refl _
  | tail _ m ih =>
    obtain ⟨h1, h2, h3, h4, h5⟩ := m.frame
    exact ih.trans ⟨h1, by unfold State.linkUp; rw [h2], m.arrival, by rw [h3, h4], fun _ h => h5 ▸ h⟩

theorem State.issueOne_out (s : State) (r : Resp) : PortMessage.resp r ∈ s.issueOne.out → PortMessage.resp r ∈ s.out := by
  have emitted : ∀ {u : State} {m : Mreq}, u.out = s.out → PortMessage.resp r ∈ (u.emit (.mreq m)).out → PortMessage.resp r ∈ s.out := by
    intro u m hu h
    rcases List.mem_append.1 h with h | h
    · exact hu ▸ h
    · exact absurd (List.mem_singleton.1 h) (by simp)
  unfold State.issueOne
  split
  · exact emitted rfl
  · unfold State.issueDemand
    split
    · exact id
    · split
      · exact id
      · split
        · unfold State.issueRead
          dsimp only
          split <;> exact emitted rfl
        · exact emitted rfl
        · exact id
        · exact id
  · unfold State.issuePrefetch
    split
    · exact id
    · exact emitted rfl
  · exact id

theorem State.issueOne_link (s : State) : LinkFrame s s.issueOne :=
  ⟨s.issueOne_inside.1.pending, by unfold State.linkUp; rw [s.issueOne_inside.1.pins], s.issueOne_inside.1.arrival,
    by rw [s.issueOne_inside.1.withheld, s.issueOne_inside.1.granted], s.issueOne_out⟩

theorem Deed.link {s t : State} (h : Deed s t) : LinkFrame s t := by
  cases h with
  | moves h => exact h.link
  | drainWaits => exact Accesses.link fun _ h => (s.releaseDrainWaits_work h).accesses
  | @ends g x k _ _ =>
    exact LinkFrame.trans (t := s.putTag g x) ⟨rfl, rfl, rfl, rfl, fun _ h => h⟩
      (Accesses.link fun _ h => State.accessEnds_access _ h ..)
  | @oks g m _ =>
    exact LinkFrame.trans (t := s.putTag g Tag.free) ⟨rfl, rfl, rfl, rfl, fun _ h => h⟩
      (Accesses.link fun _ h => State.accessOk_access _ h ..)
  | issue => exact s.issueOne_link
  | tags _ _ => exact ⟨rfl, rfl, rfl, rfl, fun _ h => h⟩
  | queueAges => exact ⟨rfl, rfl, rfl, rfl, fun _ h => h⟩
  | streams _ _ => exact ⟨rfl, rfl, rfl, rfl, fun _ h => h⟩
  | invalidate _ => exact ⟨rfl, rfl, rfl, rfl, fun _ h => h⟩
  | halt =>
    exact ⟨s.haltTest_pending, by unfold State.linkUp; rw [State.haltTest_pins], by rw [State.haltTest_urt],
      by rw [State.haltTest_urt], fun _ h => s.haltTest_out ▸ h⟩
  | aside h => exact ⟨h.pending, h.link, by rw [h.urt], by rw [h.urt], h.responses⟩
  | path _ _ => exact ⟨rfl, rfl, rfl, rfl, fun _ h => h⟩
  | withheld =>
    unfold State.sendWithheld
    split
    · refine ⟨rfl, rfl, rfl, by show 0 + (s.urt.granted + s.urt.withheld) = _; omega, fun r h => ?_⟩
      rcases List.mem_append.1 h with h | h
      · exact h
      · exact absurd (List.mem_singleton.1 h) (by simp)
    · exact .refl _
  | held _ => exact Accesses.link fun _ h => (s.releaseHeld_work h).accesses

theorem Deeds.link {s t : State} (h : Deeds s t) : LinkFrame s t := by
  induction h with
  | refl => exact .refl _
  | tail _ d ih => exact ih.trans d.link

/-- Under the first law the sum of slots and credits stands with the link. -/
theorem LinkFrame.creditLaw {s t : State} (h : LinkFrame s t) (hs : s.creditLaw) : t.creditLaw := by
  unfold State.creditLaw Urt.occupied at *
  rw [h.link, h.arrival]
  have := h.credits
  split at hs
  · rename_i hl; rw [if_pos hl]; omega
  · rename_i hl; rw [if_neg hl]; omega

end Sys2Proof.Machine
end

section
/-! PROOFS. The first law (R20), the completeness of every command, and the order of responses (R38). -/

namespace Sys2Proof.Machine

/-! ### The commands at the Initiator Link -/

/-- Under the first law a credit means a free slot (R23). -/
theorem State.lowestFree_of_credit {s : State} (hc : s.creditLaw) (ha : s.arrivalLaw) (hl : s.linkUp = true)
    (hg : 0 < s.urt.granted) : ∃ i, s.urt.lowestFree = some i := by
  unfold State.creditLaw Urt.occupied at hc
  rw [if_pos hl] at hc
  refine Option.ne_none_iff_exists'.1 fun hn => ?_
  have hall : ∀ i : SlotIx, i ∈ s.urt.arrival := fun i => by
    rw [ha.2 i]
    have := List.find?_eq_none.1 hn i (List.mem_finRange i)
    generalize s.urt.slots[i] = x at *
    cases x <;> simp_all
  have hcard : s.urt.arrival.toFinset.card = 8 := by
    rw [Finset.eq_univ_iff_forall.2 fun i => List.mem_toFinset.2 (hall i)]; simp
  rw [List.toFinset_card_of_nodup ha.1] at hcard
  omega

theorem exec_resp_none {s : State} (h : s.linkUp = false ∨ s.urt.nextResponse = none) :
    exec .resp s = .next s.quiet := by
  simp only [exec, execResp]
  split
  · rfl
  · rename_i hl
    rw [h.resolve_left hl]

theorem exec_resp_some {s : State} {i : SlotIx} (hl : s.linkUp = true) (hi : s.urt.nextResponse = some i) :
    exec .resp s = .next (s.quiet.respond i).close := by
  simp only [exec, execResp, hl, hi, Bool.true_eq_false, if_false]

theorem Urt.eligible_iff (u : Urt) (i : SlotIx) : u.eligible i = true ↔ ∃ x, u.slots[i] = some x ∧ x.state = .done ∧
    ∀ j ∈ u.older i, ∀ y, u.slots[j] = some y → y.source ≠ x.source := by
  unfold Urt.eligible
  cases hx : u.slots[i] with
  | none => simp
  | some x =>
    have hall : ((u.older i).all fun j => !u.slotHas j fun o => o.source == x.source) = true ↔
        ∀ j ∈ u.older i, ∀ y, u.slots[j] = some y → y.source ≠ x.source := by
      rw [List.all_eq_true]
      refine forall_congr' fun j => forall_congr' fun _ => ?_
      unfold Urt.slotHas
      cases u.slots[j] <;> simp
    simp only [Bool.and_eq_true, beq_iff_eq, hall, Option.some.injEq, exists_eq_left']

/-- R38: the slot that answers is DONE and the oldest of its SOURCE. -/
theorem Urt.nextResponse_some {u : Urt} {i : SlotIx} (h : u.nextResponse = some i) : i ∈ u.arrival ∧ ∃ x,
    u.slots[i] = some x ∧ x.state = .done ∧ ∀ j ∈ u.older i, ∀ y, u.slots[j] = some y → y.source ≠ x.source :=
  ⟨List.mem_of_find?_eq_some h, (u.eligible_iff i).1 (List.find?_some h)⟩

theorem State.respond_some {s : State} {i : SlotIx} {x : Slot} (hx : s.urt.slots[i] = some x) : s.respond i =
    ((s.emit (.resp (x.resp (s.pctl.path == .run)))).withUrt (s.urt.free i)).creditStep := by
  simp only [State.respond, hx]

theorem State.creditStep_frame (s : State) : s.creditStep.out = s.out ∧ s.creditStep.pending = s.pending ∧
    s.creditStep.pins = s.pins ∧ s.creditStep.urt.arrival = s.urt.arrival ∧
    s.creditStep.urt.withheld + s.creditStep.urt.granted = s.urt.withheld + s.urt.granted + 1 := by
  unfold State.creditStep
  split
  · exact ⟨rfl, rfl, rfl, rfl, rfl⟩
  · refine ⟨rfl, rfl, rfl, rfl, ?_⟩
    show s.urt.withheld + 1 + s.urt.granted = _
    omega

theorem State.linkComesUp_frame (s : State) : s.linkComesUp.pending = s.pending ∧ s.linkComesUp.pins = s.pins ∧
    s.linkComesUp.urt.arrival = s.urt.arrival ∧ s.linkComesUp.urt.withheld + s.linkComesUp.urt.granted = 8 ∧
    ∀ r, PortMessage.resp r ∈ s.linkComesUp.out → PortMessage.resp r ∈ s.out := by
  unfold State.linkComesUp
  split
  · refine ⟨rfl, rfl, rfl, rfl, fun r h => ?_⟩
    rcases List.mem_append.1 h with h | h
    · exact h
    · exact absurd (List.mem_singleton.1 h) (by simp)
  · exact ⟨rfl, rfl, rfl, rfl, fun _ h => h⟩

/-- What the release of RESETn does at the link: WITHHELD and GRANTED are those of a link that comes up, or stand. -/
theorem State.releaseLink_frame (s : State) : s.releaseLink.pending = s.pending ∧ s.releaseLink.pins = s.pins ∧
    s.releaseLink.urt.arrival = s.urt.arrival ∧
    s.releaseLink.urt.withheld + s.releaseLink.urt.granted =
      (if s.pins.ilrstn = true then 8 else s.urt.withheld + s.urt.granted) ∧
    ∀ r, PortMessage.resp r ∈ s.releaseLink.out → PortMessage.resp r ∈ s.out := by
  unfold State.releaseLink
  split
  · exact s.linkComesUp_frame
  · exact ⟨rfl, rfl, rfl, rfl, fun _ h => h⟩

theorem State.releaseDemand_deeds (s : State) : Deeds s s.releaseDemand := by
  unfold State.releaseDemand
  split
  · exact s.demandRises_deeds
  · exact .refl

theorem State.releaseDemand_urt (s : State) : s.releaseDemand.urt = s.urt ∧ s.releaseDemand.pins = s.pins := by
  unfold State.releaseDemand State.demandRises
  split
  · split
    · exact ⟨State.haltTest_urt _, State.haltTest_pins _⟩
    · exact ⟨rfl, rfl⟩
  · exact ⟨rfl, rfl⟩

theorem exec_resetnRelease_down {s : State} (h : ¬ s.pins.resetn = true) (o : ReleaseOrder) :
    exec (.resetnRelease o) s = .next (match o with
      | .linkFirst => (s.quiet.withPins { s.pins with resetn := true }).releaseLink.releaseDemand
      | .demandFirst => (s.quiet.withPins { s.pins with resetn := true }).releaseDemand.releaseLink) := by
  simp only [exec, execResetnRelease, if_neg h]
  cases o <;> rfl

/-! ### Every command completes, and only RESP sends a response -/

/-- What a command that does not fault leaves: the queue of commands, and, but for RESP, no response goes out. -/
def State.Taken (c : Instr) (s t : State) : Prop :=
  t.pending = s.pending ∧ (c ≠ .resp → ∀ r, PortMessage.resp r ∉ t.out)

theorem LinkFrame.taken {c : Instr} {s t u : State} (h : LinkFrame t u) (hp : t.pending = s.pending)
    (ho : ∀ r, PortMessage.resp r ∉ t.out) : State.Taken c s u :=
  ⟨h.pending.trans hp, fun _ r hr => ho r (h.responses r hr)⟩

theorem State.quiet_no_resp (s : State) (r : Resp) : PortMessage.resp r ∉ s.quiet.out := List.not_mem_nil

theorem exec_taken {c : Instr} {s : State}
    (hf : ∀ header addr data, c = .req header addr data → s.linkUp = true → 0 < s.urt.granted →
      ∃ i, s.urt.lowestFree = some i) :
    ∃ t, exec c s = .next t ∧ State.Taken c s t := by
  by_cases hc : Instr.atLink c = false
  · obtain ⟨t, ht, hd⟩ := exec_deeds (s := s) hc
    exact ⟨t, ht, hd.link.taken rfl s.quiet_no_resp⟩
  have still : State.Taken c s s.quiet := (LinkFrame.refl _).taken rfl s.quiet_no_resp
  cases c
  case req header addr data =>
    rcases Bool.eq_false_or_eq_true s.linkUp with hl | hl
    · rcases Nat.eq_zero_or_pos s.urt.granted with hg | hg
      · exact ⟨_, exec_req_overrun header addr data hl hg, rfl, fun _ r => s.quiet_no_resp r⟩
      · obtain ⟨i, hi⟩ := hf header addr data rfl hl hg
        obtain ⟨st, hfr⟩ := s.quiet.takeRequest_frame i header addr data
        refine ⟨_, exec_req_taken hl hg hi, hfr.pending, fun _ r => ?_⟩
        rw [hfr.out]
        exact s.quiet_no_resp r
    · exact ⟨_, exec_req_down header addr data hl, still⟩
  case resp =>
    rcases Bool.eq_false_or_eq_true s.linkUp with hl | hl
    · cases hi : s.urt.nextResponse with
      | none => exact ⟨_, exec_resp_none (.inr hi), still⟩
      | some i =>
        obtain ⟨_, x, hx, _⟩ := Urt.nextResponse_some hi
        refine ⟨_, exec_resp_some hl hi, (State.close_deeds _).link.pending.trans ?_, fun h => absurd rfl h⟩
        rw [State.respond_some (s := s.quiet) hx, (State.creditStep_frame _).2.1]
        rfl
    · exact ⟨_, exec_resp_none (.inl hl), still⟩
  case ilrstnAssert =>
    by_cases h : s.pins.ilrstn = true ∧ s.pins.resetn = true
    · exact ⟨_, if_pos h, (State.close_deeds _).link.taken rfl s.quiet_no_resp⟩
    · exact ⟨_, if_neg h, rfl, fun _ r => s.quiet_no_resp r⟩
  case ilrstnDeassert =>
    by_cases h : s.pins.ilrstn = false ∧ s.pins.resetn = true
    · obtain ⟨hp, _, _, _, ho⟩ := State.linkComesUp_frame (s.quiet.withPins { s.pins with ilrstn := true })
      exact ⟨_, if_pos h, hp, fun _ r hr => s.quiet_no_resp r (ho r hr)⟩
    · exact ⟨_, if_neg h, rfl, fun _ r => s.quiet_no_resp r⟩
  case resetnAssert =>
    by_cases h : s.pins.resetn = true
    · exact ⟨_, if_pos h, rfl, fun _ r => s.quiet_no_resp r⟩
    · exact ⟨_, if_neg h, still⟩
  case resetnRelease o =>
    by_cases h : s.pins.resetn = true
    · exact ⟨_, if_pos h, still⟩
    · refine ⟨_, exec_resetnRelease_down h o, ?_⟩
      cases o
      · obtain ⟨hp, _, _, _, ho⟩ := State.releaseLink_frame (s.quiet.withPins { s.pins with resetn := true })
        exact (State.releaseDemand_deeds _).link.taken hp fun r hr => s.quiet_no_resp r (ho r hr)
      · have hd := (State.releaseDemand_deeds (s.quiet.withPins { s.pins with resetn := true })).link
        obtain ⟨hp, _, _, _, ho⟩ := State.releaseLink_frame (s.quiet.withPins { s.pins with resetn := true }).releaseDemand
        exact ⟨hp.trans hd.pending, fun _ r hr => s.quiet_no_resp r (hd.responses r (ho r hr))⟩
  all_goals exact absurd rfl hc

/-- Settles O3: a credit means a free slot, and no other command can fault. -/
theorem everyCommandCompletes : Obligations.EveryCommandCompletes := fun _ _ hc ha => by
  obtain ⟨t, ht, hp, _⟩ := exec_taken fun _ _ _ _ => State.lowestFree_of_credit hc ha
  exact ⟨t, ht, hp⟩

/-- A REQ that finds no free slot faults, so a command that answers `next` was taken. -/
theorem exec_next_taken {c : Instr} {s t : State} (h : exec c s = .next t) : State.Taken c s t := by
  have hf : ∀ header addr data, c = .req header addr data → s.linkUp = true → 0 < s.urt.granted →
      ∃ i, s.urt.lowestFree = some i := by
    intro header addr data hc hl hg
    refine Option.ne_none_iff_exists'.1 fun hn => ?_
    subst hc
    simp [exec, execReq, hl, Nat.ne_of_gt hg, hn] at h
  obtain ⟨u, hu, ht⟩ := exec_taken hf
  exact Host.Outcome.next.inj (hu.symm.trans h) ▸ ht

/-- Settles O13: no command but RESP sends a response, and RESP sends that of the oldest eligible slot. -/
theorem responsesKeepSourceOrder : Obligations.ResponsesKeepSourceOrder := fun c s t r h hr => by
  have hc : c = .resp := by
    by_contra hc
    exact (exec_next_taken h).2 hc r hr
  subst hc
  refine ⟨rfl, ?_⟩
  by_cases hn : s.linkUp = false ∨ s.urt.nextResponse = none
  · rw [exec_resp_none hn] at h
    obtain rfl := Host.Outcome.next.inj h
    exact absurd hr (s.quiet_no_resp r)
  obtain ⟨hl, hi⟩ := not_or.1 hn
  obtain ⟨i, hi⟩ := Option.ne_none_iff_exists'.1 hi
  obtain ⟨hmem, x, hx, hst, hold⟩ := Urt.nextResponse_some hi
  rw [exec_resp_some (Bool.eq_true_of_not_eq_false hl) hi] at h
  obtain rfl := Host.Outcome.next.inj h
  have hout := (State.close_deeds _).link.responses r hr
  rw [State.respond_some (s := s.quiet) hx, (State.creditStep_frame _).1] at hout
  have hres : r = x.resp (s.pctl.path == .run) := by simpa [State.quiet] using hout
  exact ⟨i, x, hmem, hx, hst, by rw [hres]; rfl, by rw [hres]; rfl, by rw [hres]; rfl, by rw [hres]; rfl, hold⟩

/-! ### The first law (R20) -/

theorem State.creditLaw_up {s : State} (h : s.linkUp = true) :
    s.creditLaw ↔ s.urt.occupied + s.urt.withheld + s.urt.granted = 8 := by
  unfold State.creditLaw; rw [if_pos h]

theorem State.creditLaw_down {s : State} (h : s.linkUp = false) :
    s.creditLaw ↔ s.urt.occupied = 0 ∧ s.urt.withheld = 0 ∧ s.urt.granted = 0 := by
  unfold State.creditLaw; rw [if_neg (by rw [h]; simp)]

theorem State.linkUp_of_ilrstn {s : State} (h : s.pins.ilrstn = false) : s.linkUp = false := by
  unfold State.linkUp; rw [h, Bool.and_false]

theorem State.takeRequest_creditLaw {s : State} {i : SlotIx} {header addr : Word} {data : Vector Word 8}
    (hl : s.linkUp = true) (hg : 0 < s.urt.granted) (hs : s.creditLaw) : (s.takeRequest i header addr data).creditLaw := by
  obtain ⟨st, hf⟩ := s.takeRequest_frame i header addr data
  have hup : (s.takeRequest i header addr data).linkUp = true := by
    unfold State.linkUp; rw [hf.pins]; exact hl
  rw [State.creditLaw_up hl] at hs
  rw [State.creditLaw_up hup, Urt.occupied, hf.arrival, hf.withheld, hf.granted]
  simp only [Urt.take, State.withUrt_urt, List.length_append, List.length_singleton]
  unfold Urt.occupied at hs
  omega

theorem State.respond_creditLaw {s : State} {i : SlotIx} (hl : s.linkUp = true) (hi : s.urt.nextResponse = some i)
    (hs : s.creditLaw) : (s.respond i).creditLaw := by
  obtain ⟨hmem, x, hx, _⟩ := Urt.nextResponse_some hi
  rw [State.respond_some hx]
  obtain ⟨_, _, hp, ha, hc⟩ := State.creditStep_frame
    ((s.emit (.resp (x.resp (s.pctl.path == .run)))).withUrt (s.urt.free i))
  rw [State.creditLaw_up hl] at hs
  rw [State.creditLaw_up (by unfold State.linkUp; rw [hp]; exact hl), Urt.occupied, ha]
  have herase : (s.urt.arrival.erase i).length = s.urt.arrival.length - 1 := List.length_erase_of_mem hmem
  have hpos : 0 < s.urt.arrival.length := List.length_pos_of_mem hmem
  unfold Urt.occupied at hs
  simp only [State.withUrt_urt, Urt.free] at hc ⊢
  omega

/-- R21, R154: a link that was down comes up with its eight credits, or stays down. -/
theorem State.releaseLink_creditLaw {s : State} (hr : s.pins.resetn = true) (ha : s.urt.arrival = [])
    (hw : s.urt.withheld = 0) (hg : s.urt.granted = 0) : s.releaseLink.creditLaw := by
  obtain ⟨_, hp, ha', hc, _⟩ := s.releaseLink_frame
  cases hi : s.pins.ilrstn with
  | true =>
    rw [if_pos hi] at hc
    rw [State.creditLaw_up (by unfold State.linkUp; rw [hp, hr, hi]; rfl), Urt.occupied, ha', ha]
    simpa [Nat.add_assoc] using hc
  | false =>
    rw [State.creditLaw_down (State.linkUp_of_ilrstn (by rw [hp]; exact hi)), Urt.occupied, ha', ha]
    rw [hi] at hc
    simp only [Bool.false_eq_true, if_false, hw, hg] at hc
    exact ⟨rfl, by omega, by omega⟩

theorem exec_creditLaw {c : Instr} {s t : State} (h : exec c s = .next t) (hs : s.creditLaw) : t.creditLaw := by
  by_cases hc : Instr.atLink c = false
  · obtain ⟨u, hu, hd⟩ := exec_deeds (s := s) hc
    obtain rfl := Host.Outcome.next.inj (hu.symm.trans h)
    exact hd.link.creditLaw hs
  cases c
  case req header addr data =>
    rcases Bool.eq_false_or_eq_true s.linkUp with hl | hl
    · rcases Nat.eq_zero_or_pos s.urt.granted with hg | hg
      · rw [exec_req_overrun header addr data hl hg] at h
        exact Host.Outcome.next.inj h ▸ hs
      · cases hi : s.urt.lowestFree with
        | none => simp [exec, execReq, hl, Nat.ne_of_gt hg, hi] at h
        | some i =>
          rw [exec_req_taken hl hg hi] at h
          exact Host.Outcome.next.inj h ▸ State.takeRequest_creditLaw (s := s.quiet) hl hg hs
    · rw [exec_req_down header addr data hl] at h
      exact Host.Outcome.next.inj h ▸ hs
  case resp =>
    by_cases hn : s.linkUp = false ∨ s.urt.nextResponse = none
    · rw [exec_resp_none hn] at h
      exact Host.Outcome.next.inj h ▸ hs
    · obtain ⟨hl, hi⟩ := not_or.1 hn
      obtain ⟨i, hi⟩ := Option.ne_none_iff_exists'.1 hi
      have hl := Bool.eq_true_of_not_eq_false hl
      rw [exec_resp_some hl hi] at h
      exact Host.Outcome.next.inj h ▸ (State.close_deeds _).link.creditLaw (State.respond_creditLaw (s := s.quiet) hl hi hs)
  case ilrstnAssert =>
    simp only [exec, execIlrstnAssert] at h
    split at h <;> obtain rfl := Host.Outcome.next.inj h
    · exact (State.close_deeds _).link.creditLaw ((State.creditLaw_down (State.linkUp_of_ilrstn rfl)).2 ⟨rfl, rfl, rfl⟩)
    · rename_i hn
      have hd : s.linkUp = false := by
        unfold State.linkUp
        cases hr : s.pins.resetn <;> cases hi : s.pins.ilrstn <;> simp_all
      exact (State.creditLaw_down (State.linkUp_of_ilrstn rfl)).2 ((State.creditLaw_down hd).1 hs)
  case ilrstnDeassert =>
    simp only [exec, execIlrstnDeassert] at h
    split at h <;> obtain rfl := Host.Outcome.next.inj h
    · rename_i hc
      have hd := (State.creditLaw_down (State.linkUp_of_ilrstn hc.1)).1 hs
      obtain ⟨_, hp, ha, hc', _⟩ := State.linkComesUp_frame (s.quiet.withPins { s.pins with ilrstn := true })
      rw [State.creditLaw_up (by unfold State.linkUp; rw [hp]; simp [hc.2]), Urt.occupied, ha]
      have h0 : (s.quiet.withPins { s.pins with ilrstn := true }).urt.arrival.length = 0 := hd.1
      rw [h0, Nat.zero_add]
      exact hc'
    · rename_i hn
      have he : s.linkUp = (s.quiet.withPins { s.pins with ilrstn := true }).linkUp := by
        unfold State.linkUp
        simp only [State.withPins_pins]
        cases hr : s.pins.resetn <;> cases hi : s.pins.ilrstn <;> simp_all
      unfold State.creditLaw at *
      rw [← he]
      exact hs
  case resetnAssert =>
    simp only [exec, execResetnAssert] at h
    split at h <;> obtain rfl := Host.Outcome.next.inj h
    · exact (State.creditLaw_down rfl).2 ⟨rfl, rfl, rfl⟩
    · exact hs
  case resetnRelease o =>
    by_cases hr : s.pins.resetn = true
    · rw [show exec (.resetnRelease o) s = .next s.quiet from if_pos hr] at h
      exact Host.Outcome.next.inj h ▸ hs
    · rw [exec_resetnRelease_down hr] at h
      obtain ⟨ha, hw, hg⟩ := (State.creditLaw_down (by unfold State.linkUp; simp [hr])).1 hs
      have ha : s.urt.arrival = [] := List.length_eq_zero_iff.1 ha
      cases o <;> obtain rfl := Host.Outcome.next.inj h
      · exact (State.releaseDemand_deeds _).link.creditLaw (State.releaseLink_creditLaw rfl ha hw hg)
      · obtain ⟨hu, hp⟩ := State.releaseDemand_urt (s.quiet.withPins { s.pins with resetn := true })
        exact State.releaseLink_creditLaw (by rw [hp]; rfl) (by rw [hu]; exact ha) (by rw [hu]; exact hw) (by rw [hu]; exact hg)
  all_goals exact absurd rfl hc

/-- Settles O52: the deeds leave the link, and the six commands at the link move slots and credits together. -/
theorem everyStepKeepsCreditLaw : Obligations.EveryStepKeepsCreditLaw := fun s t hs h => by
  unfold step at h
  split at h
  · obtain rfl := Host.Outcome.next.inj h
    exact s.idle_deeds.link.creditLaw hs
  · exact exec_creditLaw h hs

end Sys2Proof.Machine
end

section
/-! PROOFS. The owner law where an access is issued and where it ends (R32, R34, R71, R72, R75, R79 to R82, R109). -/

namespace Sys2Proof.Machine

/-! ### Where an access ends -/

theorem Mli.put_get (m : Mli) (g a : TagIx) (x : Tag) : (Mli.put m g x)[a] = if g = a then x else m[a] := by
  unfold Mli.put
  rw [Vector.get_set_fin]

/-- The tag that ends is OUTSTANDING no more; the others stand. -/
theorem Mli.put_outstanding {m : Mli} {g : TagIx} {x : Tag} (hx : x.state ≠ .outstanding) (a : TagIx) :
    (Mli.put m g x)[a].state = .outstanding ↔ m[a].state = .outstanding ∧ ¬ a = g := by
  rw [Mli.put_get]
  split
  · rename_i e; subst e
    exact ⟨fun h => absurd h hx, fun h => absurd rfl h.2⟩
  · rename_i e
    exact ⟨fun h => ⟨h, fun e' => e e'.symm⟩, fun h => h.1⟩

theorem Mli.put_records {m : Mli} {g : TagIx} {x : Tag} (hx : x.state ≠ .outstanding) (a : TagIx)
    (ha : (Mli.put m g x)[a].state = .outstanding) :
    (Mli.put m g x)[a].owner = m[a].owner ∧ (Mli.put m g x)[a].kind = m[a].kind := by
  have hne : g ≠ a := fun e => ((Mli.put_outstanding hx a).1 ha).2 e.symm
  rw [Mli.put_get, if_neg hne]
  exact ⟨rfl, rfl⟩

theorem Tag.ownerLine_some {x : Tag} {r : LineIx} : x.ownerLine = some r ↔ x.owner = some (.line r) := by
  unfold Tag.ownerLine
  split <;> simp_all

theorem Tag.ownerSlot_some {x : Tag} {i : SlotIx} : x.ownerSlot = some i ↔ x.owner = some (.slot i) := by
  unfold Tag.ownerSlot
  split <;> simp_all

/-- The access of a tag that no line owns ends: only its slot, if it has one, may change, and that slot holds no tag then. -/
theorem State.OwnerLaw.end_slot {s t : State} (h : s.OwnerLaw) {g : TagIx} {x : Tag}
    (hx : x.state ≠ .outstanding) (hm : t.mli = Mli.put s.mli g x) (ho : s.mli[g].ownerLine = none)
    (hg : s.mli[g].state = .outstanding)
    (hl : ∀ r : LineIx, s.rab.lines[r].SameFill t.rab.lines[r])
    (hs : ∀ j : SlotIx, t.urt.slots[j] = s.urt.slots[j] ∨
      (s.mli[g].owner = some (.slot j) ∧ ∀ y, t.urt.slots[j] = some y → y.tag = none)) : t.OwnerLaw := by
  have free : ∀ r : LineIx, s.rab.lines[r].state = .filling → ∀ a, s.rab.lines[r].tag = some a → ¬ a = g := by
    intro r hr a ha e
    subst e
    rw [Tag.ownerLine_some.2 (h.issued r a hr ha).2.1] at ho
    exact absurd ho (by simp)
  refine State.References.ownerLaw (E := fun a => a = g) (h := h) ⟨fun a => ?_, fun a ha => ?_, fun r => ?_, fun r hr => ?_,
    fun j => ?_⟩
  · rw [hm]; exact Mli.put_outstanding hx a
  · rw [hm] at ha ⊢; exact Mli.put_records hx a ha
  · rw [(hl r).1]; exact ⟨fun hr => ⟨hr, free r hr⟩, fun hr => hr.1⟩
  · exact (hl r).2 ((hl r).1.1 hr)
  · refine (hs j).imp id fun ⟨hj, hy⟩ => ⟨fun r hr hw => ?_, fun a ha hown => ?_, hy⟩
    · obtain ⟨y, _, hy, _, _, _, _, htag⟩ := h.waiters r ((hl r).1.1 hr) j hw
      obtain ⟨y', hy', ht, _⟩ := h.slotTags g j hg hj
      obtain rfl := Option.some.inj (hy.symm.trans hy')
      exact free r ((hl r).1.1 hr) g (htag g ht) rfl
    · rw [hm] at ha
      obtain ⟨ha, hne⟩ := (Mli.put_outstanding hx a).1 ha
      obtain ⟨y, hy, ht, _⟩ := h.slotTags a j ha hown
      obtain ⟨y', hy', ht', _⟩ := h.slotTags g j hg hj
      obtain rfl := Option.some.inj (hy.symm.trans hy')
      exact hne (Option.some.inj (ht.symm.trans ht'))

/-- The fill of line `r` ends: the line fills no more, and its waiters hold no tag then. -/
theorem State.OwnerLaw.end_fill {s t : State} (h : s.OwnerLaw) (hb : s.bufferLaw) {g : TagIx} {x : Tag} {r : LineIx}
    (hx : x.state ≠ .outstanding) (hm : t.mli = Mli.put s.mli g x) (ho : s.mli[g].owner = some (.line r))
    (hg : s.mli[g].state = .outstanding) (hr : t.rab.lines[r].state ≠ .filling)
    (hl : ∀ q : LineIx, q ≠ r → t.rab.lines[q] = s.rab.lines[q])
    (hs : ∀ j : SlotIx, t.urt.slots[j] = s.urt.slots[j] ∨
      (j ∈ s.rab.lines[r].waiters ∧ ∀ y, t.urt.slots[j] = some y → y.tag = none)) : t.OwnerLaw := by
  obtain ⟨hfill, htag⟩ := h.lineTags g r hg ho
  have lines : ∀ q : LineIx, t.rab.lines[q].state = .filling ↔
      s.rab.lines[q].state = .filling ∧ ∀ a, s.rab.lines[q].tag = some a → ¬ a = g := by
    intro q
    by_cases e : q = r
    · subst e
      exact ⟨fun h => absurd h hr, fun h => absurd rfl (h.2 g htag)⟩
    · rw [hl q e]
      refine ⟨fun hq => ⟨hq, fun a ha he => ?_⟩, fun h => h.1⟩
      subst he
      have hown := (h.issued q a hq ha).2.1
      rw [ho] at hown
      exact e (by simpa using hown.symm)
  have other : ∀ q : LineIx, t.rab.lines[q].state = .filling → q ≠ r := fun q hq e => hr (e ▸ hq)
  refine State.References.ownerLaw (E := fun a => a = g) (h := h) ⟨fun a => ?_, fun a ha => ?_, lines, fun q hq => ?_,
    fun j => ?_⟩
  · rw [hm]; exact Mli.put_outstanding hx a
  · rw [hm] at ha ⊢; exact Mli.put_records hx a ha
  · rw [hl q (other q hq)]; exact ⟨rfl, rfl, rfl⟩
  · refine (hs j).imp id fun ⟨hj, hy⟩ => ⟨fun q hq hw => ?_, fun a ha hown => ?_, hy⟩
    · obtain ⟨y, d, hy, _, hd, hdl, _⟩ := h.waiters r hfill j hj
      have hqf := ((lines q).1 hq).1
      obtain ⟨y', d', hy', _, hd', hdl', _⟩ := h.waiters q hqf j hw
      obtain rfl := Option.some.inj (hy.symm.trans hy')
      obtain rfl := Option.some.inj (hd.symm.trans hd')
      exact hb q r (other q hq) (by rw [hqf]; simp) (by rw [hfill]; simp) (hdl'.symm.trans hdl)
    · rw [hm] at ha
      obtain ⟨ha, hne⟩ := (Mli.put_outstanding hx a).1 ha
      obtain ⟨y, hy, ht, _⟩ := h.slotTags a j ha hown
      obtain ⟨y', _, hy', _, _, _, _, ht'⟩ := h.waiters r hfill j hj
      obtain rfl := Option.some.inj (hy.symm.trans hy')
      exact hne (Option.some.inj ((ht' a ht).symm.trans htag))

/-- An OUTSTANDING tag of an access that fills no line is no line's. -/
theorem State.OwnerLaw.ownerLine_none {s : State} (h : s.OwnerLaw) {g : TagIx} (hg : s.mli[g].state = .outstanding)
    (h1 : s.mli[g].kind ≠ .demandRead) (h2 : s.mli[g].kind ≠ .prefetchRead) : s.mli[g].ownerLine = none := by
  refine Option.eq_none_iff_forall_ne_some.2 fun r hr => ?_
  obtain ⟨hf, ht⟩ := h.lineTags g r hg (Tag.ownerLine_some.1 hr)
  exact (h.issued r g hf ht).2.2.elim h1 h2

/-! ### What an access's end does to the slots -/

/-- Slots outside `l` stand; one in `l` that changes holds no tag then. -/
def State.Answered (l : List SlotIx) (s t : State) : Prop := ∀ j : SlotIx, t.urt.slots[j] = s.urt.slots[j] ∨
  (j ∈ l ∧ ∀ y, t.urt.slots[j] = some y → y.tag = none)

theorem State.finish_answered (s : State) (i st bs) : State.Answered [i] s (s.finish i st bs) := fun j => by
  by_cases e : j = i
  · subst e
    refine .inr ⟨by simp, fun y hy => ?_⟩
    obtain ⟨x, _, rfl⟩ := Option.map_eq_some_iff.1 ((Urt.update_self ..).symm.trans hy)
    rfl
  · exact .inl (Urt.update_other _ _ _ _ e)

theorem State.answerWaiter_answered (l : LineData) (s : State) (i) : State.Answered [i] s (State.answerWaiter l s i) := by
  unfold State.answerWaiter
  split
  · exact fun _ => .inl rfl
  · split
    · exact fun _ => .inl rfl
    · exact s.finish_answered i _ _

theorem State.Answered.trans {l m : List SlotIx} {s t u : State} (h : State.Answered l s t) (k : State.Answered m t u) :
    State.Answered (l ++ m) s u := fun j => by
  rcases k j with e | ⟨hm, hy⟩
  · rw [e]
    exact (h j).imp id fun ⟨hl, hy⟩ => ⟨List.mem_append_left _ hl, hy⟩
  · exact .inr ⟨List.mem_append_right _ hm, hy⟩

theorem State.Answered.foldl {f : State → SlotIx → State} (hf : ∀ s i, State.Answered [i] s (f s i)) (l : List SlotIx)
    (s : State) : State.Answered l s (l.foldl f s) := by
  induction l generalizing s with
  | nil => exact fun _ => .inl rfl
  | cons a l ih => exact (hf s a).trans (ih _)

theorem State.Answered.congr {l : List SlotIx} {s t u : State} (h : State.Answered l t u) (hu : t.urt = s.urt) :
    State.Answered l s u := fun j => by rw [← hu]; exact h j

/-- The answers reach no line. -/
theorem State.answers_rab {f : State → SlotIx → State} (hf : ∀ s i, (f s i).rab = s.rab) (l : List SlotIx) (s : State) :
    (l.foldl f s).rab = s.rab := by
  induction l generalizing s with
  | nil => rfl
  | cons a l ih => exact (ih _).trans (hf s a)

theorem State.answerWaiter_rab (l : LineData) (s : State) (i) : (State.answerWaiter l s i).rab = s.rab := by
  unfold State.answerWaiter
  split
  · rfl
  · split <;> rfl

theorem Rab.release_line (b : Rab) (r q : LineIx) : (b.release r).lines[q] = if r = q then RabLine.free else b.lines[q] := by
  simp only [Rab.release, Vector.get_set_fin]

/-- R79 to R82: the line of a fill that ends fills no more, and no other line changes. -/
theorem Rab.finishFill_line (b : Rab) (r : LineIx) (m : LineData) : (b.finishFill r m).lines[r].state ≠ .filling ∧
    ∀ q : LineIx, q ≠ r → (b.finishFill r m).lines[q] = b.lines[q] := by
  unfold Rab.finishFill
  split
  · rename_i h; exact ⟨h, fun _ _ => rfl⟩
  · split
    · refine ⟨by rw [Rab.release_line, if_pos rfl]; simp [RabLine.free], fun q hq => ?_⟩
      rw [Rab.release_line, if_neg (Ne.symm hq)]
    · refine ⟨by rw [Vector.get_set_fin, if_pos rfl]; simp, fun q hq => ?_⟩
      rw [Vector.get_set_fin, if_neg (Ne.symm hq)]

theorem State.fillOk_ownerLaw {s : State} (h : s.OwnerLaw) (hb : s.bufferLaw) {g : TagIx} {x : Tag} {r : LineIx} (m)
    (hx : x.state ≠ .outstanding) (hg : s.mli[g].state = .outstanding) (ho : s.mli[g].ownerLine = some r) :
    ((s.putTag g x).fillOk r m).OwnerLaw := by
  have hrab : ((s.putTag g x).fillOk r m).rab = s.rab.finishFill r m :=
    State.answers_rab (fun s i => State.answerWaiter_rab _ s i) _ _
  refine h.end_fill hb hx (Works.mli fun _ hd => State.fillOk_work _ hd r m) (Tag.ownerLine_some.1 ho) hg ?_ ?_
    (State.Answered.congr (State.Answered.foldl (fun s i => State.answerWaiter_answered _ s i) _ _) rfl)
  · rw [hrab]; exact (s.rab.finishFill_line r m).1
  · rw [hrab]; exact (s.rab.finishFill_line r m).2

theorem State.fillEnds_ownerLaw {s : State} (h : s.OwnerLaw) (hb : s.bufferLaw) {g : TagIx} {x : Tag} {r : LineIx} (k)
    (hx : x.state ≠ .outstanding) (hg : s.mli[g].state = .outstanding) (ho : s.mli[g].ownerLine = some r) :
    ((s.putTag g x).fillEnds r g k).OwnerLaw := by
  have hrab : ((s.putTag g x).fillEnds r g k).rab = s.rab.release r := 
    State.answers_rab (f := State.failWaiter k.status) (fun _ _ => rfl) _ _
  refine h.end_fill hb hx (State.failWaiters_mli _ _ _) (Tag.ownerLine_some.1 ho) hg ?_ (fun q hq => ?_)
    (State.Answered.congr (State.Answered.foldl (fun s i => s.finish_answered i k.status []) _ _) rfl)
  · rw [hrab, Rab.release_line, if_pos rfl]; simp [RabLine.free]
  · rw [hrab, Rab.release_line, if_neg (Ne.symm hq)]

theorem State.failOwner_answered (s : State) (x : Tag) (k) : State.Answered x.ownerSlot.toList s (s.failOwner x k) := by
  unfold State.failOwner
  split
  · rename_i i hi; rw [hi]; exact s.finish_answered i _ _
  · exact fun _ => .inl rfl

theorem State.readOk_answered (s : State) (x : Tag) (m) : State.Answered x.ownerSlot.toList s (s.readOk x m) := by
  unfold State.readOk
  split
  · rename_i i hi; rw [hi]; exact State.answerWaiter_answered m s i
  · exact fun _ => .inl rfl

theorem State.writeOk_answered (s : State) (x : Tag) : State.Answered x.ownerSlot.toList s (s.writeOk x) := by
  unfold State.writeOk
  split
  · rename_i i hi; rw [hi]; exact State.Answered.congr (State.finish_answered _ i _ _) rfl
  · exact fun _ => .inl rfl

/-- An access that a slot owns, or nothing, ends. -/
theorem State.OwnerLaw.end_answered {s t : State} (h : s.OwnerLaw) {g : TagIx} {x : Tag}
    (hx : x.state ≠ .outstanding) (hm : t.mli = Mli.put s.mli g x) (ho : s.mli[g].ownerLine = none)
    (hg : s.mli[g].state = .outstanding) (hl : ∀ r : LineIx, s.rab.lines[r].SameFill t.rab.lines[r])
    (hs : State.Answered s.mli[g].ownerSlot.toList s t) : t.OwnerLaw :=
  h.end_slot hx hm ho hg hl fun j => (hs j).imp id fun ⟨hj, hy⟩ =>
    ⟨Tag.ownerSlot_some.1 (Option.mem_toList.1 hj), hy⟩

/-- R53 step 2 to R122: a drain's end leaves the references to the moves that follow. -/
theorem State.OwnerLaw.end_still {s t : State} (h : s.OwnerLaw) {g : TagIx} {x : Tag} (hx : x.state ≠ .outstanding)
    (hm : t.mli = Mli.put s.mli g x) (ho : s.mli[g].ownerLine = none) (hg : s.mli[g].state = .outstanding)
    (hl : ∀ r : LineIx, s.rab.lines[r].SameFill t.rab.lines[r]) (hu : t.urt = s.urt) : t.OwnerLaw :=
  h.end_slot hx hm ho hg hl fun j => .inl (by rw [hu])

theorem State.failOwner_rab (s : State) (x : Tag) (k) : (s.failOwner x k).rab = s.rab := by
  unfold State.failOwner
  split <;> rfl

theorem State.readOk_rab (s : State) (x : Tag) (m) : (s.readOk x m).rab = s.rab := by
  unfold State.readOk
  split
  · exact State.answerWaiter_rab ..
  · rfl

theorem State.writeOk_rab (s : State) (x : Tag) : (s.writeOk x).rab = s.rab := by
  unfold State.writeOk
  split <;> rfl

end Sys2Proof.Machine
end

section
/-! PROOFS. The owner law where an access is issued (R32, R34, R72, R75, R109). -/

namespace Sys2Proof.Machine

/-! ### The tag an issue takes -/

/-- What the law says of the old tags stands when a FREE tag is issued; what it says of the new one depends on its owner. -/
structure State.Issue (s t : State) (g : TagIx) (x : Tag) : Prop where
  free : s.mli[g].state = .free
  issued : x.state = .outstanding
  mli : t.mli = Mli.put s.mli g x

theorem State.Issue.other {s t : State} {g a : TagIx} {x : Tag} (k : State.Issue s t g x)
    (ha : s.mli[a].state = .outstanding) : t.mli[a] = s.mli[a] := by
  have hne : g ≠ a := fun e => by
    have := k.free
    rw [e, ha] at this
    exact absurd this (by simp)
  rw [k.mli, Mli.put_get, if_neg hne]

theorem State.Issue.self {s t : State} {g : TagIx} {x : Tag} (k : State.Issue s t g x) : t.mli[g] = x := by
  rw [k.mli, Mli.put_get, if_pos rfl]

/-- An OUTSTANDING tag after an issue is the new one or an old one. -/
theorem State.Issue.cases {s t : State} {g a : TagIx} {x : Tag} (k : State.Issue s t g x)
    (ha : t.mli[a].state = .outstanding) : a = g ∨ (s.mli[a].state = .outstanding ∧ t.mli[a] = s.mli[a]) := by
  by_cases e : a = g
  · exact .inl e
  · have hs : t.mli[a] = s.mli[a] := by rw [k.mli, Mli.put_get, if_neg (Ne.symm e)]
    exact .inr ⟨hs ▸ ha, hs⟩

/-- R55: a drain is issued: the entry owns the tag, and no line or slot changes. -/
theorem State.OwnerLaw.issue_entry {s t : State} (h : s.OwnerLaw) {g : TagIx} {x : Tag} (k : State.Issue s t g x)
    (ho : x.owner = some .entry) (hb : t.rab = s.rab) (hu : t.urt = s.urt) : t.OwnerLaw where
  waiters := by rw [hb, hu]; exact h.waiters
  issued := fun r a hr ht => by
    rw [hb] at hr ht
    rw [k.other (h.issued r a hr ht).1]
    exact h.issued r a hr ht
  unissued := by rw [hb, hu]; exact h.unissued
  lineTags := fun a r ha hown => by
    rw [hb]
    rcases k.cases ha with rfl | ⟨ha', e⟩
    · rw [k.self, ho] at hown; exact absurd hown (by simp)
    · exact h.lineTags a r ha' (e ▸ hown)
  slotTags := fun a i ha hown => by
    rw [hu]
    rcases k.cases ha with rfl | ⟨ha', e⟩
    · rw [k.self, ho] at hown; exact absurd hown (by simp)
    · exact h.slotTags a i ha' (e ▸ hown)
  heldTags := by rw [hu]; exact h.heldTags

/-- A slot in ISSUE_WAIT holds no tag, and no tag is its own. -/
theorem State.OwnerLaw.issueWait_tagless {s : State} (h : s.OwnerLaw) {i : SlotIx} {y : Slot}
    (hy : s.urt.slots[i] = some y) (hst : y.state = .issueWait) : y.tag = none ∧
    ∀ a : TagIx, s.mli[a].state = .outstanding → s.mli[a].owner ≠ some (.slot i) := by
  refine ⟨h.tag_none hy (by rw [hst]; simp) (by rw [hst]; simp), fun a ha hown => ?_⟩
  obtain ⟨y', hy', _, hs⟩ := h.slotTags a i ha hown
  obtain rfl := Option.some.inj (hy.symm.trans hy')
  rw [hst] at hs
  exact absurd hs (by simp)

/-- R32, R34: a slot in ISSUE_WAIT that no FILLING line waits on takes a tag of its own. -/
theorem State.OwnerLaw.issue_own {s t : State} (h : s.OwnerLaw) {g : TagIx} {x : Tag} (k : State.Issue s t g x)
    {i : SlotIx} {y z : Slot} (ho : x.owner = some (.slot i)) (hy : s.urt.slots[i] = some y) (hst : y.state = .issueWait)
    (hw : ∀ r : LineIx, s.rab.lines[r].state = .filling → i ∉ s.rab.lines[r].waiters)
    (hl : ∀ r : LineIx, s.rab.lines[r].SameFill t.rab.lines[r]) (hz : t.urt.slots[i] = some z)
    (hzt : z.tag = some g) (hzs : z.state = .fillWait ∨ z.state = .memWait)
    (hs : ∀ j : SlotIx, j ≠ i → t.urt.slots[j] = s.urt.slots[j]) : t.OwnerLaw where
  waiters := fun r hr j hj => by
    have hr' := (hl r).1.1 hr
    obtain ⟨e1, e2, e3⟩ := (hl r).2 hr'
    rw [e2] at hj
    rw [hs j fun e => hw r hr' (e ▸ hj), e1, e3]
    exact h.waiters r hr' j hj
  issued := fun r a hr ha => by
    have hr' := (hl r).1.1 hr
    rw [((hl r).2 hr').2.2] at ha
    rw [k.other (h.issued r a hr' ha).1]
    exact h.issued r a hr' ha
  unissued := fun r hr ht => by
    have hr' := (hl r).1.1 hr
    obtain ⟨_, e2, e3⟩ := (hl r).2 hr'
    rw [e3] at ht
    obtain ⟨j, rest, hwr, hj, hrest⟩ := h.unissued r hr' ht
    have same : ∀ a ∈ s.rab.lines[r].waiters, t.urt.slots[a] = s.urt.slots[a] := fun a ha =>
      hs a fun e => hw r hr' (e ▸ ha)
    refine ⟨j, rest, e2.trans hwr, ?_, fun a ha => ?_⟩
    · rw [Urt.slotHas, same j (hwr ▸ List.mem_cons_self)]; exact hj
    · rw [Urt.slotHas, same a (hwr ▸ List.mem_cons_of_mem _ ha)]; exact hrest a ha
  lineTags := fun a r ha hown => by
    rcases k.cases ha with rfl | ⟨ha', e⟩
    · rw [k.self, ho] at hown; exact absurd hown (by simp)
    · obtain ⟨hf, ht⟩ := h.lineTags a r ha' (e ▸ hown)
      exact ⟨(hl r).1.2 hf, ((hl r).2 hf).2.2.trans ht⟩
  slotTags := fun a j ha hown => by
    rcases k.cases ha with rfl | ⟨ha', e⟩
    · rw [k.self, ho] at hown
      obtain rfl : i = j := by simpa using hown
      exact ⟨z, hz, hzt, hzs⟩
    · rw [e] at hown
      rw [hs j fun e' => (h.issueWait_tagless hy hst).2 a ha' (e' ▸ hown)]
      exact h.slotTags a j ha' hown
  heldTags := fun j w hw' ht => by
    by_cases e : j = i
    · subst e; obtain rfl := Option.some.inj (hz.symm.trans hw'); exact hzs
    · exact h.heldTags j w ((hs j e).symm.trans hw') ht

/-- R72: the line a slot allocated takes the tag of the fill, and the slot with it. -/
theorem State.OwnerLaw.issue_fill {s t : State} (h : s.OwnerLaw) (hb : s.bufferLaw) {g : TagIx} {x : Tag}
    (k : State.Issue s t g x) {i : SlotIx} {y : Slot} {r : LineIx} (ho : x.owner = some (.line r))
    (hk : x.kind = .demandRead) (hy : s.urt.slots[i] = some y) (hst : y.state = .issueWait)
    (hr : s.rab.lines[r].state = .filling) (ht : s.rab.lines[r].tag = none) (hi : i ∈ s.rab.lines[r].waiters)
    (hl : ∀ q : LineIx, t.rab.lines[q] = if r = q then { s.rab.lines[r] with tag := some g } else s.rab.lines[q])
    (hz : t.urt.slots[i] = some { y with state := .fillWait, tag := some g })
    (hs : ∀ j : SlotIx, j ≠ i → t.urt.slots[j] = s.urt.slots[j]) : t.OwnerLaw := by
  have elsewhere : ∀ q : LineIx, r ≠ q → s.rab.lines[q].state = .filling → i ∉ s.rab.lines[q].waiters := by
    intro q hne hq hm
    obtain ⟨y1, d1, hy1, _, hd1, hl1, _⟩ := h.waiters r hr i hi
    obtain ⟨y2, d2, hy2, _, hd2, hl2, _⟩ := h.waiters q hq i hm
    obtain rfl := Option.some.inj (hy1.symm.trans hy2)
    obtain rfl := Option.some.inj (hd1.symm.trans hd2)
    exact hb r q hne (by rw [hr]; simp) (by rw [hq]; simp) (hl1.symm.trans hl2)
  constructor
  case waiters =>
    intro q hq j hj
    rw [hl] at hq hj ⊢
    by_cases e : r = q
    · subst e
      rw [if_pos rfl] at hj ⊢
      obtain ⟨w, d, hw, hkind, hd, hdl, hws, htag⟩ := h.waiters r hr j hj
      by_cases ej : j = i
      · subst ej
        obtain rfl := Option.some.inj (hy.symm.trans hw)
        exact ⟨_, d, hz, hkind, hd, hdl, .inl rfl, fun _ h => h⟩
      · have hfw : w.state = .fillWait := by
          obtain ⟨a, rest, hwr, ha, hrest⟩ := h.unissued r hr ht
          rw [hwr] at hj hi
          have hin : i = a := by
            refine (List.mem_cons.1 hi).resolve_right fun hm => ?_
            have := hrest i hm
            simp only [Urt.slotHas, hy, hst] at this
            exact absurd this (by decide)
          have := hrest j ((List.mem_cons.1 hj).resolve_left fun e => ej (e.trans hin.symm))
          simpa only [Urt.slotHas, hw, beq_iff_eq] using this
        refine ⟨w, d, (hs j ej).trans hw, hkind, hd, hdl, .inl hfw, fun a ha => ?_⟩
        have := htag a ha
        rw [ht] at this
        exact absurd this (by simp)
    · rw [if_neg e] at hq hj ⊢
      rw [hs j fun ej => elsewhere q e hq (ej ▸ hj)]
      exact h.waiters q hq j hj
  case issued =>
    intro q a hq ha
    rw [hl] at hq ha
    by_cases e : r = q
    · subst e
      rw [if_pos rfl] at ha
      obtain rfl : g = a := by simpa using ha
      rw [k.self]
      exact ⟨k.issued, ho, .inl hk⟩
    · rw [if_neg e] at hq ha
      rw [k.other (h.issued q a hq ha).1]
      exact h.issued q a hq ha
  case unissued =>
    intro q hq hqt
    rw [hl] at hq hqt ⊢
    by_cases e : r = q
    · rw [if_pos e] at hqt; exact absurd hqt (by simp)
    · rw [if_neg e] at hq hqt ⊢
      obtain ⟨j, rest, hwr, hj, hrest⟩ := h.unissued q hq hqt
      have same : ∀ a ∈ s.rab.lines[q].waiters, t.urt.slots[a] = s.urt.slots[a] := fun a ha =>
        hs a fun ea => elsewhere q e hq (ea ▸ ha)
      refine ⟨j, rest, hwr, ?_, fun a ha => ?_⟩
      · rw [Urt.slotHas, same j (hwr ▸ List.mem_cons_self)]; exact hj
      · rw [Urt.slotHas, same a (hwr ▸ List.mem_cons_of_mem _ ha)]; exact hrest a ha
  case lineTags =>
    intro a q ha hown
    rw [hl]
    rcases k.cases ha with rfl | ⟨ha', e⟩
    · rw [k.self, ho] at hown
      obtain rfl : r = q := by simpa using hown
      rw [if_pos rfl]
      exact ⟨hr, rfl⟩
    · obtain ⟨hf, hqt⟩ := h.lineTags a q ha' (e ▸ hown)
      rw [if_neg fun e' => by rw [← e', ht] at hqt; exact absurd hqt (by simp)]
      exact ⟨hf, hqt⟩
  case slotTags =>
    intro a j ha hown
    rcases k.cases ha with rfl | ⟨ha', e⟩
    · rw [k.self, ho] at hown; exact absurd hown (by simp)
    · rw [e] at hown
      rw [hs j fun e' => (h.issueWait_tagless hy hst).2 a ha' (e' ▸ hown)]
      exact h.slotTags a j ha' hown
  case heldTags =>
    intro j w hw ht
    by_cases e : j = i
    · subst e; obtain rfl := Option.some.inj (hz.symm.trans hw); exact .inl rfl
    · exact h.heldTags j w ((hs j e).symm.trans hw) ht

/-- R75: a line that did not fill is set up for a prefetch, with the tag it is issued on and no waiter. -/
theorem State.OwnerLaw.issue_prefetch {s t : State} (h : s.OwnerLaw) {g : TagIx} {x : Tag} (k : State.Issue s t g x)
    {r : LineIx} {y : RabLine} (ho : x.owner = some (.line r)) (hk : x.kind = .prefetchRead)
    (hr : s.rab.lines[r].state ≠ .filling) (hy : y.state = .filling) (hyt : y.tag = some g) (hyw : y.waiters = [])
    (hl : ∀ q : LineIx, t.rab.lines[q] = if r = q then y else s.rab.lines[q]) (hu : t.urt = s.urt) : t.OwnerLaw := by
  constructor
  case waiters =>
    intro q hq j hj
    rw [hl] at hq hj ⊢
    by_cases e : r = q
    · rw [if_pos e, hyw] at hj; exact absurd hj (by simp)
    · rw [if_neg e] at hq hj ⊢
      rw [hu]; exact h.waiters q hq j hj
  case issued =>
    intro q a hq ha
    rw [hl] at hq ha
    by_cases e : r = q
    · subst e
      rw [if_pos rfl, hyt] at ha
      obtain rfl := Option.some.inj ha
      rw [k.self]
      exact ⟨k.issued, ho, .inr hk⟩
    · rw [if_neg e] at hq ha
      rw [k.other (h.issued q a hq ha).1]
      exact h.issued q a hq ha
  case unissued =>
    intro q hq hqt
    rw [hl] at hq hqt ⊢
    by_cases e : r = q
    · rw [if_pos e, hyt] at hqt; exact absurd hqt (by simp)
    · rw [if_neg e] at hq hqt ⊢
      rw [hu]; exact h.unissued q hq hqt
  case lineTags =>
    intro a q ha hown
    rw [hl]
    rcases k.cases ha with rfl | ⟨ha', e⟩
    · rw [k.self, ho] at hown
      obtain rfl : r = q := by simpa using hown
      rw [if_pos rfl]
      exact ⟨hy, hyt⟩
    · obtain ⟨hf, hqt⟩ := h.lineTags a q ha' (e ▸ hown)
      have hne : r ≠ q := fun e' => hr (e' ▸ hf)
      rw [if_neg hne]
      exact ⟨hf, hqt⟩
  case slotTags =>
    intro a j ha hown
    rw [hu]
    rcases k.cases ha with rfl | ⟨ha', e⟩
    · rw [k.self, ho] at hown; exact absurd hown (by simp)
    · exact h.slotTags a j ha' (e ▸ hown)
  case heldTags => rw [hu]; exact h.heldTags

/-! ### The issue step -/

/-- What a slot in ISSUE_WAIT that is issuable is (R112). -/
theorem State.demandIssuable_slot {s : State} {i : SlotIx} (h : s.demandIssuable i = true) :
    ∃ y d, s.urt.slots[i] = some y ∧ y.decode = some d ∧ y.state = .issueWait := by
  unfold State.demandIssuable at h
  split at h
  · exact absurd h (by simp)
  · rename_i y hy
    split at h
    · exact absurd h (by simp)
    · rename_i d hd
      simp only [Bool.and_eq_true, beq_iff_eq] at h
      exact ⟨y, d, hy, hd, h.1.1⟩

/-- R72: the unissued fill of a slot is a FILLING line without a tag that the slot waits on. -/
theorem Rab.unissuedFillOf_some {b : Rab} {i : SlotIx} {r : LineIx} (h : b.unissuedFillOf i = some r) :
    b.lines[r].state = .filling ∧ b.lines[r].tag = none ∧ i ∈ b.lines[r].waiters := by
  have := List.find?_some h
  generalize b.lines[r] = x at *
  simpa [and_assoc] using this

theorem Rab.unissuedFillOf_none {b : Rab} {i : SlotIx} (h : b.unissuedFillOf i = none) (r : LineIx)
    (h1 : b.lines[r].state = .filling) (h2 : b.lines[r].tag = none) : i ∉ b.lines[r].waiters := fun hm => by
  have := List.find?_eq_none.1 h r (List.mem_finRange r)
  generalize b.lines[r] = x at *
  exact this (by simp [h1, h2, hm])

theorem State.issueRead_ownerLaw {s : State} (h : s.OwnerLaw) (hb : s.bufferLaw) {g : TagIx} {i : SlotIx} {y : Slot}
    (d : DecodeResult) (hg : s.mli[g].state = .free) (hy : s.urt.slots[i] = some y) (hst : y.state = .issueWait) :
    (s.issueRead g i y d).OwnerLaw := by
  have hz : (s.urt.update i fun y => { y with state := .fillWait, tag := some g }).slots[i] =
      some { y with state := .fillWait, tag := some g } := by rw [Urt.update_self, hy]; rfl
  have hs : ∀ j : SlotIx, j ≠ i →
      (s.urt.update i fun y => { y with state := .fillWait, tag := some g }).slots[j] = s.urt.slots[j] :=
    fun j hj => Urt.update_other _ _ _ _ hj
  unfold State.issueRead
  dsimp only
  split
  · rename_i r hr
    obtain ⟨hf, ht, hi⟩ := Rab.unissuedFillOf_some hr
    exact h.issue_fill (g := g) (x := Tag.issued .demandRead d.line d.region none (.line r) 0#32) hb ⟨hg, rfl, rfl⟩ rfl rfl
      hy hst hf ht hi (fun q => Rab.update_line ..) hz hs
  · rename_i hn
    refine h.issue_own (g := g) (x := Tag.issued .unbufferedRead d.line d.region (some y.source) (.slot i) 0#32)
      ⟨hg, rfl, rfl⟩ rfl hy hst (fun r hr hm => ?_) (fun r => .refl _) hz rfl (.inl rfl) hs
    obtain ⟨y', _, hy', _, _, _, hws, _⟩ := h.waiters r hr i hm
    obtain rfl := Option.some.inj (hy.symm.trans hy')
    refine Rab.unissuedFillOf_none hn r hr (hws.resolve_left ?_).2 hm
    rw [hst]; simp

theorem State.issueDirect_ownerLaw {s : State} (h : s.OwnerLaw) {g : TagIx} {i : SlotIx} {y : Slot}
    (d : DecodeResult) (hg : s.mli[g].state = .free) (hy : s.urt.slots[i] = some y) (hst : y.state = .issueWait)
    (hk : y.kind = .wr) : (s.issueDirect g i y d).OwnerLaw := by
  refine h.issue_own (g := g) (x := Tag.issued .directWrite d.line d.region (some y.source) (.slot i) (y.mask d))
    (z := { y with state := .memWait, tag := some g }) ⟨hg, rfl, rfl⟩ rfl hy hst (fun r hr hm => ?_)
    (fun r => Rab.patch_sameFill ..) ?_ rfl (.inr rfl) fun j hj => Urt.update_other _ _ _ _ hj
  · obtain ⟨y', _, hy', hk', _⟩ := h.waiters r hr i hm
    obtain rfl := Option.some.inj (hy.symm.trans hy')
    rw [hk] at hk'
    exact absurd hk' (by simp)
  · exact (Urt.update_self ..).trans (by rw [hy]; rfl)

/-- R109: the issue step keeps the owner law. -/
theorem State.issueOne_ownerLaw {s : State} (h : s.OwnerLaw) (hb : s.bufferLaw) (hr : s.recencyLaw) :
    s.issueOne.OwnerLaw := by
  unfold State.issueOne
  split
  · rename_i g e hg _
    exact h.issue_entry (g := g) (x := Tag.issued .drainWrite e.line e.region none .entry e.mask)
      ⟨Mli.lowestFree_free hg, rfl, rfl⟩ rfl rfl rfl
  · rename_i g i hg hc
    obtain ⟨y, d, hy, hd, hst⟩ := State.demandIssuable_slot (State.demandPick_issuable (State.choose_demand hc))
    have hfree := Mli.lowestFree_free hg
    unfold State.issueDemand
    simp only [hy, hd]
    split
    · exact State.issueRead_ownerLaw h hb d hfree hy hst
    · rename_i hk; exact State.issueDirect_ownerLaw h d hfree hy hst hk
    · exact h
    · exact h
  · rename_i g k hg _
    unfold State.issuePrefetch
    split
    · exact h
    · rename_i r hv
      refine h.issue_prefetch (g := g) (r := r)
        (y := RabLine.fresh s.stt.entries[k].next (.num s.stt.entries[k].region) .prefetch [] (some g))
        (x := Tag.issued .prefetchRead s.stt.entries[k].next (.num s.stt.entries[k].region) none (.line r) 0#32)
        ⟨Mli.lowestFree_free hg, rfl, rfl⟩ rfl rfl (Rab.prefetchVictim_state hr hv) rfl rfl rfl (fun q => ?_) rfl
      show (s.rab.lines.set r _)[q] = _
      rw [Vector.get_set_fin]
  · exact h

end Sys2Proof.Machine
end

section
/-! PROOFS. The twelfth law (R149) with the list of occupied slots and the owner law: every deed keeps them, and so does every
step. -/

namespace Sys2Proof.Machine

/-! ### The laws together -/

/-- What the path in HALT is empty of (R149). -/
structure State.HaltEmpty (s : State) : Prop where
  held : ∀ i : SlotIx, ∀ x ∈ s.urt.slots[i], x.state = .held
  entries : s.pq.entries = []
  lines : ∀ r : LineIx, s.rab.lines[r].state = .free
  recency : s.rab.recency = []
  streams : ∀ k : StreamIx, s.stt.entries[k].valid = false
  tags : ∀ t : TagIx, s.mli[t].state ≠ .outstanding

theorem State.HaltEmpty.intro {s : State} (h : s.haltLaw) (hp : s.pctl.path = .halt) : s.HaltEmpty :=
  have ⟨h1, h2, h3, h4, h5, h6⟩ := h hp
  ⟨h1, h2, h3, h4, h5, h6⟩

theorem State.haltLaw_of {s : State} (h : s.pctl.path = .halt → s.HaltEmpty) : s.haltLaw := fun hp =>
  ⟨(h hp).held, (h hp).entries, (h hp).lines, (h hp).recency, (h hp).streams, (h hp).tags⟩

/-- The laws that every step keeps together. -/
structure State.Sound (s : State) : Prop where
  halt : s.haltLaw
  arrival : s.arrivalLaw
  owner : s.OwnerLaw
  buffer : s.bufferLaw
  recency : s.recencyLaw

/-- R24 reads which slots are occupied. -/
theorem State.arrivalLaw_congr {s t : State} (h : s.arrivalLaw) (ha : t.urt.arrival = s.urt.arrival)
    (hs : ∀ i : SlotIx, t.urt.slots[i].isSome = s.urt.slots[i].isSome) : t.arrivalLaw :=
  ⟨ha ▸ h.1, fun i => by rw [ha, hs]; exact h.2 i⟩

theorem State.arrivalLaw_of_keys {s t : State} (h : s.arrivalLaw) (ha : t.urt.arrival = s.urt.arrival)
    (hs : ∀ i : SlotIx, t.urt.slots[i].map Slot.key = s.urt.slots[i].map Slot.key) : t.arrivalLaw :=
  State.arrivalLaw_congr h ha fun i => by
    rw [← Option.isSome_map (f := Slot.key), hs i, Option.isSome_map]

/-- Neither slots nor lines nor tags change. -/
theorem State.Sound.congr {s t : State} (h : s.Sound) (hs : t.urt.slots = s.urt.slots) (ha : t.urt.arrival = s.urt.arrival)
    (hq : t.pq.entries = s.pq.entries) (hb : t.rab = s.rab) (ht : t.stt = s.stt) (hm : t.mli = s.mli)
    (hp : t.pctl.path = s.pctl.path) : t.Sound where
  halt := State.haltLaw_of fun hh => by
    obtain ⟨h1, h2, h3, h4, h5, h6⟩ := State.HaltEmpty.intro h.halt (hp ▸ hh)
    exact ⟨by rw [hs]; exact h1, hq.trans h2, by rw [hb]; exact h3, by rw [hb]; exact h4, by rw [ht]; exact h5,
      by rw [hm]; exact h6⟩
  arrival := State.arrivalLaw_congr h.arrival ha fun i => by rw [hs]
  owner := h.owner.keep_slots hm hb fun j => .inl (by rw [hs])
  buffer := by unfold State.bufferLaw; rw [hb]; exact h.buffer
  recency := by unfold State.recencyLaw; rw [hb]; exact h.recency

/-! ### Moves -/

theorem Rab.find_of_free {b : Rab} (h : ∀ r : LineIx, b.lines[r].state = .free) (l : LineAddr) : b.find l = none := by
  refine Option.eq_none_iff_forall_ne_some.2 fun r hr => ?_
  exact (Rab.find_some hr).1 (h r)

theorem Rab.patch_of_free {b : Rab} (h : ∀ r : LineIx, b.lines[r].state = .free) (l m dt) : b.patch l m dt = b := by
  unfold Rab.patch
  rw [Rab.find_of_free h]

theorem Stream.moveOn_valid (depth : Nat) (r h : LineAddr → Bool) (n : Nat) (e : Stream) :
    (Stream.moveOn depth r h n e).valid = e.valid := (Stream.moveOn_key depth r h n e).1

theorem State.moveStreams_valid (s : State) (k : StreamIx) :
    s.moveStreams.stt.entries[k].valid = s.stt.entries[k].valid := by
  simp only [State.moveStreams_stt, Vector.get_ofFn_fin, State.moveStream, Stream.moveOn_valid]

/-- In HALT no slot waits for service, so a move changes none of what the law is about. -/
theorem Move.haltEmpty {s t : State} (m : Move SlotState.awaitsService s t) (h : s.HaltEmpty) : t.HaltEmpty := by
  have none_waits : ∀ {i : SlotIx} {x : Slot}, s.urt.slots[i] = some x → x.state.awaitsService → False :=
    fun hx hw => hw.ne_held (h.held _ _ hx)
  cases m with
  | finish _ _ hx hw => exact (none_waits hx hw).elim
  | drainWait hx hw _ _ => exact (none_waits hx hw).elim
  | issueWait hx hw => exact (none_waits hx hw).elim
  | postWait hx hw => exact (none_waits hx hw).elim
  | join hx hw _ _ _ _ => exact (none_waits hx hw).elim
  | allocate hx hw _ _ _ _ => exact (none_waits hx hw).elim
  | hit r hv => rw [h.lines r] at hv; exact absurd hv (by simp)
  | patch l m b =>
    rw [Rab.patch_of_free h.lines]
    exact ⟨h.held, h.entries, h.lines, h.recency, h.streams, h.tags⟩
  | merge l m b src f =>
    exact ⟨h.held, by simp [Queue.merge, h.entries, updateYoungest], h.lines, h.recency, h.streams, h.tags⟩
  | create d m b src f hx hn => exact absurd (h.held _ _ hx) hn
  | waiting l => exact ⟨h.held, h.entries, h.lines, h.recency, h.streams, h.tags⟩
  | room => exact ⟨h.held, h.entries, h.lines, h.recency, h.streams, h.tags⟩
  | notice src g l hx hn => exact absurd (h.held _ _ hx) hn
  | streams => exact ⟨h.held, h.entries, h.lines, h.recency, fun k => (s.moveStreams_valid k).trans (h.streams k), h.tags⟩
  | flag hx _ hs => exact absurd ((h.held _ _ hx).symm.trans hs) (by simp)

theorem Option.isSome_of_map_eq {α β : Type} {f : α → β} {x y : Option α} (h : x.map f = y.map f) : x.isSome = y.isSome := by
  rw [← Option.isSome_map (f := f), h, Option.isSome_map]

theorem Moves.sound {s t : State} (h : Moves SlotState.awaitsService s t) (hs : s.Sound) : t.Sound := by
  induction h with
  | refl => exact hs
  | @tail t u _ m ih =>
    exact
      { halt := State.haltLaw_of fun hp => m.haltEmpty (.intro ih.halt (m.pctl ▸ hp))
        arrival := State.arrivalLaw_congr ih.arrival m.arrival fun i => Option.isSome_of_map_eq ((Moves.one m).decode i)
        owner := m.ownerLaw ih.owner ih.recency
        buffer := m.bufferLaw ih.buffer
        recency := m.recencyLaw ih.recency }

/-! ### Drain waits -/

theorem State.leaveDrainWait_moves {s : State} {i : SlotIx} {x : Slot} {d : DecodeResult} (hx : s.urt.slots[i] = some x)
    (hd : x.decode = some d) (hk : x.kind = .rd) (hs : x.state = .drainWait) :
    Moves SlotState.awaitsService s (s.leaveDrainWait i) ∧
      ∀ j : SlotIx, j ≠ i → (s.leaveDrainWait i).urt.slots[j] = s.urt.slots[j] := by
  have he : s.leaveDrainWait i = s.faultCheck i x d := by simp only [State.leaveDrainWait, hx, hd]
  rw [he]
  exact ⟨State.faultCheck_moves hx (.inr (.inl hs)) hk hd fun _ h => h.ne_held, (s.faultCheck_served i x d).1⟩

/-- R53 step 4: with each slot once in the list, the reads go on one by one. -/
theorem State.releaseDrainWaits_moves {s : State} (hn : s.urt.arrival.Nodup) :
    Moves SlotState.awaitsService s s.releaseDrainWaits := by
  have key : ∀ (l : List SlotIx) (s : State), l.Nodup → (∀ i ∈ l, ∃ x d, s.urt.slots[i] = some x ∧ x.decode = some d ∧
      x.kind = .rd ∧ x.state = .drainWait) → Moves SlotState.awaitsService s (l.foldl State.leaveDrainWait s) := by
    intro l
    induction l with
    | nil => exact fun _ _ _ => .refl
    | cons a l ih =>
      intro s hl hw
      obtain ⟨ha, hl⟩ := List.nodup_cons.1 hl
      obtain ⟨x, d, hx, hd, hk, hs⟩ := hw a List.mem_cons_self
      obtain ⟨hm, hother⟩ := State.leaveDrainWait_moves hx hd hk hs
      refine hm.trans (ih _ hl fun i hi => ?_)
      obtain ⟨y, e, hy, h⟩ := hw i (List.mem_cons_of_mem _ hi)
      exact ⟨y, e, (hother i fun e => ha (e ▸ hi)).trans hy, h⟩
  refine key _ s (hn.filter _) fun i hi => ?_
  obtain ⟨x, d, hx, hd, hk, hs, _⟩ := (s.drainWaitOver_iff i).1 (List.mem_filter.1 hi).2
  exact ⟨x, d, hx, hd, hk, hs⟩

/-! ### A removal, and the end of an access -/

theorem State.withPq_sound {s : State} (h : s.Sound) {q : Queue} (hq : s.pq.entries = [] → q.entries = []) :
    (s.withPq q).Sound where
  halt := State.haltLaw_of fun hp =>
    have e := State.HaltEmpty.intro h.halt hp
    ⟨e.held, hq e.entries, e.lines, e.recency, e.streams, e.tags⟩
  arrival := h.arrival
  owner := h.owner.keep_slots rfl rfl fun _ => .inl rfl
  buffer := h.buffer
  recency := h.recency

theorem State.removeEntry_sound {s : State} (h : s.Sound) (g : TagIx) : (s.removeEntry g).Sound := by
  have h1 : (s.withPq (s.pq.remove g)).Sound := State.withPq_sound h fun e => by simp [Queue.remove, e]
  have h2 := (State.releaseSlots_moves _).sound ((State.retryPostWait_moves _).sound h1)
  have h3 := (State.releaseDrainWaits_moves h2.arrival.1).sound h2
  exact (State.testFences_moves _).sound ((State.releaseSlots_moves _).sound h3)

/-- R83 to R85: an invalidation frees or marks lines; in HALT there is none to free. -/
theorem State.invalidate_sound {s : State} (h : s.Sound) (sel : RabLine → Bool) :
    (s.withRab (s.rab.invalidate sel)).Sound where
  halt := State.haltLaw_of fun hp => by
    have e := State.HaltEmpty.intro h.halt hp
    refine ⟨e.held, e.entries, fun r => ?_, ?_, e.streams, e.tags⟩
    · simp only [State.withRab_rab, Rab.invalidate, Vector.get_ofFn_fin]
      split
      · rw [RabLine.invalidate, e.lines r]; exact e.lines r
      · exact e.lines r
    · simp only [State.withRab_rab, Rab.invalidate, e.recency, List.filter_nil]
  arrival := h.arrival
  owner := h.owner.keep_lines rfl (fun _ => rfl) fun r => Rab.invalidate_sameFill ..
  buffer := (BufferChange.invalidate s.rab sel).bufferLaw h.buffer
  recency := (BufferChange.invalidate s.rab sel).recencyLaw h.recency

/-- With an OUTSTANDING tag the path is not HALT; what ends the access keeps the path, the list and the buffer's laws. -/
theorem State.Sound.ended {s t : State} (h : s.Sound) {g : TagIx} {x : Tag} (hg : s.mli[g].state = .outstanding)
    (ha : ∀ D, s.depthsWithin D → Accesses D (s.putTag g x) t) (ho : t.OwnerLaw) : t.Sound := by
  obtain ⟨D, hD⟩ := s.exists_depthsWithin
  have hf := (ha D hD).frame
  exact
    { halt := State.haltLaw_of fun hp => absurd hg ((State.HaltEmpty.intro h.halt (hf.pctl ▸ hp)).tags g)
      arrival := State.arrivalLaw_of_keys h.arrival hf.arrival hf.keys
      owner := ho
      buffer := (ha D hD).bufferLaw h.buffer
      recency := (ha D hD).recencyLaw h.recency }

/-- The tag of an access that no line owns ends; nothing else changes. -/
theorem State.putTag_sound {s : State} (h : s.Sound) {g : TagIx} {x : Tag} (hg : s.mli[g].state = .outstanding)
    (hx : x.state ≠ .outstanding) (ho : s.mli[g].ownerLine = none) : (s.putTag g x).Sound :=
  h.ended hg (fun _ _ => .refl) (h.owner.end_still hx rfl ho hg (fun _ => .refl _) rfl)

theorem State.drainFailed_sound {s : State} (h : s.Sound) (e : Entry) (g : TagIx) (k) : (s.drainFailed e g k).Sound :=
  (State.invalidate_sound (s := s.withFlt ((s.flt.record e.line e.mask k).setFlags e.sources))
    (h.congr rfl rfl rfl rfl rfl rfl rfl) fun x => x.holds e.line).congr rfl rfl rfl rfl rfl rfl rfl

theorem State.drainEnds_sound {s : State} (h : s.Sound) (g : TagIx) (k) : (s.drainEnds g k).Sound := by
  unfold State.drainEnds
  split
  · exact State.removeEntry_sound (State.drainFailed_sound h ..) g
  · exact h

theorem State.drainOk_sound {s : State} (h : s.Sound) (g : TagIx) : (s.drainOk g).Sound := by
  unfold State.drainOk
  split
  · rename_i e _
    exact State.removeEntry_sound (s := s.withFlt (s.flt.clearBytes e.line e.mask)) (h.congr rfl rfl rfl rfl rfl rfl rfl) g
  · exact h

/-- R118, R122: the end of an access that fails or times out. -/
theorem State.accessEnds_sound {s : State} (h : s.Sound) {g : TagIx} {x : Tag} (k) (hg : s.mli[g].state = .outstanding)
    (hx : x.state ≠ .outstanding) : ((s.putTag g x).accessEnds s.mli[g] g k).Sound := by
  have access : ∀ D, s.depthsWithin D → Accesses D (s.putTag g x) ((s.putTag g x).accessEnds s.mli[g] g k) :=
    fun _ hd => State.accessEnds_access (s.putTag g x) hd _ _ _
  have fill : (∀ r, s.mli[g].ownerLine = some r → (s.putTag g x).accessEnds s.mli[g] g k = (s.putTag g x).fillEnds r g k) →
      (s.mli[g].ownerLine = none → (s.putTag g x).accessEnds s.mli[g] g k = s.putTag g x) →
      ((s.putTag g x).accessEnds s.mli[g] g k).Sound := by
    intro hsome hnone
    cases ho : s.mli[g].ownerLine with
    | none => rw [hnone ho]; exact State.putTag_sound h hg hx ho
    | some r => exact h.ended hg access (hsome r ho ▸ State.fillEnds_ownerLaw h.owner h.buffer k hx hg ho)
  cases hk : s.mli[g].kind with
  | demandRead =>
    exact fill (fun r ho => by simp only [State.accessEnds, hk, ho]) fun ho => by simp only [State.accessEnds, hk, ho]
  | prefetchRead =>
    exact fill (fun r ho => by simp only [State.accessEnds, hk, ho]) fun ho => by simp only [State.accessEnds, hk, ho]
  | unbufferedRead =>
    have ho := h.owner.ownerLine_none hg (by rw [hk]; simp) (by rw [hk]; simp)
    refine h.ended hg access (h.owner.end_answered hx (State.accessEnds_mli ..) ho hg (fun r => ?_) ?_)
    · simp only [State.accessEnds, hk, State.readEnds, State.log_rab, State.failOwner_rab]; exact .refl _
    · simp only [State.accessEnds, hk]; exact State.failOwner_answered (s.putTag g x) s.mli[g] k
  | drainWrite =>
    have ho := h.owner.ownerLine_none hg (by rw [hk]; simp) (by rw [hk]; simp)
    have he : (s.putTag g x).accessEnds s.mli[g] g k = (s.putTag g x).drainEnds g k := by simp only [State.accessEnds, hk]
    rw [he]
    exact State.drainEnds_sound (State.putTag_sound h hg hx ho) g k
  | directWrite =>
    have ho := h.owner.ownerLine_none hg (by rw [hk]; simp) (by rw [hk]; simp)
    refine h.ended hg access (h.owner.end_answered hx (State.accessEnds_mli ..) ho hg (fun r => ?_) ?_)
    · have hb : ((s.putTag g x).accessEnds s.mli[g] g k).rab = s.rab.lineFailed s.mli[g].line := by
        simp only [State.accessEnds, hk, State.writeEnds, State.log_rab, State.failOwner_rab]; rfl
      rw [hb]
      exact Rab.invalidate_sameFill s.rab _ r
    · simp only [State.accessEnds, hk]
      exact State.failOwner_answered ((s.putTag g x).withRab (s.rab.lineFailed s.mli[g].line)) s.mli[g] k

/-- R118: the OK completion of an access. -/
theorem State.accessOk_sound {s : State} (h : s.Sound) {g : TagIx} (m) (hg : s.mli[g].state = .outstanding) :
    ((s.putTag g Tag.free).accessOk s.mli[g] g m).Sound := by
  have hx : Tag.free.state ≠ .outstanding := by simp [Tag.free]
  have access : ∀ D, s.depthsWithin D → Accesses D (s.putTag g Tag.free) ((s.putTag g Tag.free).accessOk s.mli[g] g m) :=
    fun _ hd => State.accessOk_access (s.putTag g Tag.free) hd _ _ _
  have fill : ∀ l, (∀ r, s.mli[g].ownerLine = some r → (s.putTag g Tag.free).accessOk s.mli[g] g m =
        (s.putTag g Tag.free).fillOk r l) →
      (s.mli[g].ownerLine = none → (s.putTag g Tag.free).accessOk s.mli[g] g m = s.putTag g Tag.free) →
      ((s.putTag g Tag.free).accessOk s.mli[g] g m).Sound := by
    intro l hsome hnone
    cases ho : s.mli[g].ownerLine with
    | none => rw [hnone ho]; exact State.putTag_sound h hg hx ho
    | some r => exact h.ended hg access (hsome r ho ▸ State.fillOk_ownerLaw h.owner h.buffer l hx hg ho)
  have failed : (s.putTag g Tag.free).accessOk s.mli[g] g m = (s.putTag g Tag.free).accessEnds s.mli[g] g .fail →
      ((s.putTag g Tag.free).accessOk s.mli[g] g m).Sound := fun e => e ▸ State.accessEnds_sound h .fail hg hx
  cases hk : s.mli[g].kind with
  | demandRead =>
    cases m with
    | none => exact failed (by simp only [State.accessOk, hk])
    | some l => exact fill l (fun r ho => by simp only [State.accessOk, hk, ho]) fun ho => by simp only [State.accessOk, hk, ho]
  | prefetchRead =>
    cases m with
    | none => exact failed (by simp only [State.accessOk, hk])
    | some l => exact fill l (fun r ho => by simp only [State.accessOk, hk, ho]) fun ho => by simp only [State.accessOk, hk, ho]
  | unbufferedRead =>
    cases m with
    | none => exact failed (by simp only [State.accessOk, hk])
    | some l =>
      have ho := h.owner.ownerLine_none hg (by rw [hk]; simp) (by rw [hk]; simp)
      refine h.ended hg access (h.owner.end_answered hx (State.accessOk_mli ..) ho hg (fun r => ?_) ?_)
      · simp only [State.accessOk, hk, State.readOk_rab]; exact .refl _
      · simp only [State.accessOk, hk]; exact State.readOk_answered (s.putTag g Tag.free) s.mli[g] l
  | drainWrite =>
    have ho := h.owner.ownerLine_none hg (by rw [hk]; simp) (by rw [hk]; simp)
    have he : (s.putTag g Tag.free).accessOk s.mli[g] g m = (s.putTag g Tag.free).drainOk g := by
      simp only [State.accessOk, hk]
    rw [he]
    exact State.drainOk_sound (State.putTag_sound h hg hx ho) g
  | directWrite =>
    have ho := h.owner.ownerLine_none hg (by rw [hk]; simp) (by rw [hk]; simp)
    refine h.ended hg access (h.owner.end_answered hx (State.accessOk_mli ..) ho hg (fun r => ?_) ?_)
    · simp only [State.accessOk, hk, State.writeOk_rab]; exact .refl _
    · simp only [State.accessOk, hk]; exact State.writeOk_answered (s.putTag g Tag.free) s.mli[g]

end Sys2Proof.Machine
end

section
/-! PROOFS. The twelfth law (R149) over every deed and every command. -/

namespace Sys2Proof.Machine

/-! ### The issue step -/

/-- R149: in HALT nothing is issued. -/
theorem State.HaltEmpty.issueOne {s : State} (h : s.HaltEmpty) (hp : s.pctl.path = .halt) : s.issueOne = s := by
  have hd : s.drainOffer = none := by simp [State.drainOffer, Queue.candidate, h.entries]
  have hm : s.demandPick = none := by
    refine List.find?_eq_none.2 fun i _ hi => ?_
    obtain ⟨y, _, hy, _, hst⟩ := State.demandIssuable_slot hi
    exact absurd ((h.held i y hy).symm.trans hst) (by simp)
  have hf : s.prefetchPick = none := by
    refine Option.eq_none_iff_forall_ne_some.2 fun k hk => ?_
    have := State.prefetchPick_proposing hk
    simp [State.proposing, hp] at this
  have hc : s.choose = none := by simp [State.choose, hd, hm, hf]
  unfold State.issueOne
  rw [hc]
  split <;> first | rfl | exact absurd ‹none = some _› (by simp)

theorem State.issueOne_sound {s : State} (h : s.Sound) : s.issueOne.Sound := by
  by_cases hp : s.pctl.path = .halt
  · rw [(State.HaltEmpty.intro h.halt hp).issueOne hp]; exact h
  have hf := s.issueOne_inside.1
  have hpath : s.issueOne.pctl = s.pctl := by
    obtain ⟨D, hD⟩ := s.exists_depthsWithin
    rcases s.issueOne_access hD with ⟨u, m, ha, he⟩ | he
    · rw [he]; exact ha.frame.pctl
    · rw [he]
  exact
    { halt := State.haltLaw_of fun hh => absurd (hpath ▸ hh) hp
      arrival := State.arrivalLaw_of_keys h.arrival hf.arrival hf.keys
      owner := State.issueOne_ownerLaw h.owner h.buffer h.recency
      buffer := s.issueOne_events.bufferLaw h.buffer
      recency := s.issueOne_events.recencyLaw h.recency }

/-! ### Tags, streams, the path -/

theorem State.withMli_sound {s : State} (h : s.Sound) {m : Mli} (hm : Mli.SameOutstanding s.mli m) : (s.withMli m).Sound where
  halt := State.haltLaw_of fun hp =>
    have e := State.HaltEmpty.intro h.halt hp
    ⟨e.held, e.entries, e.lines, e.recency, e.streams, fun g hg => e.tags g ((hm g).1.1 hg)⟩
  arrival := h.arrival
  owner := h.owner.keep hm (fun _ => .refl _) fun _ => .inl rfl
  buffer := h.buffer
  recency := h.recency

theorem State.withStt_sound {s : State} (h : s.Sound) {n : Stt}
    (hn : ∀ k : StreamIx, n.entries[k].valid = true → s.stt.entries[k].valid = true) : (s.withStt n).Sound where
  halt := State.haltLaw_of fun hp =>
    have e := State.HaltEmpty.intro h.halt hp
    ⟨e.held, e.entries, e.lines, e.recency, fun k => Bool.eq_false_iff.2 fun hv => absurd (hn k hv) (by rw [e.streams k]; simp),
      e.tags⟩
  arrival := h.arrival
  owner := h.owner.keep_slots rfl rfl fun _ => .inl rfl
  buffer := h.buffer
  recency := h.recency

theorem State.withPctl_sound {s : State} (h : s.Sound) {p : Pctl} (hp : p.path ≠ .halt) : (s.withPctl p).Sound where
  halt := State.haltLaw_of fun hh => absurd hh hp
  arrival := h.arrival
  owner := h.owner.keep_slots rfl rfl fun _ => .inl rfl
  buffer := h.buffer
  recency := h.recency

/-- R86: entry to HALT leaves the FILLING lines. -/
theorem Rab.haltEntry_line (b : Rab) (r : LineIx) :
    b.haltEntry.lines[r] = if b.lines[r].state = .valid then RabLine.free else b.lines[r] := by
  simp only [Rab.haltEntry, Vector.get_ofFn_fin]

theorem State.enterHalt_frame (s : State) : s.enterHalt.urt = s.urt ∧ s.enterHalt.pq = s.pq ∧ s.enterHalt.mli = s.mli ∧
    s.enterHalt.rab = s.rab.haltEntry ∧ s.enterHalt.stt = Stt.empty := by
  unfold State.enterHalt
  simp only [State.withStt_urt, State.withStt_pq, State.withStt_mli, State.withStt_rab, State.withStt_stt, State.withRab_urt,
    State.withRab_pq, State.withRab_mli, State.withRab_rab, State.withPctl_urt, State.withPctl_pq, State.withPctl_mli, and_self]

/-- R149: an empty path has no FILLING line, so it enters HALT with every line FREE. -/
theorem State.enterHalt_empty {s : State} (h : s.Sound) (he : s.pathEmpty = true) : s.enterHalt.HaltEmpty := by
  obtain ⟨ha, hq, hg⟩ := (s.pathEmpty_iff).1 he
  have none : ∀ i : SlotIx, s.urt.slots[i] = none := fun i => by
    have := h.arrival.2 i
    rw [ha] at this
    simpa using this
  have not_filling : ∀ r : LineIx, s.rab.lines[r].state ≠ .filling := fun r hr => by
    cases ht : s.rab.lines[r].tag with
    | none =>
      obtain ⟨i, _, _, hi, _⟩ := h.owner.unissued r hr ht
      rw [Urt.slotHas, none i] at hi
      exact absurd hi (by simp)
    | some g => exact hg g (h.owner.issued r g hr ht).1
  obtain ⟨eu, eq, em, eb, es⟩ := s.enterHalt_frame
  refine ⟨fun i x hx => ?_, by rw [eq]; exact hq, fun r => ?_, by rw [eb]; rfl, fun k => by rw [es]; exact Stt.empty_valid k,
    by rw [em]; exact hg⟩
  · rw [eu, none i] at hx
    exact absurd hx (by simp)
  · rw [eb, Rab.haltEntry_line]
    split
    · rfl
    · rename_i hv
      have := not_filling r
      generalize s.rab.lines[r].state = st at *
      cases st <;> simp_all

theorem State.enterHalt_ownerLaw {s : State} (h : s.OwnerLaw) : s.enterHalt.OwnerLaw := by
  obtain ⟨eu, _, em, eb, _⟩ := s.enterHalt_frame
  refine h.keep_lines em (fun _ => by rw [eu]) fun r => ?_
  rw [eb, Rab.haltEntry_line]
  split
  · rename_i hv
    exact ⟨by rw [hv]; simp [RabLine.free], fun hf => absurd (hv.symm.trans hf) (by simp)⟩
  · exact .refl _

theorem State.haltTest_sound {s : State} (h : s.Sound) : s.haltTest.Sound where
  halt := State.haltLaw_of fun hp => by
    unfold State.haltTest at hp ⊢
    split
    · rename_i hc; exact State.enterHalt_empty h hc.2
    · rename_i hc; rw [if_neg hc] at hp; exact State.HaltEmpty.intro h.halt hp
  arrival := State.arrivalLaw_of_keys h.arrival (by rw [State.haltTest_urt]) fun i => by rw [State.haltTest_urt]
  owner := by
    unfold State.haltTest
    split
    · exact State.enterHalt_ownerLaw h.owner
    · exact h.owner
  buffer := s.haltTest_events.bufferLaw h.buffer
  recency := s.haltTest_events.recencyLaw h.recency

/-! ### The decode moment (R18, R25, R37) -/

/-- The decode moment changes slot `i` alone, which keeps its tag. -/
theorem State.receive_slots (s : State) (i j : SlotIx) : (s.receive i).urt.slots[j] = s.urt.slots[j] ∨
    (j = i ∧ ∃ x y, s.urt.slots[i] = some x ∧ (s.receive i).urt.slots[i] = some y ∧ y.tag = x.tag) := by
  unfold State.receive
  split
  · exact .inl rfl
  · rename_i x hx
    have one : ∀ f : Slot → Slot, (∀ z, (f z).tag = z.tag) → (s.urt.update i f).slots[j] = s.urt.slots[j] ∨
        (j = i ∧ ∃ x y, s.urt.slots[i] = some x ∧ (s.urt.update i f).slots[i] = some y ∧ y.tag = x.tag) := fun f hf => by
      rcases Urt.update_cases s.urt i f hx j with e | ⟨e, h⟩
      · exact .inl e
      · exact .inr ⟨e, x, f x, hx, e ▸ h, hf x⟩
    split
    · exact one _ fun _ => rfl
    · split
      · exact one _ fun _ => rfl
      · split <;> exact one _ fun _ => rfl

theorem Queue.fenceArrives_entries {q : Queue} {i : SlotIx} (h : q.entries = []) : (q.fenceArrives i).entries = [] := by
  simp [Queue.fenceArrives, h]

theorem State.receive_blocks (s : State) (i : SlotIx) : (s.receive i).rab = s.rab := by
  unfold State.receive
  split
  · rfl
  · split
    · rfl
    · split
      · rfl
      · split <;> rfl

/-- Outside HALT a slot that nothing waits on may take its decode moment. -/
theorem State.receive_sound {s : State} (h : s.Sound) (hp : s.pctl.path ≠ .halt) {i : SlotIx}
    (hi : ∀ x, s.urt.slots[i] = some x → ¬ x.state.onMemory) : (s.receive i).Sound := by
  have hw := (State.receive_work (D := 0) s i).frame
  exact
    { halt := State.haltLaw_of fun hh => absurd (hw.pctl ▸ hh) hp
      arrival := State.arrivalLaw_of_keys h.arrival hw.arrival hw.keys
      owner := h.owner.keep_slots hw.mli (s.receive_blocks i) fun j => by
        refine (s.receive_slots i j).imp id fun ⟨e, x, y, hx, hy, ht⟩ => ?_
        subst e
        refine ⟨h.owner.unreferenced hi, fun z hz => ?_⟩
        obtain rfl := Option.some.inj (hy.symm.trans hz)
        exact ht.trans (h.owner.tag_none hx (fun e => hi x hx (.inl e)) fun e => hi x hx (.inr (.inr e)))
      buffer := (State.receive_work (D := 0) s i).bufferLaw h.buffer
      recency := (State.receive_work (D := 0) s i).recencyLaw h.recency }

/-- R37: with each slot once in the list, the HELD slots take their decode moments one by one. -/
theorem State.releaseHeld_sound {s : State} (h : s.Sound) (hp : s.pctl.path ≠ .halt) : s.releaseHeld.Sound := by
  have key : ∀ (l : List SlotIx) (s : State), l.Nodup → s.Sound → s.pctl.path ≠ .halt →
      (∀ i ∈ l, ∃ x, s.urt.slots[i] = some x ∧ x.state = .held) → (l.foldl State.releaseOneHeld s).Sound := by
    intro l
    induction l with
    | nil => exact fun _ _ h _ _ => h
    | cons a l ih =>
      intro s hl h hp hh
      obtain ⟨ha, hl⟩ := List.nodup_cons.1 hl
      obtain ⟨x, hx, hs⟩ := hh a List.mem_cons_self
      have hr : (s.receive a).Sound := State.receive_sound h hp fun y hy => by
        obtain rfl := Option.some.inj (hx.symm.trans hy)
        simp [hs, SlotState.onMemory]
      have hm := State.settle_moves (s.receive a)
      refine ih _ hl (hm.sound hr) ?_ fun i hi => ?_
      · show (s.receive a).settle.pctl.path ≠ .halt
        rw [hm.pctl, (State.receive_work (D := 0) s a).frame.pctl]; exact hp
      · obtain ⟨y, hy, hys⟩ := hh i (List.mem_cons_of_mem _ hi)
        refine ⟨y, hm.slot_stands (((s.receive_slots a i).resolve_right fun e => ha (e.1 ▸ hi)).trans hy) ?_, hys⟩
        exact fun hw => hw.ne_held hys
  refine key _ s (h.arrival.1.filter _) h hp fun i hi => ?_
  have := (List.mem_filter.1 hi).2
  unfold Urt.slotHas at this
  split at this
  · rename_i x hx; exact ⟨x, hx, by simpa using this⟩
  · exact absurd this (by simp)

/-! ### Every deed, and every command -/

theorem Deed.sound {s t : State} (d : Deed s t) (h : s.Sound) : t.Sound := by
  cases d with
  | moves m => exact m.sound h
  | drainWaits => exact (State.releaseDrainWaits_moves h.arrival.1).sound h
  | ends x k hg hx => exact State.accessEnds_sound h k hg hx
  | oks m hg => exact State.accessOk_sound h m hg
  | issue => exact State.issueOne_sound h
  | tags m hm => exact State.withMli_sound h hm
  | queueAges => exact State.withPq_sound h fun e => by simp [Queue.age, e]
  | streams n hn => exact State.withStt_sound h hn
  | invalidate sel => exact State.invalidate_sound h sel
  | halt => exact State.haltTest_sound h
  | aside a => exact h.congr (by rw [a.urt]) (by rw [a.urt]) (by rw [a.pq]) a.rab a.stt a.mli a.path
  | path p hp => exact State.withPctl_sound h hp
  | withheld =>
    unfold State.sendWithheld
    split
    · exact h.congr rfl rfl rfl rfl rfl rfl rfl
    · exact h
  | held hp => exact State.releaseHeld_sound h hp

theorem Deeds.sound {s t : State} (d : Deeds s t) (h : s.Sound) : t.Sound := by
  induction d with
  | refl => exact h
  | tail _ d ih => exact d.sound ih

theorem slotOfReq_tag (header addr : Word) (data : Vector Word 8) (st : SlotState) :
    (slotOfReq header addr data st).tag = none := rfl

theorem slotOfReq_state (header addr : Word) (data : Vector Word 8) (st : SlotState) :
    (slotOfReq header addr data st).state = st := rfl

/-- R24: a request takes a free slot; in HALT it is HELD. -/
theorem State.take_sound {s : State} (h : s.Sound) {i : SlotIx} {x : Slot} (hi : s.urt.lowestFree = some i)
    (ht : x.tag = none) (hx : s.pctl.path = .halt → x.state = .held) : (s.withUrt (s.urt.take i x)).Sound := by
  have hnew := State.lowestFree_new h.arrival hi
  have hfree : s.urt.slots[i] = none := by
    have := mt (h.arrival.2 i).2 hnew
    simpa using this
  have slot : ∀ j : SlotIx, (s.urt.take i x).slots[j] = if i = j then some x else s.urt.slots[j] := fun j => by
    simp only [Urt.take, Vector.get_set_fin]
  exact
    { halt := State.haltLaw_of fun hp => by
        have e := State.HaltEmpty.intro h.halt hp
        refine ⟨fun j y hy => ?_, e.entries, e.lines, e.recency, e.streams, e.tags⟩
        rw [State.withUrt_urt, slot] at hy
        split at hy
        · obtain rfl := Option.some.inj hy; exact hx hp
        · exact e.held j y hy
      arrival := by
        refine ⟨List.nodup_append.2 ⟨h.arrival.1, List.nodup_singleton i, fun a ha b hb e => ?_⟩, fun j => ?_⟩
        · obtain rfl := List.mem_singleton.1 hb
          exact hnew (e ▸ ha)
        · rw [State.withUrt_urt, slot]
          show j ∈ s.urt.arrival ++ [i] ↔ _
          rw [List.mem_append, List.mem_singleton, h.arrival.2 j]
          split
          · rename_i e; simp [e.symm]
          · rename_i e; simp [Ne.symm e]
      owner := h.owner.keep_slots rfl rfl fun j => by
        rw [State.withUrt_urt, slot]
        by_cases e : i = j
        · subst e
          rw [if_pos rfl]
          refine .inr ⟨h.owner.unreferenced fun y hy => absurd (hfree.symm.trans hy) (by simp), fun y hy => ?_⟩
          obtain rfl := Option.some.inj hy; exact ht
        · rw [if_neg e]; exact .inl rfl
      buffer := h.buffer
      recency := h.recency }

theorem State.takeRequest_sound {s : State} (h : s.Sound) {i : SlotIx} {header addr : Word} {data : Vector Word 8}
    (hi : s.urt.lowestFree = some i) : (s.takeRequest i header addr data).Sound := by
  unfold State.takeRequest
  split
  · exact State.take_sound h hi rfl fun _ => rfl
  · rename_i hp
    have ht : (s.withUrt (s.urt.take i (slotOfReq header addr data .orderWait))).Sound :=
      State.take_sound h hi rfl fun hh => absurd hh hp
    refine (State.close_deeds _).sound (State.receive_sound ht hp fun x hx => ?_)
    · rw [State.withUrt_urt, Urt.take_self] at hx
      obtain rfl := Option.some.inj hx
      simp [slotOfReq_state, SlotState.onMemory]

/-- R38: a DONE slot is freed. -/
theorem State.respond_sound {s : State} (h : s.Sound) {i : SlotIx} {x : Slot} (hx : s.urt.slots[i] = some x)
    (hs : x.state = .done) : (s.respond i).Sound := by
  have slot : ∀ j : SlotIx, (s.urt.free i).slots[j] = if i = j then none else s.urt.slots[j] := fun j => by
    simp only [Urt.free, Vector.get_set_fin]
  have hfree : (s.withUrt (s.urt.free i)).Sound :=
    { halt := State.haltLaw_of fun hp => by
        have := (State.HaltEmpty.intro h.halt hp).held i x hx
        rw [hs] at this
        exact absurd this (by simp)
      arrival := by
        refine ⟨h.arrival.1.erase i, fun j => ?_⟩
        rw [State.withUrt_urt, slot]
        show j ∈ s.urt.arrival.erase i ↔ _
        rw [h.arrival.1.mem_erase_iff, h.arrival.2 j]
        split
        · rename_i e; simp [e]
        · rename_i e; simp [Ne.symm e]
      owner := h.owner.keep_slots rfl rfl fun j => by
        rw [State.withUrt_urt, slot]
        by_cases e : i = j
        · subst e
          rw [if_pos rfl]
          refine .inr ⟨h.owner.unreferenced fun y hy => ?_, fun y hy => absurd hy (by simp)⟩
          obtain rfl := Option.some.inj (hx.symm.trans hy)
          simp [hs, SlotState.onMemory]
        · rw [if_neg e]; exact .inl rfl
      buffer := h.buffer
      recency := h.recency }
  rw [State.respond_some hx]
  unfold State.creditStep
  split <;> exact hfree.congr rfl rfl rfl rfl rfl rfl rfl

/-- R39, R87, R128: without slots a FILLING line has its tag, and no tag is a slot's. -/
theorem State.dropLink_ownerLaw {s : State} (h : s.OwnerLaw) : s.dropLink.OwnerLaw := by
  have line : ∀ r : LineIx, s.rab.dropSlots.lines[r] =
      if s.rab.lines[r].state = .filling ∧ s.rab.lines[r].tag = none then RabLine.free
      else { s.rab.lines[r] with waiters := [] } := fun r => by
    simp only [Rab.dropSlots, Vector.get_ofFn_fin]
  have fills : ∀ r : LineIx, s.rab.dropSlots.lines[r].state = .filling → s.rab.lines[r].state = .filling ∧
      s.rab.lines[r].tag ≠ none ∧ s.rab.dropSlots.lines[r] = { s.rab.lines[r] with waiters := [] } := by
    intro r hr
    rw [line] at hr ⊢
    split at hr
    · exact absurd hr (by simp [RabLine.free])
    · rename_i hn
      exact ⟨hr, fun ht => hn ⟨hr, ht⟩, if_neg hn⟩
  have tag : ∀ g : TagIx, (Mli.dropSlotOwners s.mli)[g].kind = s.mli[g].kind ∧
      ∀ r, (Mli.dropSlotOwners s.mli)[g].owner = some (.line r) ↔ s.mli[g].owner = some (.line r) := by
    intro g
    simp only [Mli.dropSlotOwners, Vector.get_ofFn_fin]
    generalize s.mli[g] = x
    rcases x with ⟨_, _, _, _, _, _, _ | (_ | _ | _), _⟩ <;> simp
  have no_slot : ∀ (g : TagIx) (i : SlotIx), (Mli.dropSlotOwners s.mli)[g].owner ≠ some (.slot i) := by
    intro g i
    simp only [Mli.dropSlotOwners, Vector.get_ofFn_fin]
    generalize s.mli[g] = x
    rcases x with ⟨_, _, _, _, _, _, _ | (_ | _ | _), _⟩ <;> simp
  constructor
  case waiters =>
    intro r hr i hi
    have := (fills r hr).2.2
    rw [show s.dropLink.rab = s.rab.dropSlots from rfl, this] at hi
    exact absurd hi (by simp)
  case issued =>
    intro r g hr hg
    obtain ⟨hf, _, he⟩ := fills r hr
    rw [show s.dropLink.rab = s.rab.dropSlots from rfl, he] at hg
    obtain ⟨ho, hown, hk⟩ := h.issued r g hf hg
    show (Mli.dropSlotOwners s.mli)[g].state = _ ∧ (Mli.dropSlotOwners s.mli)[g].owner = _ ∧
      ((Mli.dropSlotOwners s.mli)[g].kind = _ ∨ (Mli.dropSlotOwners s.mli)[g].kind = _)
    rw [Mli.dropSlotOwners_state, (tag g).1, (tag g).2]
    exact ⟨ho, hown, hk⟩
  case unissued =>
    intro r hr ht
    obtain ⟨_, hn, he⟩ := fills r hr
    rw [show s.dropLink.rab = s.rab.dropSlots from rfl, he] at ht
    exact absurd ht hn
  case lineTags =>
    intro g r hg ho
    obtain ⟨hf, ht⟩ := h.lineTags g r ((Mli.dropSlotOwners_state s.mli g).symm.trans hg) (((tag g).2 r).1 ho)
    show s.rab.dropSlots.lines[r].state = _ ∧ s.rab.dropSlots.lines[r].tag = _
    rw [line, if_neg fun hc => absurd (hc.2.symm.trans ht) (by simp)]
    exact ⟨hf, ht⟩
  case slotTags => exact fun g i _ ho => absurd ho (no_slot g i)
  case heldTags => exact fun i x hx => absurd hx (by simp [State.dropLink, Urt.empty])

theorem State.dropLink_sound {s : State} (h : s.Sound) : s.dropLink.Sound where
  halt := State.haltLaw_of fun hp => by
    have e := State.HaltEmpty.intro h.halt hp
    refine ⟨fun i x hx => absurd hx (by simp [State.dropLink, Urt.empty]), ?_, fun r => ?_, e.recency,
      fun k => Stt.empty_valid k, fun g hg => e.tags g ((Mli.dropSlotOwners_state s.mli g).symm.trans hg)⟩
    · show (s.pq.dropFenceMarks).entries = []
      simp [Queue.dropFenceMarks, e.entries]
    · show s.rab.dropSlots.lines[r].state = .free
      simp only [Rab.dropSlots, Vector.get_ofFn_fin]
      split
      · rfl
      · exact e.lines r
  arrival := ⟨List.nodup_nil, fun i => by simp [State.dropLink, Urt.empty]⟩
  owner := State.dropLink_ownerLaw h.owner
  buffer := s.dropLink_events.bufferLaw h.buffer
  recency := s.dropLink_events.recencyLaw h.recency

theorem State.linkComesUp_sound {s : State} (h : s.Sound) : s.linkComesUp.Sound := by
  unfold State.linkComesUp
  split <;> exact h.congr rfl rfl rfl rfl rfl rfl rfl

theorem State.releaseLink_sound {s : State} (h : s.Sound) : s.releaseLink.Sound := by
  unfold State.releaseLink
  split
  · exact State.linkComesUp_sound h
  · exact h

theorem State.reset_sound : State.reset.Sound := by
  obtain ⟨_, _, _, _, hb, hr, _, _, _, _, hh, ha, _, _, ho, _⟩ := resetMeetsTheLaws
  exact ⟨hh, ha, ho, hb, hr⟩

theorem exec_sound {c : Instr} {s t : State} (h : exec c s = .next t) (hs : s.Sound) : t.Sound := by
  have hq : s.quiet.Sound := hs.congr rfl rfl rfl rfl rfl rfl rfl
  have pin : ∀ p, (s.quiet.withPins p).Sound := fun p => hs.congr rfl rfl rfl rfl rfl rfl rfl
  by_cases hc : Instr.atLink c = false
  · obtain ⟨u, hu, hd⟩ := exec_deeds (s := s) hc
    obtain rfl := Host.Outcome.next.inj (hu.symm.trans h)
    exact hd.sound hq
  cases c
  case req header addr data =>
    simp only [exec, execReq] at h
    split at h
    · exact Host.Outcome.next.inj h ▸ hq
    · split at h
      · exact Host.Outcome.next.inj h ▸ hs.congr rfl rfl rfl rfl rfl rfl rfl
      · split at h
        · rename_i i hi
          exact Host.Outcome.next.inj h ▸ State.takeRequest_sound hq hi
        · exact absurd h (by simp)
  case resp =>
    by_cases hn : s.linkUp = false ∨ s.urt.nextResponse = none
    · rw [exec_resp_none hn] at h
      exact Host.Outcome.next.inj h ▸ hq
    · obtain ⟨hl, hi⟩ := not_or.1 hn
      obtain ⟨i, hi⟩ := Option.ne_none_iff_exists'.1 hi
      obtain ⟨_, x, hx, hst, _⟩ := Urt.nextResponse_some hi
      rw [exec_resp_some (Bool.eq_true_of_not_eq_false hl) hi] at h
      exact Host.Outcome.next.inj h ▸ (State.close_deeds _).sound (State.respond_sound hq hx hst)
  case ilrstnAssert =>
    simp only [exec, execIlrstnAssert] at h
    split at h <;> obtain rfl := Host.Outcome.next.inj h
    · exact (State.close_deeds _).sound (State.dropLink_sound (pin _))
    · exact pin _
  case ilrstnDeassert =>
    simp only [exec, execIlrstnDeassert] at h
    split at h <;> obtain rfl := Host.Outcome.next.inj h
    · exact State.linkComesUp_sound (pin _)
    · exact pin _
  case resetnAssert =>
    simp only [exec, execResetnAssert] at h
    split at h <;> obtain rfl := Host.Outcome.next.inj h
    · exact State.reset_sound.congr rfl rfl rfl rfl rfl rfl rfl
    · exact hq
  case resetnRelease o =>
    by_cases hr : s.pins.resetn = true
    · rw [show exec (.resetnRelease o) s = .next s.quiet from if_pos hr] at h
      exact Host.Outcome.next.inj h ▸ hq
    · rw [exec_resetnRelease_down hr] at h
      cases o <;> obtain rfl := Host.Outcome.next.inj h
      · exact (State.releaseDemand_deeds _).sound (State.releaseLink_sound (pin _))
      · exact State.releaseLink_sound ((State.releaseDemand_deeds _).sound (pin _))
  all_goals exact absurd rfl hc

/-- Settles O57: the laws are kept together, deed by deed. -/
theorem everyStepKeepsHaltLaw : Obligations.EveryStepKeepsHaltLaw := fun s t hh ha ho hb hr h => by
  have hs : s.Sound := ⟨hh, ha, ho, hb, hr⟩
  have ht : t.Sound := by
    unfold step at h
    split at h
    · obtain rfl := Host.Outcome.next.inj h
      exact s.idle_deeds.sound (hs.congr rfl rfl rfl rfl rfl rfl rfl)
    · exact exec_sound h (hs.congr rfl rfl rfl rfl rfl rfl rfl)
  exact ⟨ht.halt, ht.arrival, ht.owner⟩

end Sys2Proof.Machine
end

section
/-! PROOFS. What every step leaves over (R27 to R29, R36, R50, R98, R147): nothing. -/

namespace Sys2Proof.Machine

/-! ### No read waits for entries that are gone, no room is left to offer (R28, R29, R50) -/

/-- What the end of an event does not establish, and every deed keeps. -/
structure State.Rest (s : State) : Prop where
  waits : s.waitsSettled
  room : s.pq.room = false

/-- Slot `j` is in no wait for drains. -/
def State.NoDrainWait (s : State) (j : SlotIx) : Prop := ∀ y, s.urt.slots[j] = some y → y.state ≠ .drainWait

theorem State.NoDrainWait.over {s : State} {j : SlotIx} (h : s.NoDrainWait j) : s.drainWaitOver j = false := by
  refine Bool.eq_false_iff.2 fun hc => ?_
  obtain ⟨y, _, hy, _, _, hs, _⟩ := (s.drainWaitOver_iff j).1 hc
  exact h y hy hs

/-- Slots that stand wait as before while no entry leaves the queue. -/
theorem State.Rest.keep {s t : State} (h : s.Rest) (hq : t.pq.Covers s.pq) (hr : t.pq.room = false)
    (hs : ∀ j ∈ t.urt.arrival, (j ∈ s.urt.arrival ∧ t.urt.slots[j] = s.urt.slots[j]) ∨ t.NoDrainWait j) : t.Rest := by
  refine ⟨fun j hj => ?_, hr⟩
  rcases hs j hj with ⟨hj', e⟩ | hn
  · refine Bool.eq_false_iff.2 fun hc => ?_
    obtain ⟨y, d, hy, hd, hk, hst, hb⟩ := (t.drainWaitOver_iff j).1 hc
    have hb' : s.pq.holdsBack d = false :=
      Bool.eq_false_iff.2 fun hc => by rw [hq.holdsBack hc] at hb; exact absurd hb (by simp)
    have := h.waits j hj'
    rw [(s.drainWaitOver_iff j).2 ⟨y, d, e ▸ hy, hd, hk, hst, hb'⟩] at this
    exact absurd this (by simp)
  · exact hn.over

theorem State.Rest.congr {s t : State} (h : s.Rest) (hs : t.urt.slots = s.urt.slots) (ha : t.urt.arrival = s.urt.arrival)
    (hq : t.pq = s.pq) : t.Rest :=
  h.keep (hq ▸ Queue.Covers.refl _) (hq ▸ h.room) fun j hj => .inl ⟨ha ▸ hj, by rw [hs]⟩

theorem Moves.rest {W : SlotState → Prop} {s t : State} (m : Moves W s t) (h : s.Rest) : t.Rest :=
  ⟨m.waitsSettled h.waits, m.room h.room⟩

/-! ### A removal (R53) -/

theorem State.lookupOutcome_pq (s : State) (i x d) : (s.lookupOutcome i x d).pq = s.pq := by
  unfold State.lookupOutcome
  split
  · split <;> rfl
  · split <;> rfl

theorem State.notify_pq (s : State) (src d) : (s.notify src d).pq = s.pq := by
  unfold State.notify
  split
  · split <;> rfl
  · rfl

theorem State.faultCheck_pq (s : State) (i x d) : (s.faultCheck i x d).pq = s.pq := by
  unfold State.faultCheck
  split
  · rfl
  · split
    · unfold State.lookup
      rw [State.moveStreams_pq, State.notify_pq, State.lookupOutcome_pq]
    · rfl

/-- R30, R31: where the fault check leads. -/
def SlotState.checked (st : SlotState) : Prop := st = .done ∨ st = .fillWait ∨ st = .issueWait

theorem State.updateSlot_self {s : State} {i : SlotIx} {f : Slot → Slot} {y : Slot}
    (h : (s.updateSlot i f).urt.slots[i] = some y) : ∃ x, s.urt.slots[i] = some x ∧ y = f x := by
  obtain ⟨x, hx, e⟩ := Option.map_eq_some_iff.1 ((Urt.update_self ..).symm.trans h)
  exact ⟨x, hx, e.symm⟩

theorem State.finish_checked {s : State} {i : SlotIx} {st bs} {y : Slot} (h : (s.finish i st bs).urt.slots[i] = some y) :
    y.state.checked := by
  obtain ⟨x, _, rfl⟩ := State.updateSlot_self h
  exact .inl rfl

theorem State.slotEnters_checked {s : State} {i : SlotIx} {st : SlotState} (hst : st.checked) {y : Slot}
    (h : (s.slotEnters i st).urt.slots[i] = some y) : y.state.checked := by
  obtain ⟨x, _, rfl⟩ := State.updateSlot_self h
  exact hst

theorem State.lookup_checked (s : State) (i x d) : ∀ y, (s.lookup i x d).urt.slots[i] = some y → y.state.checked := by
  unfold State.lookup
  rw [State.moveStreams_urt, State.notify_urt]
  unfold State.lookupOutcome
  split
  · split
    · exact fun _ => State.finish_checked
    · exact fun _ => State.slotEnters_checked (.inr (.inl rfl))
  · split <;> exact fun _ => State.slotEnters_checked (.inr (.inr rfl))

theorem State.faultCheck_checked (s : State) (i x d) :
    ∀ y, (s.faultCheck i x d).urt.slots[i] = some y → y.state.checked := by
  unfold State.faultCheck
  split
  · exact fun _ => State.finish_checked
  · split
    · exact s.lookup_checked i x d
    · exact fun _ => State.slotEnters_checked (.inr (.inr rfl))

/-- A read that goes on from DRAIN_WAIT waits there no more; the others wait as before. -/
theorem State.leaveDrainWait_over (s : State) (i j : SlotIx) :
    (s.leaveDrainWait i).drainWaitOver j = true → s.drainWaitOver j = true ∧ j ≠ i := by
  unfold State.leaveDrainWait
  split
  · rename_i hx
    refine fun h => ⟨h, fun e => ?_⟩
    subst e
    obtain ⟨x, _, hy, _⟩ := (s.drainWaitOver_iff j).1 h
    exact absurd (hx.symm.trans hy) (by simp)
  · rename_i x hx
    split
    · rename_i hd
      refine fun h => ⟨h, fun e => ?_⟩
      subst e
      obtain ⟨y, d, hy, hd', _⟩ := (s.drainWaitOver_iff j).1 h
      obtain rfl := Option.some.inj (hx.symm.trans hy)
      exact absurd (hd.symm.trans hd') (by simp)
    · rename_i d _
      intro h
      obtain ⟨y, d', hy, hd', hk, hs, hb⟩ := (State.drainWaitOver_iff _ j).1 h
      have hne : j ≠ i := fun e => by
        subst e
        rcases State.faultCheck_checked s j x d y hy with e | e | e <;> simp [e] at hs
      refine ⟨(s.drainWaitOver_iff j).2 ⟨y, d', ?_, hd', hk, hs, ?_⟩, hne⟩
      · exact ((s.faultCheck_served i x d).1 j hne).symm.trans hy
      · rw [State.faultCheck_pq] at hb; exact hb

theorem State.leaveDrainWait_pq (s : State) (i : SlotIx) : (s.leaveDrainWait i).pq = s.pq := by
  unfold State.leaveDrainWait
  split
  · rfl
  · split
    · rfl
    · exact State.faultCheck_pq ..

theorem State.releaseDrainWaits_arrival (s : State) : s.releaseDrainWaits.urt.arrival = s.urt.arrival :=
  (ReleaseFrame.ofWorks fun _ h => State.releaseDrainWaits_work s h).arrival

/-- R53 step 4: after the releases no read in DRAIN_WAIT is left whose wait is over. -/
theorem State.releaseDrainWaits_rest {s : State} (hr : s.pq.room = false) : s.releaseDrainWaits.Rest := by
  have key : ∀ (l : List SlotIx) (s : State), (l.foldl State.leaveDrainWait s).pq = s.pq ∧
      ∀ j, (l.foldl State.leaveDrainWait s).drainWaitOver j = true → s.drainWaitOver j = true ∧ j ∉ l := by
    intro l
    induction l with
    | nil => exact fun _ => ⟨rfl, fun _ h => ⟨h, by simp⟩⟩
    | cons a l ih =>
      intro s
      obtain ⟨h1, h2⟩ := ih (s.leaveDrainWait a)
      refine ⟨h1.trans (s.leaveDrainWait_pq a), fun j hj => ?_⟩
      obtain ⟨hj, hl⟩ := h2 j hj
      obtain ⟨hj, hne⟩ := s.leaveDrainWait_over a j hj
      exact ⟨hj, fun hm => (List.mem_cons.1 hm).elim hne hl⟩
  refine ⟨fun j hj => ?_, ?_⟩
  · rw [State.releaseDrainWaits_arrival] at hj
    refine Bool.eq_false_iff.2 fun hc => ?_
    obtain ⟨hover, hn⟩ := (key _ s).2 j hc
    exact hn (List.mem_filter.2 ⟨hj, hover⟩)
  · unfold State.releaseDrainWaits
    rw [(key _ s).1]
    exact hr

theorem State.releaseDrainWaits_still {s : State} (h : s.waitsSettled) : s.releaseDrainWaits = s := by
  unfold State.releaseDrainWaits
  rw [List.filter_eq_nil_iff.2 fun i hi => by rw [h i hi]; simp]
  rfl

/-- R50: the room of a removal is offered once. -/
theorem State.retryPostWait_room (s : State) : s.retryPostWait.pq.room = false := by
  by_cases h : s.pq.room = false
  · rw [State.retryPostWait, if_pos h]; exact h
  · exact (State.retryPostWait_offer h).room rfl

/-- R53: a removal leaves no read waiting for it, and no room. -/
theorem State.removeEntry_rest (s : State) (g : TagIx) : (s.removeEntry g).Rest := by
  have h1 : (s.withPq (s.pq.remove g)).retryPostWait.releaseSlots.pq.room = false :=
    (State.releaseSlots_moves _).room (State.retryPostWait_room _)
  exact (State.testFences_moves _).rest ((State.releaseSlots_moves _).rest (State.releaseDrainWaits_rest h1))

/-! ### Every deed keeps it -/

theorem State.Answered.rest {l : List SlotIx} {s t : State} (h : s.Rest) (hq : t.pq = s.pq)
    (ha : t.urt.arrival = s.urt.arrival)
    (hs : ∀ j : SlotIx, t.urt.slots[j] = s.urt.slots[j] ∨ (j ∈ l ∧ t.NoDrainWait j)) : t.Rest :=
  h.keep (hq ▸ Queue.Covers.refl _) (hq ▸ h.room) fun j hj => (hs j).imp (fun e => ⟨ha ▸ hj, e⟩) fun e => e.2

theorem State.finish_rest {s : State} (h : s.Rest) (i st bs) : (s.finish i st bs).Rest :=
  h.keep (Queue.Covers.refl _) h.room fun j hj => by
    by_cases e : j = i
    · subst e
      refine .inr fun y hy => ?_
      obtain ⟨x, _, rfl⟩ := State.updateSlot_self hy
      simp
    · exact .inl ⟨hj, Urt.update_other _ _ _ _ e⟩

theorem State.answerWaiter_rest {s : State} (h : s.Rest) (l i) : (State.answerWaiter l s i).Rest := by
  unfold State.answerWaiter
  split
  · exact h
  · split
    · exact h
    · exact State.finish_rest h ..

theorem State.foldl_rest {f : State → SlotIx → State} (hf : ∀ s i, s.Rest → (f s i).Rest) (l : List SlotIx) {s : State}
    (h : s.Rest) : (l.foldl f s).Rest := by
  induction l generalizing s with
  | nil => exact h
  | cons a l ih => exact ih (hf s a h)

theorem State.failOwner_rest {s : State} (h : s.Rest) (x k) : (s.failOwner x k).Rest := by
  unfold State.failOwner
  split
  · exact State.finish_rest h ..
  · exact h

theorem State.fillEnds_rest {s : State} (h : s.Rest) (r g k) : (s.fillEnds r g k).Rest :=
  (State.foldl_rest (f := State.failWaiter k.status) (fun _ i h => State.finish_rest h i _ _) _
    (s := s.withRab (s.rab.release r)) (h.congr rfl rfl rfl)).congr rfl rfl rfl

theorem State.fillOk_rest {s : State} (h : s.Rest) (r m) : (s.fillOk r m).Rest :=
  State.foldl_rest (fun _ i h => State.answerWaiter_rest h _ i) _ (s := s.withRab (s.rab.finishFill r m))
    (h.congr rfl rfl rfl)

theorem State.accessEnds_rest {s : State} (h : s.Rest) (x g k) : (s.accessEnds x g k).Rest := by
  unfold State.accessEnds
  split
  · split
    · exact State.fillEnds_rest h ..
    · exact h
  · split
    · exact State.fillEnds_rest h ..
    · exact h
  · exact (State.failOwner_rest h x k).congr rfl rfl rfl
  · unfold State.drainEnds
    split
    · exact State.removeEntry_rest ..
    · exact h
  · exact (State.failOwner_rest (s := s.withRab (s.rab.lineFailed x.line)) (h.congr rfl rfl rfl) x k).congr rfl rfl rfl

theorem State.accessOk_rest {s : State} (h : s.Rest) (x g m) : (s.accessOk x g m).Rest := by
  unfold State.accessOk
  split
  · split
    · exact State.fillOk_rest h ..
    · exact h
  · split
    · exact State.fillOk_rest h ..
    · exact h
  · unfold State.readOk
    split
    · exact State.answerWaiter_rest h ..
    · exact h
  · exact State.accessEnds_rest h ..
  · exact State.accessEnds_rest h ..
  · exact State.accessEnds_rest h ..
  · unfold State.drainOk
    split
    · exact State.removeEntry_rest ..
    · exact h
  · unfold State.writeOk
    split
    · exact State.finish_rest (s := s.withFlt (s.flt.clearBytes x.line x.mask)) (h.congr rfl rfl rfl) ..
    · exact h.congr rfl rfl rfl

theorem issueFirst_covers (g : TagIx) : ∀ (es : List Entry), ∀ e ∈ es, ∃ e' ∈ issueFirst g es, e'.line = e.line ∧ e'.region = e.region
  | [], e, he => absurd he (by simp)
  | a :: es, e, he => by
    unfold issueFirst
    rcases List.mem_cons.1 he with rfl | he
    · split
      · exact ⟨e, List.mem_cons_self, rfl, rfl⟩
      · exact ⟨_, List.mem_cons_self, rfl, rfl⟩
    · split
      · obtain ⟨e', he', h⟩ := issueFirst_covers g es e he
        exact ⟨e', List.mem_cons_of_mem _ he', h⟩
      · exact ⟨e, List.mem_cons_of_mem _ he, rfl, rfl⟩

/-- Entries that change keep line and region. -/
theorem Queue.map_covers (q : Queue) (f : Entry → Entry) (b : Bool) (hf : ∀ e, (f e).line = e.line ∧ (f e).region = e.region) :
    Queue.Covers { entries := q.entries.map f, room := b } q := fun e he =>
  ⟨f e, List.mem_map_of_mem he, hf e⟩

theorem State.issueOne_rest {s : State} (h : s.Rest) : s.issueOne.Rest := by
  have slot : ∀ {i : SlotIx} {f : Slot → Slot}, (∀ x, (f x).state ≠ .drainWait) → (s.updateSlot i f).Rest := by
    intro i f hf
    refine h.keep (Queue.Covers.refl _) h.room fun j hj => ?_
    by_cases e : j = i
    · subst e
      refine .inr fun y hy => ?_
      obtain ⟨x, _, rfl⟩ := State.updateSlot_self hy
      exact hf x
    · exact .inl ⟨hj, Urt.update_other _ _ _ _ e⟩
  unfold State.issueOne
  split
  · rename_i g _ _ _
    exact h.keep (issueFirst_covers g s.pq.entries) h.room fun j hj => .inl ⟨hj, rfl⟩
  · unfold State.issueDemand
    split
    · exact h
    · split
      · exact h
      · split
        · unfold State.issueRead
          dsimp only
          split <;> exact (slot (fun _ => by simp)).congr rfl rfl rfl
        · exact (slot (fun _ => by simp)).congr rfl rfl rfl
        · exact h
        · exact h
  · unfold State.issuePrefetch
    split
    · exact h
    · exact h.congr rfl rfl rfl
  · exact h

theorem Queue.fenceArrives_covers (q : Queue) (i : SlotIx) : (q.fenceArrives i).Covers q :=
  q.map_covers _ _ fun e => ⟨e.seal_line, e.seal_region⟩

/-- R18, R25: the decode moment leads to no wait for drains. -/
theorem State.receive_rest {s : State} (h : s.Rest) (i : SlotIx) : (s.receive i).Rest := by
  have slot : ∀ {q : Queue} {f : Slot → Slot}, q.Covers s.pq → q.room = false → (∀ x, (f x).state ≠ .drainWait) →
      ((s.withPq q).updateSlot i f).Rest := by
    intro q f hq hr hf
    refine h.keep hq hr fun j hj => ?_
    by_cases e : j = i
    · subst e
      refine .inr fun y hy => ?_
      obtain ⟨x, _, rfl⟩ := State.updateSlot_self hy
      exact hf x
    · exact .inl ⟨hj, Urt.update_other _ _ _ _ e⟩
  unfold State.receive
  split
  · exact h
  · split
    · exact slot (.refl _) h.room fun x => by simp [Slot.answerMalformed]
    · split
      · exact slot (s.pq.fenceArrives_covers i) h.room fun x => by simp
      · split <;> exact slot (.refl _) h.room fun x => by simp

theorem Deed.rest {s t : State} (d : Deed s t) (h : s.Rest) : t.Rest := by
  cases d with
  | moves m => exact m.rest h
  | drainWaits => rw [State.releaseDrainWaits_still h.waits]; exact h
  | @ends g x k _ _ => exact State.accessEnds_rest (s := s.putTag g x) (h.congr rfl rfl rfl) ..
  | @oks g m _ => exact State.accessOk_rest (s := s.putTag g Tag.free) (h.congr rfl rfl rfl) ..
  | issue => exact State.issueOne_rest h
  | tags m _ => exact h.congr rfl rfl rfl
  | queueAges => exact h.keep (s.pq.map_covers _ _ fun _ => ⟨rfl, rfl⟩) h.room fun j hj => .inl ⟨hj, rfl⟩
  | streams n _ => exact h.congr rfl rfl rfl
  | invalidate sel => exact h.congr rfl rfl rfl
  | halt => exact h.congr (by rw [State.haltTest_urt]) (by rw [State.haltTest_urt]) s.haltTest_pq
  | aside a => exact h.congr (by rw [a.urt]) (by rw [a.urt]) a.pq
  | path p _ => exact h.congr rfl rfl rfl
  | withheld =>
    unfold State.sendWithheld
    split
    · exact h.congr rfl rfl rfl
    · exact h
  | held _ =>
    exact State.foldl_rest (fun s i h => (State.settle_moves (s.receive i)).rest (State.receive_rest h i)) _ h

theorem Deeds.rest {s t : State} (d : Deeds s t) (h : s.Rest) : t.Rest := by
  induction d with
  | refl => exact h
  | tail _ d ih => exact d.rest ih

/-! ### The end of an event settles the part -/

theorem State.Settled.rest {s : State} (h : s.Settled) : s.Rest := ⟨h.waits, h.room⟩

/-- R147: the HALT test settles a part that nothing but the empty path keeps unsettled. -/
theorem State.haltTest_settles {s : State} (h1 : s.orderSettled) (h2 : s.fencesSettled) (h3 : s.streamsSettled)
    (h4 : s.Rest) : s.haltTest.Settled where
  order := by unfold State.orderSettled; rw [State.haltTest_urt]; exact h1
  fences := fun i hi => by
    rw [State.haltTest_urt] at hi
    rw [State.fenceReady_congr (State.haltTest_urt _) (State.haltTest_pq _)]; exact h2 i hi
  streams := by
    unfold State.haltTest
    split
    · intro k
      rw [s.enterHalt_frame.2.2.2.2]
      simp [Stt.empty, Stream.free, Stream.reaches]
    · exact h3
  drain := State.haltTest_holds s
  waits := (Deed.rest .halt h4).waits
  room := (Deed.rest .halt h4).room

theorem State.close_settles {s : State} (h : s.Rest) (hc : s.configLaw) : s.close.Settled := by
  obtain ⟨h1, h2⟩ := s.settle_settled
  refine State.haltTest_settles h1 h2 ?_ (s.settle_moves.rest h)
  have hr : s.releaseSlots.testFences.rdec = s.rdec :=
    (ReleaseFrame.ofWorks fun _ hd => (s.releaseSlots_work hd).andThen hd (State.testFences_work _)).rdec
  refine State.moveStreams_settled _ fun g => ?_
  rw [hr]
  exact lt_of_le_of_lt (State.configLaw_depths hc g) (by decide)

theorem Aside.settled {s t : State} (a : Aside s t) (hr : t.rdec = s.rdec) (h : s.Settled) : t.Settled :=
  h.congr a.urt a.pq a.stt a.rab hr a.path a.mli

/-- The end of an event keeps the configuration. -/
theorem State.close_config {u : State} (h : u.close.configLaw) : u.configLaw := by
  unfold State.configLaw at *
  rw [u.close_inside.rdec, u.close_inside.cfg] at h
  exact h

theorem State.Ended.settled {s t : State} (e : State.Ended s t) (h : s.Settled) (hc : t.configLaw) : t.Settled := by
  rcases e with ⟨a, hr⟩ | ⟨u, d, rfl⟩
  · exact a.settled hr h
  · exact State.close_settles (d.rest h.rest) (State.close_config hc)

/-! ### Management frames -/

theorem State.sampleBit_settled {s : State} (h : s.Settled) (hc : s.configLaw) (msi : Bool) : (s.sampleBit msi).Settled := by
  have rx : ∀ {u : State} (x), u.Settled → (u.withRx x).Settled := fun x h => h.congr rfl rfl rfl rfl rfl rfl rfl
  unfold State.sampleBit
  split
  · exact h
  · split
    · unfold State.takeBit State.takeBytes
      split
      · exact rx _ h
      · split
        · rename_i f _
          exact rx _ ((f.run_ended s).settled h ((f.run_events s).configLaw hc))
        · exact rx _ h
    · exact h
  · exact rx _ h
  · exact h

theorem State.clockBit_settled {s : State} (h : s.Settled) (hc : s.configLaw) (msi : Bool) : (s.clockBit msi).Settled := by
  unfold State.clockBit
  split
  · rename_i level _
    exact State.sampleBit_settled (s := s.emit (.mso level)) (h.congr rfl rfl rfl rfl rfl rfl rfl) hc msi
  · exact h

theorem State.clockBytes_settled {s : State} (h : s.Settled) (hc : s.configLaw) (bytes : List Byte) :
    (s.clockBytes bytes).Settled := by
  have bits : ∀ (l : List Bool) (s : State), s.Settled → s.configLaw → (l.foldl State.clockBit s).Settled := by
    intro l
    induction l with
    | nil => exact fun _ h _ => h
    | cons b l ih => exact fun s h hc => ih _ (State.clockBit_settled h hc b) ((s.clockBit_events b).configLaw hc)
  unfold State.clockBytes
  induction bytes generalizing s with
  | nil => exact h
  | cons b bytes ih =>
    exact ih (bits _ s h hc) ((Events.foldl State.clockBit_events (bitsHighFirst b) s).configLaw hc)

/-! ### The commands at the Initiator Link -/

/-- Credits are read by nothing that settles. -/
theorem State.Settled.withCredits {s : State} (h : s.Settled) (g w : Nat) :
    (s.withUrt { s.urt with granted := g, withheld := w }).Settled :=
  ⟨h.order, h.fences, h.streams, h.drain, h.waits, h.room⟩

theorem State.linkComesUp_settled {s : State} (h : s.Settled) : s.linkComesUp.Settled := by
  unfold State.linkComesUp
  split
  · exact (h.withCredits 8 0).congr rfl rfl rfl rfl rfl rfl rfl
  · exact h.withCredits 0 8

theorem State.releaseLink_settled {s : State} (h : s.Settled) : s.releaseLink.Settled := by
  unfold State.releaseLink
  split
  · exact State.linkComesUp_settled h
  · exact h

theorem State.releaseDemand_settled {s : State} (h : s.Settled) : s.releaseDemand.Settled := by
  unfold State.releaseDemand State.demandRises
  split
  · split
    · exact State.haltTest_settles h.order h.fences h.streams (h.rest.congr rfl rfl rfl)
    · exact h
  · exact h

theorem State.expireStreams_settled {s : State} (h : s.Settled) : s.expireStreams.Settled := by
  refine ⟨h.order, h.fences, fun k => ?_, h.drain, h.waits, h.room⟩
  have entry : s.expireStreams.stt.entries[k] = Stream.free ∨ s.expireStreams.stt.entries[k] = s.stt.entries[k] := by
    simp only [State.expireStreams, State.withStt_stt, Stt.expire, Vector.get_ofFn_fin]
    split
    · exact .inl rfl
    · exact .inr rfl
  rcases entry with e | e
  · rw [e]; simp [Stream.reaches, Stream.free]
  · rw [e]; exact h.streams k

theorem Urt.slotHas_take {u : Urt} {i j : SlotIx} {x : Slot} {p : Slot → Bool} (hi : u.slots[i] = none)
    (h : u.slotHas j p = true) : (u.take i x).slotHas j p = true := by
  have hne : i ≠ j := fun e => by
    subst e
    rw [Urt.slotHas, hi] at h
    exact absurd h (by simp)
  unfold Urt.slotHas at *
  simp only [Urt.take, Vector.get_set_fin, if_neg hne]
  exact h

/-- A slot older than `j` is older than `j` when another takes the young end. -/
theorem Urt.older_take {u : Urt} {i j k : SlotIx} (x : Slot) (h : k ∈ u.older j) : k ∈ (u.take i x).older j := by
  have grows : ∀ l : List SlotIx, k ∈ l.takeWhile (fun k => k != j) → k ∈ (l ++ [i]).takeWhile fun k => k != j := by
    intro l
    induction l with
    | nil => exact fun h => absurd h (by simp)
    | cons a l ih =>
      rw [List.cons_append, List.takeWhile_cons, List.takeWhile_cons]
      split
      · exact fun h => (List.mem_cons.1 h).elim (fun e => e ▸ List.mem_cons_self) fun h => List.mem_cons_of_mem _ (ih h)
      · exact fun h => absurd h (by simp)
  exact grows u.arrival h

/-- R26, as the release sees it. -/
theorem Urt.releasable_iff (u : Urt) (i : SlotIx) : u.releasable i = true ↔ ∃ x d, u.slots[i] = some x ∧
    x.decode = some d ∧ x.state = .orderWait ∧ x.kind.addressed = true ∧
    ((u.older i).all fun j => !u.slotHas j fun o => o.blocks x d) = true := by
  unfold Urt.releasable
  cases hx : u.slots[i] with
  | none => simp
  | some x =>
    cases hd : x.decode with
    | none => simp [hd]
    | some d => simp only [Bool.and_eq_true, beq_iff_eq, and_assoc, Option.some.injEq, exists_eq_left', exists_and_left, hd]

/-- A HELD request at the young end settles nothing and releases nothing, even in a list that does not follow R24. -/
theorem State.take_held_settled {s : State} {i : SlotIx} {x : Slot} (h : s.Settled) (hp : s.pctl.path = .halt)
    (hi : s.urt.slots[i] = none) (hx : x.state = .held) : (s.withUrt (s.urt.take i x)).Settled := by
  have slot : ∀ j : SlotIx, (s.urt.take i x).slots[j] = if i = j then some x else s.urt.slots[j] := fun j => by
    simp only [Urt.take, Vector.get_set_fin]
  have older : ∀ {j : SlotIx} {p : Slot → Bool}, ((s.urt.take i x).older j).all (fun k => !(s.urt.take i x).slotHas k p) = true →
      (s.urt.older j).all (fun k => !s.urt.slotHas k p) = true := by
    intro j p hall
    refine List.all_eq_true.2 fun k hk => ?_
    have := List.all_eq_true.1 hall k (Urt.older_take x hk)
    rw [Bool.not_eq_true'] at this ⊢
    exact Bool.eq_false_iff.2 fun hc => by rw [Urt.slotHas_take hi hc] at this; exact absurd this (by simp)
  have stands : ∀ {j : SlotIx} {y : Slot}, (s.urt.take i x).slots[j] = some y → y.state ≠ .held →
      j ≠ i ∧ s.urt.slots[j] = some y := by
    intro j y hy hn
    rw [slot] at hy
    split at hy
    · obtain rfl := Option.some.inj hy; exact absurd hx hn
    · rename_i e; exact ⟨Ne.symm e, hy⟩
  have old : ∀ {j : SlotIx}, j ∈ s.urt.arrival ++ [i] → j ≠ i → j ∈ s.urt.arrival := fun hj hne =>
    (List.mem_append.1 hj).resolve_right fun hm => hne (List.mem_singleton.1 hm)
  have rest : (s.withUrt (s.urt.take i x)).Rest := h.rest.keep (Queue.Covers.refl _) h.room fun j hj => by
    by_cases e : j = i
    · subst e
      refine .inr fun y hy => ?_
      rw [State.withUrt_urt, Urt.take_self] at hy
      obtain rfl := Option.some.inj hy
      rw [hx]; simp
    · exact .inl ⟨old hj e, by rw [State.withUrt_urt, slot, if_neg (Ne.symm e)]⟩
  refine ⟨fun j hj => Bool.eq_false_iff.2 fun hc => ?_, fun j hj => Bool.eq_false_iff.2 fun hc => ?_, h.streams,
    fun hd => ?_, rest.waits, h.room⟩
  · obtain ⟨y, d, hy, hd, hs, ha, hall⟩ := ((s.urt.take i x).releasable_iff j).1 hc
    obtain ⟨hne, hy'⟩ := stands hy (by rw [hs]; simp)
    have := (s.urt.releasable_iff j).2 ⟨y, d, hy', hd, hs, ha, older hall⟩
    rw [h.order j (old hj hne)] at this
    exact absurd this (by simp)
  · obtain ⟨y, hy, hk, hs⟩ := State.fenceReady_slot hc
    obtain ⟨hne, hy'⟩ := stands hy (by rw [hs]; simp)
    unfold State.fenceReady at hc
    simp only [Bool.and_eq_true] at hc
    have : s.fenceReady j = true := by
      unfold State.fenceReady
      simp only [Bool.and_eq_true]
      exact ⟨⟨by simp only [Urt.slotHas, hy', hk, hs]; rfl, older hc.1.2⟩, hc.2⟩
    rw [h.fences j (old hj hne)] at this
    exact absurd this (by simp)
  · exact absurd (hp.symm.trans hd) (by simp)

theorem Urt.lowestFree_none {u : Urt} {i : SlotIx} (h : u.lowestFree = some i) : u.slots[i] = none := by
  have := List.find?_some h
  generalize u.slots[i] = x at *
  simpa using this

/-- R24: the request's slot is new to what waits. -/
theorem State.takeRequest_settled {s : State} {i : SlotIx} {header addr : Word} {data : Vector Word 8} (h : s.Settled)
    (hi : s.urt.lowestFree = some i) (hc : (s.takeRequest i header addr data).configLaw) :
    (s.takeRequest i header addr data).Settled := by
  unfold State.takeRequest at hc ⊢
  split
  · rename_i hp
    exact State.take_held_settled h hp (Urt.lowestFree_none hi) rfl
  · rename_i hp
    rw [if_neg hp] at hc
    have hr : (s.withUrt (s.urt.take i (slotOfReq header addr data .orderWait))).Rest :=
      h.rest.keep (Queue.Covers.refl _) h.room fun j hj => by
        by_cases e : j = i
        · subst e
          refine .inr fun y hy => ?_
          rw [State.withUrt_urt, Urt.take_self] at hy
          obtain rfl := Option.some.inj hy
          simp [slotOfReq_state]
        · refine .inl ⟨(List.mem_append.1 hj).resolve_right fun hm => e (List.mem_singleton.1 hm), ?_⟩
          rw [State.withUrt_urt]
          simp only [Urt.take, Vector.get_set_fin, if_neg (Ne.symm e)]
    exact State.close_settles (State.receive_rest hr i) (State.close_config hc)

theorem State.respond_rest {s : State} (h : s.Rest) (i : SlotIx) : (s.respond i).Rest := by
  have hfree : (s.withUrt (s.urt.free i)).Rest := h.keep (Queue.Covers.refl _) h.room fun j hj => by
    by_cases e : j = i
    · subst e
      refine .inr fun y hy => ?_
      simp only [State.withUrt_urt, Urt.free, Vector.get_set_fin] at hy
      exact absurd hy (by simp)
    · refine .inl ⟨List.mem_of_mem_erase hj, ?_⟩
      simp only [State.withUrt_urt, Urt.free, Vector.get_set_fin, if_neg (Ne.symm e)]
  unfold State.respond
  split
  · exact h
  · unfold State.creditStep
    split <;> exact hfree.congr rfl rfl rfl

theorem State.dropLink_rest {s : State} (h : s.Rest) : s.dropLink.Rest :=
  ⟨fun j hj => absurd hj (by simp [State.dropLink, Urt.empty]), h.room⟩

/-! ### Every command, and every step -/

theorem exec_settled {c : Instr} {s t : State} (h : exec c s = .next t) (hs : s.Settled) (hc : t.configLaw)
    (hc0 : s.configLaw) : t.Settled := by
  have hq : s.quiet.Settled := hs.congr rfl rfl rfl rfl rfl rfl rfl
  have pin : ∀ p, (s.quiet.withPins p).Settled := fun p => hs.congr rfl rfl rfl rfl rfl rfl rfl
  by_cases hf : c.isFrame = true
  · obtain ⟨bytes, he⟩ := exec_frame s hf
    obtain rfl := Host.Outcome.next.inj (he.symm.trans h)
    exact State.clockBytes_settled hq hc0 bytes
  by_cases hl : Instr.atLink c = false ∧ Instr.endless c = false
  · obtain ⟨u, hu, he⟩ := exec_ended (s := s) hl.1 hl.2
    obtain rfl := Host.Outcome.next.inj (hu.symm.trans h)
    exact he.settled hq hc
  cases c
  case req header addr data =>
    simp only [exec, execReq] at h
    split at h
    · exact Host.Outcome.next.inj h ▸ hq
    · split at h
      · exact Host.Outcome.next.inj h ▸ hs.congr rfl rfl rfl rfl rfl rfl rfl
      · split at h
        · rename_i i hi
          obtain rfl := Host.Outcome.next.inj h
          exact State.takeRequest_settled hq hi hc
        · exact absurd h (by simp)
  case resp =>
    by_cases hn : s.linkUp = false ∨ s.urt.nextResponse = none
    · rw [exec_resp_none hn] at h
      exact Host.Outcome.next.inj h ▸ hq
    · obtain ⟨hl, hi⟩ := not_or.1 hn
      obtain ⟨i, hi⟩ := Option.ne_none_iff_exists'.1 hi
      rw [exec_resp_some (Bool.eq_true_of_not_eq_false hl) hi] at h
      obtain rfl := Host.Outcome.next.inj h
      exact State.close_settles (State.respond_rest hq.rest i) (State.close_config hc)
  case ilrstnAssert =>
    simp only [exec, execIlrstnAssert] at h
    split at h <;> obtain rfl := Host.Outcome.next.inj h
    · exact State.close_settles (State.dropLink_rest (pin _).rest) (State.close_config hc)
    · exact pin _
  case ilrstnDeassert =>
    simp only [exec, execIlrstnDeassert] at h
    split at h <;> obtain rfl := Host.Outcome.next.inj h
    · exact State.linkComesUp_settled (pin _)
    · exact pin _
  case resetnAssert =>
    simp only [exec, execResetnAssert] at h
    split at h <;> obtain rfl := Host.Outcome.next.inj h
    · exact State.reset_settled.congr rfl rfl rfl rfl rfl rfl rfl
    · exact hq
  case resetnRelease o =>
    by_cases hr : s.pins.resetn = true
    · rw [show exec (.resetnRelease o) s = .next s.quiet from if_pos hr] at h
      exact Host.Outcome.next.inj h ▸ hq
    · rw [exec_resetnRelease_down hr] at h
      cases o <;> obtain rfl := Host.Outcome.next.inj h
      · exact State.releaseDemand_settled (State.releaseLink_settled (pin _))
      · exact State.releaseLink_settled (State.releaseDemand_settled (pin _))
  case fenceDone =>
    obtain rfl := Host.Outcome.next.inj h
    rw [State.testFences_still hq.fences]
    exact hq
  case idleExpiry =>
    obtain rfl := Host.Outcome.next.inj h
    exact State.expireStreams_settled hq
  case haltEntry =>
    obtain rfl := Host.Outcome.next.inj h
    rw [State.haltTest_still hq.drain]
    exact hq
  all_goals first | exact absurd ⟨rfl, rfl⟩ hl | exact absurd rfl hf

theorem State.idle_settled {s : State} (h : s.Settled) (hc : s.configLaw) : s.idle.Settled := by
  have hq : s.quiet.Settled := h.congr rfl rfl rfl rfl rfl rfl rfl
  have hr : s.quiet.refclk.Settled ∧ s.quiet.refclk.configLaw := by
    unfold State.refclk
    split
    · split
      · have hc' := (State.takeTick_events (Config.tickOrder s.tgen.choices)
          (s.quiet.withTgen { s.tgen with choices := s.tgen.choices + 1 })).configLaw hc
        exact ⟨(State.takeTick_ended _ _).settled (s := s.quiet.withTgen { s.tgen with choices := s.tgen.choices + 1 })
          (h.congr rfl rfl rfl rfl rfl rfl rfl) hc', hc'⟩
      · exact ⟨h.congr rfl rfl rfl rfl rfl rfl rfl, hc⟩
    · exact ⟨hq, hc⟩
  unfold State.idle State.clockReply
  split
  · exact State.clockBit_settled hr.1 hr.2 true
  all_goals exact hr.1

/-- Settles O58: an event ends with releases, fence tests, stream moves and the HALT test, and no deed before them leaves a read
waiting for nothing or room to offer. -/
theorem everyStepSettles : Obligations.EveryStepSettles := fun s t hs hc h => by
  have hct : t.configLaw := (step_events h).configLaw hc
  refine ⟨?_, hct⟩
  unfold step at h
  split at h
  · obtain rfl := Host.Outcome.next.inj h
    exact State.idle_settled hs hc
  · exact exec_settled h (hs.congr rfl rfl rfl rfl rfl rfl rfl) hct hc

end Sys2Proof.Machine
end

section
/-! PROOFS. The first step of a valid WR (R26, R33, R34, R45) and the arrival of a FENCE (R35, R36) in a settled part. -/

namespace Sys2Proof.Machine

/-! ### What merging, creating and patching leave -/

/-- Every fence an entry of `q` lists, an entry of `q'` lists (R35, R46, R47). -/
def Queue.KeepsMarks (q q' : Queue) : Prop := ∀ j, q.lists j = true → q'.lists j = true

theorem Queue.lists_iff (q : Queue) (j : SlotIx) : q.lists j = true ↔ ∃ e ∈ q.entries, e.fences.getLsbD j = true :=
  List.any_eq_true

theorem Queue.merge_keepsMarks (q : Queue) (l m b src f) : q.KeepsMarks (q.merge l m b src f) := fun j hj => by
  obtain ⟨e, he, hf⟩ := (q.lists_iff j).1 hj
  rcases updateYoungest_mem (l := l) (f := fun e => e.mergeWrite m b src f) he with h | h
  · exact (Queue.lists_iff _ j).2 ⟨e, h, hf⟩
  · exact (Queue.lists_iff _ j).2 ⟨_, h, by simp [Entry.mergeWrite, hf]⟩

theorem Entry.seal_fences (e : Entry) : e.seal.fences = e.fences := by unfold Entry.seal; split <;> rfl

theorem Queue.create_keepsMarks (q : Queue) (d m b src f) : q.KeepsMarks (q.create d m b src f) := fun j hj => by
  obtain ⟨e, he, hf⟩ := (q.lists_iff j).1 hj
  refine (Queue.lists_iff _ j).2 ⟨if e.line = d.line then e.seal else e,
    List.mem_append_left _ (List.mem_map.2 ⟨e, he, rfl⟩), ?_⟩
  split
  · rw [Entry.seal_fences]; exact hf
  · exact hf

theorem Queue.fenceArrives_keepsMarks (q : Queue) (i : SlotIx) : q.KeepsMarks (q.fenceArrives i) := fun j hj => by
  obtain ⟨e, he, hf⟩ := (q.lists_iff j).1 hj
  refine (Queue.lists_iff (q.fenceArrives i) j).2 ⟨{ e.seal with fences := e.fences ||| slotBit i },
    List.mem_map_of_mem (f := fun e => { e.seal with fences := e.fences ||| slotBit i }) he, ?_⟩
  rw [BitVec.getLsbD_or, hf, Bool.true_or]

theorem RabLine.patchBytes_holds (x : RabLine) (m : ByteMask) (b : LineData) (l : LineAddr) :
    (x.patchBytes m b).holds l = x.holds l := by
  unfold RabLine.patchBytes RabLine.holds
  split <;> simp_all

/-- R76, R77: a patch leaves the lines the buffer holds. -/
theorem Rab.find_patch {b : Rab} {l : LineAddr} {m : ByteMask} {dt : LineData} {a : LineAddr}
    (h : ((b.patch l m dt).find a).isSome = true) : (b.find a).isSome = true := by
  rw [Rab.find_isSome_iff] at *
  obtain ⟨r, hr⟩ := h
  refine ⟨r, ?_⟩
  unfold Rab.patch at hr
  split at hr
  · rw [Rab.update_line] at hr
    split at hr
    · rename_i e; subst e; rwa [RabLine.patchBytes_holds] at hr
    · exact hr
  · exact hr

/-! ### A request that is decoded at its arrival -/

theorem Urt.slotHas_some {u : Urt} {i : SlotIx} {x : Slot} (hx : u.slots[i] = some x) (p : Slot → Bool) :
    u.slotHas i p = p x := by
  unfold Urt.slotHas
  rw [hx]

/-- R25: a valid RD or WR that decode does not answer is in ORDER_WAIT with its decode result. -/
theorem State.receive_ordered {s : State} {i : SlotIx} {x : Slot} (hx : s.urt.slots[i] = some x) (hm : x.malformed = false)
    (hk : x.kind ≠ .fence) (ha : s.rdec.answer x.kind x.addr = none) :
    s.receive i = s.updateSlot i fun y => { y with decode := some (s.rdec.result x.addr), state := .orderWait } := by
  simp only [State.receive, hx, hm, Bool.false_eq_true, if_false, if_neg hk, ha]

theorem State.receive_fence {s : State} {i : SlotIx} {x : Slot} (hx : s.urt.slots[i] = some x) (hk : x.kind = .fence) :
    s.receive i = s.fenceArrival i := by
  have hm : x.malformed = false := by simp [Slot.malformed, hk]
  simp only [State.receive, hx, hm, Bool.false_eq_true, if_false, if_pos hk]

/-- R18, R25: the slot as it stands after its decode moment, and the end of the event still to come. -/
theorem State.Admits.exec_req_ordered {s : State} {i : SlotIx} (h : s.Admits i) {header addr : Word}
    {data : Vector Word 8} {x : Slot} (hx : x = { slotOfReq header addr data .orderWait with decode := some (s.rdec.result addr) })
    (hk : x.kind = .rd ∨ x.kind = .wr) (hm : x.malformed = false) (ha : s.rdec.answer x.kind addr = none) :
    exec (.req header addr data) s = .next (s.quiet.withUrt (s.urt.take i x)).close := by
  subst hx
  have haddr : (slotOfReq header addr data .orderWait).addr = addr := slotOfReq_addr addr data .orderWait hk
  have hf : (slotOfReq header addr data .orderWait).kind ≠ .fence := fun e => by
    rcases hk with hk | hk <;> exact absurd (e.symm.trans hk) (by simp)
  have hr := State.receive_ordered (s := s.quiet.withUrt (s.urt.take i (slotOfReq header addr data .orderWait)))
    (s.urt.take_self i _) hm hf (by rw [haddr]; exact ha)
  rw [h.exec_req, hr, haddr]
  exact congrArg (fun u => Host.Outcome.next (s.quiet.withUrt u).close) (s.urt.update_take i _ _)

/-- R26: a new youngest slot is blocked by an older one, or nothing blocks it. -/
theorem State.take_releasable {s : State} {i : SlotIx} {x : Slot} {d : DecodeResult} (hn : i ∉ s.urt.arrival)
    (hd : x.decode = some d) (hs : x.state = .orderWait) (hk : x.kind.addressed = true) :
    (s.urt.take i x).releasable i = true ↔ ∀ j ∈ s.urt.arrival, s.urt.slotHas j (fun o => o.blocks x d) = false := by
  have hy := s.urt.take_youngest i x hn
  have hall : ((s.urt.take i x).older i).all (fun j => !(s.urt.take i x).slotHas j fun o => o.blocks x d) = true ↔
      ∀ j ∈ s.urt.arrival, s.urt.slotHas j (fun o => o.blocks x d) = false := by
    rw [hy.older_self, List.all_eq_true]
    refine forall_congr' fun j => forall_congr' fun hj => ?_
    rw [hy.has hj, Bool.not_eq_true']
  rw [Urt.releasable_iff]
  constructor
  · rintro ⟨y, d', hy', hd', _, _, h⟩
    obtain rfl := Option.some.inj ((s.urt.take_self i x).symm.trans hy')
    obtain rfl := Option.some.inj (hd.symm.trans hd')
    exact hall.1 h
  · exact fun h => ⟨x, d, s.urt.take_self i x, hd, hs, hk, hall.2 h⟩

/-- Only the new youngest slot is served, and its step releases nothing: what is left of the event is the stream moves. -/
theorem State.close_of_first {s v : State} {i : SlotIx} {y : Slot} (hs : s.Settled) (hv : Youngest s.urt v.urt i)
    (hr : v.urt.releasable i = true) (hy : Youngest s.urt (v.serveFirst i).urt i)
    (hslot : (v.serveFirst i).urt.slots[i] = some y) (h1 : y.state ≠ .orderWait) (h2 : y.state ≠ .fenceWait)
    (hq : s.pq.KeepsMarks (v.serveFirst i).pq) : v.close = (v.serveFirst i).moveStreams := by
  have ho := hy.orderSettled hs.order (Urt.releasable_of_state hslot h1)
  have hf := hy.fencesSettled hs.fences (fun j _ => hq j) (State.fenceReady_of_state hslot h2)
  unfold State.close State.settle
  rw [State.releaseSlots_youngest hv hs.order hr ho, State.testFences_still hf]
  exact State.haltTest_of_arrival (by rw [State.moveStreams_urt, hy.arrival]; simp)

/-- The same where the step leaves the streams and the lines the buffer holds. -/
theorem State.close_of_first_still {s v : State} {i : SlotIx} {y : Slot} (hs : s.Settled) (hv : Youngest s.urt v.urt i)
    (hr : v.urt.releasable i = true) (hy : Youngest s.urt (v.serveFirst i).urt i)
    (hslot : (v.serveFirst i).urt.slots[i] = some y) (h1 : y.state ≠ .orderWait) (h2 : y.state ≠ .fenceWait)
    (hq : s.pq.KeepsMarks (v.serveFirst i).pq) (ht : (v.serveFirst i).stt = s.stt) (hd : (v.serveFirst i).rdec = s.rdec)
    (hb : ∀ l, ((v.serveFirst i).rab.find l).isSome = true → (s.rab.find l).isSome = true) : v.close = v.serveFirst i := by
  rw [State.close_of_first hs hv hr hy hslot h1 h2 hq]
  exact State.moveStreams_still (State.streamsSettled_congr hs.streams ht hd hb)

/-- A request that an older slot blocks waits (R26). -/
theorem State.close_of_blocked {s : State} {i : SlotIx} {x : Slot} {d : DecodeResult} (hs : s.Settled)
    (hn : i ∉ s.urt.arrival) (hd : x.decode = some d) (hst : x.state = .orderWait) (hk : x.kind.addressed = true)
    (hb : ∃ j ∈ s.urt.arrival, s.urt.slotHas j (fun o => o.blocks x d) = true) :
    (s.quiet.withUrt (s.urt.take i x)).close = s.quiet.withUrt (s.urt.take i x) := by
  have hslot : (s.quiet.withUrt (s.urt.take i x)).urt.slots[i] = some x := s.urt.take_self i x
  refine State.Settled.close (hs.insert (s.urt.take_youngest i x hn) (Bool.eq_false_iff.2 fun hr => ?_)
    (State.fenceReady_of_state hslot (by simp [hst])) (fun _ _ h => h) rfl rfl (fun _ h => h) (fun _ h => h)
    (State.drainWaitOver_of_state hslot (by simp [hst])) hs.room)
  obtain ⟨j, hj, hbj⟩ := hb
  rw [(State.take_releasable hn hd hst hk).1 hr j hj] at hbj
  exact absurd hbj (by simp)

/-! ### The first step of a WR -/

theorem State.serveFirst_wr {s : State} {i : SlotIx} {x : Slot} {d : DecodeResult} (hx : s.urt.slots[i] = some x)
    (hd : x.decode = some d) (hk : x.kind = .wr) : s.serveFirst i = s.serveWrite i x d := by
  simp only [State.serveFirst, hx, hd, hk]

theorem State.serveFirst_rd {s : State} {i : SlotIx} {x : Slot} {d : DecodeResult} (hx : s.urt.slots[i] = some x)
    (hd : x.decode = some d) (hk : x.kind = .rd) : s.serveFirst i = s.serveRead i x d := by
  simp only [State.serveFirst, hx, hd, hk]

/-- No fence is younger than the youngest slot. -/
theorem Youngest.fencesYounger {u v : Urt} {i : SlotIx} (h : Youngest u v i) : v.fencesYounger i = 0#8 := by
  unfold Urt.fencesYounger
  rw [h.younger_self]
  rfl

/-- What a request in ORDER_WAIT holds before its first step. -/
structure Slot.Waiting (x : Slot) (d : DecodeResult) : Prop where
  decode : x.decode = some d
  state : x.state = .orderWait
  result : x.result = []
  tag : x.tag = none

theorem Slot.Waiting.done {x : Slot} {d : DecodeResult} (hx : x.Waiting d) (st : RespStatus) (bs : List Byte) :
    { x with state := .done, status := some st, result := bs, tag := none } =
      { x with state := .done, status := some st, result := bs } := by
  obtain ⟨_, _, _, ht⟩ := hx
  rw [← ht]

/-- An update of the slot a request has just taken. -/
theorem State.updateSlot_take {v : State} {u : Urt} {i : SlotIx} {x : Slot} (hv : v.urt = u.take i x) (f : Slot → Slot) :
    v.updateSlot i f = v.withUrt (u.take i (f x)) := by
  unfold State.updateSlot
  rw [hv, Urt.update_take]

/-- R33, R46, R76: a write that merges. -/
theorem State.mergeWrite_take {v : State} {u : Urt} {i : SlotIx} {x : Slot} {d : DecodeResult} (hv : v.urt = u.take i x)
    (hn : i ∉ u.arrival) (hx : x.Waiting d) : v.mergeWrite i x d =
      ((v.withPq (v.pq.merge d.line (x.mask d) (x.lineBytes d) (sourceBit x.source) 0#8)).withRab
        (v.rab.patch d.line (x.mask d) (x.lineBytes d))).withUrt (u.take i { x with state := .done, status := some .ok }) := by
  unfold State.mergeWrite State.finish
  refine (State.updateSlot_take (by exact hv) _).trans ?_
  rw [hx.done, hv, (u.take_youngest i x hn).fencesYounger, ← hx.result]

/-- R33, R47, R76: a write that creates an entry. -/
theorem State.createEntry_take {v : State} {u : Urt} {i : SlotIx} {x : Slot} {d : DecodeResult} (hv : v.urt = u.take i x)
    (hn : i ∉ u.arrival) (hx : x.Waiting d) : v.createEntry i x d =
      ((v.withPq (v.pq.create d (x.mask d) (x.lineBytes d) (sourceBit x.source) 0#8)).withRab
        (v.rab.patch d.line (x.mask d) (x.lineBytes d))).withUrt (u.take i { x with state := .done, status := some .ok }) := by
  unfold State.createEntry State.finish
  refine (State.updateSlot_take (by exact hv) _).trans ?_
  rw [hx.done, hv, (u.take_youngest i x hn).fencesYounger, ← hx.result]

theorem State.slotEnters_take {v : State} {u : Urt} {i : SlotIx} {x : Slot} (hv : v.urt = u.take i x) (st : SlotState) :
    v.slotEnters i st = v.withUrt (u.take i { x with state := st }) := State.updateSlot_take hv _

theorem State.joinPostWait_take {v : State} {u : Urt} {i : SlotIx} {x : Slot} (hv : v.urt = u.take i x) :
    v.joinPostWait i = v.withUrt { u.take i { x with state := .postWait } with postWait := u.postWait ++ [i] } := by
  unfold State.joinPostWait State.slotEnters State.updateSlot
  rw [hv]
  simp [Urt.update, Urt.take, State.withUrt]

/-- What the first step of a WR needs of the part, with the slot the request has taken. -/
structure State.FirstStep (s : State) (i : SlotIx) (x : Slot) (d : DecodeResult) : Prop where
  settled : s.Settled
  new : i ∉ s.urt.arrival
  waiting : x.Waiting d
  addressed : x.kind.addressed = true
  free : ∀ j ∈ s.urt.arrival, s.urt.slotHas j (fun o => o.blocks x d) = false

theorem State.FirstStep.releasable {s : State} {i : SlotIx} {x : Slot} {d : DecodeResult} (h : s.FirstStep i x d) :
    (s.urt.take i x).releasable i = true :=
  (State.take_releasable h.new h.waiting.decode h.waiting.state h.addressed).2 h.free

/-- The event of a request whose first step leaves the streams and the lines the buffer holds. -/
theorem State.FirstStep.close {s w : State} {i : SlotIx} {x y : Slot} {d : DecodeResult} (h : s.FirstStep i x d)
    (hw : (s.quiet.withUrt (s.urt.take i x)).serveFirst i = w) (hy : Youngest s.urt w.urt i)
    (hslot : w.urt.slots[i] = some y) (h1 : y.state ≠ .orderWait) (h2 : y.state ≠ .fenceWait)
    (hq : s.pq.KeepsMarks w.pq) (ht : w.stt = s.stt) (hd : w.rdec = s.rdec)
    (hb : ∀ l, (w.rab.find l).isSome = true → (s.rab.find l).isSome = true) :
    (s.quiet.withUrt (s.urt.take i x)).close = w := by
  subst hw
  exact State.close_of_first_still h.settled (s.urt.take_youngest i x h.new) h.releasable hy hslot h1 h2 hq ht hd hb

theorem State.FirstStep.serveFirst_wr {s : State} {i : SlotIx} {x : Slot} {d : DecodeResult} (h : s.FirstStep i x d)
    (hk : x.kind = .wr) : (s.quiet.withUrt (s.urt.take i x)).serveFirst i =
      (s.quiet.withUrt (s.urt.take i x)).serveWrite i x d :=
  State.serveFirst_wr (s.urt.take_self i x) h.waiting.decode hk

/-- R33, R45, R46: a posted WR that can merge. -/
theorem State.FirstStep.close_merge {s : State} {i : SlotIx} {x : Slot} {d : DecodeResult} (h : s.FirstStep i x d)
    (hk : x.kind = .wr) (hp : d.posts = true) (hm : s.pq.canMerge d = true) :
    (s.quiet.withUrt (s.urt.take i x)).close = ((s.quiet.withPq (s.pq.merge d.line (x.mask d) (x.lineBytes d)
      (sourceBit x.source) 0#8)).withRab (s.rab.patch d.line (x.mask d) (x.lineBytes d))).withUrt
        (s.urt.take i { x with state := .done, status := some .ok }) := by
  refine h.close (y := { x with state := .done, status := some .ok }) ?_ (s.urt.take_youngest i _ h.new)
    (s.urt.take_self i _) (by simp) (by simp) (s.pq.merge_keepsMarks _ _ _ _ _) rfl rfl fun l => Rab.find_patch
  rw [h.serveFirst_wr hk, State.serveWrite, if_pos hp, State.offerWrite, if_pos (by exact hm),
    State.mergeWrite_take rfl h.new h.waiting]
  rfl

/-- R33, R45, R47: a posted WR that finds room for an entry of its own. -/
theorem State.FirstStep.close_create {s : State} {i : SlotIx} {x : Slot} {d : DecodeResult} (h : s.FirstStep i x d)
    (hk : x.kind = .wr) (hp : d.posts = true) (hm : s.pq.canMerge d = false) (hr : s.pq.entries.length < 16)
    (hw : s.urt.postWait = []) :
    (s.quiet.withUrt (s.urt.take i x)).close = ((s.quiet.withPq (s.pq.create d (x.mask d) (x.lineBytes d)
      (sourceBit x.source) 0#8)).withRab (s.rab.patch d.line (x.mask d) (x.lineBytes d))).withUrt
        (s.urt.take i { x with state := .done, status := some .ok }) := by
  refine h.close (y := { x with state := .done, status := some .ok }) ?_ (s.urt.take_youngest i _ h.new)
    (s.urt.take_self i _) (by simp) (by simp) (s.pq.create_keepsMarks _ _ _ _ _) rfl rfl fun l => Rab.find_patch
  have hm' : ¬ (s.quiet.withUrt (s.urt.take i x)).pq.canMerge d = true := by
    show ¬ s.pq.canMerge d = true
    rw [hm]; simp
  rw [h.serveFirst_wr hk, State.serveWrite, if_pos hp, State.offerWrite, if_neg hm', if_pos (by exact ⟨hr, hw⟩),
    State.createEntry_take rfl h.new h.waiting]
  rfl

/-- R33, R45: a posted WR that finds none. -/
theorem State.FirstStep.close_postWait {s : State} {i : SlotIx} {x : Slot} {d : DecodeResult} (h : s.FirstStep i x d)
    (hk : x.kind = .wr) (hp : d.posts = true) (hm : s.pq.canMerge d = false)
    (hr : 16 ≤ s.pq.entries.length ∨ s.urt.postWait ≠ []) : (s.quiet.withUrt (s.urt.take i x)).close =
      s.quiet.withUrt { s.urt.take i { x with state := .postWait } with postWait := s.urt.postWait ++ [i] } := by
  refine h.close (y := { x with state := .postWait }) ?_ ⟨h.new, rfl, (s.urt.take_youngest i _ h.new).others⟩
    (s.urt.take_self i _) (by simp) (by simp) (fun _ hl => hl) rfl rfl fun l hl => hl
  have hm' : ¬ (s.quiet.withUrt (s.urt.take i x)).pq.canMerge d = true := by
    show ¬ s.pq.canMerge d = true
    rw [hm]; simp
  have hr' : ¬ (s.pq.entries.length < 16 ∧ s.urt.postWait = []) := fun hc =>
    hr.elim (fun h => absurd hc.1 (Nat.not_lt.2 h)) fun h => h hc.2
  rw [h.serveFirst_wr hk, State.serveWrite, if_pos hp, State.offerWrite, if_neg hm', if_neg (by exact hr'),
    State.joinPostWait_take rfl]
  rfl

/-- R34: a WR that is not posted. -/
theorem State.FirstStep.close_issueWait {s : State} {i : SlotIx} {x : Slot} {d : DecodeResult} (h : s.FirstStep i x d)
    (hk : x.kind = .wr) (hp : d.posts = false) : (s.quiet.withUrt (s.urt.take i x)).close =
      s.quiet.withUrt (s.urt.take i { x with state := .issueWait }) := by
  refine h.close (y := { x with state := .issueWait }) ?_ (s.urt.take_youngest i _ h.new)
    (s.urt.take_self i _) (by simp) (by simp) (fun _ hl => hl) rfl rfl fun l hl => hl
  rw [h.serveFirst_wr hk, State.serveWrite, if_neg (by rw [hp]; simp), State.slotEnters_take rfl]
  rfl

/-- Settles O8: in a settled part only the new slot is served, and its first step releases nothing. -/
theorem writeFirstStep : Obligations.WriteFirstStep := by
  intro s header addr data i x d hs ha hlink hcredit hslot hpath hd hx hk hm hans
  have hadm : s.Admits i := ⟨hlink, hcredit, hslot, hpath⟩
  have hn := State.lowestFree_new ha hslot
  have hwait : x.Waiting d := by subst hx; exact ⟨rfl, rfl, rfl, rfl⟩
  have hkind : x.kind.addressed = true := by rw [hk]; rfl
  have he := hadm.exec_req_ordered (x := x) (hd ▸ hx) (.inr hk) hm (hk ▸ hans)
  refine ⟨fun hb => ?_, fun hfree => ?_⟩
  · rw [he, State.close_of_blocked hs hn hwait.decode hwait.state hkind hb]; rfl
  have h : s.FirstStep i x d := ⟨hs, hn, hwait, hkind, hfree⟩
  refine ⟨fun hp hmerge => ?_, fun hp hmerge hr hw => ?_, fun hp hmerge hr => ?_, fun hp => ?_⟩
  · rw [he, h.close_merge hk hp hmerge]; rfl
  · rw [he, h.close_create hk hp hmerge hr hw]; rfl
  · rw [he, h.close_postWait hk hp hmerge hr]; rfl
  · rw [he, h.close_issueWait hk hp]; rfl

/-! ### A FENCE -/

/-- R35: the slot of a fence after its arrival actions. -/
theorem State.Admits.exec_req_fence {s : State} {i : SlotIx} (h : s.Admits i) {header addr : Word} {data : Vector Word 8}
    (hk : reqKind header = .fence) : exec (.req header addr data) s = .next
      ((s.quiet.withUrt (s.urt.take i (slotOfReq header addr data .fenceWait))).withPq (s.pq.fenceArrives i)).close := by
  have hr := State.receive_fence (s := s.quiet.withUrt (s.urt.take i (slotOfReq header addr data .orderWait)))
    (s.urt.take_self i _) hk
  rw [h.exec_req, hr, State.fenceArrival, State.slotEnters_take (u := s.urt) rfl]
  rfl

/-- R36: the new youngest slot is a fence whose older writes have settled. -/
theorem Youngest.olderWritesSettled_self {u v : Urt} {i : SlotIx} (h : Youngest u v i) : v.olderWritesSettled i = true ↔
    ∀ j ∈ u.arrival, u.slotHas j (fun o => o.kind == .wr && (o.unsettled || o.state == .memWait)) = false := by
  unfold Urt.olderWritesSettled
  rw [h.older_self, List.all_eq_true]
  refine forall_congr' fun j => forall_congr' fun hj => ?_
  rw [h.has hj, Bool.not_eq_true']

/-- An older fence that is ready with the new slot there was ready before. -/
theorem Youngest.fenceReady {s t : State} {i j : SlotIx} (h : Youngest s.urt t.urt i) (hj : j ∈ s.urt.arrival)
    (hq : s.pq.KeepsMarks t.pq) (hr : t.fenceReady j = true) : s.fenceReady j = true := by
  unfold State.fenceReady at *
  rw [h.has hj, h.olderWrites hj] at hr
  simp only [Bool.and_eq_true, Bool.not_eq_true'] at hr ⊢
  exact ⟨hr.1, Bool.eq_false_iff.2 fun hc => absurd (hq j hc) (by rw [hr.2]; simp)⟩

theorem Entry.seal_eq (e : Entry) : e.seal = { e with state := if e.state = .opened then .sealed else e.state } := by
  unfold Entry.seal
  split <;> rfl

/-- With a slot occupied, streams that could not move on before do not, and the path is not empty. -/
theorem State.moves_end {s w : State} (hs : s.streamsSettled) (ht : w.stt = s.stt) (hr : w.rdec = s.rdec)
    (hb : ∀ l, (w.rab.find l).isSome = true → (s.rab.find l).isSome = true) (ha : w.urt.arrival ≠ []) :
    w.moveStreams.haltTest = w := by
  rw [State.moveStreams_still (State.streamsSettled_congr hs ht hr hb), State.haltTest_of_arrival ha]

theorem State.foldl_testFence_still {s : State} {l : List SlotIx} (h : ∀ j ∈ l, s.fenceReady j = false) :
    l.foldl State.testFence s = s := by
  induction l with
  | nil => rfl
  | cons a l ih =>
    rw [List.foldl_cons, State.testFence, if_neg (by rw [h a List.mem_cons_self]; simp)]
    exact ih fun j hj => h j (List.mem_cons_of_mem _ hj)

/-- R35: after a fence's arrival an entry lists it, if there is one. -/
theorem Queue.fenceArrives_lists (q : Queue) (i : SlotIx) : (q.fenceArrives i).lists i = !q.entries.isEmpty := by
  have hbit : (slotBit i).getLsbD i = true := by
    unfold slotBit
    simp
  cases hq : q.entries with
  | nil => simp [Queue.lists, Queue.fenceArrives, hq]
  | cons e es =>
    refine (Queue.lists_iff _ i).2 ⟨{ e.seal with fences := e.fences ||| slotBit i }, ?_, ?_⟩
    · exact List.mem_map.2 ⟨e, by rw [hq]; exact List.mem_cons_self, rfl⟩
    · rw [BitVec.getLsbD_or, hbit, Bool.or_true]

theorem Flt.clearFlag_clear {f : Flt} {src : SourceNo} (h : f.flags.getLsbD src = false) : f.clearFlag src = f := by
  have : f.flags &&& ~~~ sourceBit src = f.flags := by
    refine BitVec.eq_of_getLsbD_eq fun k hk => ?_
    have := Flt.clearFlag_flag f src ⟨k, hk⟩
    unfold Flt.clearFlag at this
    rw [this]
    by_cases e : src = ⟨k, hk⟩
    · subst e; simp only [ne_eq, not_true_eq_false, decide_false, Bool.and_false]; exact h.symm
    · simp [e]
  unfold Flt.clearFlag
  rw [this]

/-- R36, R139: what completes a fence, whether or not the flag of its SOURCE is set. -/
theorem State.completeFence_eq {s : State} {i : SlotIx} {x : Slot} (hx : s.urt.slots[i] = some x) : s.completeFence i =
    (s.withFlt (s.flt.clearFlag x.source)).finish i (if s.flt.flags.getLsbD x.source then .faulted else .ok) [] := by
  simp only [State.completeFence, hx]
  split
  · rfl
  · rename_i h
    rw [Flt.clearFlag_clear (Bool.eq_false_iff.2 h)]; rfl

/-- Settles O11: the fence's arrival releases nothing; it is tested last of all fences, and no older one has become ready. -/
theorem fenceTakesArrivalActions : Obligations.FenceTakesArrivalActions := by
  intro s header addr data i x hs ha hlink hcredit hslot hpath hk hx
  have hadm : s.Admits i := ⟨hlink, hcredit, hslot, hpath⟩
  have hn := State.lowestFree_new ha hslot
  have hxk : x.kind = .fence := by rw [hx]; exact hk
  have hxs : x.state = .fenceWait := by rw [hx]; rfl
  have hy := s.urt.take_youngest i x hn
  have he := hx ▸ hadm.exec_req_fence (addr := addr) (data := data) hk
  have hn' : ∀ y, y.state = .fenceWait ∨ y.state = .done → (s.urt.take i y).releasable i = false := fun y hs =>
    Urt.releasable_of_state (s.urt.take_self i y) (by rcases hs with hs | hs <;> simp [hs])
  have hready : ((s.quiet.withUrt (s.urt.take i x)).withPq (s.pq.fenceArrives i)).fenceReady i = true ↔
      (∀ j ∈ s.urt.arrival, s.urt.slotHas j (fun o => o.kind == .wr && (o.unsettled || o.state == .memWait)) = false) ∧
        s.pq.entries = [] := by
    have hself : (s.urt.take i x).slotHas i (fun o => o.kind == .fence && o.state == .fenceWait) = true := by
      rw [Urt.slotHas_some (Urt.take_self ..), hxk, hxs]; rfl
    unfold State.fenceReady
    rw [show ((s.quiet.withUrt (s.urt.take i x)).withPq (s.pq.fenceArrives i)).urt = s.urt.take i x from rfl, hself,
      show ((s.quiet.withUrt (s.urt.take i x)).withPq (s.pq.fenceArrives i)).pq = s.pq.fenceArrives i from rfl,
      Queue.fenceArrives_lists, Bool.true_and, Bool.and_eq_true, hy.olderWritesSettled_self, Bool.not_not,
      List.isEmpty_iff]
  have hmarks := s.pq.fenceArrives_keepsMarks i
  refine ⟨fun hwait => ?_, fun hw hq => ?_⟩
  · have hset : ((s.quiet.withUrt (s.urt.take i x)).withPq (s.pq.fenceArrives i)).Settled := by
      refine hs.insert hy (hn' x (.inl hxs)) (Bool.eq_false_iff.2 fun hc => ?_) (fun j _ => hmarks j) rfl rfl (fun _ h => h)
        (fun d => (s.pq.fenceArrives_covers i).holdsBack)
        (State.drainWaitOver_of_state (s.urt.take_self i x) (by simp [hxs])) hs.room
      obtain ⟨hw, hq⟩ := hready.1 hc
      rcases hwait with ⟨j, hj, hb⟩ | hq'
      · rw [hw j hj] at hb; exact absurd hb (by simp)
      · exact hq' hq
    rw [he, hset.close]
    simp only [Queue.fenceArrives, Entry.seal_eq]
    rfl
  · have hold : ∀ j ∈ s.urt.arrival, ((s.quiet.withUrt (s.urt.take i x)).withPq (s.pq.fenceArrives i)).fenceReady j = false :=
      fun j hj => Bool.eq_false_iff.2 fun hc => absurd (Youngest.fenceReady hy hj hmarks hc) (by rw [hs.fences j hj]; simp)
    have htest : ((s.quiet.withUrt (s.urt.take i x)).withPq (s.pq.fenceArrives i)).testFences =
        ((s.quiet.withUrt (s.urt.take i x)).withPq (s.pq.fenceArrives i)).completeFence i := by
      unfold State.testFences
      rw [show ((s.quiet.withUrt (s.urt.take i x)).withPq (s.pq.fenceArrives i)).urt.arrival = s.urt.arrival ++ [i] from rfl,
        List.foldl_append, State.foldl_testFence_still hold]
      exact if_pos (hready.2 ⟨hw, hq⟩)
    have hpq : s.pq.fenceArrives i = s.pq := by
      unfold Queue.fenceArrives
      rw [hq, List.map_nil, ← hq]
    have hrel : ((s.quiet.withUrt (s.urt.take i x)).withPq (s.pq.fenceArrives i)).releaseSlots =
        (s.quiet.withUrt (s.urt.take i x)).withPq (s.pq.fenceArrives i) :=
      State.releaseSlots_still (hy.orderSettled (t := (s.quiet.withUrt (s.urt.take i x)).withPq (s.pq.fenceArrives i)) hs.order
        (hn' x (.inl hxs)))
    rw [he, State.close, State.settle, hrel, htest, State.completeFence_eq (s.urt.take_self i x), hpq,
      State.finish, State.updateSlot_take (u := s.urt) (x := x) rfl,
      State.moves_end hs.streams, hx]
    · rfl
    · rfl
    · rfl
    · exact fun _ h => h
    · simp [Urt.take]

end Sys2Proof.Machine
end

section
/-! PROOFS. The first step of a valid RD (R26, R28 to R31) and what a notice does to the Stream Table (R92 to R94, R98). -/

namespace Sys2Proof.Machine

/-! ### Streams that move past held lines (R98) -/

/-- The entries of `m` are those of `n`, some moved on past lines that are held. -/
structure Stt.MovedPast (held : LineAddr → Bool) (n m : Stt) : Prop where
  mark : m.mark = n.mark
  fields : ∀ k : StreamIx, m.entries[k] = { n.entries[k] with next := m.entries[k].next }
  still : ∀ k : StreamIx, held n.entries[k].next = false → m.entries[k] = n.entries[k]

theorem Stream.moveOn_fields (depth : Nat) (r h : LineAddr → Bool) (n : Nat) (e : Stream) :
    Stream.moveOn depth r h n e = { e with next := (Stream.moveOn depth r h n e).next } := by
  induction n generalizing e with
  | zero => rfl
  | succ n ih =>
    unfold Stream.moveOn
    split
    · exact ih _
    · rfl

theorem Stream.moveOn_free {depth : Nat} {r h : LineAddr → Bool} {n : Nat} {e : Stream} (hn : h e.next = false) :
    Stream.moveOn depth r h n e = e := Stream.moveOn_still (by rw [hn, Bool.and_false])

theorem State.moveStreams_movedPast (s : State) :
    Stt.MovedPast (fun l => (s.rab.find l).isSome) s.stt s.moveStreams.stt where
  mark := rfl
  fields := fun k => by
    simp only [State.moveStreams_stt, Vector.get_ofFn_fin]
    exact Stream.moveOn_fields ..
  still := fun k hk => by
    simp only [State.moveStreams_stt, Vector.get_ofFn_fin]
    exact Stream.moveOn_free hk

theorem Stt.MovedPast.trans {held : LineAddr → Bool} {n m l : Stt} (h : Stt.MovedPast held n m)
    (k : Stt.MovedPast held m l) : Stt.MovedPast held n l where
  mark := k.mark.trans h.mark
  fields := fun j => by
    rw [k.fields j]
    exact congrArg (fun e : Stream => { e with next := l.entries[j].next }) (h.fields j)
  still := fun j hj => by
    have e := h.still j hj
    exact (k.still j (by rw [e]; exact hj)).trans e

/-! ### A notice (R92, R93, R94) -/

/-- R93, R94: the update of an entry, row by row. -/
theorem Stream.train_eq (e : Stream) (l : LineAddr) : e.train l =
    (if l = e.last then { e with last := l, idle := 0 }
    else if e.dir = .up ∧ l = e.last + 1#27 then
      { e with last := l, idle := 0, conf := min (e.conf + 1) 3, next := if e.next = l then l + 1#27 else e.next }
    else if e.dir = .down ∧ l = e.last - 1#27 then
      { e with last := l, idle := 0, conf := min (e.conf + 1) 3, next := if e.next = l then l - 1#27 else e.next }
    else if e.dir = .none ∧ l = e.last + 1#27 then { e with last := l, idle := 0, dir := .up, conf := 1, next := l + 1#27 }
    else if e.dir = .none ∧ l = e.last - 1#27 then { e with last := l, idle := 0, dir := .down, conf := 1, next := l - 1#27 }
    else { e with last := l, idle := 0, dir := .none, conf := 0, next := l }) := by
  unfold Stream.train
  by_cases h : l = e.last
  · rw [if_pos h, if_pos h, h]
  · cases hd : e.dir <;> simp [h, Dir.step]

theorem Stt.find_some_iff {t : Stt} {src : SourceNo} {g : RegionIx} {k : StreamIx} : t.find src g = some k ↔
    (t.entries[k].valid = true ∧ t.entries[k].source = src ∧ t.entries[k].region = g) ∧
      ∀ j : StreamIx, j < k → ¬(t.entries[j].valid = true ∧ t.entries[j].source = src ∧ t.entries[j].region = g) := by
  unfold Stt.find
  rw [← Fin.find?_eq_find?_finRange, Fin.find?_eq_some_iff]
  simp only [Bool.and_eq_true, beq_iff_eq, and_assoc, Bool.eq_false_iff, ne_eq]

theorem Stt.find_none_iff {t : Stt} {src : SourceNo} {g : RegionIx} : t.find src g = none ↔
    ∀ k : StreamIx, ¬(t.entries[k].valid = true ∧ t.entries[k].source = src ∧ t.entries[k].region = g) := by
  unfold Stt.find
  rw [List.find?_eq_none]
  simp only [List.mem_finRange, forall_true_left, Bool.and_eq_true, beq_iff_eq, and_assoc]

/-- The index of the greatest value met, the first among equals. -/
def argmaxFrom {n : Nat} (f : Fin n → Nat) (b : Fin n) (l : List (Fin n)) : Fin n :=
  l.foldl (fun best k => if f best < f k then k else best) b

theorem argmaxFrom_greatest {n : Nat} (f : Fin n → Nat) (l : List (Fin n)) (b : Fin n) (hl : (b :: l).Pairwise (· < ·)) :
    ∀ k ∈ b :: l, f k ≤ f (argmaxFrom f b l) ∧ (k < argmaxFrom f b l → f k < f (argmaxFrom f b l)) := by
  induction l generalizing b with
  | nil => exact fun k hk => by simp_all [argmaxFrom]
  | cons a l ih =>
    obtain ⟨hb, hal⟩ := List.pairwise_cons.1 hl
    have hba : b < a := hb a List.mem_cons_self
    by_cases h : f b < f a
    · have he : argmaxFrom f b (a :: l) = argmaxFrom f a l := congrArg (List.foldl _ · l) (if_pos h)
      have key := ih a hal
      have ha := (key a List.mem_cons_self).1
      rw [he]
      refine fun k hk => (List.mem_cons.1 hk).elim (fun e => ?_) (key k)
      subst e
      exact ⟨by omega, fun _ => by omega⟩
    · have he : argmaxFrom f b (a :: l) = argmaxFrom f b l := congrArg (List.foldl _ · l) (if_neg h)
      have key := ih b (List.pairwise_cons.2 ⟨fun k hk => hb k (List.mem_cons_of_mem _ hk), (List.pairwise_cons.1 hal).2⟩)
      obtain ⟨hle, hlt⟩ := key b List.mem_cons_self
      rw [he]
      intro k hk
      rcases List.mem_cons.1 hk with e | hk
      · subst e; exact ⟨hle, hlt⟩
      · rcases List.mem_cons.1 hk with e | hk
        · subst e
          exact ⟨by omega, fun hr => by have := hlt (lt_trans hba hr); omega⟩
        · exact key k (List.mem_cons_of_mem _ hk)

/-- R92: the idlest entry, the lowest index among equals. -/
theorem Stt.idlest_max (t : Stt) (j : StreamIx) : t.entries[j].idle ≤ t.entries[t.idlest].idle ∧
    (j < t.idlest → t.entries[j].idle < t.entries[t.idlest].idle) := by
  have h0 : t.idlest = argmaxFrom (fun k : StreamIx => t.entries[k].idle) 0 [1, 2, 3] := by
    have h : List.finRange 4 = [0, 1, 2, 3] := by decide
    unfold Stt.idlest argmaxFrom
    rw [h, List.foldl_cons, if_neg (Nat.lt_irrefl _)]
  have := argmaxFrom_greatest (fun k : StreamIx => t.entries[k].idle) [1, 2, 3] 0 (by decide) j (by revert j; decide)
  rwa [← h0] at this

/-- R92: the entry a notice allocates. -/
theorem Stt.victim_cases (t : Stt) :
    (t.entries[t.victim].valid = false ∧ ∀ j : StreamIx, j < t.victim → t.entries[j].valid = true) ∨
      ((∀ j : StreamIx, t.entries[j].valid = true) ∧ t.victim = t.idlest) := by
  cases h : (List.finRange 4).find? fun k => !t.entries[k].valid with
  | none =>
    have hv : t.victim = t.idlest := by unfold Stt.victim; rw [h]
    exact .inr ⟨fun j => by simpa using List.find?_eq_none.1 h j (List.mem_finRange j), hv⟩
  | some k =>
    have hv : t.victim = k := by unfold Stt.victim; rw [h]
    rw [← Fin.find?_eq_find?_finRange, Fin.find?_eq_some_iff] at h
    subst hv
    exact .inl ⟨by simpa using h.1, fun j hj => by simpa using h.2 j hj⟩

/-- R92 to R94, row by row: the second half of O10. -/
theorem Stt.notice_rows (t : Stt) (src : SourceNo) (g : RegionIx) (l : LineAddr) :
    (∀ k : StreamIx, t.find src g = some k → t.notice src g l = { t with entries := t.entries.set k (t.entries[k].train l) }) ∧
      (t.find src g = none →
        t.notice src g l = { t with entries := t.entries.set t.victim (Stream.fresh src g l) }) := by
  unfold Stt.notice
  exact ⟨fun k h => by rw [h], fun h => by rw [h]⟩

/-! ### Serving the read (R28 to R31) -/

/-- R28, R29: a read that nothing in the Post Queue holds back goes to the fault check. -/
theorem State.serveRead_of_free {s : State} {d : DecodeResult} (i : SlotIx) (x : Slot) (h : s.pq.holdsBack d = false) :
    s.serveRead i x d = s.faultCheck i x d := by
  unfold State.serveRead
  by_cases hn : d.type = .normal
  · have hy : s.pq.youngest d.line = none := by
      cases hy : s.pq.youngest d.line with
      | none => rfl
      | some e => exact absurd (Queue.holdsBack_of_youngest hn hy) (by rw [h]; simp)
    rw [if_pos hn, hy]
  · rw [if_neg hn, if_neg (by rw [h]; simp)]

theorem State.finish_take {v : State} {u : Urt} {i : SlotIx} {x : Slot} {d : DecodeResult} (hv : v.urt = u.take i x)
    (hx : x.Waiting d) (st : RespStatus) (bs : List Byte) :
    v.finish i st bs = v.withUrt (u.take i { x with state := .done, status := some st, result := bs }) :=
  (State.updateSlot_take hv _).trans (by rw [hx.done])

/-- The slot that a request took has had its first step; Post Queue and fault tracking stand. -/
structure State.ReadStep (u : Urt) (i : SlotIx) (v w : State) : Prop where
  slot : ∃ y : Slot, w.urt = u.take i y ∧ y.state ≠ .orderWait ∧ y.state ≠ .fenceWait
  pq : w.pq = v.pq
  flt : w.flt = v.flt

theorem State.finish_readStep {v v' : State} {u : Urt} {i : SlotIx} {x : Slot} (hv : v'.urt = u.take i x)
    (hq : v'.pq = v.pq) (hf : v'.flt = v.flt) (st : RespStatus) (bs : List Byte) : State.ReadStep u i v (v'.finish i st bs) :=
  ⟨⟨_, congrArg State.urt (State.updateSlot_take hv _), by simp, by simp⟩, hq, hf⟩

theorem State.slotEnters_readStep {v v' : State} {u : Urt} {i : SlotIx} {x : Slot} (hv : v'.urt = u.take i x)
    (hq : v'.pq = v.pq) (hf : v'.flt = v.flt) {st : SlotState} (h1 : st ≠ .orderWait) (h2 : st ≠ .fenceWait) :
    State.ReadStep u i v (v'.slotEnters i st) :=
  ⟨⟨_, congrArg State.urt (State.updateSlot_take hv _), h1, h2⟩, hq, hf⟩

theorem State.lookupOutcome_readStep {v : State} {u : Urt} {i : SlotIx} {x : Slot} {d : DecodeResult}
    (hv : v.urt = u.take i x) : State.ReadStep u i v (v.lookupOutcome i x d) := by
  unfold State.lookupOutcome
  split
  · split
    · refine State.finish_readStep (x := x) ?_ ?_ ?_ _ _
      exacts [hv, rfl, rfl]
    · refine State.slotEnters_readStep (x := x) ?_ ?_ ?_ (by simp) (by simp)
      exacts [hv, rfl, rfl]
  · split
    · refine State.slotEnters_readStep (x := x) ?_ ?_ ?_ (by simp) (by simp)
      exacts [hv, rfl, rfl]
    · exact State.slotEnters_readStep hv rfl rfl (by simp) (by simp)

theorem State.serveRead_readStep {v : State} {u : Urt} {i : SlotIx} {x : Slot} {d : DecodeResult}
    (hv : v.urt = u.take i x) : State.ReadStep u i v (v.serveRead i x d) := by
  have hc : State.ReadStep u i v (v.faultCheck i x d) := by
    unfold State.faultCheck
    split
    · exact State.finish_readStep hv rfl rfl _ _
    · split
      · obtain ⟨⟨y, hy, h1, h2⟩, hq, hf⟩ := State.lookupOutcome_readStep (d := d) hv
        refine ⟨⟨y, ?_, h1, h2⟩, ?_, ?_⟩
        · rw [State.lookup, State.moveStreams_urt, State.notify_urt, hy]
        · rw [State.lookup, State.moveStreams_pq, State.notify_pq, hq]
        · rw [State.lookup, State.moveStreams_flt, ← hf]
          unfold State.notify
          split
          · split <;> rfl
          · rfl
      · exact State.slotEnters_readStep hv rfl rfl (by simp) (by simp)
  unfold State.serveRead
  split
  · split
    · split
      · exact State.finish_readStep hv rfl rfl _ _
      · exact State.slotEnters_readStep hv rfl rfl (by simp) (by simp)
    · exact hc
  · split
    · exact State.slotEnters_readStep hv rfl rfl (by simp) (by simp)
    · exact hc

/-- The event of a valid RD that nothing blocks: its first step, and the streams that move on. -/
theorem State.FirstStep.close_rd {s : State} {i : SlotIx} {x : Slot} {d : DecodeResult} (h : s.FirstStep i x d)
    (hk : x.kind = .rd) : (s.quiet.withUrt (s.urt.take i x)).close =
      ((s.quiet.withUrt (s.urt.take i x)).serveRead i x d).moveStreams := by
  have hf := State.serveFirst_rd (s := s.quiet.withUrt (s.urt.take i x)) (s.urt.take_self i x) h.waiting.decode hk
  obtain ⟨⟨y, hy, h1, h2⟩, hq, -⟩ := State.serveRead_readStep (v := s.quiet.withUrt (s.urt.take i x)) (u := s.urt) (i := i)
    (x := x) (d := d) rfl
  rw [← hf] at hy hq ⊢
  refine State.close_of_first h.settled (s.urt.take_youngest i x h.new) h.releasable ?_ ?_ h1 h2 ?_
  · rw [hy]; exact s.urt.take_youngest i y h.new
  · rw [hy]; exact s.urt.take_self i y
  · rw [hq]; exact fun _ hl => hl

/-- A first step that leaves streams and buffer as they were. -/
theorem State.FirstStep.close_rd_slot {s : State} {i : SlotIx} {x y : Slot} {d : DecodeResult} (h : s.FirstStep i x d)
    (hk : x.kind = .rd) (hw : (s.quiet.withUrt (s.urt.take i x)).serveRead i x d = s.quiet.withUrt (s.urt.take i y)) :
    (s.quiet.withUrt (s.urt.take i x)).close = s.quiet.withUrt (s.urt.take i y) := by
  rw [h.close_rd hk, hw]
  exact State.moveStreams_still (State.streamsSettled_congr h.settled.streams rfl rfl fun _ h => h)

/-- R31: the notice of a lookup. -/
theorem State.lookup_notice (s : State) (i : SlotIx) (x : Slot) (d : DecodeResult) : ∃ n : Stt,
    (∀ g : RegionIx, d.region = .num g → 0 < d.depth → n = s.stt.notice x.source g d.line) ∧
      (d.region = .dflt ∨ d.depth = 0 → n = s.stt) ∧ n.mark = s.stt.mark ∧
        ((s.lookupOutcome i x d).notify x.source d).stt = n := by
  have ho : (s.lookupOutcome i x d).stt = s.stt := by
    unfold State.lookupOutcome
    split
    · split <;> rfl
    · split <;> rfl
  refine ⟨_, fun g hg hd => ?_, fun h => ?_, ?_, rfl⟩
  · rw [State.notify, hg]
    exact (congrArg State.stt (if_pos hd)).trans (by rw [← ho]; rfl)
  · unfold State.notify
    split
    · rename_i g hg
      rw [if_neg (h.elim (fun e => absurd (hg.symm.trans e) (by simp)) fun e => by rw [e]; exact Nat.lt_irrefl 0)]
      exact ho
    · exact ho
  · unfold State.notify
    split
    · split
      · rw [← ho]
        show (Stt.notice _ _ _ _).mark = _
        unfold Stt.notice
        split <;> rfl
      · rw [ho]
    · rw [ho]

/-- R92, R31, R98: streams after the event of a read at lookup. -/
theorem State.lookup_streams (s : State) (i : SlotIx) (x : Slot) (d : DecodeResult) : ∃ n : Stt,
    (∀ g : RegionIx, d.region = .num g → 0 < d.depth → n = s.stt.notice x.source g d.line) ∧
      (d.region = .dflt ∨ d.depth = 0 → n = s.stt) ∧ n.mark = s.stt.mark ∧
        Stt.MovedPast (fun l => ((s.lookup i x d).moveStreams.rab.find l).isSome) n (s.lookup i x d).moveStreams.stt := by
  obtain ⟨n, h1, h2, h3, hn⟩ := s.lookup_notice i x d
  have hm := State.moveStreams_movedPast ((s.lookupOutcome i x d).notify x.source d)
  rw [hn] at hm
  exact ⟨n, h1, h2, h3, hm.trans (State.moveStreams_movedPast (s.lookup i x d))⟩

/-- R31, R70 to R73: slot and buffer after a lookup. -/
theorem State.lookup_rab_urt (s : State) (i : SlotIx) (x : Slot) (d : DecodeResult) :
    (s.lookup i x d).rab = (s.lookupOutcome i x d).rab ∧ (s.lookup i x d).urt = (s.lookupOutcome i x d).urt := by
  unfold State.lookup
  rw [State.moveStreams_rab, State.moveStreams_urt, State.notify_urt]
  refine ⟨?_, rfl⟩
  unfold State.notify
  split
  · split <;> rfl
  · rfl

/-- What a read at lookup leaves of the slot it holds and of the buffer (R31, R70 to R73). -/
theorem State.lookupOutcome_take {v : State} {u : Urt} {i : SlotIx} {x : Slot} {d : DecodeResult}
    (hv : v.urt = u.take i x) (hx : x.Waiting d) :
    (∀ r, v.rab.find d.line = some r → v.rab.lines[r].state = .valid → v.lookupOutcome i x d =
      (v.withRab (v.rab.hit r)).withUrt (u.take i { x with
        state := .done, status := some .ok, result := Machine.takeBytes d.offset x.count v.rab.lines[r].data })) ∧
    (∀ r, v.rab.find d.line = some r → v.rab.lines[r].state ≠ .valid → v.lookupOutcome i x d =
      (v.withRab (v.rab.join r i)).withUrt (u.take i { x with state := .fillWait })) ∧
    (∀ r, v.rab.find d.line = none → v.rab.demandVictim = some r → v.lookupOutcome i x d =
      (v.withRab (v.rab.allocate r (RabLine.fresh d.line d.region .demand [i] none))).withUrt
        (u.take i { x with state := .issueWait })) ∧
    (v.rab.find d.line = none → v.rab.demandVictim = none → v.lookupOutcome i x d =
      v.withUrt (u.take i { x with state := .issueWait })) := by
  have hr : ∀ b, (v.withRab b).urt = u.take i x := fun _ => hv
  refine ⟨fun r hf hs => ?_, fun r hf hs => ?_, fun r hf hs => ?_, fun hf hs => ?_⟩
  · simp only [State.lookupOutcome, hf, hs, if_true]
    exact State.finish_take (hr _) hx _ _
  · simp only [State.lookupOutcome, hf, hs, if_false]
    exact State.slotEnters_take (hr _) _
  · simp only [State.lookupOutcome, hf, hs]
    exact State.slotEnters_take (hr _) _
  · simp only [State.lookupOutcome, hf, hs]
    exact State.slotEnters_take hv _

/-- R28 to R31, the rows that leave buffer and streams. -/
theorem State.serveRead_take {v : State} {u : Urt} {i : SlotIx} {x : Slot} {d : DecodeResult}
    (hv : v.urt = u.take i x) (hx : x.Waiting d) :
    (∀ e, d.type = .normal → v.pq.youngest d.line = some e → maskWithin (x.mask d) e.mask = true → v.serveRead i x d =
      v.withUrt (u.take i { x with state := .done, status := some .ok, result := Machine.takeBytes d.offset x.count e.data })) ∧
    (∀ e, d.type = .normal → v.pq.youngest d.line = some e → maskWithin (x.mask d) e.mask = false → v.serveRead i x d =
      v.withUrt (u.take i { x with state := .drainWait })) ∧
    (d.type ≠ .normal → v.pq.holdsBack d = true → v.serveRead i x d =
      v.withUrt (u.take i { x with state := .drainWait })) ∧
    (v.pq.holdsBack d = false → v.flt.failedBytes d.line (x.mask d) = true → v.serveRead i x d =
      v.withUrt (u.take i { x with state := .done, status := some .lineFault })) ∧
    (v.pq.holdsBack d = false → v.flt.failedBytes d.line (x.mask d) = false → d.type ≠ .normal → v.serveRead i x d =
      v.withUrt (u.take i { x with state := .issueWait })) ∧
    (v.pq.holdsBack d = false → v.flt.failedBytes d.line (x.mask d) = false → d.type = .normal →
      v.serveRead i x d = v.lookup i x d) := by
  refine ⟨fun e hn hy hm => ?_, fun e hn hy hm => ?_, fun hn hb => ?_, fun hb hf => ?_, fun hb hf hn => ?_,
    fun hb hf hn => ?_⟩
  · rw [State.serveRead, if_pos hn, hy]
    exact (if_pos hm).trans (State.finish_take hv hx _ _)
  · rw [State.serveRead, if_pos hn, hy]
    exact (if_neg (by rw [hm]; simp)).trans (State.slotEnters_take hv _)
  · rw [State.serveRead, if_neg hn, if_pos hb, State.slotEnters_take hv]
  · rw [State.serveRead_of_free i x hb, State.faultCheck, if_pos hf, State.finish_take hv hx, ← hx.result]
  · rw [State.serveRead_of_free i x hb, State.faultCheck, if_neg (by rw [hf]; simp), if_neg hn, State.slotEnters_take hv]
  · rw [State.serveRead_of_free i x hb, State.faultCheck, if_neg (by rw [hf]; simp), if_pos hn]

/-- Settles O10: in a settled part only the new slot is served; a lookup alone reaches buffer and streams. -/
theorem readFirstStep : Obligations.ReadFirstStep := by
  refine ⟨fun s header addr data i x d hs ha hlink hcredit hslot hpath hd hx hk hm hans => ?_, fun t src g l => ?_⟩
  · have hadm : s.Admits i := ⟨hlink, hcredit, hslot, hpath⟩
    have hn := State.lowestFree_new ha hslot
    have hwait : x.Waiting d := by subst hx; exact ⟨rfl, rfl, rfl, rfl⟩
    have hkind : x.kind.addressed = true := by rw [hk]; rfl
    have he := hadm.exec_req_ordered (x := x) (hd ▸ hx) (.inl hk) hm (hk ▸ hans)
    refine ⟨fun hb => ?_, fun hfree => ?_⟩
    · rw [he, State.close_of_blocked hs hn hwait.decode hwait.state hkind hb]; rfl
    have h : s.FirstStep i x d := ⟨hs, hn, hwait, hkind, hfree⟩
    have hv : (s.quiet.withUrt (s.urt.take i x)).urt = s.urt.take i x := rfl
    obtain ⟨hmerge, hpart, hheld, hfault, hown, hlook⟩ := State.serveRead_take hv hwait
    obtain ⟨hhit, hjoin, halloc, hmiss⟩ := State.lookupOutcome_take hv hwait
    obtain ⟨-, hq, hf⟩ := State.serveRead_readStep (d := d) hv
    obtain ⟨D, hD⟩ := (s.quiet.withUrt (s.urt.take i x)).exists_depthsWithin
    have hframe := (State.serveRead_work _ hD i x d).frame
    have hclose := h.close_rd hk
    refine ⟨_, he, ?_, ?_, ?_, ?_, ?_, ?_, fun hty e hy => ?_, fun hty hb => ?_, fun hb hfb => ?_, fun hb hfb hty => ?_,
      fun hb hfb hty => ?_⟩
    · rw [hclose]; exact hq
    · rw [hclose]; exact hf
    · rw [hclose]; exact hframe.mli
    · rw [hclose]; exact hframe.elog
    · rw [hclose]; exact hframe.pctl
    · rw [hclose]; exact hframe.out
    · by_cases hw : maskWithin (x.mask d) e.mask = true
      · rw [h.close_rd_slot hk (hmerge e hty hy hw)]
        exact ⟨rfl, rfl, fun _ => rfl, fun hc => absurd (hw.symm.trans hc) (by simp)⟩
      · have hw := Bool.eq_false_iff.2 hw
        rw [h.close_rd_slot hk (hpart e hty hy hw)]
        exact ⟨rfl, rfl, fun hc => absurd (hw.symm.trans hc) (by simp), fun _ => rfl⟩
    · rw [h.close_rd_slot hk (hheld hty hb)]
      exact ⟨rfl, rfl, rfl⟩
    · rw [h.close_rd_slot hk (hfault hb hfb)]
      exact ⟨rfl, rfl, rfl⟩
    · rw [h.close_rd_slot hk (hown hb hfb hty)]
      exact ⟨rfl, rfl, rfl⟩
    · rw [hclose, hlook hb hfb hty]
      obtain ⟨n, hnum, hdflt, hmark, hmoved⟩ :=
        State.lookup_streams (s.quiet.withUrt (s.urt.take i x)) i x d
      obtain ⟨hrab, hurt⟩ := State.lookup_rab_urt (s.quiet.withUrt (s.urt.take i x)) i x d
      rw [State.moveStreams_rab, State.moveStreams_urt, hrab, hurt]
      refine ⟨fun r hr hst => ?_, fun r hr hst => ?_, fun hr => ⟨?_, fun hvic => ?_, fun r hvic => ?_⟩, n, hnum, hdflt,
        hmoved.mark.trans hmark, fun k => ⟨hmoved.fields k, fun hno => hmoved.still k ?_⟩⟩
      · rw [hhit r hr hst]; exact ⟨rfl, rfl⟩
      · rw [hjoin r hr (by show s.rab.lines[r].state ≠ _; rw [hst]; simp)]; exact ⟨rfl, rfl⟩
      · cases hvic : s.rab.demandVictim with
        | none => rw [hmiss hr hvic]; rfl
        | some r => rw [halloc r hr hvic]; rfl
      · rw [hmiss hr hvic]; rfl
      · rw [halloc r hr hvic]; rfl
      · rw [State.moveStreams_rab, hrab, hno]; rfl
  · obtain ⟨hfind, hnew⟩ := t.notice_rows src g l
    refine ⟨fun k hv hsrc hreg hlt e f he hf => ?_, fun hno => ⟨t.victim, _, rfl, hnew (Stt.find_none_iff.2 hno), ?_⟩⟩
    · rw [hfind k (Stt.find_some_iff.2 ⟨⟨hv, hsrc, hreg⟩, hlt⟩), Stream.train_eq, hf, he]
    · refine t.victim_cases.imp id fun ⟨hall, hi⟩ => ⟨hall, fun j => ?_, fun j => ?_⟩
      · rw [hi]; exact (t.idlest_max j).1
      · rw [hi]; exact (t.idlest_max j).2

end Sys2Proof.Machine
end

section
/-! PROOFS. RESP (R38): which slot answers, and that freeing a DONE slot releases nothing. -/

namespace Sys2Proof.Machine

/-! ### The order of arrival -/

theorem Urt.arrival_split {u : Urt} {i : SlotIx} (h : i ∈ u.arrival) : ∃ rest, u.arrival = u.older i ++ i :: rest := by
  unfold Urt.older
  generalize u.arrival = l at h
  induction l with
  | nil => exact absurd h (by simp)
  | cons a l ih =>
    by_cases ha : a = i
    · subst ha; exact ⟨l, by simp⟩
    · obtain ⟨rest, hr⟩ := ih ((List.mem_cons.1 h).resolve_left (Ne.symm ha))
      refine ⟨rest, ?_⟩
      rw [List.takeWhile_cons_of_pos (by simpa using ha), List.cons_append, ← hr]

/-- R38: the slot that answers is the oldest eligible one. -/
theorem Urt.nextResponse_of {u : Urt} {i : SlotIx} (hi : i ∈ u.arrival) (he : u.eligible i = true)
    (ho : ∀ j ∈ u.older i, u.eligible j = false) : u.nextResponse = some i := by
  obtain ⟨rest, hrest⟩ := Urt.arrival_split hi
  exact List.find?_eq_some_iff_append.2 ⟨he, u.older i, rest, hrest, fun j hj => by rw [ho j hj]; rfl⟩

theorem Urt.nextResponse_none {u : Urt} (h : ∀ j ∈ u.arrival, u.eligible j = false) : u.nextResponse = none :=
  List.find?_eq_none.2 fun j hj => by rw [h j hj]; simp

/-! ### Freeing a slot -/

theorem takeWhile_erase {l : List SlotIx} {i j : SlotIx} (h : j ≠ i) :
    (l.erase i).takeWhile (fun k => k != j) = (l.takeWhile fun k => k != j).erase i := by
  induction l with
  | nil => rfl
  | cons a l ih =>
    by_cases hi : a = i
    · subst hi
      simp [h.symm]
    · by_cases hj : a = j
      · subst hj; simp [hi]
      · simp [hi, hj, ih]

theorem Urt.older_free {u : Urt} {i j : SlotIx} (h : j ≠ i) : (u.free i).older j = (u.older j).erase i :=
  takeWhile_erase h

theorem Urt.free_other {u : Urt} {i j : SlotIx} (h : j ≠ i) : (u.free i).slots[j] = u.slots[j] := by
  simp [Urt.free, Fin.val_inj, h.symm]

theorem Urt.free_self (u : Urt) (i : SlotIx) : (u.free i).slots[i] = none := by
  simp [Urt.free]

/-- Freeing a slot without a property changes no test of that property over the older slots. -/
theorem Urt.all_older_free {u : Urt} {i j : SlotIx} {x : Slot} {p : Slot → Bool} (hx : u.slots[i] = some x) (hp : p x = false)
    (hj : j ≠ i) : ((u.free i).older j).all (fun k => !(u.free i).slotHas k p) = (u.older j).all fun k => !u.slotHas k p := by
  have hhas : ∀ k, k ≠ i → (u.free i).slotHas k p = u.slotHas k p := fun k hk => by
    unfold Urt.slotHas
    rw [Urt.free_other hk]
  have hself : (u.free i).slotHas i p = false := by
    unfold Urt.slotHas
    rw [Urt.free_self]
  rw [Bool.eq_iff_iff, List.all_eq_true, List.all_eq_true, Urt.older_free hj]
  refine ⟨fun h k hk => ?_, fun h k hk => ?_⟩
  · by_cases e : k = i
    · subst e; rw [Urt.slotHas_some hx, hp]; rfl
    · rw [← hhas k e]; exact h k ((List.mem_erase_of_ne e).2 hk)
  · by_cases e : k = i
    · subst e; rw [hself]; rfl
    · rw [hhas k e]; exact h k (List.mem_of_mem_erase hk)

theorem Slot.unsettled_done {o : Slot} (ho : o.state = .done) : o.unsettled = false := by
  unfold Slot.unsettled
  rw [ho]
  split <;> rfl

/-- R25, R26: a DONE slot blocks nothing. -/
theorem Slot.blocks_done {o : Slot} (ho : o.state = .done) (x : Slot) (d : DecodeResult) : o.blocks x d = false := by
  have hu := Slot.unsettled_done ho
  unfold Slot.blocks
  split
  · rfl
  · rw [hu, Bool.and_false, Bool.false_and, Bool.false_and]

theorem Urt.releasable_free {u : Urt} {i : SlotIx} {x : Slot} (hx : u.slots[i] = some x) (hs : x.state = .done) (j : SlotIx) :
    (u.free i).releasable j = u.releasable j := by
  by_cases hj : j = i
  · subst hj
    rw [Urt.releasable_of_state hx (by rw [hs]; simp)]
    simp only [Urt.releasable, Urt.free_self]
  · unfold Urt.releasable
    simp only [Urt.free_other hj, fun o d => Urt.all_older_free (p := fun y => y.blocks o d) hx (Slot.blocks_done hs ..) hj]

theorem State.fenceReady_free {s t : State} {i : SlotIx} {x : Slot} (hx : s.urt.slots[i] = some x) (hs : x.state = .done)
    (hu : t.urt.slots = (s.urt.free i).slots) (ha : t.urt.arrival = (s.urt.free i).arrival) (hq : t.pq = s.pq) (j : SlotIx) :
    t.fenceReady j = s.fenceReady j := by
  have ho : t.urt.older j = (s.urt.free i).older j := by unfold Urt.older; rw [ha]
  have hh : ∀ k p, t.urt.slotHas k p = (s.urt.free i).slotHas k p := fun k p => by unfold Urt.slotHas; rw [hu]
  by_cases hj : j = i
  · subst hj
    rw [State.fenceReady_of_state hx (by rw [hs]; simp)]
    have hno : ∀ p, (s.urt.free j).slotHas j p = false := fun p => by unfold Urt.slotHas; rw [Urt.free_self]
    rw [State.fenceReady, hh, hno, Bool.false_and, Bool.false_and]
  · unfold State.fenceReady Urt.olderWritesSettled
    rw [hq, ho]
    simp only [hh]
    rw [Urt.all_older_free hx (by rw [Slot.unsettled_done hs, hs]; simp) hj]
    unfold Urt.slotHas
    rw [Urt.free_other hj]

/-- R38: freeing a DONE slot leaves nothing to settle. -/
theorem State.Settled.free {s t : State} {i : SlotIx} {x : Slot} (h : s.Settled) (hx : s.urt.slots[i] = some x)
    (hs : x.state = .done) (hu : t.urt.slots = (s.urt.free i).slots) (ha : t.urt.arrival = (s.urt.free i).arrival)
    (hq : t.pq = s.pq) (hb : t.rab = s.rab) (ht : t.stt = s.stt) (hr : t.rdec = s.rdec) : t.settle = t := by
  have hmem : ∀ j ∈ t.urt.arrival, j ∈ s.urt.arrival := fun j hj => List.mem_of_mem_erase (ha ▸ hj)
  refine State.settle_still (fun j hj => ?_) (fun j hj => ?_)
    (State.streamsSettled_congr h.streams ht hr fun l hl => hb ▸ hl)
  · have hrel : t.urt.releasable j = (s.urt.free i).releasable j := by
      unfold Urt.releasable Urt.older Urt.slotHas
      rw [hu, ha]
    rw [hrel, Urt.releasable_free hx hs]
    exact h.order j (hmem j hj)
  · rw [State.fenceReady_free hx hs hu ha hq]
    exact h.fences j (hmem j hj)

theorem State.creditStep_run {s : State} (h : s.pctl.path = .run) :
    s.creditStep = s.withUrt { s.urt with granted := s.urt.granted + 1 } := if_pos h

theorem State.creditStep_withheld {s : State} (h : s.pctl.path ≠ .run) :
    s.creditStep = s.withUrt { s.urt with withheld := s.urt.withheld + 1 } := if_neg h

/-- Settles O12: the response frees a DONE slot, which held nothing back. -/
theorem respSendsOldestEligible : Obligations.RespSendsOldestEligible := fun s => by
  refine ⟨fun hl => exec_resp_none (.inl hl), fun _ hn => exec_resp_none (.inr (Urt.nextResponse_none hn)),
    fun i x hs ha hl hi hx he ho => ?_⟩
  obtain ⟨x', hx', hdone, -⟩ := (s.urt.eligible_iff i).1 he
  obtain rfl := Option.some.inj (hx.symm.trans hx')
  have hsettle := hs.free (t := s.quiet.respond i) hx hdone
  have hexec := exec_resp_some hl (Urt.nextResponse_of hi he ho)
  rw [State.respond_some (s := s.quiet) hx] at hsettle hexec
  refine ⟨fun hp => ?_, fun hp => ?_⟩
  · have hcr : (s.quiet.pctl.path == .run) = true := by show (s.pctl.path == .run) = true; rw [hp]; rfl
    rw [State.creditStep_run (by exact hp), hcr] at hsettle hexec
    rw [hexec, State.close, hsettle rfl rfl rfl rfl rfl rfl, State.haltTest_still (by exact fun h => absurd (hp.symm.trans h) (by simp))]
    rfl
  · have hcr : (s.quiet.pctl.path == .run) = false := by show (s.pctl.path == .run) = false; rw [hp]; rfl
    rw [State.creditStep_withheld (by show s.pctl.path ≠ _; rw [hp]; simp), hcr] at hsettle hexec
    rw [hexec, State.close, hsettle rfl rfl rfl rfl rfl rfl]
    rfl

end Sys2Proof.Machine
end

section
/-! PROOFS. ORDER_RELEASE (R26, R27): a slot that nothing blocks stays free to go until it goes. -/

namespace Sys2Proof.Machine

/-- What a chain of service moves makes of a slot. -/
theorem Moves.slots {s t : State} (h : Moves SlotState.awaitsService s t) (j : SlotIx) :
    t.urt.slots[j] = s.urt.slots[j] ∨ ∃ x y, s.urt.slots[j] = some x ∧ t.urt.slots[j] = some y ∧ x.Moved y := by
  induction h with
  | refl => exact .inl rfl
  | tail _ m ih =>
    rcases m.slots j with e | ⟨y, z, hy, hz, hw, k, -⟩
    · rw [e]; exact ih
    · rcases ih with e | ⟨x, y', hx, hy', h⟩
      · exact .inr ⟨y, z, e ▸ hy, hz, k⟩
      · obtain rfl := Option.some.inj (hy.symm.trans hy')
        have hst : y.status = x.status := h.status.resolve_left fun hd => by
          rw [hd] at hw; rcases hw with hw | hw | hw | hw <;> exact absurd hw (by simp)
        exact .inr ⟨x, z, hx, hz, k.key.trans h.key, k.data.trans h.data, k.decode.trans h.decode,
          k.tag.elim .inl fun e => h.tag.elim (fun hn => .inl (e.trans hn)) fun e' => .inr (e.trans e'), k.state,
          k.status.imp id fun e => e.trans hst⟩

theorem Slot.unsettled_iff (o : Slot) : o.unsettled = true ↔ (o.kind = .rd ∧ o.state ≠ .done) ∨
    (o.kind = .wr ∧ (o.state = .orderWait ∨ o.state = .postWait ∨ o.state = .issueWait ∨ o.state = .held)) := by
  unfold Slot.unsettled
  cases o.kind <;> simp [or_assoc]

theorem Slot.lineCarrying_iff (o : Slot) : o.lineCarrying = true ↔ o.kind.addressed = true ∧ o.decode.isSome = true ∧
    o.status ≠ some .range ∧ o.status ≠ some .protect := by
  unfold Slot.lineCarrying
  simp only [Bool.and_eq_true, bne_iff_ne, and_assoc]

theorem Slot.blocks_iff_lineCarrying (o x : Slot) (d : DecodeResult) : o.blocks x d = true ↔ ∃ od, o.decode = some od ∧
    o.lineCarrying = true ∧ o.unsettled = true ∧ ¬(o.kind = .rd ∧ x.kind = .rd) ∧
      (od.line = d.line ∨ (d.type = .ordered ∧ od.region = d.region)) := by
  unfold Slot.blocks
  cases o.decode with
  | none => simp
  | some od =>
    simp only [Bool.and_eq_true, Bool.or_eq_true, beq_iff_eq, Bool.not_eq_true', Option.some.injEq, exists_eq_left',
      and_assoc, Bool.eq_false_iff, ne_eq]

/-- R26: when a slot blocks. -/
theorem Slot.blocks_iff (o x : Slot) (d : DecodeResult) : o.blocks x d = true ↔
    ∃ od, o.decode = some od ∧ o.status ≠ some .range ∧ o.status ≠ some .protect ∧
      ((o.kind = .rd ∧ o.state ≠ .done ∧ x.kind ≠ .rd) ∨
        (o.kind = .wr ∧ (o.state = .orderWait ∨ o.state = .postWait ∨ o.state = .issueWait ∨ o.state = .held))) ∧
      (od.line = d.line ∨ (d.type = .ordered ∧ od.region = d.region)) := by
  rw [Slot.blocks_iff_lineCarrying]
  refine exists_congr fun od => and_congr_right fun hd => ?_
  rw [Slot.lineCarrying_iff, Slot.unsettled_iff, hd]
  cases hk : o.kind <;> simp [ReqKind.addressed, and_assoc]

/-- R26: when a slot is releasable, by what the older slots are. -/
theorem Urt.releasable_iff_older (u : Urt) (i : SlotIx) : u.releasable i = true ↔ ∃ x d, u.slots[i] = some x ∧
    x.decode = some d ∧ x.state = .orderWait ∧ (x.kind = .rd ∨ x.kind = .wr) ∧
    ∀ j ∈ u.older i, ∀ o, u.slots[j] = some o → o.blocks x d = false := by
  rw [Urt.releasable_iff]
  refine exists_congr fun x => exists_congr fun d => and_congr_right fun _ => and_congr_right fun _ =>
    and_congr_right fun _ => and_congr ?_ ?_
  · cases x.kind <;> simp [ReqKind.addressed]
  · rw [List.all_eq_true]
    refine forall_congr' fun j => forall_congr' fun _ => ?_
    unfold Urt.slotHas
    cases u.slots[j] <;> simp

/-- A slot that leaves ORDER_WAIT blocks nothing that it did not block there. -/
theorem Slot.Moved.blocks {x y z : Slot} {d : DecodeResult} (h : x.Moved y) (hx : x.state = .orderWait)
    (hb : y.blocks z d = true) : x.blocks z d = true := by
  obtain ⟨od, hd, h1, h2, hk, hl⟩ := (y.blocks_iff z d).1 hb
  have hkind : y.kind = x.kind := congrArg Prod.fst h.key
  have hnd : y.state ≠ .done := fun e => by rw [Slot.blocks_done e] at hb; exact absurd hb (by simp)
  have hst := h.status.resolve_left hnd
  refine (x.blocks_iff z d).2 ⟨od, h.decode ▸ hd, hst ▸ h1, hst ▸ h2, ?_, hl⟩
  rw [← hkind]
  exact hk.imp (fun ⟨a, _, b⟩ => ⟨a, by rw [hx]; simp, b⟩) fun ⟨a, _⟩ => ⟨a, .inl hx⟩

/-- R27: a first step leaves the other releasable slots releasable. -/
theorem State.serveFirst_releasable {s : State} {i j : SlotIx} (hi : s.urt.releasable i = true)
    (hj : s.urt.releasable j = true) (hne : j ≠ i) : (s.serveFirst i).urt.releasable j = true := by
  have hm := State.serveFirst_moves hi
  obtain ⟨hother, -⟩ := s.serveFirst_served i hi
  obtain ⟨x, d, hx, hd, hs, hk, hb⟩ := (Urt.releasable_iff_older _ _).1 hj
  have hold : (s.serveFirst i).urt.older j = s.urt.older j := by unfold Urt.older; rw [hm.arrival]
  refine (Urt.releasable_iff_older _ _).2 ⟨x, d, (hother j hne).trans hx, hd, hs, hk, fun k hk' o ho => ?_⟩
  rw [hold] at hk'
  by_cases e : k = i
  · subst e
    obtain ⟨y, -, hy, -, hys, -⟩ := Urt.releasable_some hi
    rcases hm.slots k with e | ⟨y', z, hy', hz, hmoved⟩
    · exact hb k hk' o (e ▸ ho)
    · obtain rfl := Option.some.inj (hz.symm.trans ho)
      obtain rfl := Option.some.inj (hy.symm.trans hy')
      exact Bool.eq_false_iff.2 fun hc => absurd (hmoved.blocks hys hc) (by rw [hb k hk' y hy]; simp)
  · exact hb k hk' o ((hother k e).symm.trans ho)

/-- The slot is occupied and not in ORDER_WAIT. -/
def Urt.Left (u : Urt) (i : SlotIx) : Prop := ∃ x, u.slots[i] = some x ∧ x.state ≠ .orderWait

/-- No service step brings a slot back to ORDER_WAIT. -/
theorem Moves.left {s t : State} {W : SlotState → Prop} (h : Moves W s t) {i : SlotIx} (hl : s.urt.Left i) : t.urt.Left i := by
  obtain ⟨x, hx, hs⟩ := hl
  cases hy : t.urt.slots[i] with
  | none => exact absurd (h.decode i) (by rw [hx, hy]; simp)
  | some y =>
    refine ⟨y, hy, fun hc => ?_⟩
    obtain rfl := Option.some.inj (hx.symm.trans (h.slot_before hy (.inl hc)))
    exact hs hc

/-- R27: at the end of the releases a releasable slot is still releasable, or gone. -/
theorem State.releaseUpTo_releasable (n : Nat) {s : State} {i : SlotIx} (hi : s.urt.releasable i = true) :
    (State.releaseUpTo n s).urt.releasable i = true ∨ (State.releaseUpTo n s).urt.Left i := by
  induction n generalizing s with
  | zero => exact .inl hi
  | succ n ih =>
    unfold State.releaseUpTo
    split
    · exact .inl hi
    · rename_i k hk
      have hk : s.urt.releasable k = true := List.find?_some hk
      by_cases e : i = k
      · subst e
        obtain ⟨x, -, hx, -⟩ := Urt.releasable_some hk
        refine .inr ((State.releaseUpTo_moves n _).left ?_)
        cases hy : (s.serveFirst i).urt.slots[i] with
        | none => exact absurd ((State.serveFirst_moves hk).decode i) (by rw [hx, hy]; simp)
        | some y => exact ⟨y, hy, (s.serveFirst_served i hk).2 y hy⟩
      · exact ih (State.serveFirst_releasable hk hi e)

/-- R27: the releases reach every releasable slot. -/
theorem State.releaseSlots_left {s : State} {i : SlotIx} (ha : i ∈ s.urt.arrival) (hi : s.urt.releasable i = true) :
    s.releaseSlots.urt.Left i :=
  (State.releaseUpTo_releasable 8 hi).resolve_left fun h =>
    absurd (h.symm.trans (State.releaseSlots_settled s i (by rw [s.releaseSlots_moves.arrival]; exact ha))) (by simp)

/-- Settles O14: the releases reach every releasable slot and leave none; the rest is the frame of a release row. -/
theorem orderReleaseFreesUnblockedSlots : Obligations.OrderReleaseFreesUnblockedSlots := by
  refine ⟨fun s => ?_, Urt.releasable_iff_older, Slot.blocks_iff⟩
  have hf : ReleaseFrame s.quiet s.quiet.releaseSlots.close := exec_release_frame (s := s) rfl (.inl rfl)
  refine ⟨_, rfl, (State.close_settled _).1, fun i ha hi => ?_, hf.arrival, hf.granted, hf.withheld, hf.keys, hf.pins,
    hf.rdec, hf.cfg, hf.mli, hf.elog, hf.faults, hf.overflow, hf.tgen, hf.rx, hf.out⟩
  obtain ⟨x, hx, hs⟩ := (State.settle_moves _).left (State.releaseSlots_left (s := s.quiet) ha hi)
  exact ⟨x, by rw [State.close, State.haltTest_urt]; exact hx, hs⟩

end Sys2Proof.Machine
end

section
/-! PROOFS. DRAIN_WAIT_RELEASE (R28 to R31, R53 step 4): each read whose wait is over goes to the fault check. -/

namespace Sys2Proof.Machine

theorem State.updateSlot_some {s : State} {i : SlotIx} {x : Slot} (hx : s.urt.slots[i] = some x) (f : Slot → Slot) :
    (s.updateSlot i f).urt.slots[i] = some (f x) :=
  (Urt.update_self ..).trans (by rw [hx]; rfl)

theorem State.updateSlot_ne {s : State} {i j : SlotIx} (h : j ≠ i) (f : Slot → Slot) :
    (s.updateSlot i f).urt.slots[j] = s.urt.slots[j] := Urt.update_other _ _ _ _ h

/-- A slot that waits for no service step is as it was at the end of the event. -/
theorem State.close_slot {s : State} {i : SlotIx} {x : Slot} (hx : s.urt.slots[i] = some x) (h1 : x.state ≠ .orderWait)
    (h2 : x.state ≠ .fenceWait) : s.close.urt.slots[i] = some x := by
  rw [State.close, State.haltTest_urt]
  exact s.settle_slot i x hx h1 h2

/-- Where a read at lookup goes on to (R31). -/
def Slot.LookedUp (x y : Slot) : Prop :=
  y.decode = x.decode ∧ y.count = x.count ∧
    (y.state = .fillWait ∨ y.state = .issueWait ∨ (y.state = .done ∧ y.status = some .ok))

theorem State.lookup_slot {s : State} {i : SlotIx} {x : Slot} (hx : s.urt.slots[i] = some x) (d : DecodeResult) :
    ∃ y, (s.lookup i x d).urt.slots[i] = some y ∧ x.LookedUp y := by
  rw [(State.lookup_rab_urt s i x d).2]
  unfold State.lookupOutcome
  split
  · split
    · exact ⟨_, State.updateSlot_some (by exact hx) _, rfl, rfl, .inr (.inr ⟨rfl, rfl⟩)⟩
    · exact ⟨_, State.updateSlot_some (by exact hx) _, rfl, rfl, .inl rfl⟩
  · split
    · exact ⟨_, State.updateSlot_some (by exact hx) _, rfl, rfl, .inr (.inl rfl)⟩
    · exact ⟨_, State.updateSlot_some hx _, rfl, rfl, .inr (.inl rfl)⟩

/-- What the fault check makes of a read (R30). -/
structure Slot.Checked (f : Flt) (d : DecodeResult) (x y : Slot) : Prop where
  decode : y.decode = x.decode
  count : y.count = x.count
  fault : f.failedBytes d.line (x.mask d) = true →
    y = { x with state := .done, status := some .lineFault, result := [], tag := none }
  own : f.failedBytes d.line (x.mask d) = false → d.type ≠ .normal → y = { x with state := .issueWait }
  look : f.failedBytes d.line (x.mask d) = false → d.type = .normal →
    y.state = .fillWait ∨ y.state = .issueWait ∨ (y.state = .done ∧ y.status = some .ok)

theorem Slot.Checked.checked {f : Flt} {d : DecodeResult} {x y : Slot} (h : Slot.Checked f d x y) : y.state.checked := by
  by_cases hf : f.failedBytes d.line (x.mask d) = true
  · rw [h.fault hf]; exact .inl rfl
  · have hf := Bool.eq_false_iff.2 hf
    by_cases hn : d.type = .normal
    · rcases h.look hf hn with e | e | ⟨e, -⟩
      · exact .inr (.inl e)
      · exact .inr (.inr e)
      · exact .inl e
    · rw [h.own hf hn]; exact .inr (.inr rfl)

/-- The slot before its fault check, or after it: a list of slots may name one twice. -/
def Slot.AtCheck (f : Flt) (d : DecodeResult) (x y : Slot) : Prop := y = x ∨ Slot.Checked f d x y

/-- R30: the fault check, also when it is made again. -/
theorem State.faultCheck_slot {s : State} {i : SlotIx} {x y : Slot} {d : DecodeResult} (hy : s.urt.slots[i] = some y)
    (h : Slot.AtCheck s.flt d x y) : ∃ z, (s.faultCheck i y d).urt.slots[i] = some z ∧ Slot.Checked s.flt d x z := by
  have hdc : y.decode = x.decode ∧ y.count = x.count := by
    rcases h with e | e
    · rw [e]; exact ⟨rfl, rfl⟩
    · exact ⟨e.decode, e.count⟩
  obtain ⟨hdec, hcnt⟩ := hdc
  have hmask : y.mask d = x.mask d := by unfold Slot.mask; rw [hcnt]
  unfold State.faultCheck
  rw [hmask]
  split
  · rename_i hf
    have hz : ({ y with state := .done, status := some .lineFault, result := [], tag := none } : Slot) =
        { x with state := .done, status := some .lineFault, result := [], tag := none } := by
      rcases h with e | e
      · rw [e]
      · rw [e.fault hf]
    exact ⟨_, State.updateSlot_some hy _, hdec, hcnt, fun _ => hz, fun hn => absurd (hf.symm.trans hn) (by simp),
      fun hn => absurd (hf.symm.trans hn) (by simp)⟩
  · rename_i hf
    have hf := Bool.eq_false_iff.2 hf
    split
    · rename_i hn
      obtain ⟨z, hz, h1, h2, h3⟩ := State.lookup_slot hy d
      exact ⟨z, hz, h1.trans hdec, h2.trans hcnt, fun hc => absurd (hf.symm.trans hc) (by simp),
        fun _ hne => absurd hn hne, fun _ _ => h3⟩
    · rename_i hn
      have hz : ({ y with state := .issueWait } : Slot) = { x with state := .issueWait } := by
        rcases h with e | e
        · rw [e]
        · rw [e.own hf hn]
      exact ⟨_, State.updateSlot_some hy _, hdec, hcnt, fun hc => absurd (hf.symm.trans hc) (by simp), fun _ _ => hz,
        fun _ hc => absurd hc hn⟩

theorem State.faultCheck_flt (s : State) (i x d) : (s.faultCheck i x d).flt = s.flt := by
  have hl : (s.lookupOutcome i x d).flt = s.flt := by
    unfold State.lookupOutcome
    split
    · split <;> rfl
    · split <;> rfl
  have hn : ((s.lookupOutcome i x d).notify x.source d).flt = s.flt := by
    unfold State.notify
    split
    · split <;> exact hl
    · exact hl
  unfold State.faultCheck
  split
  · rfl
  · split
    · exact hn
    · rfl

theorem State.leaveDrainWait_flt (s : State) (i : SlotIx) : (s.leaveDrainWait i).flt = s.flt := by
  unfold State.leaveDrainWait
  split
  · rfl
  · split
    · rfl
    · exact State.faultCheck_flt ..

theorem State.leaveDrainWait_some {s : State} {i : SlotIx} {x : Slot} {d : DecodeResult} (hx : s.urt.slots[i] = some x)
    (hd : x.decode = some d) : s.leaveDrainWait i = s.faultCheck i x d := by
  simp only [State.leaveDrainWait, hx, hd]

theorem State.leaveDrainWait_ne (s : State) {i j : SlotIx} (h : j ≠ i) :
    (s.leaveDrainWait i).urt.slots[j] = s.urt.slots[j] := by
  unfold State.leaveDrainWait
  split
  · rfl
  · split
    · rfl
    · exact (State.faultCheck_served ..).1 j h

/-- R53 step 4: each read named goes through its fault check. -/
theorem State.foldl_leaveDrainWait {s : State} {i : SlotIx} {x y : Slot} {d : DecodeResult} (l : List SlotIx)
    (hd : x.decode = some d) (hy : s.urt.slots[i] = some y) (h : Slot.AtCheck s.flt d x y) :
    ∃ z, (l.foldl State.leaveDrainWait s).urt.slots[i] = some z ∧ Slot.AtCheck s.flt d x z ∧
      (i ∈ l ∨ Slot.Checked s.flt d x y → Slot.Checked s.flt d x z) := by
  induction l generalizing s y with
  | nil => exact ⟨y, hy, h, fun hc => hc.resolve_left (by simp)⟩
  | cons a l ih =>
    have hflt := s.leaveDrainWait_flt a
    by_cases e : i = a
    · subst e
      have hdy : y.decode = some d := h.elim (fun e => e ▸ hd) fun e => e.decode.trans hd
      obtain ⟨z, hz, hc⟩ := State.faultCheck_slot hy h
      rw [← State.leaveDrainWait_some hy hdy] at hz
      obtain ⟨w, hw, hat, hcw⟩ := ih hz (hflt.symm ▸ .inr hc)
      rw [hflt] at hat hcw
      exact ⟨w, hw, hat, fun _ => hcw (.inr hc)⟩
    · obtain ⟨w, hw, hat, hcw⟩ := ih ((s.leaveDrainWait_ne e).trans hy) (hflt.symm ▸ h)
      rw [hflt] at hat hcw
      exact ⟨w, hw, hat, fun hc => hcw (hc.imp (fun hm => (List.mem_cons.1 hm).resolve_left e) id)⟩

/-- R28 to R31: a read whose wait is over, after the releases. -/
theorem State.releaseDrainWaits_slot {s : State} {i : SlotIx} {x : Slot} {d : DecodeResult} (hi : i ∈ s.urt.arrival)
    (hx : s.urt.slots[i] = some x) (hd : x.decode = some d) (hk : x.kind = .rd) (hs : x.state = .drainWait)
    (hb : s.pq.holdsBack d = false) : ∃ y, s.releaseDrainWaits.urt.slots[i] = some y ∧ Slot.Checked s.flt d x y := by
  have hm : i ∈ s.urt.arrival.filter fun i => s.drainWaitOver i :=
    List.mem_filter.2 ⟨hi, (s.drainWaitOver_iff i).2 ⟨x, d, hx, hd, hk, hs, hb⟩⟩
  obtain ⟨y, hy, -, hc⟩ := State.foldl_leaveDrainWait (s.urt.arrival.filter fun i => s.drainWaitOver i) hd hx (.inl rfl)
  exact ⟨y, hy, hc (.inl hm)⟩

/-- Settles O16: the slot stands from its fault check to the end of the event. -/
theorem drainWaitReleaseGoesToFaultCheck : Obligations.DrainWaitReleaseGoesToFaultCheck := fun s => by
  refine ⟨_, rfl, fun i x d hi hx hd hk hs hb => ?_⟩
  obtain ⟨y, hy, hc⟩ := State.releaseDrainWaits_slot (s := s.quiet) hi hx hd hk hs hb
  have hst := hc.checked
  have hclose := State.close_slot hy (by rcases hst with e | e | e <;> simp [e]) (by rcases hst with e | e | e <;> simp [e])
  exact ⟨fun hf => (hc.fault hf) ▸ hclose, fun hf hn => (hc.own hf hn) ▸ hclose, fun hf hn => ⟨y, hclose, hc.look hf hn⟩⟩

end Sys2Proof.Machine
end

section
/-! PROOFS. FENCE_DONE (R36, R139): which fences complete, the flag each reads, and what the tests leave. -/

namespace Sys2Proof.Machine

/-- R36, first condition: every older write has settled and waits for no access. -/
theorem Urt.olderWritesSettled_iff (u : Urt) (i : SlotIx) : u.olderWritesSettled i = true ↔
    ∀ j ∈ u.older i, ∀ y, u.slots[j] = some y → y.kind = .wr →
      y.state ≠ .orderWait ∧ y.state ≠ .postWait ∧ y.state ≠ .issueWait ∧ y.state ≠ .held ∧ y.state ≠ .memWait := by
  unfold Urt.olderWritesSettled
  rw [List.all_eq_true]
  refine forall_congr' fun j => forall_congr' fun _ => ?_
  unfold Urt.slotHas
  cases u.slots[j] with
  | none => simp
  | some y => cases hk : y.kind <;> simp [Slot.unsettled, hk, and_assoc]

/-- R36: when a fence is ready. -/
theorem State.fenceReady_iff (s : State) (i : SlotIx) : s.fenceReady i = true ↔
    ∃ x, s.urt.slots[i] = some x ∧ x.kind = .fence ∧ x.state = .fenceWait ∧
      (∀ j ∈ s.urt.older i, ∀ y, s.urt.slots[j] = some y → y.kind = .wr →
        y.state ≠ .orderWait ∧ y.state ≠ .postWait ∧ y.state ≠ .issueWait ∧ y.state ≠ .held ∧ y.state ≠ .memWait) ∧
      ∀ e ∈ s.pq.entries, e.fences.getLsbD i = false := by
  have hl : (!s.pq.lists i) = true ↔ ∀ e ∈ s.pq.entries, e.fences.getLsbD i = false := by
    unfold Queue.lists
    simp
  have hs : s.urt.slotHas i (fun x => x.kind == .fence && x.state == .fenceWait) = true ↔
      ∃ x, s.urt.slots[i] = some x ∧ x.kind = .fence ∧ x.state = .fenceWait := by
    unfold Urt.slotHas
    cases s.urt.slots[i] <;> simp
  unfold State.fenceReady
  rw [Bool.and_eq_true, Bool.and_eq_true, Urt.olderWritesSettled_iff, hl, hs]
  constructor
  · rintro ⟨⟨⟨x, hx, hk, hst⟩, ho⟩, hq⟩
    exact ⟨x, hx, hk, hst, ho, hq⟩
  · rintro ⟨x, hx, hk, hst, ho, hq⟩
    exact ⟨⟨⟨x, hx, hk, hst⟩, ho⟩, hq⟩

/-! ### One fence tested -/

theorem State.testFence_of_not_ready {s : State} {i : SlotIx} (h : s.fenceReady i = false) : s.testFence i = s :=
  if_neg (by rw [h]; simp)

theorem State.testFence_ne (s : State) {i j : SlotIx} (h : j ≠ i) : (s.testFence i).urt.slots[j] = s.urt.slots[j] := by
  by_cases hr : s.fenceReady i = true
  · obtain ⟨x, hx, -, -⟩ := State.fenceReady_slot hr
    rw [State.testFence, if_pos hr, State.completeFence_eq hx]
    exact State.updateSlot_ne h _
  · rw [State.testFence_of_not_ready (Bool.eq_false_iff.2 hr)]

/-- R139: a fence tested leaves the flags of the other sources. -/
theorem State.testFence_flag {s : State} {i : SlotIx} {src : SourceNo}
    (h : ∀ y, s.urt.slots[i] = some y → s.fenceReady i = true → y.source ≠ src) :
    (s.testFence i).flt.flags.getLsbD src = s.flt.flags.getLsbD src := by
  by_cases hr : s.fenceReady i = true
  · obtain ⟨x, hx, -, -⟩ := State.fenceReady_slot hr
    rw [State.testFence, if_pos hr, State.completeFence_eq hx]
    exact (Flt.clearFlag_flag ..).trans (by simp [h x hx hr])
  · rw [State.testFence_of_not_ready (Bool.eq_false_iff.2 hr)]

/-- R36, R139: a ready fence tested. -/
theorem State.testFence_done {s : State} {i : SlotIx} {x : Slot} (hx : s.urt.slots[i] = some x)
    (hr : s.fenceReady i = true) : (s.testFence i).urt.slots[i] = some { x with
      state := .done, status := some (if s.flt.flags.getLsbD x.source then .faulted else .ok), result := [], tag := none } ∧
      (s.testFence i).flt.flags.getLsbD x.source = false := by
  rw [State.testFence, if_pos hr, State.completeFence_eq hx]
  exact ⟨State.updateSlot_some (by exact hx) _, (Flt.clearFlag_flag ..).trans (by simp)⟩

/-! ### All fences tested, the oldest first -/

/-- A slot that is no ready fence stands. -/
theorem State.foldl_testFence_slot (l : List SlotIx) {s : State} {i : SlotIx} (h : s.fenceReady i = false) :
    (l.foldl State.testFence s).urt.slots[i] = s.urt.slots[i] := by
  induction l generalizing s with
  | nil => rfl
  | cons a l ih =>
    refine (ih (by rw [State.testFence_ready, h, Bool.and_false])).trans ?_
    by_cases e : i = a
    · subst e; rw [State.testFence_of_not_ready h]
    · exact s.testFence_ne e

/-- Fences of other sources leave a ready fence and its flag. -/
theorem State.foldl_testFence_before (l : List SlotIx) {s : State} {i : SlotIx} {src : SourceNo} (hi : i ∉ l)
    (h : ∀ j ∈ l, ∀ y, s.urt.slots[j] = some y → s.fenceReady j = true → y.source ≠ src) :
    (l.foldl State.testFence s).urt.slots[i] = s.urt.slots[i] ∧
      (l.foldl State.testFence s).fenceReady i = s.fenceReady i ∧
      (l.foldl State.testFence s).flt.flags.getLsbD src = s.flt.flags.getLsbD src := by
  induction l generalizing s with
  | nil => exact ⟨rfl, rfl, rfl⟩
  | cons a l ih =>
    have hne : i ≠ a := fun e => hi (e ▸ List.mem_cons_self)
    have hrest : ∀ j ∈ l, ∀ y, (s.testFence a).urt.slots[j] = some y → (s.testFence a).fenceReady j = true →
        y.source ≠ src := by
      intro j hj y hy hr
      rw [State.testFence_ready, Bool.and_eq_true, decide_eq_true_eq] at hr
      exact h j (List.mem_cons_of_mem _ hj) y ((s.testFence_ne hr.1).symm.trans hy) hr.2
    obtain ⟨h1, h2, h3⟩ := ih (fun hm => hi (List.mem_cons_of_mem _ hm)) hrest
    refine ⟨h1.trans (s.testFence_ne hne), h2.trans ?_, h3.trans (State.testFence_flag (h a List.mem_cons_self))⟩
    rw [State.testFence_ready, decide_eq_true hne, Bool.true_and]

/-- R36, R139: a ready fence that is the oldest ready one of its source. -/
theorem State.testFences_done {s : State} {i : SlotIx} {x : Slot} (hi : i ∈ s.urt.arrival) (hx : s.urt.slots[i] = some x)
    (hr : s.fenceReady i = true)
    (ho : ∀ j ∈ s.urt.older i, ∀ y, s.urt.slots[j] = some y → s.fenceReady j = true → y.source ≠ x.source) :
    s.testFences.urt.slots[i] = some { x with
      state := .done, status := some (if s.flt.flags.getLsbD x.source then .faulted else .ok), result := [], tag := none } ∧
      s.testFences.flt.flags.getLsbD x.source = false := by
  obtain ⟨rest, harr⟩ := Urt.arrival_split hi
  obtain ⟨h1, h2, h3⟩ := State.foldl_testFence_before (s.urt.older i) (fun hm => (Urt.mem_older hm).2 rfl) ho
  obtain ⟨hd, hf⟩ := State.testFence_done (h1.trans hx) (h2.trans hr)
  rw [h3] at hd
  have hm : Moves SlotState.awaitsService (((s.urt.older i).foldl State.testFence s).testFence i) s.testFences := by
    unfold State.testFences
    rw [harr, List.foldl_append, List.foldl_cons]
    exact .foldl State.testFence_moves _ _
  refine ⟨hm.slot_stands hd ?_, hm.flag_clear hf⟩
  rintro (e | e | e | e) <;> exact absurd e (by simp)

/-- Settles O17: the tests go through the arrival list, and only a ready fence reads or clears a flag. -/
theorem fenceDoneReadsAndClearsFlag : Obligations.FenceDoneReadsAndClearsFlag := fun s => by
  have hf : ReleaseFrame s.quiet s.quiet.testFences := exec_release_frame (s := s) rfl (.inr (.inr (.inr rfl)))
  obtain ⟨hq, hb, ht⟩ := s.quiet.testFences_blocks
  exact ⟨_, rfl, State.testFences_settled _, fun i x hi hx hr ho => State.testFences_done (s := s.quiet) hi hx hr ho,
    fun i hr => State.foldl_testFence_slot _ hr, fun i => s.fenceReady_iff i, hq, hb, ht, hf.mli, hf.elog, hf.faults,
    (State.testFences_moves _).pctl, hf.pins, hf.arrival, hf.out⟩

end Sys2Proof.Machine
end

section
/-! PROOFS. READINESS (R109 to R113, R34, R55, R72, R75, R101): which access is issued, and what its issue settles. -/

namespace Sys2Proof.Machine

/-! ### What the arbiter chooses (R110) -/

theorem State.choose_urgentDrain {s : State} {e : Entry} (hd : s.drainOffer = some e)
    (h : s.urgent = true ∨ s.demandPick = none) : s.choose = some (.drain e) := by
  unfold State.choose
  rw [hd]
  rcases h with h | h
  · rw [h]
  · rw [h]; cases s.urgent <;> rfl

theorem State.choose_pickedDemand {s : State} {i : SlotIx} (hi : s.demandPick = some i)
    (h : s.drainOffer = none ∨ s.urgent = false) : s.choose = some (.demand i) := by
  unfold State.choose
  rw [hi]
  rcases h with h | h
  · rw [h]
  · rw [h]; cases s.drainOffer <;> rfl

theorem State.choose_pickedPrefetch {s : State} (hd : s.drainOffer = none) (hi : s.demandPick = none) :
    s.choose = s.prefetchPick.map .prefetch := by
  unfold State.choose
  rw [hd, hi]

/-- The issue of a choice on a tag (R109). -/
def Choice.issueOn (s : State) (g : TagIx) : Choice → State
  | .drain e => s.issueDrain g e
  | .demand i => s.issueDemand g i
  | .prefetch k => s.issuePrefetch g k

theorem State.issueOne_of {s : State} {g : TagIx} {c : Choice} (hg : Mli.lowestFree s.mli = some g) (hc : s.choose = some c) :
    s.issueOne = c.issueOn s g := by
  unfold State.issueOne
  rw [hg, hc]
  cases c <;> rfl

theorem State.issueOne_none {s : State} (hc : s.choose = none) : s.issueOne = s := by
  unfold State.issueOne
  rw [hc]
  cases Mli.lowestFree s.mli <;> rfl

/-! ### The event of a readiness in a settled part -/

theorem State.Settled.quiet {s : State} (h : s.Settled) : s.quiet.Settled := h.congr rfl rfl rfl rfl rfl rfl rfl

theorem State.Settled.readiness {s : State} (h : s.Settled) (hr : s.pins.resetn = true) :
    exec .readiness s = .next s.quiet.issueOne.close := by
  rw [exec_readiness hr, State.moveStreams_still h.quiet.streams]

/-- R147: with an access under way the path does not enter HALT. -/
theorem State.haltTest_of_outstanding {s : State} (g : TagIx) (h : s.mli[g].state = .outstanding) : s.haltTest = s :=
  State.haltTest_still fun _ => Bool.eq_false_iff.2 fun hc => ((State.pathEmpty_iff s).1 hc).2.2 g h

theorem Mli.put_self (m : Mli) (g : TagIx) (x : Tag) : (Mli.put m g x)[g] = x := by rw [Mli.put_get, if_pos rfl]

/-! ### Issues that release nothing -/

/-- A slot that goes on from a state outside ORDER_WAIT and blocks as before. -/
theorem Urt.releasable_update {u : Urt} {i : SlotIx} {x : Slot} {f : Slot → Slot} (hx : u.slots[i] = some x)
    (h1 : x.state ≠ .orderWait) (h2 : (f x).state ≠ .orderWait) (hb : ∀ z d, (f x).blocks z d = x.blocks z d) (j : SlotIx) :
    (u.update i f).releasable j = u.releasable j := by
  by_cases e : j = i
  · subst e
    rw [Urt.releasable_of_state hx h1,
      Urt.releasable_of_state (x := f x) ((Urt.update_self ..).trans (by rw [hx]; rfl)) h2]
  · have hold : (u.update i f).older j = u.older j := rfl
    unfold Urt.releasable
    simp only [Urt.update_other _ _ _ _ e, hold, fun o d k => Urt.update_fence_has u i k x f (fun y => y.blocks o d) hx (hb o d)]

/-- A slot that goes on outside FENCE_WAIT and holds fences back as before. -/
theorem State.fenceReady_update {s t : State} {i : SlotIx} {x : Slot} {f : Slot → Slot} (hx : s.urt.slots[i] = some x)
    (hu : t.urt = s.urt.update i f) (hl : ∀ j, t.pq.lists j = s.pq.lists j) (h1 : x.state ≠ .fenceWait)
    (h2 : (f x).state ≠ .fenceWait)
    (hw : ((f x).kind == .wr && ((f x).unsettled || (f x).state == .memWait)) =
      (x.kind == .wr && (x.unsettled || x.state == .memWait))) (j : SlotIx) : t.fenceReady j = s.fenceReady j := by
  have hold : (s.urt.update i f).older j = s.urt.older j := rfl
  unfold State.fenceReady Urt.olderWritesSettled
  rw [hu, hl, hold, Urt.update_fence_has s.urt i j x f (fun y => y.kind == .fence && y.state == .fenceWait) hx
    (by simp only [beq_false_of_ne h1, beq_false_of_ne h2, Bool.and_false])]
  simp only [fun k => Urt.update_fence_has s.urt i k x f
    (fun y => y.kind == .wr && (y.unsettled || y.state == .memWait)) hx hw]

theorem issueFirst_lists (g : TagIx) (j : SlotIx) (es : List Entry) :
    (issueFirst g es).any (fun e => e.fences.getLsbD j) = es.any fun e => e.fences.getLsbD j := by
  induction es with
  | nil => rfl
  | cons e es ih =>
    unfold issueFirst
    split
    · rw [List.any_cons, List.any_cons, ih]
    · rfl

/-- R55: an issue leaves what the entries list. -/
theorem Queue.issue_lists (q : Queue) (g : TagIx) (j : SlotIx) : (q.issue g).lists j = q.lists j := issueFirst_lists g j _

/-- R55, R109: the drain candidate issued. -/
theorem State.Settled.issueDrain {s : State} (h : s.Settled) (g : TagIx) (e : Entry) :
    (s.issueDrain g e).close = s.issueDrain g e := by
  unfold State.close
  rw [State.settle_still (by exact h.order) (fun i hi => ?_) (by exact h.streams)]
  · exact State.haltTest_of_outstanding g (congrArg Tag.state (Mli.put_self s.mli g _))
  · have : (s.issueDrain g e).fenceReady i = s.fenceReady i := by
      have hl := Queue.issue_lists s.pq g i
      unfold State.fenceReady
      exact congrArg (fun b => _ && !b) hl
    rw [this]
    exact h.fences i hi

/-- R25: a read waits for its line as it waited for its issue. -/
theorem Slot.fillWait_blocks {x : Slot} (hk : x.kind = .rd) (hs : x.state = .issueWait) (g : Option TagIx) (z : Slot)
    (d : DecodeResult) : ({ x with state := .fillWait, tag := g } : Slot).blocks z d = x.blocks z d := by
  unfold Slot.blocks Slot.lineCarrying Slot.unsettled
  simp only [hk, hs]
  rfl

/-- R32, R72: a read issued leaves nothing to settle. -/
theorem State.Settled.issuedRead {s t : State} {i : SlotIx} {x : Slot} {g : TagIx} (h : s.Settled)
    (hx : s.urt.slots[i] = some x) (hk : x.kind = .rd) (hst : x.state = .issueWait)
    (hu : t.urt = s.urt.update i fun y => { y with state := .fillWait, tag := some g }) (hq : t.pq = s.pq)
    (hs : t.stt = s.stt) (hr : t.rdec = s.rdec) (hb : ∀ l, (t.rab.find l).isSome = true → (s.rab.find l).isSome = true)
    (hg : t.mli[g].state = .outstanding) : t.close = t := by
  unfold State.close
  rw [State.settle_still (fun j hj => ?_) (fun j hj => ?_) (State.streamsSettled_congr h.streams hs hr hb)]
  · exact State.haltTest_of_outstanding g hg
  · rw [hu, Urt.releasable_update hx (by simp [hst]) (by simp) (Slot.fillWait_blocks hk hst _)]
    exact h.order j (by rw [hu] at hj; exact hj)
  · rw [State.fenceReady_update hx hu (fun j => by rw [hq]) (by simp [hst]) (by simp)
      (by have hw : (x.kind == .wr) = false := by rw [hk]; rfl
          rw [hw]; rfl)]
    exact h.fences j (by rw [hu] at hj; exact hj)

/-- Changing nothing that names a line leaves the lines held. -/
theorem Rab.find_update {b : Rab} {r : LineIx} {f : RabLine → RabLine} (hf : ∀ x l, (f x).holds l = x.holds l) (l : LineAddr)
    (h : ((b.update r f).find l).isSome = true) : (b.find l).isSome = true := by
  rw [Rab.find_isSome_iff] at *
  obtain ⟨q, hq⟩ := h
  rw [Rab.update_line] at hq
  split at hq
  · exact ⟨r, (hf _ _).symm.trans hq⟩
  · exact ⟨q, hq⟩

theorem State.issueDemand_rd {s : State} {g : TagIx} {i : SlotIx} {x : Slot} {d : DecodeResult}
    (hx : s.urt.slots[i] = some x) (hd : x.decode = some d) (hk : x.kind = .rd) :
    s.issueDemand g i = s.issueRead g i x d := by
  simp only [State.issueDemand, hx, hd, hk]

theorem State.issueDemand_wr {s : State} {g : TagIx} {i : SlotIx} {x : Slot} {d : DecodeResult}
    (hx : s.urt.slots[i] = some x) (hd : x.decode = some d) (hk : x.kind = .wr) :
    s.issueDemand g i = s.issueDirect g i x d := by
  simp only [State.issueDemand, hx, hd, hk]

/-- R32: the own line read of a read. -/
theorem State.issueRead_own {s : State} {g : TagIx} {i : SlotIx} {x : Slot} {d : DecodeResult}
    (hn : s.rab.unissuedFillOf i = none) : s.issueRead g i x d =
      ((s.updateSlot i fun y => { y with state := .fillWait, tag := some g }).emit (.mreq (.lread g d.line))).putTag g
        (Tag.issued .unbufferedRead d.line d.region (some x.source) (.slot i) 0#32) := by
  simp only [State.issueRead, hn]

/-- R72: the fill of the line a read allocated. -/
theorem State.issueRead_fill {s : State} {g : TagIx} {i : SlotIx} {x : Slot} {d : DecodeResult} {r : LineIx}
    (hr : s.rab.unissuedFillOf i = some r) : s.issueRead g i x d =
      (((s.updateSlot i fun y => { y with state := .fillWait, tag := some g }).emit (.mreq (.lread g d.line))).putTag g
        (Tag.issued .demandRead d.line d.region none (.line r) 0#32)).withRab
        (s.rab.update r fun y => { y with tag := some g }) := by
  simp only [State.issueRead, hr]
  rfl

theorem Urt.update_eq_set {u : Urt} {i : SlotIx} {x : Slot} (hx : u.slots[i] = some x) (f : Slot → Slot) :
    u.update i f = { u with slots := u.slots.set i (some (f x)) } := by
  unfold Urt.update
  rw [hx]
  rfl

theorem State.Settled.issueRead {s : State} {g : TagIx} {i : SlotIx} {x : Slot} (h : s.Settled)
    (hx : s.urt.slots[i] = some x) (d : DecodeResult) (hk : x.kind = .rd) (hst : x.state = .issueWait) :
    (s.issueRead g i x d).close = s.issueRead g i x d := by
  cases hr : s.rab.unissuedFillOf i with
  | none =>
    rw [State.issueRead_own hr]
    exact h.issuedRead hx hk hst rfl rfl rfl rfl (fun _ hl => hl) (congrArg Tag.state (Mli.put_self s.mli g _))
  | some r =>
    rw [State.issueRead_fill hr]
    exact h.issuedRead hx hk hst rfl rfl rfl rfl (Rab.find_update fun _ _ => rfl)
      (congrArg Tag.state (Mli.put_self s.mli g _))

/-- R34, R36: a direct write issued where no slot waits for the order. -/
theorem State.Settled.issueDirect {s : State} {g : TagIx} {i : SlotIx} {x : Slot} (h : s.Settled)
    (hx : s.urt.slots[i] = some x) (d : DecodeResult) (hk : x.kind = .wr) (hst : x.state = .issueWait)
    (ho : ∀ j : SlotIx, s.urt.slotHas j (fun y => y.state == .orderWait) = false) :
    (s.issueDirect g i x d).close = s.issueDirect g i x d := by
  have hno : ∀ j : SlotIx, (s.issueDirect g i x d).urt.slotHas j (fun y => y.state == .orderWait) = false := fun j =>
    (Urt.update_fence_has s.urt i j x (fun y => { y with state := .memWait, tag := some g }) _ hx (by simp [hst])).trans
      (ho j)
  have hstill : (s.issueDirect g i x d).settle = s.issueDirect g i x d := by
    refine State.settle_still (fun j _ => ?_) (fun j hj => ?_)
      (State.streamsSettled_congr h.streams rfl rfl fun l => Rab.find_patch)
    · refine Bool.eq_false_iff.2 fun hr => ?_
      obtain ⟨y, -, hy, -, hys, -⟩ := Urt.releasable_some hr
      have := hno j
      rw [Urt.slotHas_some hy, hys] at this
      exact absurd this (by simp)
    · refine (State.fenceReady_update (s := s) (f := fun y => { y with state := .memWait, tag := some g }) hx (by exact rfl)
        (fun _ => by exact rfl) (by simp [hst]) (by simp) ?_ j).trans (h.fences j hj)
      have hw : x.unsettled = true := x.unsettled_iff.2 (.inr ⟨hk, by simp [hst]⟩)
      rw [hw]
      simp
  rw [State.close, hstill]
  exact State.haltTest_of_outstanding g (congrArg Tag.state (Mli.put_self s.mli g _))

/-! ### A prefetch (R75, R98, R101) -/

theorem State.issuePrefetch_some {s : State} {g : TagIx} {k : StreamIx} {r : LineIx} (hr : s.rab.prefetchVictim = some r) :
    s.issuePrefetch g k = (((s.putTag g (Tag.issued .prefetchRead s.stt.entries[k].next (.num s.stt.entries[k].region) none
      (.line r) 0#32)).withRab (s.rab.allocate r (RabLine.fresh s.stt.entries[k].next (.num s.stt.entries[k].region)
        .prefetch [] (some g)))).withStt (s.stt.issued k)).emit (.mreq (.lread g s.stt.entries[k].next)) := by
  simp only [State.issuePrefetch, hr]

/-- R75: the lines held once a line is allocated. -/
theorem Rab.find_allocate {b : Rab} {r : LineIx} {x : RabLine} {l : LineAddr}
    (h : ((b.allocate r x).find l).isSome = true) : l = x.line ∨ (b.find l).isSome = true := by
  rw [Rab.find_isSome_iff] at *
  obtain ⟨q, hq⟩ := h
  unfold Rab.allocate at hq
  simp only [Vector.get_set_fin] at hq
  split at hq
  · unfold RabLine.holds at hq
    rw [Bool.and_eq_true, beq_iff_eq] at hq
    exact .inl hq.2.symm
  · exact .inr ⟨q, hq⟩

/-- R75, R101: a prefetch issued leaves only streams to move on. -/
theorem State.Settled.issuePrefetch {s : State} (h : s.Settled) (g : TagIx) {k : StreamIx} {r : LineIx}
    (hr : s.rab.prefetchVictim = some r) : (s.issuePrefetch g k).close = (s.issuePrefetch g k).moveStreams := by
  rw [State.issuePrefetch_some hr]
  unfold State.close State.settle
  rw [State.releaseSlots_still (by exact h.order), State.testFences_still (by exact h.fences)]
  exact State.haltTest_of_outstanding g (congrArg Tag.state (Mli.put_self s.mli g _))

theorem State.moveStreams_entry (s : State) (j : StreamIx) :
    s.moveStreams.stt.entries[j] = s.moveStream s.stt.entries[j] := by
  simp only [State.moveStreams_stt, Vector.get_ofFn_fin]

theorem Stt.issued_entry (t : Stt) (j k : StreamIx) : (t.issued k).entries[j] =
    if k = j then { t.entries[k] with next := t.entries[k].dir.step t.entries[k].next } else t.entries[j] := by
  simp only [Stt.issued, Vector.get_set_fin]

/-- R98: an entry whose NEXT is no other than before is not moved on by one more line. -/
theorem State.moveStream_still {s t : State} (hs : s.streamsSettled) (hr : t.rdec = s.rdec) {j : StreamIx} {a : LineAddr}
    (hf : ∀ l, (t.rab.find l).isSome = true → l = a ∨ (s.rab.find l).isSome = true) (hne : s.stt.entries[j].next ≠ a) :
    t.moveStream s.stt.entries[j] = s.stt.entries[j] := by
  refine Stream.moveOn_still (Bool.eq_false_iff.2 fun hc => ?_)
  rw [hr, Bool.and_eq_true] at hc
  have := hs j
  rw [hc.1, (hf _ hc.2).resolve_left hne] at this
  exact absurd this (by simp)

/-- R98, R101: the streams after the issue of a prefetch. -/
theorem State.prefetch_streams {s v : State} {k : StreamIx} {r : LineIx} {x : RabLine} (hs : s.streamsSettled)
    (hst : v.stt = s.stt.issued k) (hrd : v.rdec = s.rdec) (hrb : v.rab = s.rab.allocate r x)
    (hx : x.line = s.stt.entries[k].next) :
    (∀ j : StreamIx, v.moveStreams.stt.entries[j] =
      { s.stt.entries[j] with next := v.moveStreams.stt.entries[j].next }) ∧
    (∀ j : StreamIx, j ≠ k → s.stt.entries[j].next ≠ s.stt.entries[k].next →
      v.moveStreams.stt.entries[j] = s.stt.entries[j]) ∧
    (s.stt.entries[k].dir = .up → v.moveStreams.rab.find (s.stt.entries[k].next + 1#27) = none →
      v.moveStreams.stt.entries[k].next = s.stt.entries[k].next + 1#27) ∧
    (s.stt.entries[k].dir = .down → v.moveStreams.rab.find (s.stt.entries[k].next - 1#27) = none →
      v.moveStreams.stt.entries[k].next = s.stt.entries[k].next - 1#27) := by
  have hmoved := v.moveStreams_movedPast
  have hstep : ∀ l, s.stt.entries[k].dir.step s.stt.entries[k].next = l → v.moveStreams.rab.find l = none →
      v.moveStreams.stt.entries[k].next = l := fun l hl hno => by
    have hn : v.stt.entries[k].next = l := by rw [hst, Stt.issued_entry, if_pos rfl]; exact hl
    have hno' : (v.rab.find v.stt.entries[k].next).isSome = false := by
      rw [hn]
      exact congrArg Option.isSome hno
    rw [hmoved.still k hno', hn]
  refine ⟨fun j => ?_, fun j hj hne => ?_, fun hdir => hstep _ (by rw [hdir]; rfl), fun hdir => hstep _ (by rw [hdir]; rfl)⟩
  · have hf := hmoved.fields j
    have hn : ∀ n, ({ v.stt.entries[j] with next := n } : Stream) = { s.stt.entries[j] with next := n } := fun n => by
      rw [hst, Stt.issued_entry]
      split
      · rename_i e; subst e; rfl
      · rfl
    exact hf.trans (hn _)
  · have hn : v.stt.entries[j] = s.stt.entries[j] := by rw [hst, Stt.issued_entry, if_neg (Ne.symm hj)]
    rw [State.moveStreams_entry, hn]
    exact State.moveStream_still hs hrd (fun l hl => Rab.find_allocate (hrb ▸ hl)) (hx ▸ hne)

/-- Settles O23: in a settled part an issue releases nothing, but for a direct write, which settles, and a prefetch, which
moves streams. -/
theorem readinessIssuesChosenAccess : Obligations.ReadinessIssuesChosenAccess := fun s => by
  refine ⟨fun hr => exec_readiness_reset (by rw [hr]; simp), fun hs hr hd hi hp => ?_, fun e g hs hr hg hd hu => ?_,
    fun i x d g hs hr hg hi hu hx hdec => ?_, fun k r g hs hr hg hd hi hk hvic => ?_⟩
  · have hc : s.quiet.choose = none := (State.choose_pickedPrefetch (s := s.quiet) hd hi).trans
      (congrArg (Option.map Choice.prefetch) hp)
    rw [hs.readiness hr, State.issueOne_none hc, hs.quiet.close]
    rfl
  · rw [hs.readiness hr, State.issueOne_of (s := s.quiet) hg (State.choose_urgentDrain (s := s.quiet) hd hu)]
    exact congrArg Host.Outcome.next (hs.quiet.issueDrain g e)
  · have hq := hs.quiet
    have hissue := State.issueOne_of (s := s.quiet) hg (State.choose_pickedDemand (s := s.quiet) hi hu)
    have hst : x.state = .issueWait := by
      obtain ⟨y, -, hy, -, hy'⟩ := State.demandIssuable_slot (State.demandPick_issuable hi)
      rwa [Option.some.inj (hx.symm.trans hy)]
    have hxq : s.quiet.urt.slots[i] = some x := hx
    rw [hs.readiness hr, hissue]
    refine ⟨fun hk hn => ?_, fun hk r hn => ?_, fun hk ho => ?_, fun hk => ?_⟩
    · rw [Choice.issueOn, State.issueDemand_rd hxq hdec hk, hq.issueRead hxq d hk hst, State.issueRead_own (by exact hn),
        State.updateSlot, Urt.update_eq_set hxq]
      rfl
    · rw [Choice.issueOn, State.issueDemand_rd hxq hdec hk, hq.issueRead hxq d hk hst, State.issueRead_fill (by exact hn),
        State.updateSlot, Urt.update_eq_set hxq]
      rfl
    · rw [Choice.issueOn, State.issueDemand_wr hxq hdec hk, hq.issueDirect hxq d hk hst ho, State.issueDirect,
        State.updateSlot, Urt.update_eq_set hxq]
      rfl
    · rw [Choice.issueOn, State.issueDemand_wr hxq hdec hk]
      have hf := (s.quiet.issueDirect g i x d).close_release
      exact ⟨_, rfl, hf.out, State.close_slot (State.updateSlot_some hxq _) (by simp) (by simp), hf.mli,
        (State.close_settled _).1, hf.elog, hf.faults, hf.arrival⟩
  · have hc : s.quiet.choose = some (.prefetch k) := (State.choose_pickedPrefetch (s := s.quiet) hd hi).trans
      (congrArg (Option.map Choice.prefetch) hk)
    have hvic' : s.quiet.rab.prefetchVictim = some r := hvic
    rw [hs.readiness hr, State.issueOne_of (s := s.quiet) hg hc, Choice.issueOn, hs.quiet.issuePrefetch g hvic']
    have hst : (s.quiet.issuePrefetch g k).stt = s.stt.issued k := by rw [State.issuePrefetch_some hvic']; rfl
    have hrd : (s.quiet.issuePrefetch g k).rdec = s.rdec := by rw [State.issuePrefetch_some hvic']; rfl
    have hrb : (s.quiet.issuePrefetch g k).rab = s.rab.allocate r (RabLine.fresh s.stt.entries[k].next
      (.num s.stt.entries[k].region) .prefetch [] (some g)) := by rw [State.issuePrefetch_some hvic']; rfl
    obtain ⟨hfields, hothers, hup, hdown⟩ := State.prefetch_streams hs.streams hst hrd hrb rfl
    refine ⟨_, rfl, ?_, hrb, ?_, congrArg Stt.mark hst, hfields, hothers, hup, hdown, ?_, ?_, ?_, ?_⟩ <;>
      rw [State.issuePrefetch_some hvic'] <;> rfl

end Sys2Proof.Machine
end

section
/-! PROOFS. The end of an own line read or a direct write (R32, R34, R118, R119, R128), by completion or by timeout. -/

namespace Sys2Proof.Machine

/-! ### What the end of an event leaves of the buffer -/

/-- No slot is in a state. -/
def Urt.NoneIn (u : Urt) (st : SlotState) : Prop := ∀ j : SlotIx, u.slotHas j (fun y => y.state == st) = false

/-- No slot enters a state by an update that does not give it. -/
theorem Urt.NoneIn.update {u : Urt} {st : SlotState} (h : u.NoneIn st) (i : SlotIx) {f : Slot → Slot}
    (hf : ∀ x, (f x).state ≠ st) : (u.update i f).NoneIn st := fun j => by
  by_cases e : j = i
  · subst e
    unfold Urt.slotHas
    rw [Urt.update_self]
    cases u.slots[j] with
    | none => rfl
    | some x => exact beq_false_of_ne (hf x)
  · have := h j
    unfold Urt.slotHas at *
    rwa [Urt.update_other _ _ _ _ e]

theorem Urt.NoneIn.finish {s : State} {st : SlotState} (h : s.urt.NoneIn st) (hst : st ≠ .done) (i r bs) :
    (s.finish i r bs).urt.NoneIn st := Urt.NoneIn.update h i fun _ => Ne.symm hst

/-- R27: with no slot in ORDER_WAIT the end of an event leaves queue and buffer. -/
theorem State.settle_idle {s : State} (h : s.urt.NoneIn .orderWait) :
    s.settle.pq = s.pq ∧ s.settle.rab = s.rab := by
  obtain ⟨hq, hb, -⟩ := s.testFences_blocks
  unfold State.settle
  rw [State.releaseSlots_idle h, State.moveStreams_pq, State.moveStreams_rab]
  exact ⟨hq, hb⟩

theorem State.settle_pctl (s : State) : s.settle.pctl = s.pctl := s.settle_moves.pctl

theorem State.close_idle {s : State} (h : s.urt.NoneIn .orderWait) (hp : s.pctl.path ≠ .drain) : s.close.rab = s.rab := by
  unfold State.close
  rw [State.haltTest_still fun hd => absurd (s.settle_pctl ▸ hd) hp, (State.settle_idle h).2]

theorem State.settle_release (s : State) : ReleaseFrame s s.settle := .ofWorks fun _ h => State.settle_work _ h

/-- A settled part whose buffer holds no further line has nothing to settle. -/
theorem State.Settled.settle_of {s t : State} (h : s.Settled) (hu : t.urt = s.urt) (hq : t.pq = s.pq) (ht : t.stt = s.stt)
    (hr : t.rdec = s.rdec) (hb : ∀ l, (t.rab.find l).isSome = true → (s.rab.find l).isSome = true) : t.settle = t := by
  refine State.settle_still (fun i hi => ?_) (fun i hi => ?_) (State.streamsSettled_congr h.streams ht hr hb)
  · rw [hu] at hi ⊢; exact h.order i hi
  · rw [State.fenceReady_congr hu hq]; exact h.fences i (hu ▸ hi)

theorem State.Settled.close_of {s t : State} (h : s.Settled) (hu : t.urt = s.urt) (hq : t.pq = s.pq) (ht : t.stt = s.stt)
    (hr : t.rdec = s.rdec) (hb : ∀ l, (t.rab.find l).isSome = true → (s.rab.find l).isSome = true) :
    t.close = t.haltTest := by rw [State.close, h.settle_of hu hq ht hr hb]

/-! ### A completion of an OUTSTANDING tag -/

theorem exec_mcpl_ok {s : State} {header : Word} {g : TagIx} (data : Vector Word 8) (hr : s.pins.resetn = true)
    (hg : g = mcplTag header) (ho : s.mli[g].state = .outstanding) (hf : flag header 31 = false) :
    exec (.mcpl header data) s =
      .next ((s.quiet.putTag g Tag.free).accessOk s.mli[g] g (mcplData header data)).close := by
  subst hg
  have ho' : s.quiet.mli[mcplTag header].state = .outstanding := ho
  refine (if_pos hr).trans ?_
  unfold State.complete
  rw [ho']
  simp only [mcplOk, hf, Bool.not_false, if_true]
  rfl

theorem exec_mcpl_fail {s : State} {header : Word} {g : TagIx} (data : Vector Word 8) (hr : s.pins.resetn = true)
    (hg : g = mcplTag header) (ho : s.mli[g].state = .outstanding) (hf : flag header 31 = true) :
    exec (.mcpl header data) s = .next ((s.quiet.putTag g Tag.free).accessEnds s.mli[g] g .fail).close := by
  subst hg
  have ho' : s.quiet.mli[mcplTag header].state = .outstanding := ho
  refine (if_pos hr).trans ?_
  unfold State.complete
  rw [ho']
  simp only [mcplOk, hf, Bool.not_true, Bool.false_eq_true, if_false]
  rfl

/-! ### Failure and timeout -/

/-- R119: the record kind of a failed access of a slot. -/
def Tag.endKind (x : Tag) (k : FaultKind) : RecordKind :=
  match x.kind, k with
  | .directWrite, .fail => .writeFail
  | .directWrite, .timeout => .writeTimeout
  | _, .fail => .readFail
  | _, .timeout => .readTimeout

/-- R85: the buffer after a failed access of a slot. -/
def Rab.afterEnd (b : Rab) (x : Tag) : Rab := if x.kind = .directWrite then b.lineFailed x.line else b

/-- An own line read or a direct write. -/
def AccessKind.ofSlot (k : AccessKind) : Prop := k = .unbufferedRead ∨ k = .directWrite

/-- R32, R34, R119: what a failure or a timeout of a slot's access does, whether or not the slot is left. -/
theorem State.accessEnds_ofSlot {s : State} {x : Tag} (hk : x.kind.ofSlot) (g : TagIx) (k : FaultKind) :
    s.accessEnds x g k = ((s.withRab (s.rab.afterEnd x)).failOwner x k).log
      (accessRecord (x.endKind k) s.tgen.stamp x g) := by
  unfold State.accessEnds Rab.afterEnd Tag.endKind
  rcases hk with hk | hk
  · simp only [hk]
    cases k <;> rfl
  · simp only [hk, if_true]
    cases k <;> rfl

theorem State.failOwner_none {s : State} {x : Tag} (h : x.owner = none) (k : FaultKind) : s.failOwner x k = s := by
  simp only [State.failOwner, Tag.ownerSlot, h]

theorem State.failOwner_slot {s : State} {x : Tag} {i : SlotIx} (h : x.owner = some (.slot i)) (k : FaultKind) :
    s.failOwner x k = s.finish i k.status [] := by
  simp only [State.failOwner, Tag.ownerSlot, h]

theorem State.failOwner_flt (s : State) (x : Tag) (k : FaultKind) : (s.failOwner x k).flt = s.flt := by
  unfold State.failOwner
  split <;> rfl

theorem State.failOwner_noneIn {s : State} {st : SlotState} (h : s.urt.NoneIn st) (hst : st ≠ .done) (x : Tag)
    (k : FaultKind) : (s.failOwner x k).urt.NoneIn st := by
  unfold State.failOwner
  split
  · exact h.finish hst _ _ _
  · exact h

/-- R85: a line that failed is held no more, or as before. -/
theorem Rab.find_afterEnd {b : Rab} {x : Tag} {l : LineAddr} (h : ((b.afterEnd x).find l).isSome = true) :
    (b.find l).isSome = true := by
  unfold Rab.afterEnd at h
  split at h
  · exact Rab.find_of_invalidate h
  · exact h

/-- What the failure of a slot's access leaves, before the releases of the event. -/
theorem State.accessEnds_ofSlot_parts {s : State} {x : Tag} (hk : x.kind.ofSlot) (g : TagIx) (k : FaultKind) :
    (s.accessEnds x g k).flt = s.flt ∧
    (s.accessEnds x g k).elog = s.elog.append (accessRecord (x.endKind k) s.tgen.stamp x g) ∧
    (s.accessEnds x g k).rab = s.rab.afterEnd x ∧
    (∀ (i : SlotIx) (y : Slot), x.owner = some (.slot i) → s.urt.slots[i] = some y → (s.accessEnds x g k).urt.slots[i] =
      some { y with state := .done, status := some k.status, result := [], tag := none }) ∧
    (∀ st : SlotState, st ≠ .done → s.urt.NoneIn st → (s.accessEnds x g k).urt.NoneIn st) ∧
    (x.owner = none → s.accessEnds x g k =
      (s.withRab (s.rab.afterEnd x)).log (accessRecord (x.endKind k) s.tgen.stamp x g)) := by
  rw [State.accessEnds_ofSlot hk]
  refine ⟨State.failOwner_flt _ x k, ?_, State.failOwner_rab _ x k, fun i y ho hy => ?_,
    fun st hst h => State.failOwner_noneIn (s := s.withRab (s.rab.afterEnd x)) h hst x k, fun ho => ?_⟩
  · show ((s.withRab (s.rab.afterEnd x)).failOwner x k).elog.append _ = _
    have he : ((s.withRab (s.rab.afterEnd x)).failOwner x k).elog = s.elog := by
      unfold State.failOwner
      split <;> rfl
    rw [he]
  · rw [State.failOwner_slot ho]
    exact State.updateSlot_some (by exact hy) _
  · rw [State.failOwner_none ho]

/-! ### Completions -/

/-- R32, R34, R118: the completion with OK of a slot's access. -/
theorem State.accessOk_ofSlot (s : State) (x : Tag) (g : TagIx) :
    (x.kind = .unbufferedRead → (∀ m, s.accessOk x g (some m) = s.readOk x m) ∧
      s.accessOk x g none = s.accessEnds x g .fail) ∧
    (x.kind = .directWrite → ∀ m, s.accessOk x g m = s.writeOk x) := by
  refine ⟨fun hk => ⟨fun m => ?_, ?_⟩, fun hk m => ?_⟩
  · simp only [State.accessOk, hk]
  · simp only [State.accessOk, hk]
  · simp only [State.accessOk, hk]

theorem State.readOk_none {s : State} {x : Tag} (h : x.owner = none) (m : LineData) : s.readOk x m = s := by
  simp only [State.readOk, Tag.ownerSlot, h]

theorem State.readOk_slot {s : State} {x : Tag} {i : SlotIx} {y : Slot} {d : DecodeResult} (h : x.owner = some (.slot i))
    (hy : s.urt.slots[i] = some y) (hd : y.decode = some d) (m : LineData) :
    s.readOk x m = s.finish i .ok (Machine.takeBytes d.offset y.count m) := by
  simp only [State.readOk, Tag.ownerSlot, h, State.answerWaiter, hy, hd]

theorem State.writeOk_none {s : State} {x : Tag} (h : x.owner = none) :
    s.writeOk x = s.withFlt (s.flt.clearBytes x.line x.mask) := by
  simp only [State.writeOk, Tag.ownerSlot, h]

theorem State.writeOk_slot {s : State} {x : Tag} {i : SlotIx} (h : x.owner = some (.slot i)) :
    s.writeOk x = (s.withFlt (s.flt.clearBytes x.line x.mask)).finish i .ok [] := by
  simp only [State.writeOk, Tag.ownerSlot, h]

/-- R106: a line read without DATA is taken as FAIL. -/
theorem exec_mcpl_readFails {s : State} {header : Word} {g : TagIx} (data : Vector Word 8) (hr : s.pins.resetn = true)
    (hg : g = mcplTag header) (ho : s.mli[g].state = .outstanding) (hk : s.mli[g].kind = .unbufferedRead)
    (hf : flag header 31 = true ∨ flag header 30 = false) :
    exec (.mcpl header data) s = .next ((s.quiet.putTag g Tag.free).accessEnds s.mli[g] g .fail).close := by
  by_cases h : flag header 31 = true
  · exact exec_mcpl_fail data hr hg ho h
  · have hd : mcplData header data = none := if_neg (by rw [hf.resolve_left h]; simp)
    rw [exec_mcpl_ok data hr hg ho (Bool.eq_false_iff.2 h), hd,
      ((s.quiet.putTag g Tag.free).accessOk_ofSlot s.mli[g] g).1 hk |>.2]

theorem exec_mcpl_readOk {s : State} {header : Word} {g : TagIx} (data : Vector Word 8) (hr : s.pins.resetn = true)
    (hg : g = mcplTag header) (ho : s.mli[g].state = .outstanding) (hk : s.mli[g].kind = .unbufferedRead)
    (hf : flag header 31 = false) (hd : flag header 30 = true) :
    exec (.mcpl header data) s = .next ((s.quiet.putTag g Tag.free).readOk s.mli[g] (lineOfWords data)).close := by
  have hd : mcplData header data = some (lineOfWords data) := if_pos hd
  rw [exec_mcpl_ok data hr hg ho hf, hd, ((s.quiet.putTag g Tag.free).accessOk_ofSlot s.mli[g] g).1 hk |>.1]

theorem exec_mcpl_writeOk {s : State} {header : Word} {g : TagIx} (data : Vector Word 8) (hr : s.pins.resetn = true)
    (hg : g = mcplTag header) (ho : s.mli[g].state = .outstanding) (hk : s.mli[g].kind = .directWrite)
    (hf : flag header 31 = false) :
    exec (.mcpl header data) s = .next ((s.quiet.putTag g Tag.free).writeOk s.mli[g]).close := by
  rw [exec_mcpl_ok data hr hg ho hf, ((s.quiet.putTag g Tag.free).accessOk_ofSlot s.mli[g] g).2 hk]

/-- Settles O28: the slot answered stands to the end of the event; without a slot nothing is settled. -/
theorem slotAccessCompletionAnswersSlot : Obligations.SlotAccessCompletionAnswersSlot := by
  refine ⟨fun s header data g i x d hr hg ho hown hx hdec => ?_, fun s header data g hs hr hg ho hown => ?_⟩
  · have hxq : (s.quiet.putTag g Tag.free).urt.slots[i] = some x := hx
    refine ⟨fun hk hf hd => ?_, fun hk hf => ?_, fun hk hf => ?_, fun hk hf => ?_⟩
    · have hc := State.close_release ((s.quiet.putTag g Tag.free).readOk s.mli[g] (lineOfWords data))
      refine ⟨_, exec_mcpl_readOk data hr hg ho hk hf hd, ?_⟩
      rw [State.readOk_slot hown hxq hdec] at hc ⊢
      exact ⟨hc.mli, hc.elog, hc.faults, State.close_slot (State.updateSlot_some hxq _) (by simp) (by simp)⟩
    · obtain ⟨hflt, hlog, -, hslot, -, -⟩ := State.accessEnds_ofSlot_parts (s := s.quiet.putTag g Tag.free) (.inl hk) g .fail
      have hc := State.close_release ((s.quiet.putTag g Tag.free).accessEnds s.mli[g] g .fail)
      refine ⟨_, exec_mcpl_readFails data hr hg ho hk hf, hc.mli.trans (State.accessEnds_mli ..),
        hc.faults.trans (congrArg Flt.entries hflt), State.close_slot (hslot i x hown hxq) (by simp) (by simp),
        hc.elog.trans (hlog.trans ?_)⟩
      have hend : s.mli[g].endKind .fail = .readFail := by unfold Tag.endKind; rw [hk]
      rw [hend]
      rfl
    · have hc := State.close_release ((s.quiet.putTag g Tag.free).writeOk s.mli[g])
      refine ⟨_, exec_mcpl_writeOk data hr hg ho hk hf, ?_⟩
      rw [State.writeOk_slot hown] at hc ⊢
      refine ⟨hc.mli, hc.elog, hc.faults, State.close_slot (State.updateSlot_some (by exact hxq) _) (by simp) (by simp),
        fun hw hp => (State.close_idle ?_ (by exact hp)).trans (by exact rfl)⟩
      exact Urt.NoneIn.finish (s := (s.quiet.putTag g Tag.free).withFlt _) hw (by simp) _ _ _
    · obtain ⟨hflt, hlog, hrab, hslot, hnone, -⟩ :=
        State.accessEnds_ofSlot_parts (s := s.quiet.putTag g Tag.free) (.inr hk) g .fail
      have hc := State.close_release ((s.quiet.putTag g Tag.free).accessEnds s.mli[g] g .fail)
      have hp : ((s.quiet.putTag g Tag.free).accessEnds s.mli[g] g .fail).pctl = s.pctl := by
        obtain ⟨D, hD⟩ := (s.quiet.putTag g Tag.free).exists_depthsWithin
        exact (State.accessEnds_access _ hD _ _ _).frame.pctl
      refine ⟨_, exec_mcpl_fail data hr hg ho hf, hc.mli.trans (State.accessEnds_mli ..),
        hc.faults.trans (congrArg Flt.entries hflt), State.close_slot (hslot i x hown hxq) (by simp) (by simp),
        hc.elog.trans (hlog.trans ?_), fun hw hd => (State.close_idle (hnone _ (by simp) hw) (by rwa [hp])).trans
          (hrab.trans (if_pos hk))⟩
      have hend : s.mli[g].endKind .fail = .writeFail := by unfold Tag.endKind; rw [hk]
      rw [hend]
      rfl
  · have hread : s.mli[g].kind = .unbufferedRead → s.mli[g].endKind .fail = .readFail ∧ ∀ b : Rab, b.afterEnd s.mli[g] = b :=
      fun hk => ⟨by unfold Tag.endKind; rw [hk], fun b => if_neg (by rw [hk]; simp)⟩
    have hwrite : s.mli[g].kind = .directWrite → s.mli[g].endKind .fail = .writeFail ∧
        ∀ b : Rab, b.afterEnd s.mli[g] = b.lineFailed s.mli[g].line :=
      fun hk => ⟨by unfold Tag.endKind; rw [hk], fun b => if_pos hk⟩
    refine ⟨fun hk hf hd => ?_, fun hk hf => ?_, fun hk hf => ?_, fun hk hf => ?_⟩
    · rw [exec_mcpl_readOk data hr hg ho hk hf hd, State.readOk_none hown]
      exact congrArg Host.Outcome.next (hs.close_of rfl rfl rfl rfl fun _ h => h)
    · obtain ⟨-, -, -, -, -, hv⟩ := State.accessEnds_ofSlot_parts (s := s.quiet.putTag g Tag.free) (.inl hk) g .fail
      rw [exec_mcpl_readFails data hr hg ho hk hf, hv hown, (hread hk).1, (hread hk).2]
      exact congrArg Host.Outcome.next (hs.close_of rfl rfl rfl rfl fun _ h => h)
    · rw [exec_mcpl_writeOk data hr hg ho hk hf, State.writeOk_none hown]
      exact congrArg Host.Outcome.next (hs.close_of rfl rfl rfl rfl fun _ h => h)
    · obtain ⟨-, -, -, -, -, hv⟩ := State.accessEnds_ofSlot_parts (s := s.quiet.putTag g Tag.free) (.inr hk) g .fail
      have hb : (s.quiet.putTag g Tag.free).rab = s.rab := rfl
      have hfind : ∀ l, ((s.rab.lineFailed s.mli[g].line).find l).isSome = true → (s.rab.find l).isSome = true :=
        fun l h => Rab.find_of_invalidate h
      rw [exec_mcpl_fail data hr hg ho hf, hv hown, (hwrite hk).1, (hwrite hk).2, hb]
      generalize s.rab.lineFailed s.mli[g].line = b at hfind ⊢
      exact congrArg Host.Outcome.next (hs.close_of rfl rfl rfl rfl hfind)

end Sys2Proof.Machine
end

section
/-! PROOFS. The end of a drain (R53, R60 to R62): the entry goes, what waited for it goes on, and what stands where nothing
waits. -/

namespace Sys2Proof.Machine

/-! ### The reads that a removal lets go (R53 step 4) -/

theorem State.releaseDrainWaits_flt (s : State) : s.releaseDrainWaits.flt = s.flt := by
  have key : ∀ (l : List SlotIx) (s : State), (l.foldl State.leaveDrainWait s).flt = s.flt := by
    intro l
    induction l with
    | nil => exact fun _ => rfl
    | cons a l ih => exact fun s => (ih _).trans (s.leaveDrainWait_flt a)
  exact key _ s

theorem State.releaseDrainWaits_pq (s : State) : s.releaseDrainWaits.pq = s.pq := by
  have key : ∀ (l : List SlotIx) (s : State), (l.foldl State.leaveDrainWait s).pq = s.pq := by
    intro l
    induction l with
    | nil => exact fun _ => rfl
    | cons a l ih => exact fun s => (ih _).trans (s.leaveDrainWait_pq a)
  exact key _ s

theorem State.foldl_leaveDrainWait_ne (l : List SlotIx) {s : State} {i : SlotIx} (hi : i ∉ l) :
    (l.foldl State.leaveDrainWait s).urt.slots[i] = s.urt.slots[i] := by
  induction l generalizing s with
  | nil => rfl
  | cons a l ih =>
    exact (ih fun h => hi (List.mem_cons_of_mem _ h)).trans (s.leaveDrainWait_ne fun e => hi (e ▸ List.mem_cons_self))

/-- A slot whose wait is over has had its fault check, and every other slot stands. -/
theorem State.releaseDrainWaits_cases (s : State) (i : SlotIx) :
    s.releaseDrainWaits.urt.slots[i] = s.urt.slots[i] ∨ ∃ x y, s.urt.slots[i] = some x ∧
      s.releaseDrainWaits.urt.slots[i] = some y ∧ x.kind = .rd ∧ x.state = .drainWait ∧ y.state.checked := by
  by_cases hm : i ∈ s.urt.arrival.filter fun i => s.drainWaitOver i
  · obtain ⟨hi, ho⟩ := List.mem_filter.1 hm
    obtain ⟨x, d, hx, hd, hk, hs, hb⟩ := (s.drainWaitOver_iff i).1 ho
    obtain ⟨y, hy, hc⟩ := State.releaseDrainWaits_slot hi hx hd hk hs hb
    exact .inr ⟨x, y, hx, hy, hk, hs, hc.checked⟩
  · exact .inl (State.foldl_leaveDrainWait_ne _ hm)

theorem State.releaseDrainWaits_before {s : State} {i : SlotIx} {y : Slot} (hy : s.releaseDrainWaits.urt.slots[i] = some y)
    (hs : y.state = .orderWait ∨ y.state = .fenceWait) : s.urt.slots[i] = some y := by
  rcases s.releaseDrainWaits_cases i with e | ⟨x, z, -, hz, -, -, hc⟩
  · exact e ▸ hy
  · obtain rfl := Option.some.inj (hz.symm.trans hy)
    rcases hc with e | e | e <;> simp [e] at hs

theorem State.releaseDrainWaits_stands {s : State} {i : SlotIx} {x : Slot} (hx : s.urt.slots[i] = some x)
    (hs : x.state ≠ .drainWait) : s.releaseDrainWaits.urt.slots[i] = some x := by
  rcases s.releaseDrainWaits_cases i with e | ⟨z, -, hz, -, -, hd, -⟩
  · exact e.trans hx
  · exact absurd ((Option.some.inj (hx.symm.trans hz)) ▸ hd) hs

theorem Urt.NoneIn.of_before {u v : Urt} {st : SlotState} (h : u.NoneIn st)
    (hb : ∀ (i : SlotIx) (y : Slot), v.slots[i] = some y → y.state = st → u.slots[i] = some y) : v.NoneIn st := fun j => by
  have hj := h j
  unfold Urt.slotHas at *
  cases hy : v.slots[j] with
  | none => rfl
  | some y =>
    refine Bool.eq_false_iff.2 fun hc => ?_
    have hu := hb j y hy (beq_iff_eq.1 hc)
    rw [hu] at hj
    exact absurd (hc.symm.trans hj) (by simp)

theorem Urt.NoneIn.releaseDrainWaits {s : State} (h : s.urt.NoneIn .orderWait) : s.releaseDrainWaits.urt.NoneIn .orderWait :=
  h.of_before fun _ _ hy hs => State.releaseDrainWaits_before hy (.inl hs)

theorem Urt.NoneIn.moves {s t : State} {W : SlotState → Prop} (h : s.urt.NoneIn .orderWait) (m : Moves W s t) :
    t.urt.NoneIn .orderWait :=
  h.of_before fun _ _ hy hs => m.slot_before hy (.inl hs)

theorem State.waitsSettled_of_noneIn {s : State} (h : s.urt.NoneIn .drainWait) : s.waitsSettled := fun i _ =>
  Bool.eq_false_iff.2 fun hc => by
    obtain ⟨x, d, hx, -, -, hs, -⟩ := (s.drainWaitOver_iff i).1 hc
    have := h i
    rw [Urt.slotHas_some hx, hs] at this
    exact absurd this (by simp)

/-! ### A removal where no write waits for room (R50) -/

theorem State.retryPostWait_empty {s : State} (h : s.urt.postWait = []) :
    s.retryPostWait = s.withPq { s.pq with room := false } := by
  unfold State.retryPostWait
  split
  · rename_i hr
    rw [← hr]
    rfl
  · simp only [State.withPq_urt, h]

/-- The part once the entry of a tag has gone and its room has not been asked for. -/
def State.withoutEntry (s : State) (g : TagIx) : State :=
  s.withPq { entries := s.pq.entries.filter fun y => y.tag != some g, room := false }

theorem State.removeEntry_idle {s : State} (hp : s.urt.postWait = []) (ho : s.urt.NoneIn .orderWait) (g : TagIx) :
    s.removeEntry g = (s.withoutEntry g).releaseDrainWaits.testFences := by
  have h1 : (s.withPq (s.pq.remove g)).retryPostWait = s.withoutEntry g :=
    State.retryPostWait_empty (s := s.withPq (s.pq.remove g)) hp
  have h2 : (s.withoutEntry g).releaseSlots = s.withoutEntry g := State.releaseSlots_idle ho
  unfold State.removeEntry
  rw [h1, h2, State.releaseSlots_idle (Urt.NoneIn.releaseDrainWaits (s := s.withoutEntry g) ho)]

/-- R44: no entry holds the tag once it has gone. -/
theorem State.removeEntry_removed (s : State) (g : TagIx) :
    ∀ y ∈ (s.removeEntry g).settle.pq.entries, y.tag ≠ some g := by
  intro y hy ht
  obtain ⟨D, hD⟩ := s.exists_depthsWithin
  have hw : Works D (s.withPq (s.pq.remove g)) (s.removeEntry g).settle :=
    ((((State.retryPostWait_work (s.withPq (s.pq.remove g))).andThen hD (State.releaseSlots_work _)).andThen hD
      (State.releaseDrainWaits_work _)).andThen hD (State.releaseSlots_work _)).andThen hD (State.testFences_work _)
      |>.andThen hD (State.settle_work _)
  obtain ⟨e, he, hg⟩ := hw.tags hy ht
  have := (List.mem_filter.1 he).2
  rw [hg] at this
  exact absurd this (by simp)

/-- R138: a removal leaves the flag of a source without a waiting fence. -/
theorem State.removeEntry_flag {s : State} {src : SourceNo} (g : TagIx)
    (hs : ∀ (i : SlotIx) (x : Slot), s.urt.slots[i] = some x → x.state = .fenceWait → x.source ≠ src) :
    (s.removeEntry g).settle.flt.flags.getLsbD src = s.flt.flags.getLsbD src := by
  have h1 : Moves SlotState.awaitsService (s.withPq (s.pq.remove g))
      (s.withPq (s.pq.remove g)).retryPostWait.releaseSlots :=
    (State.retryPostWait_moves _).trans (State.releaseSlots_moves _)
  have h2 : Moves SlotState.awaitsService (s.withPq (s.pq.remove g)).retryPostWait.releaseSlots.releaseDrainWaits
      (s.removeEntry g).settle :=
    ((State.releaseSlots_moves _).trans (State.testFences_moves _)).trans (State.settle_moves _)
  rw [h2.flag fun i x hx hst => hs i x (h1.slot_before (State.releaseDrainWaits_before hx (.inr hst)) (.inr (.inl hst))) hst,
    State.releaseDrainWaits_flt, h1.flag hs]
  rfl

/-- R53 step 5, R36, R139: a fence that only the removed entry held back. -/
theorem State.removeEntry_fence {s : State} {g : TagIx} {i : SlotIx} {x : Slot} (hp : s.urt.postWait = [])
    (ho : s.urt.NoneIn .orderWait) (hi : i ∈ s.urt.arrival) (hx : s.urt.slots[i] = some x) (hk : x.kind = .fence)
    (hst : x.state = .fenceWait)
    (hold : ∀ j ∈ s.urt.older i, ∀ y, s.urt.slots[j] = some y → y.state = .fenceWait → y.source ≠ x.source)
    (hw : s.urt.olderWritesSettled i = true)
    (hq : ∀ y ∈ s.pq.entries, y.tag ≠ some g → y.fences.getLsbD i = false) :
    (s.removeEntry g).settle.urt.slots[i] = some { x with
      state := .done, result := [], tag := none
      status := some (if s.flt.flags.getLsbD x.source then .faulted else .ok) } ∧
      (s.removeEntry g).settle.flt.flags.getLsbD x.source = false := by
  have hxc : (s.withoutEntry g).releaseDrainWaits.urt.slots[i] = some x :=
    State.releaseDrainWaits_stands (s := s.withoutEntry g) hx (by simp [hst])
  obtain ⟨D, hD⟩ := (s.withoutEntry g).exists_depthsWithin
  have hframe := (State.releaseDrainWaits_work _ hD).frame
  have harr : (s.withoutEntry g).releaseDrainWaits.urt.arrival = s.urt.arrival := hframe.arrival
  have holder : (s.withoutEntry g).releaseDrainWaits.urt.older i = s.urt.older i := by unfold Urt.older; rw [harr]
  have hready : (s.withoutEntry g).releaseDrainWaits.fenceReady i = true := by
    refine (State.fenceReady_iff _ i).2 ⟨x, hxc, hk, hst, fun j hj y hy hwr => ?_, fun e he => ?_⟩
    · rw [holder] at hj
      rcases (s.withoutEntry g).releaseDrainWaits_cases j with e | ⟨z, y', hz, hy', hrd, -, -⟩
      · exact (s.urt.olderWritesSettled_iff i).1 hw j hj y (e ▸ hy) hwr
      · obtain rfl := Option.some.inj (hy.symm.trans hy')
        have := hframe.keys j
        rw [hz, hy] at this
        have hkind : y.kind = z.kind := congrArg Prod.fst (Option.some.inj this)
        exact absurd ((hwr.symm.trans hkind).trans hrd) (by simp)
    · rw [State.releaseDrainWaits_pq] at he
      obtain ⟨he, ht⟩ := List.mem_filter.1 he
      exact hq e he (by simpa using ht)
  obtain ⟨hd, hf⟩ := State.testFences_done (by rw [harr]; exact hi) hxc hready fun j hj y hy hr => by
    rw [holder] at hj
    obtain ⟨z, hz, -, hzs⟩ := State.fenceReady_slot hr
    obtain rfl := Option.some.inj (hz.symm.trans hy)
    exact hold j hj z (State.releaseDrainWaits_before (s := s.withoutEntry g) hz (.inr hzs)) hzs
  rw [State.releaseDrainWaits_flt] at hd
  rw [State.removeEntry_idle hp ho]
  refine ⟨(State.settle_moves _).slot_stands hd ?_, (State.settle_moves _).flag_clear hf⟩
  rintro (e | e | e | e) <;> exact absurd e (by simp)

/-- R53: queue and buffer after a removal with which no write and no slot in ORDER_WAIT goes on. -/
theorem State.removeEntry_blocks {s : State} {g : TagIx} (hp : s.urt.postWait = []) (ho : s.urt.NoneIn .orderWait) :
    (s.removeEntry g).settle.pq = { entries := s.pq.entries.filter fun y => y.tag != some g, room := false } ∧
      (s.urt.NoneIn .drainWait → (s.removeEntry g).settle.rab = s.rab) := by
  have hno := (Urt.NoneIn.releaseDrainWaits (s := s.withoutEntry g) ho).moves (State.testFences_moves _)
  obtain ⟨hq, hb⟩ := State.settle_idle hno
  obtain ⟨hq', hb', -⟩ := (s.withoutEntry g).releaseDrainWaits.testFences_blocks
  rw [State.removeEntry_idle hp ho, hq, hb, hq', hb', State.releaseDrainWaits_pq]
  refine ⟨rfl, fun hd => ?_⟩
  rw [State.releaseDrainWaits_still (State.waitsSettled_of_noneIn (s := s.withoutEntry g) hd)]
  rfl

end Sys2Proof.Machine
end

section
/-! PROOFS. The completion of a drain (R60, R61, R85, R138): what it tells the other blocks, then the removal of its entry. -/

namespace Sys2Proof.Machine

/-- R60 to R62, R85, R138: table, flags, log and buffer have been told of the end of a drain; its entry is still there. -/
structure State.DrainTold (s w : State) (g : TagIx) (e : Entry) (k : Option FaultKind) : Prop where
  urt : w.urt = s.urt
  pq : w.pq = s.pq
  pctl : w.pctl = s.pctl
  table : ∀ f : Flt, f = (match k with | none => s.flt.clearBytes e.line e.mask | some k => s.flt.record e.line e.mask k) →
    w.flt.entries = f.entries ∧ w.flt.order = f.order ∧ w.flt.ovf = f.ovf
  log : w.elog = k.elim s.elog fun k => s.elog.append
      { kind := if k = .fail then .drainFail else .drainTimeout, stamp := s.tgen.stamp, line := some e.line,
        region := some e.region, sources := some e.sources, tag := some g, count := none,
        untracked := some (!s.flt.tracks e.line) }
  flags : ∀ src : SourceNo, w.flt.flags.getLsbD src = (s.flt.flags.getLsbD src || (k.isSome && e.sources.getLsbD src))
  buffer : w.rab = if k.isSome then s.rab.lineFailed e.line else s.rab

theorem Flt.clearBytes_flags (f : Flt) (l : LineAddr) (m : ByteMask) : (f.clearBytes l m).flags = f.flags := by
  unfold Flt.clearBytes
  split
  · rfl
  · split
    · rfl
    · split <;> rfl

theorem Flt.record_flags (f : Flt) (l : LineAddr) (m : ByteMask) (k : FaultKind) : (f.record l m k).flags = f.flags := by
  unfold Flt.record
  split
  · rfl
  · split <;> rfl

/-- R60: what an OK drain tells. -/
theorem State.drainTold_ok (s : State) (g : TagIx) (e : Entry) :
    s.DrainTold (s.withFlt (s.flt.clearBytes e.line e.mask)) g e none where
  urt := rfl
  pq := rfl
  pctl := rfl
  table := fun f hf => by subst hf; exact ⟨rfl, rfl, rfl⟩
  log := rfl
  flags := fun src => by
    show (s.flt.clearBytes e.line e.mask).flags.getLsbD src = _
    rw [Flt.clearBytes_flags]
    simp
  buffer := rfl

/-- What the telling of a failed drain leaves. -/
theorem State.drainFailed_stands (s : State) (e : Entry) (g : TagIx) (k : FaultKind) :
    (s.drainFailed e g k).mli = s.mli ∧ (s.drainFailed e g k).out = s.out ∧ (s.drainFailed e g k).urt = s.urt ∧
      (s.drainFailed e g k).tgen = s.tgen ∧ (s.drainFailed e g k).rdec = s.rdec := by
  unfold State.drainFailed
  simp only [State.log_mli, State.log_out, State.log_urt, State.log_tgen, State.log_rdec, State.withRab_mli,
    State.withRab_out, State.withRab_urt, State.withRab_tgen, State.withRab_rdec, State.withFlt_mli, State.withFlt_out,
    State.withFlt_urt, State.withFlt_tgen, State.withFlt_rdec, and_self]

/-- R61, R62: what a failed drain tells. -/
theorem State.drainTold_failed (s : State) (g : TagIx) (e : Entry) (k : FaultKind) :
    s.DrainTold (s.drainFailed e g k) g e (some k) where
  urt := by unfold State.drainFailed; rw [State.log_urt, State.withRab_urt, State.withFlt_urt]
  pq := by unfold State.drainFailed; rw [State.log_pq, State.withRab_pq, State.withFlt_pq]
  pctl := by unfold State.drainFailed; rw [State.log_pctl, State.withRab_pctl, State.withFlt_pctl]
  table := fun f hf => by subst hf; exact ⟨rfl, rfl, rfl⟩
  log := by cases k <;> rfl
  flags := fun src => by
    show ((s.flt.record e.line e.mask k).flags ||| e.sources).getLsbD src = _
    rw [Flt.record_flags, BitVec.getLsbD_or]
    simp
  buffer := by unfold State.drainFailed; rw [State.log_rab, State.withRab_rab]; rfl

/-- R53: the end of a drain, once the others have been told. -/
theorem State.DrainTold.ended {s w : State} {g : TagIx} {e : Entry} {k : Option FaultKind} (h : s.DrainTold w g e k) :
    s.DrainEnded (w.removeEntry g).settle g e k := by
  obtain ⟨D, hD⟩ := w.exists_depthsWithin
  have hf : ReleaseFrame w (w.removeEntry g).settle :=
    (ReleaseFrame.ofWorks fun _ h => State.removeEntry_work _ h g).trans (State.settle_release _)
  have hidle : s.urt.postWait = [] → w.urt.postWait = [] := fun hp => h.urt.symm ▸ hp
  have hnone : ∀ {st}, s.urt.NoneIn st → w.urt.NoneIn st := fun hn => h.urt.symm ▸ hn
  refine ⟨w.removeEntry_removed g, fun f he => ?_, (by cases k <;> exact hf.elog.trans h.log), fun src hs => ?_, fun hp ho => ?_,
    fun hp ho i x hi hx hk hst hold hw hq => ?_, fun hp ho hd _ => ?_⟩
  · obtain ⟨h1, h2, h3⟩ := h.table f he
    exact ⟨hf.faults.trans h1, hf.ranks.trans h2, hf.overflow.trans h3⟩
  · rw [State.removeEntry_flag g (by rw [h.urt]; exact hs), h.flags]
  · rw [(State.removeEntry_blocks (hidle hp) (hnone ho)).1, h.pq]
  · rw [← h.urt] at hi hx hold hw
    rw [← h.pq] at hq
    have hfence := State.removeEntry_fence (hidle hp) (hnone ho) hi hx hk hst hold hw hq
    rwa [h.flags] at hfence
  · rw [(State.removeEntry_blocks (hidle hp) (hnone ho)).2 (hnone hd), h.buffer]

/-- R147: the HALT test leaves it, the buffer but for the entry into HALT. -/
theorem State.DrainEnded.haltTest {s t : State} {g : TagIx} {e : Entry} {k : Option FaultKind} (h : s.DrainEnded t g e k)
    (hp : t.pctl = s.pctl) : s.DrainEnded t.haltTest g e k where
  removed := by rw [State.haltTest_pq]; exact h.removed
  table := by rw [State.haltTest_flt]; exact h.table
  log := by rw [State.haltTest_elog]; cases k <;> exact h.log
  flags := by rw [State.haltTest_flt]; exact h.flags
  others := by rw [State.haltTest_pq]; exact h.others
  fences := by rw [State.haltTest_urt, State.haltTest_flt]; exact h.fences
  buffer := fun hw ho hd hpath => by
    rw [State.haltTest_still fun hc => absurd (hp ▸ hc) hpath]
    exact h.buffer hw ho hd hpath

theorem State.removeEntry_pctl (s : State) (g : TagIx) : (s.removeEntry g).pctl = s.pctl := by
  obtain ⟨D, hD⟩ := s.exists_depthsWithin
  exact (State.removeEntry_work s hD g).frame.pctl

/-- R53, R60 to R62: the end of a drain to the end of its event. -/
theorem State.DrainTold.close {s w : State} {g : TagIx} {e : Entry} {k : Option FaultKind} (h : s.DrainTold w g e k) :
    s.DrainEnded (w.removeEntry g).close g e k :=
  h.ended.haltTest ((State.settle_pctl _).trans ((w.removeEntry_pctl g).trans h.pctl))

theorem State.removeEntry_release (s : State) (g : TagIx) : ReleaseFrame s (s.removeEntry g).close :=
  (ReleaseFrame.ofWorks fun _ h => State.removeEntry_work _ h g).trans (State.close_release _)

/-- A drain's record of the part does not read tags or messages. -/
theorem State.DrainEnded.of_quiet {s t : State} {g : TagIx} {x : Tag} {e : Entry} {k : Option FaultKind}
    (h : (s.quiet.putTag g x).DrainEnded t g e k) : s.DrainEnded t g e k :=
  ⟨h.removed, h.table, by cases k <;> exact h.log, h.flags, h.others, h.fences, h.buffer⟩

theorem State.drainEnds_some {s : State} {g : TagIx} {e : Entry} {x : Tag} (hk : x.kind = .drainWrite)
    (he : s.pq.ofTag g = some e) (k : FaultKind) : s.accessEnds x g k = (s.drainFailed e g k).removeEntry g := by
  simp only [State.accessEnds, hk, State.drainEnds, he]

theorem State.drainOk_some {s : State} {g : TagIx} {e : Entry} {x : Tag} (hk : x.kind = .drainWrite)
    (he : s.pq.ofTag g = some e) (m : Option LineData) :
    s.accessOk x g m = (s.withFlt (s.flt.clearBytes e.line e.mask)).removeEntry g := by
  cases m <;> simp only [State.accessOk, hk, State.drainOk, he]

/-- Settles O25: the end of the drain is told, then the entry is removed and the event ends. -/
theorem drainCompletionRemovesEntry : Obligations.DrainCompletionRemovesEntry := by
  intro s header data g e hr hg ho hk he
  have heq : (s.quiet.putTag g Tag.free).pq.ofTag g = some e := he
  by_cases hf : flag header 31 = true
  · have hrel := State.removeEntry_release ((s.quiet.putTag g Tag.free).drainFailed e g .fail) g
    obtain ⟨hmli, hout, hurt, htgen, hrdec⟩ := State.drainFailed_stands (s.quiet.putTag g Tag.free) e g .fail
    refine ⟨_, (exec_mcpl_fail data hr hg ho hf).trans (by rw [State.drainEnds_some hk heq]), hrel.mli.trans hmli,
      hrel.out.trans hout, hrel.arrival.trans (by rw [hurt]; rfl), hrel.granted.trans (by rw [hurt]; rfl),
      hrel.withheld.trans (by rw [hurt]; rfl), hrel.tgen.trans htgen, hrel.rdec.trans hrdec,
      fun hc => absurd (hf.symm.trans hc) (by simp), fun _ => ?_⟩
    exact (State.drainTold_failed (s.quiet.putTag g Tag.free) g e .fail).close.of_quiet
  · have hf := Bool.eq_false_iff.2 hf
    have hrel := State.removeEntry_release ((s.quiet.putTag g Tag.free).withFlt (s.flt.clearBytes e.line e.mask)) g
    refine ⟨_, (exec_mcpl_ok data hr hg ho hf).trans (by rw [State.drainOk_some hk heq]; rfl), hrel.mli,
      hrel.out, hrel.arrival, hrel.granted, hrel.withheld, hrel.tgen,
      hrel.rdec, fun _ => ?_, fun hc => absurd (hf.symm.trans hc) (by simp)⟩
    exact (State.drainTold_ok (s.quiet.putTag g Tag.free) g e).close.of_quiet

end Sys2Proof.Machine
end

section
/-! PROOFS. QUARANTINE and IDLE_EXPIRY (R95, R122): all that is due, tag by tag, and what the timeout of one tag does. -/

namespace Sys2Proof.Machine

/-! ### Which tags are due -/

theorem Tag.due_iff (x : Tag) (n : Nat) : x.due n = true ↔ x.state = .outstanding ∧ n ≤ x.age := by
  unfold Tag.due
  rw [Bool.and_eq_true, beq_iff_eq, decide_eq_true_eq]

theorem State.testTag_tgen (s : State) (g : TagIx) : (s.testTag g).tgen = s.tgen := by
  obtain ⟨D, hD⟩ := s.exists_depthsWithin
  exact (s.testTag_access hD g).frame.tgen

/-- The timeout of one tag makes no other due, nor undue. -/
theorem State.testTag_due (s : State) {g a : TagIx} (h : g ≠ a) :
    (s.testTag g).mli[a].due (s.testTag g).tgen.timeoutInForce = s.mli[a].due s.tgen.timeoutInForce := by
  have hm : (s.testTag g).mli[a] = s.mli[a] := by
    rw [State.testTag_mli]
    split
    · rw [Vector.get_set_fin, if_neg h]
    · rfl
  rw [hm, State.testTag_tgen]

/-- R122: testing each tag is taking the due ones. -/
theorem State.foldl_testTag (l : List TagIx) (hn : l.Nodup) (s : State) : l.foldl State.testTag s =
    (l.filter fun g => s.mli[g].due s.tgen.timeoutInForce).foldl State.quarantineTag s := by
  induction l generalizing s with
  | nil => rfl
  | cons a l ih =>
    obtain ⟨ha, hl⟩ := List.nodup_cons.1 hn
    have hrest : (l.filter fun g => (s.testTag a).mli[g].due (s.testTag a).tgen.timeoutInForce) =
        l.filter fun g => s.mli[g].due s.tgen.timeoutInForce :=
      List.filter_congr fun g hg => s.testTag_due fun e => ha (e ▸ hg)
    rw [List.foldl_cons, ih hl, hrest, List.filter_cons]
    by_cases h : s.mli[a].due s.tgen.timeoutInForce = true
    · rw [if_pos h, List.foldl_cons, State.testTag, if_pos h]
    · rw [if_neg h, State.testTag, if_neg h]

/-- R95: the entries that expire. -/
theorem Stt.expire_eq (t : Stt) (n : Nat) : t.expire n = { t with entries := Vector.ofFn fun k =>
    if t.entries[k].valid = true ∧ n ≤ t.entries[k].idle then Stream.free else t.entries[k] } := by
  unfold Stt.expire
  simp only [Bool.and_eq_true, decide_eq_true_eq]

/-! ### The timeout of one tag -/

theorem State.quarantineTag_frame (s : State) (g : TagIx) :
    AccessFrame s (s.quarantineTag g) ∧ (s.quarantineTag g).mli = s.mli.set g s.mli[g].quarantine := by
  obtain ⟨D, hD⟩ := (s.putTag g s.mli[g].quarantine).exists_depthsWithin
  have ha := (State.accessEnds_access _ hD s.mli[g] g .timeout)
  obtain ⟨D', hD'⟩ := ((s.putTag g s.mli[g].quarantine).accessEnds s.mli[g] g .timeout).exists_depthsWithin
  have hp : AccessFrame s (s.putTag g s.mli[g].quarantine) :=
    ⟨rfl, rfl, rfl, rfl, rfl, rfl, rfl, rfl, rfl, rfl, rfl, fun _ => rfl⟩
  refine ⟨(hp.trans ha.frame).trans (State.settle_work _ hD').frame.access, ?_⟩
  unfold State.quarantineTag
  rw [State.settle_mli, State.accessEnds_mli]
  rfl

/-! ### A fill that ends (R81, R82) -/

theorem State.foldl_failWaiter_stands (st : RespStatus) (l : List SlotIx) {s : State} {i : SlotIx} {x : Slot}
    (hx : s.urt.slots[i] = some x)
    (h : { x with state := .done, status := some st, result := [], tag := none } = x) :
    (l.foldl (State.failWaiter st) s).urt.slots[i] = some x := by
  induction l generalizing s with
  | nil => exact hx
  | cons a l ih =>
    refine ih ?_
    by_cases e : i = a
    · subst e
      refine (State.updateSlot_some hx _).trans (congrArg some h)
    · exact (State.updateSlot_ne e _).trans hx

/-- R82: each waiter is DONE with the status. -/
theorem State.foldl_failWaiter_slot (st : RespStatus) (l : List SlotIx) {s : State} {i : SlotIx} {x : Slot} (hi : i ∈ l)
    (hx : s.urt.slots[i] = some x) : (l.foldl (State.failWaiter st) s).urt.slots[i] =
      some { x with state := .done, status := some st, result := [], tag := none } := by
  induction l generalizing s with
  | nil => exact absurd hi (by simp)
  | cons a l ih =>
    by_cases e : i = a
    · subst e
      exact State.foldl_failWaiter_stands st l (State.updateSlot_some hx _) rfl
    · exact ih ((List.mem_cons.1 hi).resolve_left e) ((State.updateSlot_ne e _).trans hx)

/-- The answers to waiters touch slots alone. -/
theorem State.foldl_failWaiter_blocks (st : RespStatus) (l : List SlotIx) (s : State) :
    (l.foldl (State.failWaiter st) s).rab = s.rab ∧ (l.foldl (State.failWaiter st) s).flt = s.flt ∧
      (l.foldl (State.failWaiter st) s).elog = s.elog ∧
      (s.urt.NoneIn .orderWait → (l.foldl (State.failWaiter st) s).urt.NoneIn .orderWait) := by
  induction l generalizing s with
  | nil => exact ⟨rfl, rfl, rfl, id⟩
  | cons a l ih =>
    obtain ⟨h1, h2, h3, h4⟩ := ih (s.failWaiter st a)
    exact ⟨h1, h2, h3, fun h => h4 (h.finish (by simp) _ _ _)⟩

/-- R82: what the end of a fill leaves, before the releases of the event. -/
theorem State.fillEnds_parts (s : State) (r : LineIx) (g : TagIx) (k : FaultKind) :
    (s.fillEnds r g k).flt = s.flt ∧
    (s.fillEnds r g k).elog = s.elog.append (fillRecord (fillFailKind s.rab.lines[r].origin k) s.tgen.stamp
      s.rab.lines[r] g) ∧
    (s.fillEnds r g k).rab = s.rab.release r ∧
    (∀ i ∈ s.rab.lines[r].waiters, ∀ x : Slot, s.urt.slots[i] = some x → (s.fillEnds r g k).urt.slots[i] =
      some { x with state := .done, status := some k.status, result := [], tag := none }) ∧
    (s.urt.NoneIn .orderWait → (s.fillEnds r g k).urt.NoneIn .orderWait) := by
  obtain ⟨h1, h2, h3, h4⟩ := State.foldl_failWaiter_blocks k.status s.rab.lines[r].waiters (s.withRab (s.rab.release r))
  unfold State.fillEnds
  exact ⟨h2, by rw [State.log_elog, h3]; rfl, h1,
    fun i hi x hx => State.foldl_failWaiter_slot k.status _ hi (s := s.withRab (s.rab.release r)) hx, h4⟩

theorem State.accessEnds_fill {s : State} {x : Tag} {r : LineIx} (hk : x.kind = .demandRead ∨ x.kind = .prefetchRead)
    (ho : x.owner = some (.line r)) (g : TagIx) (k : FaultKind) : s.accessEnds x g k = s.fillEnds r g k := by
  rcases hk with hk | hk <;> simp only [State.accessEnds, hk, Tag.ownerLine, ho]

theorem fillFailKind_timeout (o : Origin) :
    fillFailKind o .timeout = if o = .demand then .readTimeout else .prefetchTimeout := by cases o <;> rfl

theorem Tag.endKind_timeout {x : Tag} (hk : x.kind.ofSlot) :
    x.endKind .timeout = if x.kind = .directWrite then .writeTimeout else .readTimeout := by
  unfold Tag.endKind
  rcases hk with hk | hk <;> rw [hk] <;> rfl

/-- R82: the timeout of a fill. -/
theorem State.quarantineTag_fill {s : State} {g : TagIx} {r : LineIx}
    (hk : s.mli[g].kind = .demandRead ∨ s.mli[g].kind = .prefetchRead) (ho : s.mli[g].owner = some (.line r)) :
    (s.quarantineTag g).flt.entries = s.flt.entries ∧
    (s.quarantineTag g).elog = s.elog.append
      { kind := if s.rab.lines[r].origin = .demand then .readTimeout else .prefetchTimeout, stamp := s.tgen.stamp,
        line := some s.rab.lines[r].line, region := some s.rab.lines[r].region, sources := none, tag := some g,
        count := none, untracked := none } ∧
    (∀ i ∈ s.rab.lines[r].waiters, ∀ x : Slot, s.urt.slots[i] = some x →
      (s.quarantineTag g).urt.slots[i] = some { x with state := .done, status := some .timeout, result := [], tag := none }) ∧
    (s.urt.NoneIn .orderWait → (s.quarantineTag g).rab = s.rab.release r) := by
  unfold State.quarantineTag
  rw [State.accessEnds_fill hk ho]
  obtain ⟨h1, h2, h3, h4, h5⟩ := (s.putTag g s.mli[g].quarantine).fillEnds_parts r g .timeout
  have hf := ((s.putTag g s.mli[g].quarantine).fillEnds r g .timeout).settle_release
  refine ⟨hf.faults.trans (congrArg Flt.entries h1), hf.elog.trans (h2.trans ?_), fun i hi x hx => ?_, fun hn => ?_⟩
  · rw [fillFailKind_timeout]
    rfl
  · exact State.settle_slot _ i _ (h4 i hi x hx) (by simp) (by simp)
  · exact (State.settle_idle (h5 hn)).2.trans h3

/-- R32, R34, R85: the timeout of an access of a slot. -/
theorem State.quarantineTag_ofSlot {s : State} {g : TagIx} (hk : s.mli[g].kind.ofSlot) :
    (s.quarantineTag g).flt.entries = s.flt.entries ∧
    (s.quarantineTag g).elog = s.elog.append
      { kind := if s.mli[g].kind = .directWrite then .writeTimeout else .readTimeout, stamp := s.tgen.stamp,
        line := some s.mli[g].line, region := some s.mli[g].region, sources := s.mli[g].source.map sourceBit,
        tag := some g, count := none, untracked := none } ∧
    (∀ (i : SlotIx) (x : Slot), s.mli[g].owner = some (.slot i) → s.urt.slots[i] = some x →
      (s.quarantineTag g).urt.slots[i] = some { x with state := .done, status := some .timeout, result := [], tag := none }) ∧
    (s.urt.NoneIn .orderWait → (s.quarantineTag g).rab = s.rab.afterEnd s.mli[g]) ∧
    (s.Settled → s.mli[g].owner = none → s.quarantineTag g =
      ((s.putTag g s.mli[g].quarantine).withRab (s.rab.afterEnd s.mli[g])).withElog (s.quarantineTag g).elog) := by
  unfold State.quarantineTag
  obtain ⟨h1, h2, h3, h4, h5, h6⟩ := State.accessEnds_ofSlot_parts (s := s.putTag g s.mli[g].quarantine) hk g .timeout
  have hf := ((s.putTag g s.mli[g].quarantine).accessEnds s.mli[g] g .timeout).settle_release
  refine ⟨hf.faults.trans (congrArg Flt.entries h1), hf.elog.trans (h2.trans ?_), fun i x ho hx => ?_, fun hn => ?_,
    fun hs ho => ?_⟩
  · rw [Tag.endKind_timeout hk]
    rfl
  · exact State.settle_slot _ i _ (h4 i x ho hx) (by simp) (by simp)
  · exact (State.settle_idle (h5 _ (by simp) hn)).2.trans h3
  · rw [h6 ho]
    have hfind : ∀ l, ((s.rab.afterEnd s.mli[g]).find l).isSome = true → (s.rab.find l).isSome = true :=
      fun l => Rab.find_afterEnd
    have hb : (s.putTag g s.mli[g].quarantine).rab = s.rab := rfl
    rw [hb]
    generalize s.rab.afterEnd s.mli[g] = b at hfind ⊢
    rw [hs.settle_of (by exact rfl) (by exact rfl) (by exact rfl) (by exact rfl) (by exact hfind)]
    rfl

/-- Settles O30: the due tags are taken one by one; each timeout is the end of its access. -/
theorem dueTagsAndIdleStreamsExpire : Obligations.DueTagsAndIdleStreamsExpire := by
  refine ⟨fun s => ⟨?_, ?_, rfl, ?_⟩, fun s u g ho hu => ?_⟩
  · obtain ⟨hf, ht⟩ := exec_access_frame (s := s) (t := s.quiet.quarantineDue.close) rfl (.inl rfl)
    obtain ⟨D, hD⟩ := s.quiet.exists_depthsWithin
    have hout := (State.quarantineDue_access (D := D) s.quiet hD).frame.out
    refine ⟨_, rfl, fun g => ?_, ht (by simp), hf.cfg, hf.rdec, hf.pins, hf.arrival, hf.granted, hf.withheld,
      (State.close_release _).out.trans hout⟩
    rw [(State.close_release _).mli, State.quarantineDue_mli]
    exact if_congr (Tag.due_iff _ _) rfl rfl
  · exact congrArg (fun t => Host.Outcome.next (s.quiet.withStt t)) (Stt.expire_eq s.stt _)
  · exact State.foldl_testTag _ (List.nodup_finRange 16) s
  · subst hu
    obtain ⟨hf, hm⟩ := s.quarantineTag_frame g
    refine ⟨hm, hf.tgen, hf.pctl, hf.cfg, hf.rdec, hf.pins, hf.arrival, hf.out, fun r hk hown => ?_, fun hk => ?_,
      fun e hk he => ?_⟩
    · exact State.quarantineTag_fill hk hown
    · obtain ⟨h1, h2, h3, h4, h5⟩ := State.quarantineTag_ofSlot hk
      refine ⟨h1, h2, h3, h4, fun hs hown => ?_⟩
      rw [hm]
      exact h5 hs hown
    · have hq : (s.putTag g s.mli[g].quarantine).pq.ofTag g = some e := he
      unfold State.quarantineTag
      rw [State.drainEnds_some hk hq]
      obtain ⟨h1, h2, h3, h4, h5, h6, h7⟩ := (State.drainTold_failed (s.putTag g s.mli[g].quarantine) g e .timeout).ended
      exact ⟨h1, h2, h3, h4, h5, h6, h7⟩

end Sys2Proof.Machine
end

section
/-! PROOFS. Demand falls (R143, R151, R152): back to RUN, the withheld credits granted. -/

namespace Sys2Proof.Machine

/-! ### Back to RUN -/

/-- A settled part whose path becomes RUN is settled. -/
theorem State.Settled.toRun {s t : State} (h : s.Settled) (hu : t.urt = s.urt) (hq : t.pq = s.pq) (hs : t.stt = s.stt)
    (hb : t.rab = s.rab) (hr : t.rdec = s.rdec) (hp : t.pctl.path = .run) : t.Settled where
  order := by unfold State.orderSettled; rw [hu]; exact h.order
  fences := fun i hi => by rw [State.fenceReady_congr hu hq]; exact h.fences i (hu ▸ hi)
  streams := State.streamsSettled_congr h.streams hs hr fun _ hl => hb ▸ hl
  drain := fun hd => absurd (hp.symm.trans hd) (by simp)
  waits := fun i hi => by unfold State.drainWaitOver; rw [hu, hq]; exact h.waits i (hu ▸ hi)
  room := hq ▸ h.room

/-- The path is RUN. -/
def State.inRun (s : State) : State := s.withPctl { s.pctl with path := .run }

theorem Urt.NoneIn.of_slots {u v : Urt} {st : SlotState} (h : u.NoneIn st) (hs : v.slots = u.slots) : v.NoneIn st :=
  h.of_before fun i y hy _ => by rwa [hs] at hy

/-- R152: with no HELD slot nothing is released. -/
theorem State.releaseHeld_none {s : State} (h : s.urt.NoneIn .held) : s.releaseHeld = s := by
  unfold State.releaseHeld Urt.inState
  rw [List.filter_eq_nil_iff.2 fun i _ => by rw [h i]; simp]
  rfl

/-- R22: the withheld credits go out. -/
theorem State.sendWithheld_up {s : State} (hl : s.linkUp = true) (hw : 0 < s.urt.withheld) : s.sendWithheld =
    (s.withUrt { s.urt with granted := s.urt.granted + s.urt.withheld, withheld := 0 }).emit (.credit s.urt.withheld) :=
  if_pos ⟨hw, hl⟩

theorem State.sendWithheld_still {s : State} (h : s.linkUp = false ∨ s.urt.withheld = 0) : s.sendWithheld = s :=
  if_neg fun ⟨hw, hl⟩ => h.elim (fun e => absurd (hl.symm.trans e) (by simp)) fun e => absurd hw (by rw [e]; simp)

theorem State.sendWithheld_slots (s : State) : s.sendWithheld.urt.slots = s.urt.slots := by
  unfold State.sendWithheld
  split <;> rfl

/-- R151: demand falls where no slot is HELD. -/
theorem State.demandFalls_plain {s : State}
    (h : s.pctl.path = .drain ∨ (s.pctl.path = .halt ∧ s.urt.NoneIn .held)) : s.demandFalls = s.inRun.sendWithheld := by
  unfold State.demandFalls
  rcases h with h | ⟨h, hn⟩
  · rw [h]; rfl
  · rw [h]
    exact State.releaseHeld_none (hn.of_slots (State.sendWithheld_slots s.inRun))

/-- R151, R22: the end of the event in which demand falls in a settled part. -/
theorem State.Settled.demandFalls_close {s v : State} (h : s.Settled) (hu : v.urt = s.urt) (hq : v.pq = s.pq)
    (hs : v.stt = s.stt) (hb : v.rab = s.rab) (hr : v.rdec = s.rdec)
    (hp : v.pctl.path = .drain ∨ (v.pctl.path = .halt ∧ v.urt.NoneIn .held)) :
    v.demandFalls.close = v.inRun.sendWithheld := by
  have hrun : v.inRun.Settled := h.toRun (t := v.inRun) hu hq hs hb hr rfl
  rw [State.demandFalls_plain hp]
  by_cases hc : 0 < v.inRun.urt.withheld ∧ v.inRun.linkUp = true
  · rw [State.sendWithheld_up hc.2 hc.1]
    refine State.Settled.close ?_
    exact (hrun.withCredits _ _).congr rfl rfl rfl rfl rfl rfl rfl
  · rw [State.sendWithheld, if_neg hc]
    exact hrun.close

/-! ### The two rows that let demand fall -/

theorem exec_qreqDeassert_still {s : State} (h : s.pins.qreq = false ∨ s.pins.resetn = false ∨ s.pctl.latch = true) :
    exec .qreqDeassert s = .next (s.quiet.withPins { s.pins with qreq := false }) :=
  if_neg fun ⟨h1, h2, h3⟩ => by
    rcases h with e | e | e
    · exact absurd (h1.symm.trans e) (by simp)
    · exact absurd (h2.symm.trans e) (by simp)
    · exact absurd (h3.symm.trans e) (by simp)

theorem exec_qreqDeassert {s : State} (h1 : s.pins.qreq = true) (h2 : s.pins.resetn = true) (h3 : s.pctl.latch = false) :
    exec .qreqDeassert s = .next (s.quiet.withPins { s.pins with qreq := false }).demandFalls.close := if_pos ⟨h1, h2, h3⟩

/-- R144, R174: a RESUME frame from its first bit. -/
theorem exec_resume {s : State} (arg : Word) (h : s.frameStart) : ∃ before bits, exec (.resume arg) s =
    .next ((((s.withOut (fillerOut 7)).withRx (.request before bits)).clearLatch.close).withRx (.answering .ok)) := by
  obtain ⟨before, bits, hclock⟩ := State.clockBytes_start h (frameOfBytes_command 0x0002#16 arg)
  have hlen : (commandBytes 0x0002#16 arg).length = 7 := rfl
  rw [hlen] at hclock
  refine ⟨before, bits, congrArg Host.Outcome.next (hclock.trans (State.takeFrame_accepted ?_))⟩
  rfl

theorem State.clearLatch_still {s : State} (h : s.pins.qreq = true ∨ s.pctl.latch = false) :
    s.clearLatch = s.withPctl { s.pctl with latch := false } :=
  if_neg fun ⟨h1, h2⟩ => h.elim (fun e => absurd (e.symm.trans h2) (by simp)) fun e => absurd (h1.symm.trans e) (by simp)

theorem State.clearLatch_falls {s : State} (h1 : s.pctl.latch = true) (h2 : s.pins.qreq = false) :
    s.clearLatch = (s.withPctl { s.pctl with latch := false }).demandFalls := if_pos ⟨h1, h2⟩

/-- R143, R151: a RESUME that lets demand fall, in a settled part. -/
theorem State.Settled.clearLatch_close {s : State} (h : s.Settled) (h1 : s.pctl.latch = true) (h2 : s.pins.qreq = false)
    (hp : s.pctl.path = .drain ∨ (s.pctl.path = .halt ∧ s.urt.NoneIn .held)) :
    s.clearLatch.close = (s.withPctl { path := .run, latch := false }).sendWithheld := by
  rw [State.clearLatch_falls h1 h2]
  exact h.demandFalls_close (v := s.withPctl { s.pctl with latch := false }) rfl rfl rfl rfl rfl hp

/-- Settles O33: where demand falls no slot is released, so the event ends with the credits. -/
theorem demandFall : Obligations.DemandFall := fun s => by
  refine ⟨fun h => exec_qreqDeassert_still h, fun hs hq hr hl hp => ?_, fun arg hs hstart => ?_⟩
  · have hclose := hs.demandFalls_close (v := s.quiet.withPins { s.pins with qreq := false }) rfl rfl rfl rfl rfl hp
    rw [exec_qreqDeassert hq hr hl, hclose]
    refine ⟨fun hup hw => ?_, fun hno => ?_⟩
    · rw [State.sendWithheld_up (by exact hup) (by exact hw)]
      rfl
    · rw [State.sendWithheld_still (by exact hno)]
      rfl
  · obtain ⟨before, bits, hexec⟩ := exec_resume arg hstart
    have hu : ((s.withOut (fillerOut 7)).withRx (.request before bits)).Settled := hs.congr rfl rfl rfl rfl rfl rfl rfl
    rw [hexec]
    refine ⟨fun hno => ?_, fun hq hl hp => ?_⟩
    · have hstill : ((s.withOut (fillerOut 7)).withRx (.request before bits)).clearLatch.close =
          ((s.withOut (fillerOut 7)).withRx (.request before bits)).withPctl { s.pctl with latch := false } := by
        rw [State.clearLatch_still (by exact hno)]
        refine State.Settled.close ?_
        exact hu.congr rfl rfl rfl rfl rfl rfl rfl
      rw [hstill]
      rfl
    · rw [hu.clearLatch_close hl hq hp]
      refine ⟨fun hup hw => ?_, fun hno => ?_⟩
      · rw [State.sendWithheld_up (by exact hup) (by exact hw)]
        rfl
      · rw [State.sendWithheld_still (by exact hno)]
        rfl

end Sys2Proof.Machine
end

section
/-! PROOFS. Leaving HALT (R37, R152): every HELD request is received as if it had just arrived. -/

namespace Sys2Proof.Machine

/-! ### One HELD request -/

/-- What the decode moment makes of a request, and what stays true of it in the service steps that follow. -/
structure Slot.Received (d : Rdec) (x y : Slot) : Prop where
  notHeld : y.state ≠ .held
  malformed : x.malformed = true → y = x.answerMalformed
  decoded : x.malformed = false → x.kind ≠ .fence → y.decode = some (d.result x.addr)

theorem State.receive_slot {s : State} {i : SlotIx} {x : Slot} (hx : s.urt.slots[i] = some x) :
    ∃ y, (s.receive i).urt.slots[i] = some y ∧ Slot.Received s.rdec x y := by
  by_cases hm : x.malformed = true
  · refine ⟨x.answerMalformed, ?_, by simp [Slot.answerMalformed], fun _ => rfl,
      fun hc => absurd (hm.symm.trans hc) (by simp)⟩
    rw [State.receive_malformed hx hm]
    exact State.updateSlot_some hx _
  · have hm' := Bool.eq_false_iff.2 hm
    by_cases hk : x.kind = .fence
    · refine ⟨{ x with state := .fenceWait }, ?_, by simp, fun hc => absurd hc hm, fun _ hc => absurd hk hc⟩
      rw [State.receive_fence hx hk]
      exact State.updateSlot_some (s := s.withPq (s.pq.fenceArrives i)) hx _
    · cases ha : s.rdec.answer x.kind x.addr with
      | none =>
        refine ⟨{ x with decode := some (s.rdec.result x.addr), state := .orderWait }, ?_, by simp,
          fun hc => absurd hc hm, fun _ _ => rfl⟩
        rw [State.receive_ordered hx hm' hk ha]
        exact State.updateSlot_some hx _
      | some st =>
        refine ⟨{ x with decode := some (s.rdec.result x.addr), state := .done, status := some st }, ?_, by simp,
          fun hc => absurd hc hm, fun _ _ => rfl⟩
        rw [State.receive_answered hx hm' hk ha]
        exact State.updateSlot_some hx _

theorem State.receive_none {s : State} {i : SlotIx} (hx : s.urt.slots[i] = none) : s.receive i = s := by
  unfold State.receive
  rw [hx]

theorem State.receive_ne (s : State) {i j : SlotIx} (h : j ≠ i) : (s.receive i).urt.slots[j] = s.urt.slots[j] := by
  unfold State.receive
  split
  · rfl
  · split
    · exact State.updateSlot_ne h _
    · split
      · exact State.updateSlot_ne (s := s.withPq (s.pq.fenceArrives i)) h _
      · split <;> exact State.updateSlot_ne h _

/-- No service step undoes a decode moment. -/
theorem Slot.Received.moves {s t : State} (m : Moves SlotState.awaitsService s t) {d : Rdec} {i : SlotIx} {x y : Slot}
    (hy : s.urt.slots[i] = some y) (h : Slot.Received d x y) : ∃ z, t.urt.slots[i] = some z ∧ Slot.Received d x z := by
  cases hz : t.urt.slots[i] with
  | none => exact absurd (m.decode i) (by rw [hy, hz]; simp)
  | some z =>
    have hdec : z.decode = y.decode := by
      have := m.decode i
      rw [hy, hz] at this
      exact Option.some.inj this
    refine ⟨z, rfl, fun hs => ?_, fun hm => ?_, fun hm hk => hdec.trans (h.decoded hm hk)⟩
    · obtain rfl := Option.some.inj (hy.symm.trans (m.slot_before hz (.inr (.inr (.inr hs)))))
      exact h.notHeld hs
    · have hm := h.malformed hm
      have hst := m.slot_stands hy (by rw [hm]; rintro (e | e | e | e) <;> exact absurd e (by simp [Slot.answerMalformed]))
      exact (Option.some.inj (hz.symm.trans hst)).trans hm

/-- A HELD slot was HELD before the service steps, and a slot received is not. -/
theorem State.releaseOneHeld_held {s : State} {i j : SlotIx} {y : Slot}
    (hy : (s.releaseOneHeld i).urt.slots[j] = some y) (hs : y.state = .held) : s.urt.slots[j] = some y ∧ j ≠ i := by
  have hr := (State.settle_moves (s.receive i)).slot_before hy (.inr (.inr (.inr hs)))
  have hne : j ≠ i := fun e => by
    subst e
    cases hx : s.urt.slots[j] with
    | none =>
      rw [State.receive_none hx, hx] at hr
      exact absurd hr (by simp)
    | some x =>
      obtain ⟨z, hz, h⟩ := State.receive_slot hx
      exact h.notHeld ((Option.some.inj (hz.symm.trans hr)) ▸ hs)
  exact ⟨(s.receive_ne hne).symm.trans hr, hne⟩

theorem State.releaseOneHeld_rdec (s : State) (i : SlotIx) : (s.releaseOneHeld i).rdec = s.rdec := by
  obtain ⟨D, hD⟩ := s.exists_depthsWithin
  exact (s.releaseOneHeld_work hD i).frame.rdec

/-! ### All of them, the oldest first -/

theorem State.foldl_releaseOneHeld_held (l : List SlotIx) {s : State} {j : SlotIx} {y : Slot}
    (hy : (l.foldl State.releaseOneHeld s).urt.slots[j] = some y) (hs : y.state = .held) :
    s.urt.slots[j] = some y ∧ j ∉ l := by
  induction l generalizing s with
  | nil => exact ⟨hy, by simp⟩
  | cons a l ih =>
    obtain ⟨h1, h2⟩ := ih hy
    obtain ⟨h3, h4⟩ := State.releaseOneHeld_held h1 hs
    exact ⟨h3, fun hm => (List.mem_cons.1 hm).elim h4 h2⟩

/-- A request once received stays so through the others' decode moments. -/
theorem State.foldl_releaseOneHeld_received (l : List SlotIx) {s : State} {d : Rdec} {i : SlotIx} {x y : Slot} (hi : i ∉ l)
    (hy : s.urt.slots[i] = some y) (h : Slot.Received d x y) :
    ∃ z, (l.foldl State.releaseOneHeld s).urt.slots[i] = some z ∧ Slot.Received d x z := by
  induction l generalizing s y with
  | nil => exact ⟨y, hy, h⟩
  | cons a l ih =>
    have hne : i ≠ a := fun e => hi (e ▸ List.mem_cons_self)
    obtain ⟨z, hz, hr⟩ := h.moves (State.settle_moves (s.receive a)) ((s.receive_ne hne).trans hy)
    exact ih (fun hm => hi (List.mem_cons_of_mem _ hm)) hz hr

/-- R152: each HELD request named is received. -/
theorem State.foldl_releaseOneHeld_slot (l : List SlotIx) (hn : l.Nodup) {s : State} {i : SlotIx} {x : Slot} (hi : i ∈ l)
    (hx : s.urt.slots[i] = some x) (hs : x.state = .held) :
    ∃ z, (l.foldl State.releaseOneHeld s).urt.slots[i] = some z ∧ Slot.Received s.rdec x z := by
  induction l generalizing s with
  | nil => exact absurd hi (by simp)
  | cons a l ih =>
    obtain ⟨ha, hl⟩ := List.nodup_cons.1 hn
    by_cases e : i = a
    · subst e
      obtain ⟨y, hy, hr⟩ := State.receive_slot hx
      obtain ⟨z, hz, hr⟩ := hr.moves (State.settle_moves (s.receive i)) hy
      exact State.foldl_releaseOneHeld_received l ha hz hr
    · have hx' : (s.releaseOneHeld a).urt.slots[i] = some x :=
        (State.settle_moves (s.receive a)).slot_stands ((s.receive_ne e).trans hx)
          (by rw [hs]; rintro (e | e | e | e) <;> exact absurd e (by simp))
      have := ih hl ((List.mem_cons.1 hi).resolve_left e) hx'
      rwa [State.releaseOneHeld_rdec] at this

/-! ### The event that leaves HALT -/

theorem State.sendWithheld_stands (s : State) : s.sendWithheld.urt.slots = s.urt.slots ∧
    s.sendWithheld.urt.arrival = s.urt.arrival ∧ s.sendWithheld.pctl = s.pctl ∧ s.sendWithheld.mli = s.mli ∧
    s.sendWithheld.elog = s.elog ∧ s.sendWithheld.rdec = s.rdec ∧ s.sendWithheld.cfg = s.cfg ∧
    s.sendWithheld.flt = s.flt ∧ s.sendWithheld.tgen = s.tgen ∧
    (s.linkUp = true → s.sendWithheld.urt.granted = s.urt.granted + s.urt.withheld ∧ s.sendWithheld.urt.withheld = 0) := by
  by_cases h : 0 < s.urt.withheld ∧ s.linkUp = true
  · rw [State.sendWithheld_up h.2 h.1]
    exact ⟨rfl, rfl, rfl, rfl, rfl, rfl, rfl, rfl, rfl, fun _ => ⟨rfl, rfl⟩⟩
  · rw [State.sendWithheld, if_neg h]
    refine ⟨rfl, rfl, rfl, rfl, rfl, rfl, rfl, rfl, rfl, fun hl => ?_⟩
    have hw : s.urt.withheld = 0 := Nat.eq_zero_of_not_pos fun hw => h ⟨hw, hl⟩
    exact ⟨by rw [hw, Nat.add_zero], hw⟩

/-- What stands of a part in HALT when demand falls and its HELD requests go (R151, R152). -/
structure State.LeftHalt (s t : State) : Prop where
  notHeld : ∀ (i : SlotIx) (x : Slot), t.urt.slots[i] = some x → x.state ≠ .held
  received : ∀ (i : SlotIx) (x : Slot), s.urt.slots[i] = some x → x.state = .held →
    ∃ z, t.urt.slots[i] = some z ∧ Slot.Received s.rdec x z
  keys : ∀ j : SlotIx, t.urt.slots[j].map Slot.key = s.urt.slots[j].map Slot.key
  arrival : t.urt.arrival = s.urt.arrival
  credits : s.linkUp = true → t.urt.granted = s.urt.granted + s.urt.withheld ∧ t.urt.withheld = 0
  path : t.pctl.path = .run
  mli : t.mli = s.mli
  elog : t.elog = s.elog
  rdec : t.rdec = s.rdec
  cfg : t.cfg = s.cfg
  faults : t.flt.entries = s.flt.entries
  tgen : t.tgen = s.tgen

theorem State.releaseHeld_pctl (s : State) : s.releaseHeld.pctl = s.pctl := by
  obtain ⟨D, hD⟩ := s.exists_depthsWithin
  exact (s.releaseHeld_work hD).frame.pctl

theorem State.releaseHeld_close_leftHalt {s v : State} (ha : s.arrivalLaw) (hu : v.urt = s.urt) (hl : v.linkUp = s.linkUp)
    (hp : v.pctl.path = .run) (hm : v.mli = s.mli) (he : v.elog = s.elog) (hr : v.rdec = s.rdec) (hc : v.cfg = s.cfg)
    (hf : v.flt = s.flt) (ht : v.tgen = s.tgen) : s.LeftHalt v.sendWithheld.releaseHeld.close := by
  obtain ⟨a1, a2, a3, a4, a5, a6, a7, a8, a9, a10⟩ := v.sendWithheld_stands
  rw [hu] at a1 a2
  have hrel : ReleaseFrame v.sendWithheld v.sendWithheld.releaseHeld.close :=
    (ReleaseFrame.ofWorks fun _ h => State.releaseHeld_work _ h).trans (State.close_release _)
  have hrun : v.sendWithheld.releaseHeld.pctl.path = .run := by rw [State.releaseHeld_pctl, a3, hp]
  have hclose : v.sendWithheld.releaseHeld.close = v.sendWithheld.releaseHeld.settle :=
    State.haltTest_still fun hd => absurd ((hrun.symm.trans (State.settle_pctl _ ▸ rfl)).trans hd) (by simp)
  have hmoves := State.settle_moves v.sendWithheld.releaseHeld
  have hmem : ∀ (i : SlotIx) (x : Slot), s.urt.slots[i] = some x → x.state = .held → i ∈ v.sendWithheld.urt.inState .held :=
    fun i x hx hs => List.mem_filter.2 ⟨by rw [a2]; exact (ha.2 i).2 (by rw [hx]; rfl),
      (Urt.slotHas_some (by rw [a1]; exact hx) _).trans (beq_iff_eq.2 hs)⟩
  refine ⟨fun i x hx hs => ?_, fun i x hx hs => ?_, fun j => (hrel.keys j).trans (by rw [a1]), hrel.arrival.trans a2,
    fun hup => ?_, ?_, hrel.mli.trans (a4.trans hm), hrel.elog.trans (a5.trans he), hrel.rdec.trans (a6.trans hr),
    hrel.cfg.trans (a7.trans hc), hrel.faults.trans (by rw [a8, hf]), hrel.tgen.trans (a9.trans ht)⟩
  · rw [hclose] at hx
    obtain ⟨h1, h2⟩ := State.foldl_releaseOneHeld_held _ (hmoves.slot_before hx (.inr (.inr (.inr hs)))) hs
    rw [a1] at h1
    exact h2 (hmem i x h1 hs)
  · have hn : (v.sendWithheld.urt.inState .held).Nodup := by
      unfold Urt.inState
      rw [a2]
      exact ha.1.filter _
    obtain ⟨z, hz, hrec⟩ := State.foldl_releaseOneHeld_slot _ hn (hmem i x hx hs) (s := v.sendWithheld)
      (by rw [a1]; exact hx) hs
    rw [a6, hr] at hrec
    rw [hclose]
    exact hrec.moves hmoves hz
  · obtain ⟨h1, h2⟩ := a10 (hl.trans hup)
    rw [hu] at h1
    exact ⟨hrel.granted.trans h1, hrel.withheld.trans h2⟩
  · rw [hclose, State.settle_pctl, hrun]

/-- The receiver plays no part in it. -/
theorem State.LeftHalt.withRx {s t : State} (h : s.LeftHalt t) (r : Receiver) : s.LeftHalt (t.withRx r) :=
  ⟨h.notHeld, h.received, h.keys, h.arrival, h.credits, h.path, h.mli, h.elog, h.rdec, h.cfg, h.faults, h.tgen⟩

theorem State.demandFalls_halt {s : State} (h : s.pctl.path = .halt) : s.demandFalls = s.inRun.sendWithheld.releaseHeld := by
  unfold State.demandFalls
  rw [h]
  rfl

/-- R151, R152: both rows that let demand fall in HALT. -/
theorem exec_leftHalt {c : Instr} {s : State} (ha : s.arrivalLaw) (hp : s.pctl.path = .halt) (hr : s.pins.resetn = true)
    (hc : (c = .qreqDeassert ∧ s.pins.qreq = true ∧ s.pctl.latch = false) ∨
      (∃ arg, c = .resume arg ∧ s.frameStart ∧ s.pins.qreq = false ∧ s.pctl.latch = true)) :
    ∃ t, exec c s = .next t ∧ s.LeftHalt t := by
  rcases hc with ⟨rfl, hq, hl⟩ | ⟨arg, rfl, hstart, hq, hl⟩
  · refine ⟨_, exec_qreqDeassert hq hr hl, ?_⟩
    rw [State.demandFalls_halt (by exact hp)]
    exact State.releaseHeld_close_leftHalt ha rfl rfl rfl rfl rfl rfl rfl rfl rfl
  · obtain ⟨before, bits, hexec⟩ := exec_resume arg hstart
    refine ⟨_, hexec, State.LeftHalt.withRx ?_ _⟩
    rw [State.clearLatch_falls (by exact hl) (by exact hq), State.demandFalls_halt (by exact hp)]
    exact State.releaseHeld_close_leftHalt ha rfl rfl rfl rfl rfl rfl rfl rfl rfl

/-- Settles O34: each HELD slot has its decode moment once, and no step brings one back to HELD. -/
theorem heldRequestsAreReleased : Obligations.HeldRequestsAreReleased := fun c s ha hp hr hc => by
  obtain ⟨t, hexec, h⟩ := exec_leftHalt ha hp hr hc
  refine ⟨t, hexec, h.notHeld, fun i x hx hs hm => ?_, fun i x hx hs hm hk => ?_, h.keys, h.arrival, h.credits, h.path, ?_,
    h.mli, h.elog, h.rdec, h.cfg, h.faults, h.tgen⟩
  · obtain ⟨z, hz, hrec⟩ := h.received i x hx hs
    rw [hz, hrec.malformed hm]
    rfl
  · obtain ⟨z, hz, hrec⟩ := h.received i x hx hs
    exact ⟨z, hz, hrec.decoded hm hk⟩
  · unfold State.qack
    rw [h.path]
    rfl

end Sys2Proof.Machine
end

section
/-! PROOFS. Chapter 3 and the buffer: the laws of queue and buffer over every step (R44, R55, R68, R69), and what a merge, a
creation and a patch change (R46, R47, R76, R77). -/

namespace Sys2Proof.Machine

/-! ### The laws of queue and buffer (R44, R55, R68, R69) -/

/-- Settles O54: every step is a chain of events, and each change of queue or buffer keeps the laws under the guard its
operation checks. -/
theorem everyStepKeepsQueueAndBufferLaws : Obligations.EveryStepKeepsQueueAndBufferLaws := by
  intro s t hqueue hdrain hbuffer hrecency hstep
  have he : Events s t := step_events hstep
  exact ⟨he.queueLaw hqueue, he.drainLaw hdrain, he.bufferLaw hbuffer, he.recencyLaw hrecency⟩

/-! ### A merge (R46) -/

/-- The youngest entry for its line is the one changed, wherever it stands. -/
theorem updateYoungest_append (f : Entry → Entry) (pre : List Entry) {e : Entry} {post : List Entry}
    (hpost : ∀ x ∈ post, x.line ≠ e.line) : updateYoungest e.line f (pre ++ e :: post) = pre ++ f e :: post := by
  induction pre with
  | nil =>
    have hnone : (post.any fun x => x.line == e.line) = false :=
      List.any_eq_false.2 fun x hx => by simpa using hpost x hx
    rw [List.nil_append, updateYoungest, hnone, if_neg Bool.false_ne_true, if_pos rfl, List.nil_append]
  | cons a pre ih =>
    have hsome : ((pre ++ e :: post).any fun x => x.line == e.line) = true :=
      List.any_eq_true.2 ⟨e, by simp, by simp⟩
    rw [List.cons_append, updateYoungest, if_pos hsome, ih, List.cons_append]

/-! ### A creation (R47) -/

/-- R47: what a creation does to an entry that stands before it. -/
theorem Entry.seal_for_line (e : Entry) (l : LineAddr) : (if e.line = l then e.seal else e) =
    if e.line = l ∧ e.state = .opened then { e with state := .sealed } else e := by
  unfold Entry.seal
  by_cases hl : e.line = l
  · simp only [hl, if_true, true_and]
  · simp only [hl, if_false, false_and]

/-! ### A patch (R76, R77) -/

theorem RabLine.holds_iff (x : RabLine) (l : LineAddr) : x.holds l = true ↔ x.state ≠ .free ∧ x.line = l := by
  simp [RabLine.holds]

theorem RabLine.holds_eq_false_iff (x : RabLine) (l : LineAddr) : x.holds l = false ↔ x.state = .free ∨ x.line ≠ l := by
  rw [← Bool.not_eq_true, RabLine.holds_iff, not_and_or, not_not]

theorem Rab.find_eq_none_iff (b : Rab) (l : LineAddr) : b.find l = none ↔
    ∀ r : LineIx, b.lines[r].state = .free ∨ b.lines[r].line ≠ l := by
  unfold Rab.find
  rw [← Fin.find?_eq_find?_finRange, Fin.find?_eq_none_iff]
  exact forall_congr' fun r => RabLine.holds_eq_false_iff _ l

theorem Rab.find_eq_some_iff (b : Rab) (l : LineAddr) (r : LineIx) : b.find l = some r ↔
    (b.lines[r].state ≠ .free ∧ b.lines[r].line = l) ∧ ∀ q < r, b.lines[q].state = .free ∨ b.lines[q].line ≠ l := by
  unfold Rab.find
  rw [← Fin.find?_eq_find?_finRange, Fin.find?_eq_some_iff]
  exact and_congr (RabLine.holds_iff _ l) (forall₂_congr fun q _ => RabLine.holds_eq_false_iff _ l)

/-- R76, R77: the bytes of a line that is not FREE, and its PATCH flags while it is FILLING. -/
theorem RabLine.patchBytes_of_held {x : RabLine} (h : x.state ≠ .free) (mask : ByteMask) (data : LineData) :
    x.patchBytes mask data = { x with
      data := Vector.ofFn fun k => if mask.getLsbD k then data[k] else x.data[k]
      patch := if x.state = .filling then x.patch ||| mask else x.patch } := by
  unfold RabLine.patchBytes
  split
  case h_1 hfree => exact absurd hfree h
  case h_2 hvalid => rw [hvalid]; rfl
  case h_3 hfill => rw [hfill]; rfl

/-- Settles O9: the merge finds the youngest entry for its line, the creation seals and appends, the patch reaches the line
that the buffer's search finds. -/
theorem postQueueTakesWrites : Obligations.PostQueueTakesWrites := by
  refine ⟨fun q pre post e mask data src fences hq hpost => ?_, fun q d mask data src fences => ?_,
    fun b l mask data => ⟨fun hnone => ?_, fun r hheld hline hfirst => ?_⟩⟩
  · rw [Queue.merge, hq]
    exact updateYoungest_append _ pre hpost
  · rw [Queue.create]
    exact congrArg (· ++ _) (List.map_congr_left fun e _ => e.seal_for_line d.line)
  · rw [Rab.patch, (b.find_eq_none_iff l).2 hnone]
  · rw [Rab.patch, (b.find_eq_some_iff l r).2 ⟨⟨hheld, hline⟩, hfirst⟩]
    exact congrArg (fun x => { b with lines := b.lines.set r x }) (RabLine.patchBytes_of_held hheld mask data)

end Sys2Proof.Machine
end

section
/-! PROOFS. POST_WAIT_RETRY (R50): the oldest waiting write takes the room of a removal, and the end of the event leaves what
it did. -/

namespace Sys2Proof.Machine

/-! ### The write that takes the room -/

/-- The part once the oldest POST_WAIT write has been posted to the queue `q` (R33, R50, R76). -/
def State.posted (s : State) (i : SlotIx) (rest : List SlotIx) (x : Slot) (d : DecodeResult) (q : Queue) : State :=
  (((s.withUrt { s.urt with postWait := rest }).withPq q).withRab
    (s.rab.patch d.line (x.mask d) (x.lineBytes d))).finish i .ok []

/-- R50: the room is there, and a write waits for it. -/
structure State.RoomFor (s : State) (i : SlotIx) (rest : List SlotIx) (x : Slot) (d : DecodeResult) : Prop where
  room : s.pq.room = true
  oldest : s.urt.postWait = i :: rest
  slot : s.urt.slots[i] = some x
  decode : x.decode = some d
  waits : x.state = .postWait

section
variable {s : State} {i : SlotIx} {rest : List SlotIx} {x : Slot} {d : DecodeResult}

theorem State.RoomFor.retry_merge (h : s.RoomFor i rest x d) (hm : s.pq.canMerge d = true) :
    s.retryPostWait = s.posted i rest x d (Queue.merge { s.pq with room := false } d.line (x.mask d) (x.lineBytes d)
      (sourceBit x.source) (s.urt.fencesYounger i)) := by
  obtain ⟨hroom, holdest, hslot, hdecode, hwaits⟩ := h
  have hm' : Queue.canMerge { s.pq with room := false } d = true := hm
  simp only [State.retryPostWait, hroom, State.withPq_urt, State.withPq_pq, holdest, hslot, hdecode, hwaits, hm']
  rfl

theorem State.RoomFor.retry_create (h : s.RoomFor i rest x d) (hm : s.pq.canMerge d = false)
    (hlen : s.pq.entries.length < Config.queueCapacity) :
    s.retryPostWait = s.posted i rest x d (Queue.create { s.pq with room := false } d (x.mask d) (x.lineBytes d)
      (sourceBit x.source) (s.urt.fencesYounger i)) := by
  obtain ⟨hroom, holdest, hslot, hdecode, hwaits⟩ := h
  have hm' : Queue.canMerge { s.pq with room := false } d = false := hm
  simp only [State.retryPostWait, hroom, State.withPq_urt, State.withPq_pq, holdest, hslot, hdecode, hwaits, hm', hlen]
  rfl

end

/-! ### The queue holds an entry afterwards -/

theorem Queue.entries_ne_nil_of_canMerge {q : Queue} {d : DecodeResult} (h : q.canMerge d = true) : q.entries ≠ [] := by
  intro hnil
  rw [Queue.canMerge, Queue.youngest, hnil] at h
  exact Bool.false_ne_true h

theorem Queue.merge_entries_ne_nil {q : Queue} (h : q.entries ≠ []) (l : LineAddr) (mask : ByteMask) (data : LineData)
    (src : SourceSet) (fences : SlotSet) : (q.merge l mask data src fences).entries ≠ [] := by
  obtain ⟨e, he⟩ := List.exists_mem_of_ne_nil _ h
  obtain ⟨e', he', _⟩ := q.merge_covers l mask data src fences e he
  exact List.ne_nil_of_mem he'

theorem Queue.create_entries_ne_nil (q : Queue) (d : DecodeResult) (mask : ByteMask) (data : LineData) (src : SourceSet)
    (fences : SlotSet) : (q.create d mask data src fences).entries ≠ [] := by
  simp [Queue.create]

/-! ### The end of the event -/

theorem State.testFence_postWait (s : State) (i : SlotIx) : (s.testFence i).urt.postWait = s.urt.postWait := by
  unfold State.testFence State.completeFence
  split
  · split
    · rfl
    · split <;> rfl
  · rfl

theorem State.testFences_postWait (s : State) : s.testFences.urt.postWait = s.urt.postWait := by
  unfold State.testFences
  generalize s.urt.arrival = l
  induction l generalizing s with
  | nil => rfl
  | cons a l ih => exact (ih _).trans (s.testFence_postWait a)

/-- With no slot in ORDER_WAIT and an entry in the Post Queue, the end of an event leaves queue, buffer, path and the
waiting writes. -/
theorem State.close_with_entry {s : State} (h : s.urt.NoneIn .orderWait) (hne : s.pq.entries ≠ []) :
    s.close.pq = s.pq ∧ s.close.rab = s.rab ∧ s.close.pctl = s.pctl ∧ s.close.urt.postWait = s.urt.postWait := by
  obtain ⟨hq, hb⟩ := State.settle_idle h
  have hclose : s.close = s.settle := State.haltTest_still fun _ => Bool.eq_false_iff.2 fun hempty =>
    hne (hq ▸ ((State.pathEmpty_iff _).1 hempty).2.1)
  have hwait : s.settle.urt.postWait = s.urt.postWait := by
    rw [State.settle, State.releaseSlots_idle h, State.moveStreams_urt, State.testFences_postWait]
  rw [hclose]
  exact ⟨hq, hb, s.settle_pctl, hwait⟩

/-- R50: what stands after the event in which a waiting write has been posted. -/
theorem State.posted_close {s : State} {i : SlotIx} {x : Slot} (hx : s.urt.slots[i] = some x)
    (ho : s.urt.NoneIn .orderWait) (rest : List SlotIx) (d : DecodeResult) {q : Queue} (hq : q.entries ≠ []) :
    (s.posted i rest x d q).close.urt.postWait = rest ∧
      (s.posted i rest x d q).close.urt.slots[i] =
        some { x with state := .done, status := some .ok, result := [], tag := none } ∧
      (s.posted i rest x d q).close.rab = s.rab.patch d.line (x.mask d) (x.lineBytes d) ∧
      (s.posted i rest x d q).close.pq = q ∧
      (s.posted i rest x d q).close.mli = s.mli ∧ (s.posted i rest x d q).close.elog = s.elog ∧
      (s.posted i rest x d q).close.flt.entries = s.flt.entries ∧ (s.posted i rest x d q).close.pctl = s.pctl := by
  have hnone : (s.posted i rest x d q).urt.NoneIn .orderWait := Urt.NoneIn.finish ho (by decide) i .ok []
  have hslot : (s.posted i rest x d q).urt.slots[i] =
      some { x with state := .done, status := some .ok, result := [], tag := none } :=
    State.updateSlot_some (s := ((s.withUrt { s.urt with postWait := rest }).withPq q).withRab _) hx _
  obtain ⟨hpq, hrab, hpctl, hwait⟩ := State.close_with_entry hnone hq
  have hf := State.close_release (s.posted i rest x d q)
  exact ⟨hwait, State.close_slot hslot (by simp) (by simp), hrab, hpq, hf.mli, hf.elog, hf.faults, hpctl⟩

/-- Settles O15: the oldest waiting write merges or creates an entry; the queue then holds an entry and no slot is in
ORDER_WAIT, so the end of the event tests fences only. -/
theorem postWaitRetryPostsOldest : Obligations.PostWaitRetryPostsOldest := by
  intro s i rest x d hroom holdest hslot hdecode hwaits hnone hfits
  have h : s.quiet.RoomFor i rest x d := ⟨hroom, holdest, hslot, hdecode, hwaits⟩
  refine ⟨_, rfl, ?_⟩
  cases hm : s.pq.canMerge d with
  | true =>
    have hne := Queue.entries_ne_nil_of_canMerge (q := { s.pq with room := false }) hm
    rw [h.retry_merge hm]
    obtain ⟨h1, h2, h3, h4, h5⟩ := State.posted_close (s := s.quiet) hslot hnone rest d
      (Queue.merge_entries_ne_nil hne d.line (x.mask d) (x.lineBytes d) (sourceBit x.source) (s.urt.fencesYounger i))
    exact ⟨h1, h2, h3, fun _ => h4, fun hc => Bool.noConfusion hc, h5⟩
  | false =>
    have hlen : s.pq.entries.length < Config.queueCapacity := hfits.resolve_left (by simp [hm])
    rw [h.retry_create hm hlen]
    obtain ⟨h1, h2, h3, h4, h5⟩ := State.posted_close (s := s.quiet) hslot hnone rest d
      (Queue.create_entries_ne_nil { s.pq with room := false } d (x.mask d) (x.lineBytes d) (sourceBit x.source)
        (s.urt.fencesYounger i))
    exact ⟨h1, h2, h3, fun hc => Bool.noConfusion hc, fun _ => h4, h5⟩

end Sys2Proof.Machine
end

section
/-! PROOFS. TICK (R58, R95, R122, R155, R158, R159): the ages each owner raises, the tick in each order of the owners, and what
it leaves where no tag is due. -/

namespace Sys2Proof.Machine

/-! ### The ages of tags and streams -/

/-- R122: a tag after the tick, before any timeout. -/
def Tag.aged (x : Tag) : Tag := if x.state = .outstanding then { x with age := min (x.age + 1) 255 } else x

theorem Mli.age_get (m : Mli) (g : TagIx) : (Mli.age m)[g] = m[g].aged := by
  rw [Mli.age, Vector.get_ofFn_fin]
  rfl

theorem Tag.aged_of_outstanding {x : Tag} (h : x.state = .outstanding) :
    x.aged = { x with age := min (x.age + 1) 255 } := if_pos h

theorem Tag.aged_of_not_outstanding {x : Tag} (h : x.state ≠ .outstanding) : x.aged = x := if_neg h

/-- R122: an aged tag is due exactly when it is OUTSTANDING and its new AGE has reached the limit. -/
theorem Tag.aged_due_iff (x : Tag) (n : Nat) :
    x.aged.due n = true ↔ x.state = .outstanding ∧ n ≤ min (x.age + 1) 255 := by
  rw [Tag.due_iff]
  by_cases h : x.state = .outstanding
  · rw [Tag.aged_of_outstanding h]
  · rw [Tag.aged_of_not_outstanding h]
    simp only [h, false_and]

/-- R95: an entry of the Stream Table after a tick. -/
def Stream.aged (limit : Nat) (e : Stream) : Stream :=
  if e.valid = false then e
  else if limit ≤ min (e.idle + 1) 255 then Stream.free
  else { e with idle := min (e.idle + 1) 255 }

theorem Stt.ageIdle_get (t : Stt) (k : StreamIx) : t.ageIdle.entries[k] =
    if t.entries[k].valid = true then { t.entries[k] with idle := min (t.entries[k].idle + 1) 255 } else t.entries[k] := by
  rw [Stt.ageIdle, Vector.get_ofFn_fin]
  rfl

theorem Stt.ageIdle_expire (t : Stt) (limit : Nat) : t.ageIdle.expire limit =
    { t with entries := Vector.ofFn fun k => t.entries[k].aged limit } := by
  have entry : ∀ k : StreamIx, (if t.ageIdle.entries[k].valid = true ∧ limit ≤ t.ageIdle.entries[k].idle then Stream.free
      else t.ageIdle.entries[k]) = t.entries[k].aged limit := fun k => by
    rw [Stt.ageIdle_get, Stream.aged]
    generalize t.entries[k] = e
    cases hv : e.valid with
    | false => simp [hv]
    | true => simp [hv]
  rw [Stt.expire_eq]
  simp only [entry]
  rfl

/-! ### The tick in any order of the owners (R159) -/

theorem State.doIf_tickQueue (b : Bool) (s : State) :
    State.doIf b State.tickQueue s = s.withPq (if b = true then s.pq.age else s.pq) := by
  cases b <;> rfl

theorem State.doIf_tickStreams (b : Bool) (s : State) : State.doIf b State.tickStreams s =
    s.withStt (if b = true then s.stt.ageIdle.expire s.tgen.idleInForce else s.stt) := by
  cases b <;> rfl

/-- The part when the Memory Link interface comes to its timeouts: the owners before it in the order have aged. -/
def State.beforeTimeouts (o : TickOrder) (s : State) : State :=
  ((s.advanceStamp.withPq (if o.queueFirst = true then s.pq.age else s.pq)).withStt
    (if o.streamsFirst = true then s.stt.ageIdle.expire s.cfg.streamIdle else s.stt)).withMli (Mli.age s.mli)

/-- The part once the owners after the Memory Link interface have aged. -/
def State.afterTimeouts (o : TickOrder) (idle : Nat) (u : State) : State :=
  (u.withPq (if o.queueFirst = true then u.pq else u.pq.age)).withStt
    (if o.streamsFirst = true then u.stt else u.stt.ageIdle.expire idle)

theorem State.afterTimeouts_mli (o : TickOrder) (idle : Nat) (u : State) : (u.afterTimeouts o idle).mli = u.mli := rfl

theorem State.afterTimeouts_eq (o : TickOrder) (idle : Nat) (u : State) : u.afterTimeouts o idle = { u with
    pq := if o.queueFirst = true then u.pq else u.pq.age
    stt := if o.streamsFirst = true then u.stt else u.stt.ageIdle.expire idle } := rfl

theorem State.quarantineDue_tgen (s : State) : s.quarantineDue.tgen = s.tgen := by
  obtain ⟨D, hD⟩ := s.exists_depthsWithin
  exact (State.quarantineDue_access s hD).frame.tgen

/-- R159: the owners before the Memory Link interface, its timeouts, the owners after it, the end of the event. -/
theorem State.takeTick_eq (o : TickOrder) (s : State) : s.takeTick o =
    ((s.beforeTimeouts o).quarantineDue.afterTimeouts o s.cfg.streamIdle).close := by
  have hbefore : State.tickTags (State.doIf o.streamsFirst State.tickStreams
      (State.doIf o.queueFirst State.tickQueue s.advanceStamp)) = (s.beforeTimeouts o).quarantineDue := by
    rw [State.doIf_tickQueue, State.doIf_tickStreams]
    rfl
  have hlimit : (s.beforeTimeouts o).quarantineDue.tgen.idleInForce = s.cfg.streamIdle := by
    rw [State.quarantineDue_tgen]
    rfl
  simp only [State.takeTick, hbefore]
  generalize (s.beforeTimeouts o).quarantineDue = u at hlimit
  rw [State.doIf_tickQueue, State.doIf_tickStreams, State.withPq_tgen, hlimit]
  refine congrArg State.close ?_
  cases o with | mk queueFirst streamsFirst => cases queueFirst <;> cases streamsFirst <;> rfl

/-- R122: what a tick makes of each tag. -/
theorem State.takeTick_mli (o : TickOrder) (s : State) (g : TagIx) : (s.takeTick o).mli[g] =
    if s.mli[g].aged.due s.cfg.memTimeout = true then s.mli[g].aged.quarantine else s.mli[g].aged := by
  have hmli : (s.takeTick o).mli = (s.beforeTimeouts o).quarantineDue.mli := by
    rw [State.takeTick_eq, (State.close_release _).mli, State.afterTimeouts_mli]
  have hlimit : (s.beforeTimeouts o).tgen.timeoutInForce = s.cfg.memTimeout := rfl
  have haged : (s.beforeTimeouts o).mli[g] = s.mli[g].aged := Mli.age_get s.mli g
  rw [hmli, State.quarantineDue_mli, hlimit, haged]

/-! ### A tick at which no tag is due -/

/-- R122: with no tag due nothing times out. -/
theorem State.quarantineDue_still {s : State} (h : ∀ g : TagIx, s.mli[g].due s.tgen.timeoutInForce = false) :
    s.quarantineDue = s := by
  rw [State.quarantineDue, State.foldl_testTag _ (List.nodup_finRange 16),
    List.filter_eq_nil_iff.2 fun g _ => by rw [h g]; exact Bool.false_ne_true]
  rfl

/-- R58: nothing that an event leaves over depends on the AGE of an entry. -/
theorem State.Settled.tickQueue {s : State} (h : s.Settled) : s.tickQueue.Settled where
  order := h.order
  fences := fun i hi => by
    have hlists : s.tickQueue.pq.lists i = s.pq.lists i := List.any_map
    rw [State.fenceReady, hlists]
    exact h.fences i hi
  streams := h.streams
  drain := fun hd => Bool.eq_false_iff.2 fun hempty => by
    obtain ⟨harr, hent, htags⟩ := (State.pathEmpty_iff _).1 hempty
    have hpath := (State.pathEmpty_iff s).2 ⟨harr, List.map_eq_nil_iff.1 hent, htags⟩
    exact absurd hpath (by rw [h.drain hd]; exact Bool.false_ne_true)
  waits := (State.Rest.keep (t := s.tickQueue) h.rest (s.pq.map_covers _ s.pq.room fun _ => ⟨rfl, rfl⟩) h.room
    fun _ hj => .inl ⟨hj, rfl⟩).waits
  room := h.room

/-- R122: nor on the AGE of a tag. -/
theorem State.Settled.withMli {s : State} (h : s.Settled) {m : Mli} (hm : Mli.SameOutstanding s.mli m) :
    (s.withMli m).Settled where
  order := h.order
  fences := h.fences
  streams := h.streams
  drain := fun hd => Bool.eq_false_iff.2 fun hempty => by
    obtain ⟨harr, hent, htags⟩ := (State.pathEmpty_iff _).1 hempty
    have hpath := (State.pathEmpty_iff s).2 ⟨harr, hent, fun g hg => htags g ((hm g).1.2 hg)⟩
    exact absurd hpath (by rw [h.drain hd]; exact Bool.false_ne_true)
  waits := h.waits
  room := h.room

/-- R95: nor on IDLE of a stream entry; one that is freed moves nowhere. -/
theorem State.Settled.tickStreams {s : State} (h : s.Settled) : s.tickStreams.Settled := by
  refine State.expireStreams_settled (s := s.withStt s.stt.ageIdle)
    ⟨h.order, h.fences, fun k => ?_, h.drain, h.waits, h.room⟩
  have hk := h.streams k
  simp only [State.withStt_stt, Stt.ageIdle, Vector.get_ofFn_fin]
  split
  · exact hk
  · exact hk

/-- Every age of a settled part has advanced and nothing has timed out. -/
def State.allAged (s : State) : State := (s.advanceStamp.tickQueue.withMli (Mli.age s.mli)).tickStreams

theorem State.allAged_eq (s : State) : s.allAged = { s with
    tgen := s.advanceStamp.tgen
    pq := s.pq.age
    mli := Mli.age s.mli
    stt := s.stt.ageIdle.expire s.cfg.streamIdle } := rfl

theorem State.Settled.allAged {s : State} (h : s.Settled) : s.allAged.Settled := by
  have hstamp : s.advanceStamp.Settled := h.congr rfl rfl rfl rfl rfl rfl rfl
  exact (hstamp.tickQueue.withMli (Mli.age_sameOutstanding s.mli)).tickStreams

/-- R159: where no tag is due the order of the owners does not matter. -/
theorem State.Settled.takeTick {s : State} (h : s.Settled) (o : TickOrder)
    (hdue : ∀ g : TagIx, s.mli[g].aged.due s.cfg.memTimeout = false) : s.takeTick o = s.allAged := by
  have hstill : (s.beforeTimeouts o).quarantineDue = s.beforeTimeouts o := State.quarantineDue_still fun g => by
    rw [show (s.beforeTimeouts o).mli[g] = s.mli[g].aged from Mli.age_get s.mli g]
    exact hdue g
  have hboth : (s.beforeTimeouts o).afterTimeouts o s.cfg.streamIdle = s.allAged := by
    cases o with | mk queueFirst streamsFirst => cases queueFirst <;> cases streamsFirst <;> rfl
  rw [State.takeTick_eq, hstill, hboth, h.allAged.close]

/-! ### TICK -/

theorem State.ticking_iff (s : State) : s.ticking = true ↔ s.pins.resetn = true ∧ s.cfg.tickHold = false := by
  simp [State.ticking]

theorem exec_tick {s : State} (order : TickOrder) (hr : s.pins.resetn = true) (hh : s.cfg.tickHold = false) :
    exec (.tick order) s = .next (s.quiet.takeTick order) := if_pos (s.ticking_iff.2 ⟨hr, hh⟩)

theorem exec_tick_held {s : State} (order : TickOrder) (h : s.pins.resetn = false ∨ s.cfg.tickHold = true) :
    exec (.tick order) s = .next s.quiet := if_neg fun ht => by
  obtain ⟨hr, hh⟩ := s.ticking_iff.1 ht
  rcases h with h | h
  · exact Bool.false_ne_true (h.symm.trans hr)
  · exact Bool.false_ne_true (hh.symm.trans h)

/-- R155, R158: the time base and the messages after a tick. -/
theorem State.takeTick_tgen_out (o : TickOrder) (s : State) :
    (s.takeTick o).tgen = s.advanceStamp.tgen ∧ (s.takeTick o).out = s.out := by
  obtain ⟨D, hD⟩ := s.exists_depthsWithin
  obtain ⟨u, hu, he⟩ := State.takeTick_access o s hD
  rw [he]
  exact ⟨u.haltTest_tgen.trans hu.frame.tgen, u.haltTest_out.trans hu.frame.out⟩

/-- Settles O29: a tick is the owners before the Memory Link interface, its timeouts and the owners after it; in a settled
part with no tag due each of them only advances ages, so nothing is left for the end of the event. -/
theorem tickAdvancesAges : Obligations.TickAdvancesAges := by
  intro s order
  refine ⟨fun h => exec_tick_held order h, fun hr hh => ?_, fun hs hr hh hdue => ?_, fun hr hh => ?_⟩
  · obtain ⟨htgen, hout⟩ := State.takeTick_tgen_out order s.quiet
    have hexec := exec_tick order hr hh
    obtain ⟨hf, -⟩ := exec_access_frame hexec (.inr (.inr (.inr ⟨order, rfl⟩)))
    have hmli := State.takeTick_mli order s.quiet
    refine ⟨_, hexec, htgen, fun g hg => ?_, fun g hg hlt => ?_, fun g hg hle => ?_, hf.cfg, hf.rdec, hf.pins, hf.arrival,
      hf.granted, hf.withheld, hout⟩
    · exact (hmli g).trans ((if_neg fun hd => hg ((Tag.aged_due_iff _ _).1 hd).1).trans (Tag.aged_of_not_outstanding hg))
    · exact (hmli g).trans ((if_neg fun hd => Nat.not_le.2 hlt ((Tag.aged_due_iff _ _).1 hd).2).trans
        (Tag.aged_of_outstanding hg))
    · refine (hmli g).trans ((if_pos ((Tag.aged_due_iff _ _).2 ⟨hg, hle⟩)).trans ?_)
      exact congrArg Tag.quarantine (Tag.aged_of_outstanding hg)
  · rw [exec_tick order hr hh, hs.quiet.takeTick order fun g => Bool.eq_false_iff.2 fun hd => by
      obtain ⟨ho, hle⟩ := (Tag.aged_due_iff _ _).1 hd
      exact Nat.not_le.2 (hdue g ho) hle]
    rw [State.allAged_eq, Stt.ageIdle_expire]
    rfl
  · refine ⟨(s.quiet.beforeTimeouts order).quarantineDue, congrArg State.quarantineDue rfl, ?_⟩
    rw [exec_tick order hr hh, State.takeTick_eq]
    exact congrArg (fun t => Host.Outcome.next t.close) (State.afterTimeouts_eq order s.cfg.streamIdle _)

end Sys2Proof.Machine
end

section
/-! PROOFS. What the arbiter may issue (R54, R57, R96, R100, R112, R113, R115): when draining is urgent, and what each of the
three classes offers. -/

namespace Sys2Proof.Machine

/-! ### Searches over tags, lines and entries -/

theorem Mli.any_eq_false_iff (m : Mli) (p : Tag → Bool) : m.toList.any p = false ↔ ∀ g : TagIx, p m[g] = false := by
  simp only [List.any_eq_false, Bool.not_eq_true]
  refine ⟨fun h g => h m[g] (by simp), fun h x hx => ?_⟩
  obtain ⟨n, hn, rfl⟩ := List.getElem_of_mem hx
  simpa using h ⟨n, by simpa using hn⟩

theorem Mli.lowestFree_isSome_iff (m : Mli) : (Mli.lowestFree m).isSome = true ↔ ∃ g : TagIx, m[g].state = .free := by
  simp only [Mli.lowestFree, List.find?_isSome, List.mem_finRange, true_and, beq_iff_eq]

theorem Rab.lowestFree_isSome_iff (b : Rab) : b.lowestFree.isSome = true ↔ ∃ r : LineIx, b.lines[r].state = .free := by
  simp only [Rab.lowestFree, List.find?_isSome, List.mem_finRange, true_and, beq_iff_eq]

theorem Queue.hasLine_eq_false_iff (q : Queue) (l : LineAddr) : q.hasLine l = false ↔ ∀ y ∈ q.entries, y.line ≠ l := by
  simp only [Queue.hasLine, List.any_eq_false, beq_iff_eq, ne_eq]

/-! ### The line interlock (R115) -/

/-- R115, first row: a line read waits for every line write of its line. -/
theorem Mli.barsRead_eq_false_iff (m : Mli) (l : LineAddr) : Mli.barsRead m l = false ↔
    ∀ g : TagIx, m[g].line = l → m[g].kind.isWrite = true → m[g].state = .free := by
  rw [Mli.barsRead, Mli.writeHeld, Mli.any_eq_false_iff]
  refine forall_congr' fun g => ?_
  generalize m[g] = x
  cases x.state <;> cases x.kind.isWrite <;> simp

/-- R115, second row: a line write waits for every OUTSTANDING access of its line and for the quarantined line writes. -/
theorem Mli.barsDrain_eq_false_iff (m : Mli) (l : LineAddr) : Mli.barsDrain m l = false ↔
    ∀ g : TagIx, m[g].line = l →
      m[g].state ≠ .outstanding ∧ (m[g].state = .quarantined → m[g].kind.isWrite = false) := by
  rw [Mli.barsDrain, Mli.writeHeld, Mli.readOutstanding, Bool.or_eq_false_iff, Mli.any_eq_false_iff, Mli.any_eq_false_iff,
    ← forall_and]
  refine forall_congr' fun g => ?_
  generalize m[g] = x
  cases x.state <;> cases x.kind.isWrite <;> simp

/-! ### Urgency (R57) -/

theorem State.deadlineReached_iff (s : State) :
    s.deadlineReached = true ↔ ∃ e, s.pq.candidate = some e ∧ e.deadline ≤ e.age := by
  unfold State.deadlineReached
  cases s.pq.candidate with
  | none => simp
  | some e => simp

theorem Urt.slotHas_iff (u : Urt) (i : SlotIx) (p : Slot → Bool) :
    u.slotHas i p = true ↔ ∃ x, u.slots[i] = some x ∧ p x = true := by
  unfold Urt.slotHas
  cases u.slots[i] with
  | none => simp
  | some x => simp

theorem Urt.fenceWaiting_iff (u : Urt) :
    u.fenceWaiting = true ↔ ∃ (i : SlotIx) (x : Slot), u.slots[i] = some x ∧ x.state = .fenceWait := by
  simp only [Urt.fenceWaiting, List.any_eq_true, List.mem_finRange, true_and, Urt.slotHas_iff, beq_iff_eq]

theorem State.urgent_iff (s : State) : s.urgent = true ↔
    (∃ e, s.pq.candidate = some e ∧ e.deadline ≤ e.age) ∨ s.cfg.pqUrgentMark ≤ s.pq.entries.length ∨
      (∃ (i : SlotIx) (x : Slot), s.urt.slots[i] = some x ∧ x.state = .fenceWait) ∨ s.pctl.path = .drain := by
  simp only [State.urgent, Bool.or_eq_true, State.deadlineReached_iff, decide_eq_true_eq, Urt.fenceWaiting_iff, beq_iff_eq,
    or_assoc]

/-! ### The drain offer (R54) -/

theorem Queue.candidate_eq_some_iff (q : Queue) (e : Entry) : q.candidate = some e ↔
    ∃ older younger, q.entries = older ++ e :: younger ∧ e.state ≠ .issued ∧ ∀ y ∈ older, y.state = .issued := by
  simp only [Queue.candidate, List.find?_eq_some_iff_append, bne_iff_ne, Bool.not_eq_true', bne_eq_false_iff_eq]
  exact ⟨fun ⟨hu, older, younger, hq, ho⟩ => ⟨older, younger, hq, hu, ho⟩,
    fun ⟨older, younger, hq, hu, ho⟩ => ⟨hu, older, younger, hq, ho⟩⟩

theorem State.drainOffer_eq_some_iff (s : State) (e : Entry) : s.drainOffer = some e ↔
    s.pq.candidate = some e ∧ s.pq.issuedCount < Config.drainLimit ∧ Mli.barsDrain s.mli e.line = false ∧
      (Mli.lowestFree s.mli).isSome = true := by
  unfold State.drainOffer
  cases s.pq.candidate with
  | none => simp
  | some c =>
    dsimp only
    constructor
    · intro h
      split at h
      case isTrue hc => cases h; exact ⟨rfl, hc⟩
      case isFalse => cases h
    · rintro ⟨hc, hrest⟩
      cases hc
      exact if_pos hrest

/-! ### The demand offer (R112) -/

theorem State.demandPick_eq_some_iff (s : State) (i : SlotIx) : s.demandPick = some i ↔
    ∃ older younger, s.urt.arrival = older ++ i :: younger ∧ s.demandIssuable i = true ∧
      ∀ j ∈ older, s.demandIssuable j = false := by
  simp only [State.demandPick, List.find?_eq_some_iff_append, Bool.not_eq_true']
  exact ⟨fun ⟨hi, older, younger, ha, ho⟩ => ⟨older, younger, ha, hi, ho⟩,
    fun ⟨older, younger, ha, hi, ho⟩ => ⟨hi, older, younger, ha, ho⟩⟩

/-- R112: what the interlock and the Post Queue allow a slot in ISSUE_WAIT, by its kind. -/
def State.allowsIssue (s : State) (x : Slot) (d : DecodeResult) : Prop :=
  (x.kind = .rd ∧ Mli.barsRead s.mli d.line = false) ∨
    (x.kind = .wr ∧ s.pq.hasLine d.line = false ∧ Mli.barsDrain s.mli d.line = false)

theorem State.demandIssuable_iff (s : State) (i : SlotIx) : s.demandIssuable i = true ↔
    ∃ x d, s.urt.slots[i] = some x ∧ x.decode = some d ∧ x.state = .issueWait ∧
      (Mli.lowestFree s.mli).isSome = true ∧ s.allowsIssue x d := by
  unfold State.demandIssuable
  cases s.urt.slots[i] with
  | none => simp
  | some x =>
    cases hd : x.decode with
    | none => simp [hd]
    | some d =>
      have hcomm := Bool.and_comm (!Mli.barsDrain s.mli d.line) (!s.pq.hasLine d.line)
      cases hk : x.kind <;> simp [hd, hk, hcomm, State.allowsIssue, and_assoc]

/-! ### The prefetch offer (R96, R100, R113) -/

/-- R74: a prefetch finds a line to take. -/
theorem Rab.canPrefetch_iff (b : Rab) : b.canPrefetch = true ↔
    (∃ r : LineIx, b.lines[r].state = .free) ∨ ∃ r ∈ b.recency, b.lines[r].origin = .demand := by
  rw [← Rab.lowestFree_isSome_iff, Rab.canPrefetch, Rab.prefetchVictim]
  cases b.lowestFree with
  | none => simp [List.find?_isSome]
  | some r => simp

/-- R100: where an index stands in the rotation after the mark. -/
theorem StreamIx.place_in_rotation : ∀ mark place k : StreamIx, mark + 1 + place = k ↔ place = k - mark - 1 := by decide

theorem Stt.rotation_find_iff (t : Stt) (p : StreamIx → Bool) (k : StreamIx) : t.rotation.find? p = some k ↔
    p k = true ∧ ∀ j : StreamIx, j - t.mark - 1 < k - t.mark - 1 → p j = false := by
  have hplace : ∀ j : StreamIx, t.mark + 1 + (j - t.mark - 1) = j := fun j => (StreamIx.place_in_rotation _ _ _).2 rfl
  rw [Stt.rotation, List.find?_map, Option.map_eq_some_iff, ← Fin.find?_eq_find?_finRange]
  simp only [StreamIx.place_in_rotation, exists_eq_right, Fin.find?_eq_some_iff, Function.comp_apply, hplace]
  refine and_congr_right fun _ => ⟨fun h j hj => ?_, fun h place hlt => ?_⟩
  · have := h _ hj
    rwa [hplace] at this
  · refine h _ ?_
    rwa [← (StreamIx.place_in_rotation t.mark place _).1 rfl]

theorem State.prefetchPick_eq_some_iff (s : State) (k : StreamIx) : s.prefetchPick = some k ↔
    Config.prefetchReserve < Mli.countState s.mli .free ∧ s.rab.canPrefetch = true ∧ s.proposing k = true ∧
      ∀ j : StreamIx, j - s.stt.mark - 1 < k - s.stt.mark - 1 → s.proposing j = false := by
  rw [State.prefetchPick, State.prefetchOffer, ← Stt.rotation_find_iff, ← and_assoc]
  split
  case isTrue h => exact (and_iff_right h).symm
  case isFalse h => exact ⟨fun hc => (nomatch hc), fun hc => absurd hc.1 h⟩

theorem State.proposing_iff (s : State) (k : StreamIx) : s.proposing k = true ↔
    s.stt.entries[k].reaches (s.rdec.depthReported s.stt.entries[k].region) (s.rdec.inRange s.stt.entries[k].region) = true ∧
      s.pctl.path = .run ∧ s.rab.find s.stt.entries[k].next = none ∧ s.pq.hasLine s.stt.entries[k].next = false ∧
      Mli.barsRead s.mli s.stt.entries[k].next = false := by
  simp only [State.proposing, Bool.and_eq_true, beq_iff_eq, Option.isNone_iff_eq_none, Bool.not_eq_true', and_assoc]

/-- Settles O31: each offer is a search over tags, lines and entries, and its conditions are those of R54, R96, R112 and
R115. -/
theorem deadlineMakesDrainUrgent : Obligations.DeadlineMakesDrainUrgent := by
  refine fun s => ⟨rfl, s.urgent_iff, fun e => ?_, s.demandPick_eq_some_iff, fun i => ?_, fun k => ?_, fun k e he => ?_⟩
  · rw [State.drainOffer_eq_some_iff, Queue.candidate_eq_some_iff, Mli.barsDrain_eq_false_iff, Mli.lowestFree_isSome_iff]
    exact and_congr_right fun _ => and_congr_right fun _ => and_comm
  · rw [State.demandIssuable_iff]
    simp only [State.allowsIssue, Mli.barsRead_eq_false_iff, Mli.barsDrain_eq_false_iff, Queue.hasLine_eq_false_iff,
      Mli.lowestFree_isSome_iff]
  · rw [State.prefetchPick_eq_some_iff, Rab.canPrefetch_iff]
    rfl
  · subst he
    rw [State.proposing_iff, Stream.reaches_iff, Rab.find_eq_none_iff, Queue.hasLine_eq_false_iff,
      Mli.barsRead_eq_false_iff]
    simp only [and_assoc]

end Sys2Proof.Machine
end

section
/-! PROOFS. What a failure and a clear do to the Faulted Line Table (R131 to R134), and what the read-ahead buffer does when it
is told of a failed line (R85). -/

namespace Sys2Proof.Machine

/-! ### The searches of the table (R131) -/

/-- R131: an index found for a line holds that line's entry. -/
theorem Flt.find_some {f : Flt} {l : LineAddr} {i : FaultIx} (h : f.find l = some i) :
    ∃ e, f.entries[i] = some e ∧ e.line = l := by
  have hi := List.find?_some h
  cases he : f.entries[i] with
  | none => simp [he] at hi
  | some e => exact ⟨e, rfl, by simpa [he] using hi⟩

theorem Flt.lowestFree_of {f : Flt} {i : FaultIx} (hi : f.entries[i] = none)
    (hlt : ∀ j : FaultIx, j < i → f.entries[j] ≠ none) : f.lowestFree = some i := by
  refine Fin.find?_eq_find?_finRange.symm.trans (Fin.find?_eq_some_iff.2 ⟨Option.isNone_iff_eq_none.2 hi, fun j hj => ?_⟩)
  exact Bool.eq_false_iff.2 fun hn => hlt j hj (Option.isNone_iff_eq_none.1 hn)

theorem Flt.lowestFree_eq_none {f : Flt} (h : ∀ i : FaultIx, f.entries[i] ≠ none) : f.lowestFree = none :=
  List.find?_eq_none.2 fun i _ hn => h i (Option.isNone_iff_eq_none.1 hn)

/-! ### A failure recorded (R132, R133) -/

theorem Flt.record_found {f : Flt} {l : LineAddr} {i : FaultIx} {e : FaultEntry} (h : f.find l = some i)
    (he : f.entries[i] = some e) (m : ByteMask) (k : FaultKind) :
    f.record l m k = { f with entries := f.entries.set i (some (e.refail m k)) } := by
  simp only [Flt.record, h, he, Option.map_some]

theorem Flt.record_new {f : Flt} {l : LineAddr} {i : FaultIx} (h : f.find l = none) (hi : f.lowestFree = some i)
    (m : ByteMask) (k : FaultKind) : f.record l m k = { f with
      entries := f.entries.set i (some { line := l, failed := m, kind := k }), order := f.order ++ [i] } := by
  simp only [Flt.record, h, hi]

theorem Flt.record_untracked {f : Flt} {l : LineAddr} (h : f.find l = none) (hi : f.lowestFree = none) (m : ByteMask)
    (k : FaultKind) : f.record l m k = { f with ovf := true } := by
  simp only [Flt.record, h, hi]

/-! ### Bytes cleared (R134) -/

theorem Flt.clearBytes_absent {f : Flt} {l : LineAddr} (h : f.find l = none) (m : ByteMask) : f.clearBytes l m = f := by
  simp only [Flt.clearBytes, h]

theorem Flt.clearBytes_found {f : Flt} {l : LineAddr} {i : FaultIx} {e : FaultEntry} (h : f.find l = some i)
    (he : f.entries[i] = some e) (m : ByteMask) : f.clearBytes l m =
      if e.failed &&& ~~~ m = 0#32 then f.remove i
      else { f with entries := f.entries.set i (some { e with failed := e.failed &&& ~~~ m }) } := by
  simp only [Flt.clearBytes, h, he]

/-! ### The buffer is told of a failed line (R85) -/

/-- R85: what a failed line does to each line and to the recency list. -/
theorem Rab.lineFailed_eq (b : Rab) (l : LineAddr) : b.lineFailed l =
    { lines := Vector.ofFn fun r =>
        if b.lines[r].line = l ∧ b.lines[r].state = .valid then RabLine.free
        else if b.lines[r].line = l ∧ b.lines[r].state = .filling then { b.lines[r] with drop := true }
        else b.lines[r]
      recency := b.recency.filter fun r => b.lines[r].state == .free || b.lines[r].line != l } := by
  have hline : ∀ x : RabLine, (if x.holds l = true then x.invalidate else x) =
      if x.line = l ∧ x.state = .valid then RabLine.free
      else if x.line = l ∧ x.state = .filling then { x with drop := true } else x := by
    intro x
    by_cases hl : x.line = l
    · cases hs : x.state <;> simp [hl, hs, RabLine.holds, RabLine.invalidate]
    · simp [hl, RabLine.holds]
  have hstays : ∀ x : RabLine, (!x.holds l) = (x.state == .free || x.line != l) := fun x => by
    rw [RabLine.holds, Bool.not_and, bne, Bool.not_not, bne]
  unfold Rab.lineFailed Rab.invalidate
  simp only [hline, hstays]

/-- Settles O26: by what the two searches of the table find, and line by line of the buffer. -/
theorem faultTableRecordsFailure : Obligations.FaultTableRecordsFailure := by
  refine ⟨fun f l m k => ⟨fun i e hf he => Flt.record_found hf he m k,
    fun i hf hi hlt => Flt.record_new hf (Flt.lowestFree_of hi hlt) m k,
    fun hf hfull => Flt.record_untracked hf (Flt.lowestFree_eq_none hfull) m k⟩,
    fun f l m => ⟨fun hf => ⟨Flt.clearBytes_absent hf m, Flt.find_none hf⟩, fun i hf => ?_⟩, Rab.lineFailed_eq⟩
  obtain ⟨e, he, hl⟩ := Flt.find_some hf
  refine ⟨e, he, hl, fun hall => ?_, fun hsome => ?_⟩
  · rw [Flt.clearBytes_found hf he, if_pos hall]
    rfl
  · rw [Flt.clearBytes_found hf he, if_neg hsome]

end Sys2Proof.Machine
end

section
/-! PROOFS. The completion of a fill (R79 to R81): its waiters, its line, and the record of a failed one. -/

namespace Sys2Proof.Machine

/-! ### Waiters answered OK (R79 step 3) -/

/-- R79 step 3: a read, decoded to `d`, answered OK with its bytes of a line. -/
def Slot.answeredFrom (x : Slot) (d : DecodeResult) (line : LineData) : Slot :=
  { x with state := .done, status := some .ok, tag := none, result := takeBytes d.offset x.count line }

theorem State.answerWaiter_slot {s : State} {i : SlotIx} {x : Slot} {d : DecodeResult} (line : LineData)
    (hx : s.urt.slots[i] = some x) (hd : x.decode = some d) :
    (State.answerWaiter line s i).urt.slots[i] = some (x.answeredFrom d line) := by
  simp only [State.answerWaiter, hx, hd]
  exact State.updateSlot_some hx _

theorem State.answerWaiter_ne {s : State} {i j : SlotIx} (line : LineData) (h : j ≠ i) :
    (State.answerWaiter line s i).urt.slots[j] = s.urt.slots[j] :=
  (State.answerWaiter_answered line s i j).resolve_right fun hj => h (List.mem_singleton.1 hj.1)

theorem State.answerWaiter_noneIn {s : State} {st : SlotState} (h : s.urt.NoneIn st) (hst : st ≠ .done) (line : LineData)
    (i : SlotIx) : (State.answerWaiter line s i).urt.NoneIn st := by
  unfold State.answerWaiter
  split
  · exact h
  · split
    · exact h
    · exact h.finish hst _ _ _

/-- R79 step 3: each waiter is answered; one answered before is answered alike. -/
theorem State.foldl_answerWaiter_slot (line : LineData) (l : List SlotIx) {s : State} {i : SlotIx} {x : Slot}
    {d : DecodeResult} (hx : s.urt.slots[i] = some x) (hd : x.decode = some d)
    (hi : i ∈ l ∨ x.answeredFrom d line = x) :
    (l.foldl (State.answerWaiter line) s).urt.slots[i] = some (x.answeredFrom d line) := by
  induction l generalizing s x with
  | nil => rw [hi.resolve_left (by simp)]; exact hx
  | cons a l ih =>
    by_cases e : i = a
    · subst e
      exact ih (x := x.answeredFrom d line) (State.answerWaiter_slot line hx hd) hd (.inr rfl)
    · exact ih ((State.answerWaiter_ne line e).trans hx) hd (hi.imp_left fun h => (List.mem_cons.1 h).resolve_left e)

theorem State.foldl_answerWaiter_noneIn {s : State} {st : SlotState} (h : s.urt.NoneIn st) (hst : st ≠ .done)
    (line : LineData) (l : List SlotIx) : (l.foldl (State.answerWaiter line) s).urt.NoneIn st := by
  induction l generalizing s with
  | nil => exact h
  | cons a l ih => exact ih (State.answerWaiter_noneIn h hst line a)

/-! ### The line at the end of its fill (R79 step 2, R80, R81) -/

theorem Rab.release_free (b : Rab) (r : LineIx) : (b.release r).lines[r] = RabLine.free :=
  (b.release_line r r).trans (if_pos rfl)

theorem Rab.finishFill_dropped {b : Rab} {r : LineIx} (hf : b.lines[r].state = .filling) (hd : b.lines[r].drop = true)
    (m : LineData) : b.finishFill r m = b.release r := by
  unfold Rab.finishFill
  rw [if_neg (not_not.2 hf), if_pos hd]

theorem Rab.finishFill_kept {b : Rab} {r : LineIx} (hf : b.lines[r].state = .filling) (hd : b.lines[r].drop = false)
    (m : LineData) : (b.finishFill r m).lines[r] = { b.lines[r] with
        state := .valid, patch := 0#32, waiters := [], tag := none, data := b.lines[r].filled m } ∧
      (b.finishFill r m).recency = (b.recency.filter fun q => q != r) ++ [r] := by
  unfold Rab.finishFill
  rw [if_neg (not_not.2 hf), if_neg (by rw [hd]; simp)]
  exact ⟨(Vector.get_set_fin ..).trans (if_pos rfl), rfl⟩

/-! ### The completion (R79, R81, R106) -/

/-- R79, R80: what an OK fill leaves, before the releases of the event. -/
theorem State.fillOk_parts (s : State) (r : LineIx) (m : LineData) :
    (s.fillOk r m).pctl = s.pctl ∧ (s.fillOk r m).rab = s.rab.finishFill r m ∧
    (∀ i ∈ s.rab.lines[r].waiters, ∀ (x : Slot) (d : DecodeResult), s.urt.slots[i] = some x → x.decode = some d →
      (s.fillOk r m).urt.slots[i] = some (x.answeredFrom d (s.rab.lines[r].filled m))) ∧
    (s.urt.NoneIn .orderWait → (s.fillOk r m).urt.NoneIn .orderWait) := by
  obtain ⟨D, hD⟩ := s.exists_depthsWithin
  exact ⟨(s.fillOk_work hD r m).frame.pctl, State.answers_rab (fun s i => State.answerWaiter_rab _ s i) _ _,
    fun i hi x d hx hd => State.foldl_answerWaiter_slot _ _ (s := s.withRab (s.rab.finishFill r m)) hx hd (.inl hi),
    fun h => State.foldl_answerWaiter_noneIn (s := s.withRab (s.rab.finishFill r m)) h (by simp) _ _⟩

theorem State.fillEnds_pctl (s : State) (r : LineIx) (g : TagIx) (k : FaultKind) : (s.fillEnds r g k).pctl = s.pctl := by
  obtain ⟨D, hD⟩ := s.exists_depthsWithin
  exact (s.fillEnds_access hD r g k).frame.pctl

theorem State.fillEnds_mli_out (s : State) (r : LineIx) (g : TagIx) (k : FaultKind) :
    (s.fillEnds r g k).mli = s.mli ∧ (s.fillEnds r g k).out = s.out := by
  obtain ⟨D, hD⟩ := s.exists_depthsWithin
  refine ⟨?_, (s.fillEnds_access hD r g k).frame.out⟩
  unfold State.fillEnds
  rw [State.log_mli, State.failWaiters_mli, State.withRab_mli]

theorem State.accessOk_fill {s : State} {x : Tag} {r : LineIx} (hk : x.kind = .demandRead ∨ x.kind = .prefetchRead)
    (ho : x.owner = some (.line r)) (g : TagIx) :
    (∀ m, s.accessOk x g (some m) = s.fillOk r m) ∧ s.accessOk x g none = s.fillEnds r g .fail := by
  have hends := State.accessEnds_fill (s := s) hk ho g .fail
  rcases hk with hk | hk <;>
    exact ⟨fun m => by simp only [State.accessOk, hk, Tag.ownerLine, ho], by simp only [State.accessOk, hk, hends]⟩

/-- R79: an OK completion of a fill, with DATA. -/
theorem exec_mcpl_fillOk {s : State} {header : Word} {g : TagIx} {r : LineIx} (data : Vector Word 8)
    (hr : s.pins.resetn = true) (hg : g = mcplTag header) (ho : s.mli[g].state = .outstanding)
    (hk : s.mli[g].kind = .demandRead ∨ s.mli[g].kind = .prefetchRead) (hown : s.mli[g].owner = some (.line r))
    (hf : flag header 31 = false) (hd : flag header 30 = true) :
    exec (.mcpl header data) s = .next ((s.quiet.putTag g Tag.free).fillOk r (lineOfWords data)).close := by
  have hdata : mcplData header data = some (lineOfWords data) := if_pos hd
  rw [exec_mcpl_ok data hr hg ho hf, hdata, (State.accessOk_fill hk hown g).1]

/-- R81, R106: a fill that fails, or whose completion carries no DATA. -/
theorem exec_mcpl_fillFails {s : State} {header : Word} {g : TagIx} {r : LineIx} (data : Vector Word 8)
    (hr : s.pins.resetn = true) (hg : g = mcplTag header) (ho : s.mli[g].state = .outstanding)
    (hk : s.mli[g].kind = .demandRead ∨ s.mli[g].kind = .prefetchRead) (hown : s.mli[g].owner = some (.line r))
    (hf : flag header 31 = true ∨ flag header 30 = false) :
    exec (.mcpl header data) s = .next ((s.quiet.putTag g Tag.free).fillEnds r g .fail).close := by
  by_cases h : flag header 31 = true
  · rw [exec_mcpl_fail data hr hg ho h, State.accessEnds_fill hk hown]
  · have hdata : mcplData header data = none := if_neg (by rw [hf.resolve_left h]; simp)
    rw [exec_mcpl_ok data hr hg ho (Bool.eq_false_iff.2 h), hdata, (State.accessOk_fill hk hown g).2]

theorem fillFailKind_fail (o : Origin) :
    fillFailKind o .fail = if o = .demand then .readFail else .prefetchFail := by cases o <;> rfl

/-- Settles O27: the waiters answered stand to the end of the event, and with nothing in ORDER_WAIT so does the line. -/
theorem fillCompletionAnswersWaiters : Obligations.FillCompletionAnswersWaiters := by
  intro s header data g r hr hg ho hk hown hfill
  refine ⟨fun hf hd => ?_, fun hf => ?_⟩
  · obtain ⟨hpctl, hrab, hslot, hnone⟩ := (s.quiet.putTag g Tag.free).fillOk_parts r (lineOfWords data)
    have hc := (ReleaseFrame.ofWorks fun _ h => State.fillOk_work (s.quiet.putTag g Tag.free) h r (lineOfWords data)).trans
      (State.close_release _)
    refine ⟨_, exec_mcpl_fillOk data hr hg ho hk hown hf hd, hc.mli, hc.elog, hc.faults, hc.out,
      fun i hi x d hx hdec => State.close_slot (hslot i hi x d hx hdec) (nomatch ·) (nomatch ·), fun hw hp => ?_⟩
    rw [State.close_idle (hnone hw) (by rw [hpctl]; exact hp), hrab]
    exact ⟨fun hdrop => Rab.finishFill_kept hfill hdrop _, fun hdrop => by
      rw [Rab.finishFill_dropped (by exact hfill) (by exact hdrop), Rab.release_free]⟩
  · obtain ⟨hflt, hlog, hrab, hslot, hnone⟩ := (s.quiet.putTag g Tag.free).fillEnds_parts r g .fail
    obtain ⟨hmli, hout⟩ := (s.quiet.putTag g Tag.free).fillEnds_mli_out r g .fail
    have hc := State.close_release ((s.quiet.putTag g Tag.free).fillEnds r g .fail)
    refine ⟨_, exec_mcpl_fillFails data hr hg ho hk hown hf, hc.mli.trans hmli, hc.faults.trans (congrArg Flt.entries hflt),
      hc.out.trans hout, hc.elog.trans (hlog.trans ?_),
      fun i hi x hx => State.close_slot (hslot i hi x hx) (by simp) (by simp), fun hw hp => ?_⟩
    · rw [fillFailKind_fail]
      rfl
    · rw [State.close_idle (hnone hw) (by rw [State.fillEnds_pctl]; exact hp), hrab, Rab.release_free]

end Sys2Proof.Machine
end

section
/-! PROOFS. INVALIDATE_RAB (R84, R103): every line and every stream, in a settled part. -/

namespace Sys2Proof.Machine

/-- R84: what INVALIDATE_RAB does to each line and to the recency list. -/
theorem Rab.invalidateAll_eq (b : Rab) : b.invalidateAll =
    { lines := Vector.ofFn fun r =>
        match b.lines[r].state with
        | .free => b.lines[r]
        | .valid => RabLine.free
        | .filling => { b.lines[r] with drop := true }
      recency := [] } := by
  have hnone : (b.recency.filter fun _ => !true) = [] := List.filter_false _
  unfold Rab.invalidateAll Rab.invalidate
  rw [hnone]
  rfl

/-- R103: with no stream in use none can move on. -/
theorem State.streamsSettled_of_empty {s : State} (h : s.stt = Stt.empty) : s.streamsSettled := fun k => by
  rw [h, Stream.reaches_of_not_valid (Stt.empty_valid k), Bool.false_and]

/-- R103: a settled part that loses its streams is settled, whatever its lines. -/
theorem State.Settled.withoutStreams {s : State} (h : s.Settled) (b : Rab) : ((s.withRab b).withStt Stt.empty).Settled :=
  h.of_streamsSettled rfl rfl rfl rfl (State.streamsSettled_of_empty rfl)

/-- R84, R103: INVALIDATE_RAB, taken by a settled part. -/
theorem invalidateFrame_accepted {s : State} (h : s.Settled) :
    invalidateFrame s = accepted ((s.withRab s.rab.invalidateAll).withStt Stt.empty) := by
  rw [invalidateFrame, (h.withoutStreams _).close]

/-- A COMMAND frame, from its start, is taken once (R173, R174). -/
theorem State.clockBytes_command {s : State} (h : s.frameStart) (n : BitVec 16) (arg : Word) :
    ∃ before bits, s.quiet.clockBytes (commandBytes n arg) =
      ((s.withOut (fillerOut 7)).withRx (.request before bits)).takeFrame (.command n arg) :=
  State.clockBytes_start h (frameOfBytes_command n arg)

/-- The part once the buffer and the streams have been told of an accepted frame. -/
theorem State.withRab_withStt_answering (s : State) (out : List PortMessage) (x y : Receiver) (b : Rab) (t : Stt) :
    ((((s.withOut out).withRx x).withRab b).withStt t).withRx y = { s with out := out, rx := y, rab := b, stt := t } := rfl

/-- Settles O37: the frame is taken once, and the part without streams stays settled. -/
theorem invalidateRabForgetsLinesAndStreams : Obligations.InvalidateRabForgetsLinesAndStreams := by
  intro s arg hs hstart
  obtain ⟨before, bits, hclock⟩ := State.clockBytes_command hstart 0x0003#16 arg
  have hexec : exec (.invalidateRab arg) s = .next (s.quiet.clockBytes (commandBytes 0x0003#16 arg)) := rfl
  have hu : ((s.withOut (fillerOut 7)).withRx (.request before bits)).Settled := hs.congr rfl rfl rfl rfl rfl rfl rfl
  rw [hexec, hclock, State.takeFrame_accepted (f := .command 0x0003#16 arg) (invalidateFrame_accepted hu),
    State.withRab_withStt_answering, State.withRx_rab, State.withOut_rab, Rab.invalidateAll_eq]
  rfl

end Sys2Proof.Machine
end

section
/-! PROOFS. The tags (R107, R115): their three states over every step, and how a QUARANTINED tag is freed, by a late
completion (R106, R120, R121) or by RECLAIM_TAGS (R126). -/

namespace Sys2Proof.Machine

/-! ### The second and third laws (R107, R115) -/

/-- R107: every tag is in one of the three states. -/
theorem Tag.countP_states (l : List Tag) :
    (l.countP fun x => x.state == .free) + (l.countP fun x => x.state == .outstanding) +
      (l.countP fun x => x.state == .quarantined) = l.length := by
  induction l with
  | nil => rfl
  | cons x l ih =>
    simp only [List.countP_cons, List.length_cons, ← ih]
    cases x.state <;> simp <;> omega

theorem State.tagCountLaw_holds (s : State) : s.tagCountLaw :=
  (Tag.countP_states s.mli.toList).trans Vector.length_toList

/-- Settles O53: every step is a chain of events, each of which keeps the third law; the second holds of every pool. -/
theorem everyStepKeepsTagLaws : Obligations.EveryStepKeepsTagLaws := fun _ t hlaw hstep =>
  ⟨(step_events hstep).interlockLaw hlaw, t.tagCountLaw_holds⟩

/-! ### A settled part whose tags or log change -/

theorem State.Settled.log {s : State} (h : s.Settled) (r : LogRecord) : (s.log r).Settled :=
  h.congr rfl rfl rfl rfl rfl rfl rfl

theorem State.Settled.reclaimTags {s : State} (h : s.Settled) : s.reclaimTags.Settled :=
  (h.withMli (Mli.reclaim_sameOutstanding s.mli)).log _

/-! ### Completions that no access waits for (R106, R120, R121) -/

theorem exec_mcpl_reset {s : State} (header : Word) (data : Vector Word 8) (hr : s.pins.resetn = false) :
    exec (.mcpl header data) s = .next s.quiet :=
  if_neg (by rw [hr]; exact nofun)

theorem exec_mcpl_taken {s : State} (header : Word) (data : Vector Word 8) (hr : s.pins.resetn = true) :
    exec (.mcpl header data) s =
      .next (s.quiet.complete (mcplTag header) (mcplOk header) (mcplData header data)).close :=
  if_pos hr

theorem State.complete_free {s : State} {g : TagIx} (h : s.mli[g].state = .free) (ok : Bool) (data : Option LineData) :
    s.complete g ok data = s.log (strayRecord s.tgen.stamp g) := by
  rw [State.complete, h]

theorem State.complete_quarantined {s : State} {g : TagIx} (h : s.mli[g].state = .quarantined) (ok : Bool)
    (data : Option LineData) :
    s.complete g ok data = (s.putTag g Tag.free).log (lateRecord s.tgen.stamp s.mli[g].line g) := by
  rw [State.complete, h]

/-- Settles O24: by the state of the tag; neither the record nor the freed tag leaves work to the end of the event. -/
theorem strayAndLateCompletionsAreRecorded : Obligations.StrayAndLateCompletionsAreRecorded := by
  intro s header data g hg
  subst hg
  refine ⟨exec_mcpl_reset header data, fun hs hr hfree => ?_, fun hs hr hq => ?_⟩
  · rw [exec_mcpl_taken header data hr, State.complete_free (s := s.quiet) hfree, (hs.quiet.log _).close]
    rfl
  · have hput : (s.quiet.putTag (mcplTag header) Tag.free).Settled :=
      hs.quiet.withMli (Mli.put_sameOutstanding (by rw [State.quiet_mli, hq]; exact nofun) nofun)
    rw [exec_mcpl_taken header data hr, State.complete_quarantined (s := s.quiet) hq, (hput.log _).close]
    rfl

/-! ### RECLAIM_TAGS (R126) -/

theorem State.reclaimTags_eq (s : State) : s.reclaimTags = { s with
    mli := Mli.reclaim s.mli
    elog := s.elog.append (reclaimRecord s.tgen.stamp (Mli.countState s.mli .quarantined)) } := rfl

/-- R126: RECLAIM_TAGS, taken by a settled part. -/
theorem reclaimFrame_accepted {s : State} (h : s.Settled) : reclaimFrame s = accepted s.reclaimTags := by
  rw [reclaimFrame, h.reclaimTags.close]

/-- Settles O41: the frame is taken once, and the tags it frees were not OUTSTANDING, so the part stays settled. -/
theorem reclaimFreesQuarantinedTags : Obligations.ReclaimFreesQuarantinedTags := by
  intro s arg hs hstart
  obtain ⟨before, bits, hclock⟩ := State.clockBytes_command hstart 0x0007#16 arg
  have hexec : exec (.reclaimTags arg) s = .next (s.quiet.clockBytes (commandBytes 0x0007#16 arg)) := rfl
  have hu : ((s.withOut (fillerOut 7)).withRx (.request before bits)).Settled := hs.congr rfl rfl rfl rfl rfl rfl rfl
  rw [hexec, hclock, State.takeFrame_accepted (f := .command 0x0007#16 arg) (reclaimFrame_accepted hu),
    State.reclaimTags_eq, State.withRx_mli, State.withRx_elog, State.withRx_tgen, State.withOut_mli, State.withOut_elog,
    State.withOut_tgen]
  rfl

end Sys2Proof.Machine
end

section
/-! PROOFS. The output levels: the attention causes and ATTN (R169, R170), and the bits of a reply on MSO (R172, R173). -/

namespace Sys2Proof.Machine

/-! ### The attention causes (R169) -/

theorem Vector.countP_toList_pos_iff {α : Type} {n : Nat} (v : Vector α n) (p : α → Bool) :
    0 < v.toList.countP p ↔ ∃ i : Fin n, p v[i] = true := by
  rw [List.countP_pos_iff]
  refine ⟨fun ⟨x, hx, hp⟩ => ?_, fun ⟨i, hp⟩ => ⟨v[i], by simp, hp⟩⟩
  obtain ⟨k, hk, rfl⟩ := List.getElem_of_mem hx
  exact ⟨⟨k, by simpa using hk⟩, by simpa using hp⟩

theorem State.causeHolds_logNonempty (s : State) : s.causeHolds .logNonempty = true ↔ s.elog.records ≠ [] := by
  simp [State.causeHolds]

theorem State.causeHolds_fltNonempty (s : State) :
    s.causeHolds .fltNonempty = true ↔ ∃ i : FaultIx, s.flt.entries[i] ≠ none := by
  rw [State.causeHolds, decide_eq_true_iff, Flt.count, Vector.countP_toList_pos_iff]
  simp only [Option.isSome_iff_ne_none]

theorem State.causeHolds_quarantine (s : State) :
    s.causeHolds .quarantine = true ↔ ∃ g : TagIx, s.mli[g].state = .quarantined := by
  rw [State.causeHolds, decide_eq_true_iff, Mli.countState, Vector.countP_toList_pos_iff]
  simp only [beq_iff_eq]

theorem State.causeHolds_halted (s : State) : s.causeHolds .halted = true ↔ s.pctl.path = .halt := beq_iff_eq

/-- R170: ATTN, cause by cause. -/
theorem State.attn_iff (s : State) : s.attn = true ↔ s.pins.resetn = true ∧
    ∃ c ∈ Cause.all, s.cfg.attnMask.getLsbD c.bit = true ∧ s.causeHolds c = true := by
  simp only [State.attn, Bool.and_eq_true, List.any_eq_true]

/-! ### The bits of a reply (R172, R173) -/

/-- The bytes of words, four for each, most significant first. -/
theorem bytesHighFirst_get (ws : List Word) (n : Nat) : (ws.flatMap bytesHighFirst)[n]? =
    ws[n / 4]?.map fun w => w.extractLsb' (24 - 8 * (n % 4)) 8 := by
  induction ws generalizing n with
  | nil => rfl
  | cons w ws ih =>
    match n with
    | 0 => rfl
    | 1 => rfl
    | 2 => rfl
    | 3 => rfl
    | n + 4 =>
      have hdiv : (n + 4) / 4 = n / 4 + 1 := by omega
      rw [hdiv, Nat.add_mod_right, List.getElem?_cons_succ, ← ih]
      rfl

theorem Reply.level_status {r : Reply} (h : r.clocked < 8) : r.level = r.status.code.getLsbD (7 - r.clocked) := by
  rw [Reply.level, Nat.div_eq_of_lt h, Nat.mod_eq_of_lt h]
  rfl

/-- After the status byte come the words, most significant bit first. -/
theorem Reply.level_word {r : Reply} {w : Word} (h : 8 ≤ r.clocked) (hw : r.words[(r.clocked - 8) / 32]? = some w) :
    r.level = w.getLsbD (31 - (r.clocked - 8) % 32) := by
  obtain ⟨k, hk⟩ := Nat.exists_eq_add_of_le' h
  rw [hk, Nat.add_sub_cancel] at hw ⊢
  have hdiv : (k + 8) / 8 = k / 8 + 1 := by omega
  have hbyte : r.bytes.getD ((k + 8) / 8) 0xFF#8 = w.extractLsb' (24 - 8 * (k / 8 % 4)) 8 := by
    rw [Reply.bytes, hdiv, List.getD_cons_succ, List.getD_eq_getElem?_getD, bytesHighFirst_get, Nat.div_div_eq_div_mul, hw]
    rfl
  have hin : 7 - (k + 8) % 8 < 8 := by omega
  have hat : 24 - 8 * (k / 8 % 4) + (7 - (k + 8) % 8) = 31 - k % 32 := by omega
  rw [Reply.level, hk, hbyte, BitVec.getLsbD_extractLsb', decide_eq_true hin, Bool.true_and, hat]

/-! ### MSO (R172) -/

theorem State.mso_deselected {s : State} (h : s.pins.mssn = true) : s.mso = none := if_pos h

theorem State.mso_reply {s : State} {r : Reply} (h : s.pins.mssn = false) (hx : s.rx = .reply r) : s.mso = some r.level := by
  rw [State.mso, h, hx]
  rfl

theorem State.mso_filler {s : State} (h : s.pins.mssn = false) (hx : ∀ r, s.rx ≠ .reply r) : s.mso = some true := by
  rw [State.mso, h]
  cases hrx : s.rx with
  | reply r => exact absurd hrx (hx r)
  | idle => rfl
  | request bytes bits => rfl
  | trail => rfl

/-- Settles O48: ATTN by its six causes, MSO by the receiver's state. -/
theorem outputLevels : Obligations.OutputLevels := by
  intro s
  refine ⟨?_, beq_iff_eq, by rw [State.mrstAsserted, Bool.not_eq_true'], State.mso_deselected, State.mso_filler,
    fun r hp hx => ⟨fun hlt => ?_, fun w hle hw => ?_⟩, rfl, rfl, rfl, rfl⟩
  · simp only [State.attn_iff, Cause.all, List.mem_cons, List.not_mem_nil, or_false, exists_eq_or_imp, exists_eq_left,
      State.causeHolds_logNonempty, State.causeHolds_fltNonempty, State.causeHolds_quarantine, State.causeHolds_halted]
    rfl
  · rw [State.mso_reply hp hx, Reply.level_status hlt]
  · rw [State.mso_reply hp hx, Reply.level_word hle hw]

end Sys2Proof.Machine
end

section
/-! PROOFS. The Faulted Line Table and the log over every step (R131, R161, R164), and the receiver's law: what leaves the
receiver and its two pins, and what each period of MSCK makes of it (R172 to R175). -/

namespace Sys2Proof.Machine

/-! ### The receiver's law (R174, R175) -/

/-- The number of words a reply has after its status byte (R175). -/
def Reply.wordCount (r : Reply) : Nat := (r.object.map PortObject.wordCount).getD 0

/-- R175: a reply in progress has bits left, and all the words of its object once its status byte is out. -/
def Reply.Sound (r : Reply) : Prop :=
  r.clocked < 8 * (1 + 4 * r.wordCount) ∧ r.words.length = if r.clocked < 8 then 0 else r.wordCount

/-- What the receiver's law asks of the receiver alone. -/
def Receiver.Sound : Receiver → Prop
  | .idle => True
  | .request bytes bits => bits.length < 8 ∧ frameOfBytes bytes = none
  | .reply r => r.Sound
  | .trail => True

/-- RESETn is high and MSSn low: the receiver may be out of IDLE (R174). -/
def State.selected (s : State) : Prop := s.pins.resetn = true ∧ s.pins.mssn = false

theorem State.portLaw_iff (s : State) : s.portLaw ↔ (s.rx ≠ .idle → s.selected) ∧ s.rx.Sound := by
  constructor
  · rintro ⟨hsel, hrequest, hreply⟩
    refine ⟨hsel, ?_⟩
    cases hx : s.rx with
    | idle => trivial
    | request bytes bits => exact hrequest bytes bits hx
    | reply r => exact hreply r hx
    | trail => trivial
  · rintro ⟨hsel, hrx⟩
    exact ⟨hsel, fun bytes bits hx => by rw [hx] at hrx; exact hrx, fun r hx => by rw [hx] at hrx; exact hrx⟩

theorem State.portLaw_idle {s : State} (h : s.rx = .idle) : s.portLaw :=
  s.portLaw_iff.2 ⟨fun hn => absurd h hn, by rw [h]; trivial⟩

theorem State.portLaw_withRx {s : State} {x : Receiver} (hs : s.selected) (hx : x.Sound) : (s.withRx x).portLaw :=
  (s.withRx x).portLaw_iff.2 ⟨fun _ => hs, hx⟩

theorem State.portLaw.selected {s : State} (h : s.portLaw) (hx : s.rx ≠ .idle) : s.selected := h.1 hx

/-! ### What leaves the port alone -/

/-- The receiver and the pins that its law reads stand. -/
structure PortFrame (s t : State) : Prop where
  rx : t.rx = s.rx
  resetn : t.pins.resetn = s.pins.resetn
  mssn : t.pins.mssn = s.pins.mssn

theorem PortFrame.refl (s : State) : PortFrame s s := ⟨rfl, rfl, rfl⟩

theorem PortFrame.trans {s t u : State} (h : PortFrame s t) (k : PortFrame t u) : PortFrame s u :=
  ⟨k.rx.trans h.rx, k.resetn.trans h.resetn, k.mssn.trans h.mssn⟩

theorem PortFrame.of_pins {s t : State} (hrx : t.rx = s.rx) (hpins : t.pins = s.pins) : PortFrame s t :=
  ⟨hrx, by rw [hpins], by rw [hpins]⟩

theorem PortFrame.selected {s t : State} (h : PortFrame s t) (hs : s.selected) : t.selected :=
  ⟨h.resetn.trans hs.1, h.mssn.trans hs.2⟩

theorem PortFrame.portLaw {s t : State} (h : PortFrame s t) (hs : s.portLaw) : t.portLaw := by
  obtain ⟨hsel, hrx⟩ := s.portLaw_iff.1 hs
  refine t.portLaw_iff.2 ⟨fun hx => h.selected (hsel (h.rx ▸ hx)), ?_⟩
  rw [h.rx]
  exact hrx

theorem InsideFrame.port {s t : State} (h : InsideFrame s t) : PortFrame s t := .of_pins h.rx h.pins

theorem ServiceFrame.port {s t : State} (h : ServiceFrame s t) : PortFrame s t := h.access.inside.port

theorem State.withUrt_port (s : State) (x) : PortFrame s (s.withUrt x) := .of_pins rfl rfl
theorem State.withPq_port (s : State) (x) : PortFrame s (s.withPq x) := .of_pins rfl rfl
theorem State.withRab_port (s : State) (x) : PortFrame s (s.withRab x) := .of_pins rfl rfl
theorem State.withStt_port (s : State) (x) : PortFrame s (s.withStt x) := .of_pins rfl rfl
theorem State.withMli_port (s : State) (x) : PortFrame s (s.withMli x) := .of_pins rfl rfl
theorem State.withFlt_port (s : State) (x) : PortFrame s (s.withFlt x) := .of_pins rfl rfl
theorem State.withElog_port (s : State) (x) : PortFrame s (s.withElog x) := .of_pins rfl rfl
theorem State.withPctl_port (s : State) (x) : PortFrame s (s.withPctl x) := .of_pins rfl rfl
theorem State.withTgen_port (s : State) (x) : PortFrame s (s.withTgen x) := .of_pins rfl rfl
theorem State.withRdec_port (s : State) (x) : PortFrame s (s.withRdec x) := .of_pins rfl rfl
theorem State.withCfg_port (s : State) (x) : PortFrame s (s.withCfg x) := .of_pins rfl rfl
theorem State.log_port (s : State) (r) : PortFrame s (s.log r) := .of_pins rfl rfl

theorem State.quiet_port (s : State) : PortFrame s s.quiet := s.quiet_inside.port

theorem State.close_port (s : State) : PortFrame s s.close := s.close_inside.port

theorem State.haltTest_port (s : State) : PortFrame s s.haltTest := s.haltTest_inside.port

theorem State.takeTick_port (o : TickOrder) (s : State) : PortFrame s (s.takeTick o) := by
  obtain ⟨D, hD⟩ := s.exists_depthsWithin
  obtain ⟨u, ha, he⟩ := State.takeTick_access o s hD
  rw [he]
  exact (s.advanceStamp_inside.trans (ha.frame.inside.trans u.haltTest_inside)).port

theorem State.refclk_port (s : State) : PortFrame s s.refclk := by
  unfold State.refclk
  split
  · split
    · exact (s.withTgen_port _).trans (State.takeTick_port _ _)
    · exact s.withTgen_port _
  · exact .refl s

theorem State.sendWithheld_port (s : State) : PortFrame s s.sendWithheld := by
  unfold State.sendWithheld
  split
  · exact .of_pins rfl rfl
  · exact .refl s

theorem State.demandRises_port (s : State) : PortFrame s s.demandRises := by
  unfold State.demandRises
  split
  · exact (s.withPctl_port _).trans (State.haltTest_port _)
  · exact .refl s

theorem State.demandFalls_port (s : State) : PortFrame s s.demandFalls := by
  have hrun : PortFrame s s.inRun.sendWithheld := (s.withPctl_port _).trans (State.sendWithheld_port _)
  unfold State.demandFalls
  split
  · exact .refl s
  · exact hrun
  · exact hrun.trans (ReleaseFrame.ofWorks fun _ h => State.releaseHeld_work _ h).toInsideFrame.port

theorem State.setLatch_port (s : State) : PortFrame s s.setLatch := by
  unfold State.setLatch
  split
  · exact s.withPctl_port _
  · exact (s.withPctl_port _).trans (State.demandRises_port _)

theorem State.clearLatch_port (s : State) : PortFrame s s.clearLatch := by
  unfold State.clearLatch
  split
  · exact (s.withPctl_port _).trans (State.demandFalls_port _)
  · exact s.withPctl_port _

theorem State.dropLink_port (s : State) : PortFrame s s.dropLink :=
  (((((s.withUrt_port _).trans (State.withRab_port _ _)).trans (State.withMli_port _ _)).trans (State.withStt_port _ _)).trans
    (State.withPq_port _ _)).trans (State.withFlt_port _ _)

theorem State.linkComesUp_port (s : State) : PortFrame s s.linkComesUp := by
  unfold State.linkComesUp
  split <;> exact .of_pins rfl rfl

theorem State.releaseLink_port (s : State) : PortFrame s s.releaseLink := by
  unfold State.releaseLink
  split
  · exact s.linkComesUp_port
  · exact .refl s

theorem State.releaseDemand_port (s : State) : PortFrame s s.releaseDemand := by
  unfold State.releaseDemand
  split
  · exact s.demandRises_port
  · exact .refl s

theorem State.respond_port (s : State) (i : SlotIx) : PortFrame s (s.respond i) := by
  unfold State.respond State.creditStep
  split
  · exact .refl s
  · split <;> exact .of_pins rfl rfl

theorem State.takeRequest_port (s : State) (i : SlotIx) (header addr : Word) (data : Vector Word 8) :
    PortFrame s (s.takeRequest i header addr data) := by
  obtain ⟨_, hf⟩ := s.takeRequest_frame i header addr data
  exact (s.withUrt_port _).trans hf.port

/-! ### What a frame does leaves the port alone (R173, R174) -/

theorem commandFrame_port (n : BitVec 16) (arg : Word) (s : State) : PortFrame s (commandFrame n arg s).state := by
  unfold commandFrame
  split
  · exact s.setLatch_port.trans (State.close_port _)
  · exact s.clearLatch_port.trans (State.close_port _)
  · exact ((s.withRab_port _).trans (State.withStt_port _ _)).trans (State.close_port _)
  · unfold popLogFrame
    split
    · exact .refl s
    · exact s.withElog_port _
  · exact s.withElog_port _
  · unfold clearFaultFrame
    split
    · exact s.withFlt_port _
    · split
      · split
        · exact s.withFlt_port _
        · exact .refl s
      · exact .refl s
  · exact ((s.withMli_port _).trans (State.log_port _ _)).trans (State.close_port _)
  · exact (s.withElog_port _).trans (State.withFlt_port _ _)
  · exact .refl s

theorem objectFrame_port (o : PortObject) (ws : List Word) (s : State) : PortFrame s (objectFrame o ws s).state := by
  unfold objectFrame
  split
  · unfold globalFrame
    split
    · exact (((s.withRdec_port _).trans (State.withCfg_port _ _)).trans (State.withTgen_port _ _)).trans (State.close_port _)
    · exact .refl s
  · unfold defaultRegionFrame
    split
    · exact (s.withRdec_port _).trans (State.close_port _)
    · exact .refl s
  · unfold regionFrame
    split
    · exact (((s.withRdec_port _).trans (State.withRab_port _ _)).trans (State.withStt_port _ _)).trans (State.close_port _)
    · exact .refl s
  all_goals exact .refl s

theorem Frame.run_port (f : Frame) (s : State) : PortFrame s (f.run s).state := by
  cases f
  case read n =>
    show PortFrame s (readFrame n s).state
    unfold readFrame
    split <;> exact .refl s
  case write o ws => exact objectFrame_port o ws s
  case command n arg => exact commandFrame_port n arg s
  all_goals exact .refl s

/-! ### The shift keeps the law (R172, R174, R175) -/

/-- R174: a reply of which no bit is out. -/
theorem Reply.sound_begun (st : FrameStatus) (o : Option PortObject) :
    Reply.Sound { status := st, object := o, words := [], clocked := 0 } :=
  ⟨Nat.mul_pos (by decide) (Nat.le_add_right 1 _), rfl⟩

theorem State.takeFrame_portLaw {s : State} (hs : s.selected) (f : Frame) : (s.takeFrame f).portLaw :=
  State.portLaw_withRx ((f.run_port s).selected hs) (Reply.sound_begun _ _)

theorem State.takeBit_portLaw {s : State} {bytes : List Byte} {bits : List Bool} (hs : s.selected)
    (hf : frameOfBytes bytes = none) (msi : Bool) : (s.takeBit bytes bits msi).portLaw := by
  unfold State.takeBit
  split
  · rename_i hlt
    refine State.portLaw_withRx hs ⟨?_, hf⟩
    rw [List.length_append, List.length_singleton]
    omega
  · cases hn : frameOfBytes (bytes ++ [byteOfBits (bits ++ [msi])]) with
    | some f => rw [State.takeBytes_some hn]; exact State.takeFrame_portLaw hs f
    | none => rw [State.takeBytes_none hn]; exact State.portLaw_withRx hs ⟨Nat.succ_pos _, hn⟩

/-- R175: the picture is empty until the status byte is out, and has the words of its object from then on. -/
theorem State.pictureAt_length (s : State) {r : Reply} (hr : r.Sound) :
    (s.pictureAt r (r.clocked + 1)).length = if r.clocked + 1 < 8 then 0 else r.wordCount := by
  obtain ⟨_, hwords⟩ := hr
  unfold State.pictureAt
  split
  · rename_i h8
    rw [h8, if_neg (Nat.lt_irrefl 8)]
    unfold Reply.wordCount
    cases r.object with
    | none => rfl
    | some o => exact s.objectWords_length o
  · rename_i h8
    rw [hwords]
    split <;> split <;> first | rfl | omega

/-- R174: with a bit left the reply goes on, and with none the receiver is in TRAIL. -/
theorem State.shiftReply_portLaw {s : State} {r : Reply} (hs : s.selected) (hr : r.Sound) : (s.shiftReply r).portLaw := by
  have hlen := s.pictureAt_length hr
  unfold State.shiftReply
  refine State.portLaw_withRx hs ?_
  split
  · trivial
  · rename_i hleft
    rw [hlen] at hleft
    refine ⟨?_, hlen⟩
    show r.clocked + 1 < 8 * (1 + 4 * r.wordCount)
    split at hleft <;> omega

theorem State.sampleBit_portLaw {s : State} (h : s.portLaw) (msi : Bool) : (s.sampleBit msi).portLaw := by
  obtain ⟨hsel, hrx⟩ := s.portLaw_iff.1 h
  unfold State.sampleBit
  cases hx : s.rx with
  | idle => exact h
  | request bytes bits =>
    rw [hx] at hsel hrx
    have hs : s.selected := hsel (by simp)
    dsimp only
    rw [if_pos hs.1]
    exact State.takeBit_portLaw hs hrx.2 msi
  | reply r =>
    rw [hx] at hsel hrx
    exact State.shiftReply_portLaw (hsel (by simp)) hrx
  | trail => exact h

theorem State.clockBit_portLaw {s : State} (h : s.portLaw) (msi : Bool) : (s.clockBit msi).portLaw := by
  unfold State.clockBit
  split
  · rename_i level _
    exact State.sampleBit_portLaw ((s.emit_inside (.mso level)).port.portLaw h) msi
  · exact h

theorem State.clockBytes_portLaw {s : State} (h : s.portLaw) (bytes : List Byte) : (s.clockBytes bytes).portLaw :=
  List.foldlRecOn bytes _ h fun _ hbyte b _ =>
    List.foldlRecOn (bitsHighFirst b) _ hbyte fun _ hbit msi _ => State.clockBit_portLaw hbit msi

theorem State.clockReply_portLaw {s : State} (h : s.portLaw) : s.clockReply.portLaw := by
  unfold State.clockReply
  split
  · exact State.clockBit_portLaw h true
  all_goals exact h

/-! ### Every command, and every step -/

/-- The commands that reach the receiver, RESETn or MSSn. -/
def Instr.atPort (c : Instr) : Bool :=
  match c with
  | .resetnAssert => true
  | .resetnRelease _ => true
  | .mssnFall => true
  | .mssnRise => true
  | c => c.isFrame

/-- Every other command leaves the port alone. -/
theorem exec_port {c : Instr} {s t : State} (h : exec c s = .next t) (hc : Instr.atPort c = false) : PortFrame s t := by
  have inside : (c = .orderRelease ∨ c = .postWaitRetry ∨ c = .drainWaitRelease ∨ c = .fenceDone ∨ c = .readiness ∨
      c = .quarantine ∨ c = .idleExpiry ∨ (∃ hd d, c = .mcpl hd d) ∨ ∃ o, c = .tick o) → PortFrame s t := fun hc => by
    obtain ⟨hpins, _, _, _, hrx, _⟩ := insideEventsKeepRequestsAndConfiguration c s t hc h
    exact .of_pins hrx hpins
  have quiet : PortFrame s s.quiet := s.quiet_port
  have link : ∀ b, PortFrame s (s.quiet.withPins { s.pins with ilrstn := b }) := fun _ => ⟨rfl, rfl, rfl⟩
  have demand : ∀ b, PortFrame s (s.quiet.withPins { s.pins with qreq := b }) := fun _ => ⟨rfl, rfl, rfl⟩
  cases c
  case req header addr data =>
    simp only [exec, execReq] at h
    split at h
    · exact Host.Outcome.next.inj h ▸ quiet
    · split at h
      · exact Host.Outcome.next.inj h ▸ ⟨rfl, rfl, rfl⟩
      · split at h
        · exact Host.Outcome.next.inj h ▸ quiet.trans (State.takeRequest_port ..)
        · exact absurd h (by simp)
  case resp =>
    simp only [exec, execResp] at h
    split at h
    · exact Host.Outcome.next.inj h ▸ quiet
    · split at h <;> obtain rfl := Host.Outcome.next.inj h
      · exact (quiet.trans (State.respond_port _ _)).trans (State.close_port _)
      · exact quiet
  case ilrstnAssert =>
    simp only [exec, execIlrstnAssert] at h
    split at h <;> obtain rfl := Host.Outcome.next.inj h
    · exact (link _).trans ((State.dropLink_port _).trans (State.close_port _))
    · exact link _
  case ilrstnDeassert =>
    simp only [exec, execIlrstnDeassert] at h
    split at h <;> obtain rfl := Host.Outcome.next.inj h
    · exact (link _).trans (State.linkComesUp_port _)
    · exact link _
  case qreqAssert =>
    simp only [exec, execQreqAssert] at h
    split at h <;> obtain rfl := Host.Outcome.next.inj h
    · exact (demand _).trans ((State.demandRises_port _).trans (State.close_port _))
    · exact demand _
  case qreqDeassert =>
    simp only [exec, execQreqDeassert] at h
    split at h <;> obtain rfl := Host.Outcome.next.inj h
    · exact (demand _).trans ((State.demandFalls_port _).trans (State.close_port _))
    · exact demand _
  case deadlineReached => exact Host.Outcome.next.inj h ▸ quiet
  case haltEntry => exact Host.Outcome.next.inj h ▸ quiet.trans (State.haltTest_port _)
  case orderRelease | postWaitRetry | drainWaitRelease | fenceDone | readiness | quarantine | idleExpiry | mcpl | tick =>
    exact inside (by simp)
  all_goals cases hc

theorem exec_portLaw {c : Instr} {s t : State} (h : exec c s = .next t) (hs : s.portLaw) : t.portLaw := by
  have quiet : s.quiet.portLaw := s.quiet_port.portLaw hs
  by_cases hc : Instr.atPort c = false
  · exact (exec_port h hc).portLaw hs
  by_cases hf : c.isFrame = true
  · obtain ⟨bytes, he⟩ := exec_frame s hf
    obtain rfl := Host.Outcome.next.inj (he.symm.trans h)
    exact State.clockBytes_portLaw quiet bytes
  cases c
  case resetnAssert =>
    simp only [exec, execResetnAssert] at h
    split at h <;> obtain rfl := Host.Outcome.next.inj h
    · exact State.portLaw_idle rfl
    · exact quiet
  case resetnRelease o =>
    by_cases hr : s.pins.resetn = true
    · rw [show exec (.resetnRelease o) s = .next s.quiet from if_pos hr] at h
      exact Host.Outcome.next.inj h ▸ quiet
    · have hidle : s.rx = .idle := by
        by_contra hx
        exact hr (hs.selected hx).1
      have hpins : (s.quiet.withPins { s.pins with resetn := true }).portLaw := State.portLaw_idle hidle
      rw [exec_resetnRelease_down hr] at h
      cases o <;> obtain rfl := Host.Outcome.next.inj h
      · exact ((State.releaseLink_port _).trans (State.releaseDemand_port _)).portLaw hpins
      · exact ((State.releaseDemand_port _).trans (State.releaseLink_port _)).portLaw hpins
  case mssnFall =>
    simp only [exec, execMssnFall] at h
    split at h <;> obtain rfl := Host.Outcome.next.inj h
    · rename_i hp
      exact State.portLaw_withRx (s := s.quiet.withPins { s.pins with mssn := false }) ⟨hp.2, rfl⟩ ⟨Nat.succ_pos _, rfl⟩
    · obtain ⟨hsel, hrx⟩ := s.portLaw_iff.1 hs
      exact (State.portLaw_iff _).2 ⟨fun hx => ⟨(hsel hx).1, rfl⟩, hrx⟩
  case mssnRise =>
    simp only [exec, execMssnRise] at h
    split at h <;> obtain rfl := Host.Outcome.next.inj h
    · exact State.portLaw_idle rfl
    · exact quiet
  all_goals first | exact absurd rfl hc | exact absurd rfl hf

theorem step_portLaw {s t : State} (h : step s = .next t) (hs : s.portLaw) : t.portLaw := by
  unfold step at h
  split at h
  · obtain rfl := Host.Outcome.next.inj h
    exact State.clockReply_portLaw ((s.quiet_port.trans (State.refclk_port _)).portLaw hs)
  · exact exec_portLaw h (PortFrame.portLaw ⟨rfl, rfl, rfl⟩ hs)

/-- Settles O55: every change of fault table or log keeps the eleventh law under the guard its operation checks; only the pins
RESETn and MSSn and the bits of a frame reach the receiver. -/
theorem everyStepKeepsFaultLogAndPortLaws : Obligations.EveryStepKeepsFaultLogAndPortLaws := fun _ _ h =>
  ⟨(step_events h).faultAndLogLaw, step_portLaw h⟩

end Sys2Proof.Machine
end

section
/-! PROOFS. CLEAR_FAULT (R135, R181): what its argument names. -/

namespace Sys2Proof.Machine

theorem clearFaultFrame_index {arg : Word} {i : FaultIx} (h : arg.toNat = i.val) (s : State) : clearFaultFrame arg s =
    if s.flt.entries[i].isSome then accepted (s.withFlt (s.flt.remove i)) else rejected .refused s := by
  have hlt : arg.toNat < 8 := h ▸ i.isLt
  have hall : arg ≠ 0x100#32 := fun e => absurd (e ▸ hlt) (by decide)
  have hi : Fin.ofNat 8 arg.toNat = i := Fin.ext ((Nat.mod_eq_of_lt hlt).trans h)
  subst hi
  rw [clearFaultFrame, if_neg hall, if_pos hlt]

theorem clearFaultFrame_all {arg : Word} (h : arg.toNat = 0x100) (s : State) :
    clearFaultFrame arg s = accepted (s.withFlt s.flt.clearAll) := if_pos (BitVec.eq_of_toNat_eq h)

theorem clearFaultFrame_badValue {arg : Word} (h8 : 8 ≤ arg.toNat) (hall : arg.toNat ≠ 0x100) (s : State) :
    clearFaultFrame arg s = rejected .badValue s := by
  rw [clearFaultFrame, if_neg fun e => hall (congrArg BitVec.toNat e), if_neg (Nat.not_lt.2 h8)]

/-- Settles O40: the frame is taken once, and its argument is an index of the table, ALL, or neither. -/
theorem clearFaultRemovesNamedEntry : Obligations.ClearFaultRemovesNamedEntry := by
  intro s arg hstart
  obtain ⟨before, bits, hclock⟩ := State.clockBytes_command hstart 0x0006#16 arg
  have hexec : exec (.clearFault arg) s = .next (s.quiet.clockBytes (commandBytes 0x0006#16 arg)) := rfl
  rw [hexec, hclock]
  generalize hu : (s.withOut (fillerOut 7)).withRx (.request before bits) = u
  have hrun : (Frame.command 0x0006#16 arg).run u = clearFaultFrame arg u := rfl
  have hentries : u.flt.entries = s.flt.entries := by rw [← hu]; rfl
  refine ⟨fun i hi hsome => ?_, fun i hi hfree => ?_, fun hall => ?_, fun h8 hall => ?_⟩
  · have hsome : u.flt.entries[i].isSome = true := by rw [hentries]; exact Option.isSome_iff_ne_none.2 hsome
    rw [State.takeFrame_accepted (hrun.trans ((clearFaultFrame_index hi u).trans (if_pos hsome))), ← hu]
    rfl
  · have hfree : ¬ u.flt.entries[i].isSome = true := by rw [hentries, hfree]; exact Bool.false_ne_true
    rw [State.takeFrame_rejected (hrun.trans ((clearFaultFrame_index hi u).trans (if_neg hfree))), ← hu]
    rfl
  · rw [State.takeFrame_accepted (hrun.trans (clearFaultFrame_all hall u)), ← hu]
    rfl
  · rw [State.takeFrame_rejected (hrun.trans (clearFaultFrame_badValue h8 hall u)), ← hu]
    rfl

end Sys2Proof.Machine
end

section
/-! PROOFS. The device reset (R154): what its assertion leaves, and that no step under it but its release leaves the reset
values. -/

namespace Sys2Proof.Machine

/-! ### The part at its reset values -/

/-- Every block holds its device-reset value; pins, messages, the queue of commands and the model's counter are free. -/
def State.AtReset (s : State) : Prop := s.quiet = s.deviceReset

theorem State.resetLaw_iff (s : State) : s.resetLaw ↔ (s.pins.resetn = false → s.AtReset) := Iff.rfl

theorem State.deviceReset_atReset (s : State) : s.deviceReset.AtReset := rfl

theorem State.AtReset.withOut {s : State} (h : s.AtReset) (out : List PortMessage) : (s.withOut out).AtReset := h

theorem State.AtReset.withPins {s : State} (h : s.AtReset) {p : Pins} (hp : p.resetn = false) : (s.withPins p).AtReset := by
  have hpins : { p with resetn := false } = p := by rw [← hp]
  calc s.quiet.withPins p = s.deviceReset.withPins p := by rw [h]
    _ = s.deviceReset.withPins { p with resetn := false } := by rw [hpins]

theorem State.AtReset.withPending {s : State} (h : s.AtReset) (cs : List Instr) :
    State.AtReset { s with pending := cs } := by
  show ({ s.quiet with pending := cs } : State) = { s.deviceReset with pending := cs }
  rw [h]

theorem State.AtReset.resetn {s : State} (h : s.AtReset) : s.pins.resetn = false := congrArg (fun u : State => u.pins.resetn) h

theorem State.AtReset.rx {s : State} (h : s.AtReset) : s.rx = .idle := congrArg State.rx h

theorem State.AtReset.linkUp {s : State} (h : s.AtReset) : s.linkUp = false := by
  rw [State.linkUp, h.resetn, Bool.false_and]

theorem State.AtReset.settled {s : State} (h : s.AtReset) : s.Settled := by
  have hquiet : s.quiet.Settled := by
    rw [h]
    exact State.reset_settled.congr rfl rfl rfl rfl rfl rfl rfl
  exact hquiet.congr rfl rfl rfl rfl rfl rfl rfl

/-! ### What would age or end, at reset -/

theorem State.AtReset.not_due {s : State} (h : s.AtReset) (limit : Nat) (g : TagIx) : s.mli[g].due limit = false := by
  have hm : s.mli = Mli.empty := congrArg State.mli h
  simp [hm, Mli.empty, Tag.free, Tag.due]

theorem Stt.empty_expire (limit : Nat) : Stt.empty.expire limit = Stt.empty := by
  have hentries : (Vector.ofFn fun k : StreamIx => if Stt.empty.entries[k].valid && decide (limit ≤ Stt.empty.entries[k].idle)
      then Stream.free else Stt.empty.entries[k]) = Stt.empty.entries := by
    ext k hk
    simp [Stt.empty, Stream.free]
  rw [Stt.expire, hentries]

theorem State.AtReset.expireStreams_still {s : State} (h : s.AtReset) : s.expireStreams = s := by
  have hs : s.stt = Stt.empty := congrArg State.stt h
  rw [State.expireStreams, hs, Stt.empty_expire, ← hs]
  rfl

/-- R174: the receiver is in IDLE, so no bit is taken. -/
theorem State.clockBytes_atReset {s : State} (h : s.AtReset) (bytes : List Byte) : (s.clockBytes bytes).AtReset := by
  rcases Bool.eq_false_or_eq_true s.pins.mssn with hm | hm
  · rw [State.clockBytes_deselected hm]
    exact h
  · rw [State.clockBytes_untaken hm (.inr h.rx)]
    exact h.withOut _

/-! ### Commands under RESETn -/

/-- R154: of the commands, the release alone leaves the reset values; a pin moves no more than its level. -/
theorem exec_atReset {c : Instr} {s : State} (h : s.AtReset) (hc : ∀ o, c ≠ .resetnRelease o) :
    ∃ t, exec c s = .next t ∧ t.AtReset := by
  have hr : s.pins.resetn = false := h.resetn
  have not_up : ¬ s.pins.resetn = true := Bool.eq_false_iff.1 hr
  have hq : s.quiet.AtReset := h.withOut []
  have hs : s.quiet.Settled := hq.settled
  by_cases hf : c.isFrame = true
  · obtain ⟨bytes, he⟩ := exec_frame s hf
    exact ⟨_, he, State.clockBytes_atReset hq bytes⟩
  have ends : ∀ {f : State → State}, exec c s = .next (f s.quiet).close → f s.quiet = s.quiet →
      ∃ t, exec c s = .next t ∧ t.AtReset := fun he hstill => ⟨_, he, by rw [hstill, hs.close]; exact hq⟩
  cases c
  case req header addr data => exact ⟨_, exec_req_down header addr data h.linkUp, hq⟩
  case resp => exact ⟨_, exec_resp_none (.inl h.linkUp), hq⟩
  case orderRelease => exact ends (f := State.releaseSlots) rfl (State.releaseSlots_still hs.order)
  case postWaitRetry => exact ends (f := State.retryPostWait) rfl (if_pos hs.room)
  case drainWaitRelease => exact ends (f := State.releaseDrainWaits) rfl (State.releaseDrainWaits_still hs.waits)
  case fenceDone => exact ⟨_, rfl, by rw [State.testFences_still hs.fences]; exact hq⟩
  case ilrstnAssert => exact ⟨_, if_neg fun hup => not_up hup.2, hq.withPins hr⟩
  case ilrstnDeassert => exact ⟨_, if_neg fun hup => not_up hup.2, hq.withPins hr⟩
  case resetnAssert => exact ⟨_, if_neg not_up, hq⟩
  case resetnRelease o => exact absurd rfl (hc o)
  case readiness => exact ⟨_, exec_readiness_reset not_up, hq⟩
  case mcpl header data => exact ⟨_, exec_mcpl_reset header data hr, hq⟩
  case tick o => exact ⟨_, exec_tick_held o (.inl hr), hq⟩
  case quarantine => exact ends (f := State.quarantineDue) rfl (State.quarantineDue_still (hq.not_due _))
  case idleExpiry => exact ⟨_, rfl, by rw [hq.expireStreams_still]; exact hq⟩
  case deadlineReached => exact ⟨_, rfl, hq⟩
  case qreqAssert => exact ⟨_, if_neg fun hup => not_up hup.2.1, hq.withPins hr⟩
  case qreqDeassert => exact ⟨_, exec_qreqDeassert_still (.inr (.inl hr)), hq.withPins hr⟩
  case haltEntry => exact ⟨_, rfl, by rw [State.haltTest_still hs.drain]; exact hq⟩
  case mssnFall => exact ⟨_, if_neg fun hup => not_up hup.2, hq.withPins hr⟩
  case mssnRise =>
    by_cases hm : s.pins.mssn = false
    · have hpins : (s.quiet.withPins { s.pins with mssn := true }).AtReset := hq.withPins hr
      exact ⟨_, if_pos hm, congrArg (fun u : State => u.withRx .idle) hpins⟩
    · exact ⟨_, if_neg hm, hq⟩
  all_goals exact absurd rfl hf

/-- While RESETn is asserted no tick comes and no reply is on its way out. -/
theorem State.idle_atReset {s : State} (h : s.AtReset) : s.idle.AtReset := by
  have hq : s.quiet.AtReset := h.withOut []
  have hticks : ¬ s.quiet.ticking = true := fun ht => Bool.eq_false_iff.1 hq.resetn ((State.ticking_iff _).1 ht).1
  rw [State.idle, State.refclk, if_neg hticks, State.clockReply, hq.rx]
  exact hq

/-! ### RESETn itself -/

theorem State.sampleBit_resetn (s : State) (msi : Bool) : (s.sampleBit msi).pins.resetn = s.pins.resetn := by
  unfold State.sampleBit
  split
  · rfl
  · split
    · unfold State.takeBit State.takeBytes
      split
      · rfl
      · split
        · exact (Frame.run_port _ s).resetn
        · rfl
    · rfl
  · rfl
  · rfl

theorem State.clockBit_resetn (s : State) (msi : Bool) : (s.clockBit msi).pins.resetn = s.pins.resetn := by
  unfold State.clockBit
  split
  · exact State.sampleBit_resetn _ msi
  · rfl

theorem State.clockBytes_resetn (s : State) (bytes : List Byte) : (s.clockBytes bytes).pins.resetn = s.pins.resetn :=
  List.foldlRecOn bytes State.clockByte (motive := fun u => u.pins.resetn = s.pins.resetn) rfl fun _ hbyte b _ =>
    List.foldlRecOn (bitsHighFirst b) State.clockBit hbyte fun u hbit msi _ => (u.clockBit_resetn msi).trans hbit

theorem State.idle_resetn (s : State) : s.idle.pins.resetn = s.pins.resetn := by
  have hticked : s.quiet.refclk.pins.resetn = s.pins.resetn := (s.quiet_port.trans (State.refclk_port _)).resetn
  unfold State.idle State.clockReply
  split
  · exact (State.clockBit_resetn _ true).trans hticked
  all_goals exact hticked

theorem exec_resetnRelease_resetn {s t : State} {o : ReleaseOrder} (h : exec (.resetnRelease o) s = .next t) :
    t.pins.resetn = true := by
  by_cases hr : s.pins.resetn = true
  · obtain rfl := Host.Outcome.next.inj ((show exec (.resetnRelease o) s = .next s.quiet from if_pos hr).symm.trans h)
    exact hr
  · rw [exec_resetnRelease_down hr] at h
    cases o <;> obtain rfl := Host.Outcome.next.inj h
    · rw [(State.releaseDemand_urt _).2, (State.releaseLink_frame _).2.1]
      rfl
    · rw [(State.releaseLink_frame _).2.1, (State.releaseDemand_urt _).2]
      rfl

/-- With RESETn high, only its assertion moves it, and that leaves the reset values. -/
theorem exec_resetn {c : Instr} {s t : State} (h : exec c s = .next t) (hr : s.pins.resetn = true) :
    t.pins.resetn = true ∨ t.AtReset := by
  by_cases hc : Instr.atPort c = false
  · exact .inl ((exec_port h hc).resetn.trans hr)
  by_cases hf : c.isFrame = true
  · obtain ⟨bytes, he⟩ := exec_frame s hf
    obtain rfl := Host.Outcome.next.inj (he.symm.trans h)
    exact .inl ((State.clockBytes_resetn _ bytes).trans hr)
  cases c
  case resetnAssert =>
    rw [show exec .resetnAssert s = .next s.deviceReset from if_pos hr] at h
    exact .inr (Host.Outcome.next.inj h ▸ s.deviceReset_atReset)
  case resetnRelease o => exact .inl (exec_resetnRelease_resetn h)
  case mssnFall =>
    simp only [exec, execMssnFall] at h
    split at h <;> obtain rfl := Host.Outcome.next.inj h <;> exact .inl hr
  case mssnRise =>
    simp only [exec, execMssnRise] at h
    split at h <;> obtain rfl := Host.Outcome.next.inj h <;> exact .inl hr
  all_goals first | exact absurd rfl hc | exact absurd rfl hf

theorem exec_resetLaw {c : Instr} {s t : State} (h : exec c s = .next t) (hs : s.resetLaw) : t.resetLaw := by
  refine (State.resetLaw_iff t).2 fun ht => ?_
  rcases Bool.eq_false_or_eq_true s.pins.resetn with hr | hr
  · exact (exec_resetn h hr).resolve_left (Bool.eq_false_iff.1 ht)
  · by_cases hc : ∃ o, c = .resetnRelease o
    · obtain ⟨o, rfl⟩ := hc
      exact absurd (exec_resetnRelease_resetn h) (Bool.eq_false_iff.1 ht)
    · obtain ⟨u, hu, hreset⟩ := exec_atReset (s.resetLaw_iff.1 hs hr) fun o ho => hc ⟨o, ho⟩
      exact Host.Outcome.next.inj (hu.symm.trans h) ▸ hreset

/-- Settles O59: at its reset values the part has nothing to release, to age or to shift, and its pins move alone; RESETn falls
by its assertion only, which leaves the reset values. -/
theorem everyStepUnderResetKeepsResetValues : Obligations.EveryStepUnderResetKeepsResetValues := by
  intro s t hs h
  unfold step at h
  split at h
  · obtain rfl := Host.Outcome.next.inj h
    exact (State.resetLaw_iff _).2 fun ht => State.idle_atReset (s.resetLaw_iff.1 hs (s.idle_resetn.symm.trans ht))
  · rename_i rest _
    refine exec_resetLaw h ((State.resetLaw_iff _).2 fun hr => ?_)
    exact State.AtReset.withPending (s.resetLaw_iff.1 hs hr) rest

/-- Settles O21: the assertion leaves the device-reset state, block by block. -/
theorem resetnAssertResetsEveryBlock : Obligations.ResetnAssertResetsEveryBlock := by
  intro s hr
  have hlines (r : LineIx) : s.deviceReset.rab.lines[r] = RabLine.free := Vector.getElem_replicate _
  have hstreams (k : StreamIx) : s.deviceReset.stt.entries[k] = Stream.free := Vector.getElem_replicate _
  have htags (g : TagIx) : s.deviceReset.mli[g] = Tag.free := Vector.getElem_replicate _
  have hfaults (f : FaultIx) : s.deviceReset.flt.entries[f] = none := Vector.getElem_replicate _
  refine ⟨s.deviceReset, if_pos hr, rfl, rfl, rfl, rfl, rfl, rfl, rfl, rfl, rfl, rfl, hlines, rfl, hstreams, rfl, fun g => ?_,
    hfaults, rfl, rfl, rfl, rfl, rfl, rfl, rfl, rfl, rfl⟩
  rw [htags g]
  exact ⟨rfl, rfl, rfl⟩

end Sys2Proof.Machine
end

section
/-! PROOFS. Chapter 8: entry to HALT (R147, R149), the rise of demand (R143, R145), and the release of RESETn (R154). -/

namespace Sys2Proof.Machine

/-! ### Entry to HALT (R147, R149) -/

theorem State.pathEmpty_eq_false_iff (s : State) : s.pathEmpty = false ↔
    s.urt.arrival ≠ [] ∨ s.pq.entries ≠ [] ∨ ∃ g : TagIx, s.mli[g].state = .outstanding := by
  rw [← Bool.not_eq_true, s.pathEmpty_iff]
  simp only [not_and_or, not_forall, not_not, ne_eq]

theorem State.enterHalt_eq (s : State) : s.enterHalt =
    { s with pctl := { s.pctl with path := .halt }, rab := s.rab.haltEntry, stt := Stt.empty } := by
  simp only [State.enterHalt, State.withStt, State.withRab, State.withPctl]

theorem State.haltTest_enters {s : State} (hp : s.pctl.path = .drain) (he : s.pathEmpty = true) : s.haltTest = s.enterHalt :=
  if_pos ⟨hp, he⟩

/-- Settles O35: the HALT test, by its two outcomes. -/
theorem haltEntryEmptiesBufferAndStreams : Obligations.HaltEntryEmptiesBufferAndStreams := by
  intro s
  refine ⟨fun h => ?_, fun hp ha hq hg => ?_⟩
  · have hstill : s.quiet.drainHolds := fun hd => s.quiet.pathEmpty_eq_false_iff.2 (h.resolve_left fun hn => hn hd)
    exact congrArg Host.Outcome.next (State.haltTest_still hstill)
  · have henters : s.quiet.haltTest = s.quiet.enterHalt :=
      State.haltTest_enters hp (s.quiet.pathEmpty_iff.2 ⟨ha, hq, hg⟩)
    exact ⟨_, congrArg Host.Outcome.next (henters.trans (State.enterHalt_eq _)), rfl, rfl, rfl⟩

/-! ### Demand rises (R145) -/

/-- R145, R149: a path that is empty passes through DRAIN into HALT. -/
theorem State.demandRises_halts {s : State} (hp : s.pctl.path = .run) (he : s.pathEmpty = true) :
    s.demandRises = s.enterHalt := by
  rw [State.demandRises, if_pos hp,
    State.haltTest_enters (s := s.withPctl { s.pctl with path := .drain }) rfl he]
  rfl

theorem State.demandRises_drains {s : State} (hp : s.pctl.path = .run) (he : s.pathEmpty = false) :
    s.demandRises = s.withPctl { s.pctl with path := .drain } := by
  rw [State.demandRises, if_pos hp,
    State.haltTest_still (s := s.withPctl { s.pctl with path := .drain }) fun _ => he]

theorem State.Settled.demandRises {s : State} (h : s.Settled) : s.demandRises.Settled := by
  unfold State.demandRises
  split
  · exact State.haltTest_settles h.order h.fences h.streams (h.rest.congr rfl rfl rfl)
  · exact h

/-! ### The two rows that let demand rise (R143, R144) -/

theorem exec_qreqAssert_still {s : State} (h : s.pins.qreq = true ∨ s.pins.resetn = false ∨ s.pctl.latch = true) :
    exec .qreqAssert s = .next (s.quiet.withPins { s.pins with qreq := true }) :=
  if_neg fun ⟨hq, hr, hl⟩ => by simp [hq, hr, hl] at h

theorem State.Settled.exec_qreqAssert {s : State} (h : s.Settled) (hq : s.pins.qreq = false) (hr : s.pins.resetn = true)
    (hl : s.pctl.latch = false) :
    exec .qreqAssert s = .next (s.quiet.withPins { s.pins with qreq := true }).demandRises := by
  have hpin : (s.quiet.withPins { s.pins with qreq := true }).Settled := h.congr rfl rfl rfl rfl rfl rfl rfl
  rw [show exec .qreqAssert s = .next (s.quiet.withPins { s.pins with qreq := true }).demandRises.close from
    if_pos ⟨hq, hr, hl⟩, hpin.demandRises.close]

theorem State.setLatch_still {s : State} (h : s.pins.qreq = true ∨ s.pctl.latch = true) :
    s.setLatch = s.withPctl { s.pctl with latch := true } := if_pos (Bool.or_eq_true_iff.2 h)

theorem State.setLatch_rises {s : State} (hq : s.pins.qreq = false) (hl : s.pctl.latch = false) :
    s.setLatch = (s.withPctl { s.pctl with latch := true }).demandRises := by
  rw [State.setLatch, if_neg (by simp [State.demand, hq, hl])]

theorem State.Settled.setLatch {s : State} (h : s.Settled) : s.setLatch.Settled := by
  have hlatch : (s.withPctl { s.pctl with latch := true }).Settled := h.congr rfl rfl rfl rfl rfl rfl rfl
  unfold State.setLatch
  split
  · exact hlatch
  · exact hlatch.demandRises

/-- R144, R174: a QUIESCE frame from its first bit, in a settled part. -/
theorem State.Settled.exec_quiesce {s : State} (h : s.Settled) (hstart : s.frameStart) (arg : Word) : ∃ before bits,
    exec (.quiesce arg) s =
      .next (((s.withOut (fillerOut 7)).withRx (.request before bits)).setLatch.withRx (.answering .ok)) := by
  obtain ⟨before, bits, hclock⟩ := State.clockBytes_command hstart 0x0001#16 arg
  have hu : ((s.withOut (fillerOut 7)).withRx (.request before bits)).Settled := h.congr rfl rfl rfl rfl rfl rfl rfl
  have hrun : (Frame.command 0x0001#16 arg).run ((s.withOut (fillerOut 7)).withRx (.request before bits)) =
      accepted ((s.withOut (fillerOut 7)).withRx (.request before bits)).setLatch :=
    congrArg accepted hu.setLatch.close
  exact ⟨before, bits, congrArg Host.Outcome.next (hclock.trans (State.takeFrame_accepted hrun))⟩

/-- Settles O32: where demand rises a settled part has nothing more to do than the HALT test. -/
theorem demandRise : Obligations.DemandRise := by
  intro s
  refine ⟨fun h => exec_qreqAssert_still h, fun hs hq hr hl hp => ?_, fun arg hs hstart => ?_⟩
  · rw [hs.exec_qreqAssert hq hr hl]
    refine ⟨fun hbusy => ?_, fun ha he hg => ?_⟩
    · rw [State.demandRises_drains (by exact hp) (by exact s.pathEmpty_eq_false_iff.2 hbusy)]
      rfl
    · rw [State.demandRises_halts (by exact hp) (by exact s.pathEmpty_iff.2 ⟨ha, he, hg⟩)]
      rfl
  · obtain ⟨before, bits, hexec⟩ := hs.exec_quiesce hstart arg
    rw [hexec]
    refine ⟨fun h => ?_, fun hq hl hp hbusy => ?_, fun hq hl hp ha he hg => ?_⟩
    · rw [State.setLatch_still (by exact h)]
      rfl
    · rw [State.setLatch_rises (by exact hq) (by exact hl),
        State.demandRises_drains (by exact hp) (by exact s.pathEmpty_eq_false_iff.2 hbusy)]
      rfl
    · rw [State.setLatch_rises (by exact hq) (by exact hl),
        State.demandRises_halts (by exact hp) (by exact s.pathEmpty_iff.2 ⟨ha, he, hg⟩), State.enterHalt_eq]
      rfl

/-! ### The release of RESETn (R154) -/

theorem State.releaseDemand_low {s : State} (hq : s.pins.qreq = false) : s.releaseDemand = s :=
  if_neg (Bool.eq_false_iff.1 hq)

/-- R154: with QREQ asserted the empty path passes into HALT. -/
theorem State.releaseDemand_halts {s : State} (hq : s.pins.qreq = true) (hp : s.pctl.path = .run) (he : s.pathEmpty = true) :
    s.releaseDemand = s.enterHalt := (if_pos hq).trans (State.demandRises_halts hp he)

theorem State.releaseLink_down {s : State} (hi : s.pins.ilrstn = false) : s.releaseLink = s :=
  if_neg (Bool.eq_false_iff.1 hi)

/-- R21: the link comes up in RUN, and its credits are granted. -/
theorem State.releaseLink_grants {s : State} (hi : s.pins.ilrstn = true) (hp : s.pctl.path = .run) (hu : s.urt = Urt.empty) :
    s.releaseLink = (s.withUrt { Urt.empty with granted := 8 }).emit (.credit 8) := by
  rw [State.releaseLink, if_pos hi, State.linkComesUp, if_pos hp, hu]
  rfl

/-- R21: the link comes up outside RUN, and its credits are withheld. -/
theorem State.releaseLink_withholds {s : State} (hi : s.pins.ilrstn = true) (hp : s.pctl.path ≠ .run) (hu : s.urt = Urt.empty) :
    s.releaseLink = s.withUrt { Urt.empty with withheld := 8 } := by
  rw [State.releaseLink, if_pos hi, State.linkComesUp, if_neg hp, hu]
  rfl

/-- Settles O22: the link and the demand at the release, each by its pin, in the order the command gives. -/
theorem resetnReleaseTakesQreqAndLink : Obligations.ResetnReleaseTakesQreqAndLink := by
  intro s order hr hp hurt hq hg
  have he : s.pathEmpty = true := s.pathEmpty_iff.2 ⟨by rw [hurt]; rfl, hq, hg⟩
  rw [exec_resetnRelease_down (Bool.eq_false_iff.1 hr)]
  generalize hu : s.quiet.withPins { s.pins with resetn := true } = u
  have hqreq : u.pins.qreq = s.pins.qreq := by rw [← hu]; rfl
  have hilrstn : u.pins.ilrstn = s.pins.ilrstn := by rw [← hu]; rfl
  have hpath : u.pctl.path = .run := by rw [← hu]; exact hp
  have hslots : u.urt = Urt.empty := by rw [← hu]; exact hurt
  have hempty : u.pathEmpty = true := by rw [← hu]; exact he
  refine ⟨fun hlow hdown => ?_, fun hlow hup => ?_, fun hhigh hdown => ?_, fun hhigh hup ho => ?_, fun hhigh hup ho => ?_⟩
  · have hlink : u.releaseLink = u := State.releaseLink_down (hilrstn.trans hdown)
    have hdemand : u.releaseDemand = u := State.releaseDemand_low (hqreq.trans hlow)
    cases order <;> simp only [hlink, hdemand] <;> rw [← hu] <;> rfl
  · have hlink := State.releaseLink_grants (hilrstn.trans hup) hpath hslots
    have hdemand : u.releaseDemand = u := State.releaseDemand_low (hqreq.trans hlow)
    have hafter : u.releaseLink.releaseDemand = u.releaseLink :=
      State.releaseDemand_low (by rw [(State.releaseLink_frame u).2.1]; exact hqreq.trans hlow)
    cases order <;> simp only [hafter, hdemand] <;> rw [hlink, ← hu] <;> rfl
  · have hlink : u.releaseLink = u := State.releaseLink_down (hilrstn.trans hdown)
    have hdemand := State.releaseDemand_halts (hqreq.trans hhigh) hpath hempty
    have hafter : u.enterHalt.releaseLink = u.enterHalt := State.releaseLink_down (hilrstn.trans hdown)
    cases order <;> simp only [hlink, hdemand, hafter] <;> rw [← hu] <;> rfl
  · subst ho
    have hlink := State.releaseLink_grants (hilrstn.trans hup) hpath hslots
    have hlinked : u.releaseLink.pathEmpty = true := by
      rw [hlink]
      exact (State.pathEmpty_iff _).2 ⟨rfl, (u.pathEmpty_iff.1 hempty).2⟩
    simp only
    rw [State.releaseDemand_halts (by rw [hlink]; exact hqreq.trans hhigh) (by rw [hlink]; exact hpath) hlinked,
      State.enterHalt_eq, hlink, ← hu]
    rfl
  · subst ho
    have hhalt : u.enterHalt.pctl.path ≠ .run := by simp [State.enterHalt_eq]
    simp only
    rw [State.releaseDemand_halts (hqreq.trans hhigh) hpath hempty,
      State.releaseLink_withholds (s := u.enterHalt) (hilrstn.trans hup) hhalt (u.enterHalt_frame.1.trans hslots),
      State.enterHalt_eq, ← hu]
    rfl

end Sys2Proof.Machine
end

section
/-! PROOFS. A step of an empty queue (R155, R157, R158, R172, R174, R175): what one REFCLK period does to the time base, what
one MSCK period does to a reply, and that the two reach disjoint parts of the state, but for the picture. -/

namespace Sys2Proof.Machine

/-! ### One bit of a reply (R174, R175) -/

theorem PortObject.wordCount_pos (o : PortObject) : 0 < o.wordCount := by
  cases o <;> exact Nat.succ_pos _

/-- No object shows the receiver. -/
theorem State.objectWords_withRx (s : State) (x : Receiver) (o : PortObject) :
    (s.withRx x).objectWords o = s.objectWords o := by
  cases o <;> rfl

/-- R175: with the status byte out, a reply without an object has no bits left. -/
theorem State.shiftReply_ends_status {s : State} {r : Reply} (h8 : r.clocked + 1 = 8) (ho : r.object = none) :
    (s.shiftReply r).rx = .trail := by
  have hpicture : s.pictureAt r (r.clocked + 1) = [] := by rw [State.pictureAt, if_pos h8, ho]
  simp only [State.shiftReply, State.withRx_rx, hpicture]
  exact if_pos (Nat.le_of_eq h8.symm)

/-- R175: with the status byte out, the picture of the object is taken; every object has a word, so bits are left. -/
theorem State.shiftReply_takes_picture {s : State} {r : Reply} {o : PortObject} (h8 : r.clocked + 1 = 8)
    (ho : r.object = some o) :
    (s.shiftReply r).rx = .reply { r with words := (s.shiftReply r).objectWords o, clocked := 8 } := by
  have hpicture : s.pictureAt r 8 = s.objectWords o := by rw [State.pictureAt, if_pos rfl, ho]
  have hleft : ¬ 8 * (1 + 4 * (s.objectWords o).length) ≤ 8 := by
    have hpos := o.wordCount_pos
    rw [State.objectWords_length]
    omega
  simp only [State.shiftReply, State.withRx_rx, State.objectWords_withRx, h8, hpicture]
  exact if_neg hleft

/-- R174: elsewhere the picture stands, and the bits left decide between REPLY and TRAIL. -/
theorem State.shiftReply_rx {s : State} {r : Reply} (h8 : r.clocked + 1 ≠ 8) : (s.shiftReply r).rx =
    if 8 * (1 + 4 * r.words.length) ≤ r.clocked + 1 then .trail else .reply { r with clocked := r.clocked + 1 } := by
  have hpicture : s.pictureAt r (r.clocked + 1) = r.words := if_neg h8
  simp only [State.shiftReply, State.withRx_rx, hpicture]

/-! ### One MSCK period of a reply (R172) -/

/-- The port does not run while MSSn is high. -/
theorem State.clockBit_deselected {s : State} (hp : s.pins.mssn = true) (msi : Bool) : s.clockBit msi = s := by
  rw [State.clockBit, State.mso_deselected hp]

theorem State.clockReply_reply {s : State} {r : Reply} (hx : s.rx = .reply r) (hp : s.pins.mssn = false) :
    s.clockReply = (s.emit (.mso r.level)).shiftReply r := by
  rw [State.clockReply, hx, ← State.clockBit_reply hp hx true]

theorem State.clockReply_still {s : State} (h : (∀ r, s.rx ≠ .reply r) ∨ s.pins.mssn = true) : s.clockReply = s := by
  unfold State.clockReply
  split
  next r hx => exact State.clockBit_deselected (h.resolve_left fun hn => hn r hx) true
  all_goals rfl

/-- The shift of a reply reaches the messages and the receiver alone. -/
theorem State.clockReply_frame (s : State) : s.clockReply = { s with out := s.clockReply.out, rx := s.clockReply.rx } := by
  by_cases h : (∀ r, s.rx ≠ .reply r) ∨ s.pins.mssn = true
  · rw [State.clockReply_still h]
  · simp only [not_or, not_forall, not_not, Bool.not_eq_true] at h
    obtain ⟨⟨r, hx⟩, hp⟩ := h
    rw [State.clockReply_reply hx hp]
    rfl

/-! ### One REFCLK period (R155, R157) -/

theorem State.refclk_held {s : State} (h : s.pins.resetn = false ∨ s.cfg.tickHold = true) : s.refclk = s := by
  refine if_neg fun ht => ?_
  obtain ⟨hr, hh⟩ := s.ticking_iff.1 ht
  simp [hr, hh] at h

theorem State.refclk_counts {s : State} (hr : s.pins.resetn = true) (hh : s.cfg.tickHold = false)
    (hlt : s.tgen.prescaler + 1 < s.cfg.tickPeriod) :
    s.refclk = s.withTgen { s.tgen with prescaler := s.tgen.prescaler + 1 } := by
  rw [State.refclk, if_pos (s.ticking_iff.2 ⟨hr, hh⟩), if_neg (Nat.not_le.2 hlt)]

theorem State.refclk_ticks {s : State} (hr : s.pins.resetn = true) (hh : s.cfg.tickHold = false)
    (hle : s.cfg.tickPeriod ≤ s.tgen.prescaler + 1) :
    s.refclk = (s.withTgen { s.tgen with choices := s.tgen.choices + 1 }).takeTick (Config.tickOrder s.tgen.choices) := by
  rw [State.refclk, if_pos (s.ticking_iff.2 ⟨hr, hh⟩), if_pos hle]

/-- No message leaves the part in a REFCLK period. -/
theorem State.refclk_out (s : State) : s.refclk.out = s.out := by
  unfold State.refclk
  split
  · split
    · exact (State.takeTick_tgen_out _ _).2
    · rfl
  · rfl

/-! ### The step of an empty queue -/

theorem step_idle {s : State} (h : s.pending = []) : step s = .next s.idle := by
  rw [step, h]

/-- Beside the REFCLK period, such a step reaches the messages and the receiver alone. -/
theorem State.idle_frame (s : State) : s.idle = { s.quiet.refclk with out := s.idle.out, rx := s.idle.rx } :=
  s.quiet.refclk.clockReply_frame

theorem State.idle_tgen (s : State) : s.idle.tgen = s.quiet.refclk.tgen :=
  (congrArg State.tgen s.idle_frame :)

/-- The receiver and MSSn stand in the REFCLK period. -/
theorem State.quiet_refclk_port (s : State) : PortFrame s s.quiet.refclk := s.quiet_port.trans s.quiet.refclk_port

/-- So the reply of the step's start is the one that is shifted. -/
theorem State.idle_reply {s : State} {r : Reply} (hx : s.rx = .reply r) (hp : s.pins.mssn = false) :
    s.idle = (s.quiet.refclk.emit (.mso r.level)).shiftReply r :=
  State.clockReply_reply (s.quiet_refclk_port.rx.trans hx) (s.quiet_refclk_port.mssn.trans hp)

theorem State.idle_without_reply {s : State} (h : (∀ r, s.rx ≠ .reply r) ∨ s.pins.mssn = true) :
    s.idle = s.quiet.refclk :=
  State.clockReply_still (h.imp (fun hn r => s.quiet_refclk_port.rx ▸ hn r) s.quiet_refclk_port.mssn.trans)

/-- Settles O2: the three courses of the REFCLK period, then the MSCK period on what it left. -/
theorem idleStepIsOneRefclkPeriod : Obligations.IdleStepIsOneRefclkPeriod := by
  intro s hpending
  have hframe := s.idle_frame
  refine ⟨s.idle, step_idle hpending, fun hheld => ?_, fun hr hh hlt => ?_, fun hr hh hle => ?_, fun hstill => ?_,
    fun r hx hp => ?_⟩
  · rw [State.refclk_held (s := s.quiet) hheld] at hframe
    exact hframe
  · rw [State.refclk_counts (s := s.quiet) hr hh hlt] at hframe
    exact hframe
  · have hticks := State.refclk_ticks (s := s.quiet) hr hh hle
    have htgen := s.idle_tgen
    rw [hticks, (State.takeTick_tgen_out _ _).1] at htgen
    refine ⟨congrArg Tgen.prescaler htgen, congrArg Tgen.stamp htgen, Config.tickOrder s.tgen.choices, s.quiet.refclk, ?_,
      hframe⟩
    rw [hticks]
    exact exec_tick (s := { s with tgen := { s.tgen with choices := s.tgen.choices + 1 } }) _ hr hh
  · rw [State.idle_without_reply hstill]
    exact ⟨s.quiet.refclk_out, s.quiet_refclk_port.rx⟩
  · rw [State.idle_reply hx hp]
    have hout : (s.quiet.refclk.emit (.mso r.level)).out = [.mso r.level] := by
      rw [State.emit_out, State.refclk_out, State.quiet_out, List.nil_append]
    refine ⟨⟨r.level, State.mso_reply hp hx, hout⟩, State.shiftReply_ends_status,
      fun o => State.shiftReply_takes_picture, fun h8 hlt => ?_, fun h8 hle => ?_⟩
    · exact (State.shiftReply_rx h8).trans (if_neg (Nat.not_le.2 hlt))
    · exact (State.shiftReply_rx h8).trans (if_pos hle)

end Sys2Proof.Machine
end

section
/-! PROOFS. The error log (R163, R164, R166, R167) and the acknowledgement of its overflow (R171): what a record finds, and
what the three COMMAND frames that reach the log leave of it. -/

namespace Sys2Proof.Machine

/-! ### A record raised (R163, R164) -/

/-- R163: the log has room. -/
theorem Elog.append_of_room {g : Elog} (h : g.records.length < 16) (r : LogRecord) :
    g.append r = { g with records := g.records ++ [r] } := if_pos h

/-- R164: the log is full. -/
theorem Elog.append_of_full {g : Elog} (h : 16 ≤ g.records.length) (r : LogRecord) :
    g.append r = { g with dropped := min (g.dropped + 1) 255, ovf := true } := if_neg (Nat.not_lt.2 h)

/-- Settles O50: the log has room for the record, or it is full. -/
theorem logAppendsOrDrops : Obligations.LogAppendsOrDrops := fun _ r =>
  ⟨fun hroom => Elog.append_of_room hroom r, fun hfull => Elog.append_of_full hfull r⟩

/-! ### COMMAND frames that reach the log (R166, R167, R171) -/

/-- A COMMAND frame from its start comes to what its last byte does, where that is the same whatever of the request the
receiver still holds (R173, R174). -/
theorem State.clockBytes_command_eq {s t : State} {n : BitVec 16} {arg : Word} (h : s.frameStart)
    (ht : ∀ x, ((s.withOut (fillerOut 7)).withRx x).takeFrame (.command n arg) = t) :
    s.quiet.clockBytes (commandBytes n arg) = t := by
  obtain ⟨before, bits, hclock⟩ := State.clockBytes_command h n arg
  exact hclock.trans (ht (.request before bits))

/-- R166: POP_LOG of a log that holds a record. -/
theorem popLogFrame_cons {s : State} {r : LogRecord} {rest : List LogRecord} (h : s.elog.records = r :: rest) :
    popLogFrame s = accepted (s.withElog { s.elog with records := rest }) := by
  simp only [popLogFrame, h]

/-- R166: POP_LOG of an empty log. -/
theorem popLogFrame_nil {s : State} (h : s.elog.records = []) : popLogFrame s = rejected .refused s := by
  simp only [popLogFrame, h]

/-- Settles O38: the frame is taken once, by a log that holds a record or is empty. -/
theorem popLogRemovesOldest : Obligations.PopLogRemovesOldest := by
  intro s arg hstart
  have hexec : exec (.popLog arg) s = .next (s.quiet.clockBytes (commandBytes 0x0004#16 arg)) := rfl
  rw [hexec]
  refine ⟨fun r rest hrecords => congrArg Host.Outcome.next ?_, fun hempty => congrArg Host.Outcome.next ?_⟩
  · exact State.clockBytes_command_eq hstart fun x =>
      State.takeFrame_accepted (f := .command 0x0004#16 arg)
        (popLogFrame_cons (s := (s.withOut (fillerOut 7)).withRx x) hrecords)
  · exact State.clockBytes_command_eq hstart fun _ =>
      State.takeFrame_rejected (f := .command 0x0004#16 arg) (popLogFrame_nil hempty)

/-- Settles O39: the frame is taken once, and CLEAR_LOG is accepted whatever the log holds. -/
theorem clearLogEmptiesLog : Obligations.ClearLogEmptiesLog := by
  intro s arg hstart
  have hexec : exec (.clearLog arg) s = .next (s.quiet.clockBytes (commandBytes 0x0005#16 arg)) := rfl
  rw [hexec]
  refine congrArg Host.Outcome.next (State.clockBytes_command_eq hstart fun x => ?_)
  have hrun : (Frame.command 0x0005#16 arg).run ((s.withOut (fillerOut 7)).withRx x) =
      accepted (((s.withOut (fillerOut 7)).withRx x).withElog { s.elog with records := [], dropped := 0 }) := rfl
  exact State.takeFrame_accepted hrun

/-- Settles O42: the frame is taken once, and ACK_FLAGS is accepted whatever the flags are. -/
theorem ackFlagsClearsBothFlags : Obligations.AckFlagsClearsBothFlags := by
  intro s arg hstart
  have hexec : exec (.ackFlags arg) s = .next (s.quiet.clockBytes (commandBytes 0x0008#16 arg)) := rfl
  rw [hexec]
  refine congrArg Host.Outcome.next (State.clockBytes_command_eq hstart fun x => ?_)
  have hrun : (Frame.command 0x0008#16 arg).run ((s.withOut (fillerOut 7)).withRx x) =
      accepted ((((s.withOut (fillerOut 7)).withRx x).withElog { s.elog with ovf := false }).withFlt
        { s.flt with ovf := false }) := rfl
  exact State.takeFrame_accepted hrun

end Sys2Proof.Machine
end

section
/-! PROOFS. The words of a region and of the default region (R178, section 11.7.3): each field of the control word is read
back, so a frame's words carry the whole entry. -/

namespace Sys2Proof.Machine

/-! ### Fields and flags of a word -/

theorem field_ofNat {n : Nat} (h : n < 2 ^ 32) (lo len : Nat) : field (BitVec.ofNat 32 n) lo len = n / 2 ^ lo % 2 ^ len := by
  rw [field, BitVec.extractLsb'_toNat, Nat.shiftRight_eq_div_pow, BitVec.toNat_ofNat, Nat.mod_eq_of_lt h]

/-- A flag is a field of one bit. -/
theorem flag_eq_field (w : Word) (k : Nat) : flag w k = decide (field w k 1 = 1) := by
  rw [flag, field, BitVec.extractLsb'_toNat, Nat.shiftRight_eq_div_pow, Nat.pow_one, BitVec.getLsbD,
    Nat.testBit_eq_decide_div_mod_eq]

theorem bit_lt (b : Bool) : bit b < 2 := by cases b <;> decide

theorem bit_eq_one (b : Bool) : decide (bit b = 1) = b := by cases b <;> rfl

theorem RegionType.code_le (t : RegionType) : t.code ≤ 2 := by cases t <;> decide

/-- R178: the three codes name the three types. -/
theorem RegionType.of_code (t : RegionType) :
    (if t.code = 0 then .bypass else if t.code = 1 then .ordered else .normal) = t := by cases t <;> rfl

theorem packFields_nil : packFields [] = 0#32 := rfl

/-- The fields of a word add up. -/
theorem packFields_cons (v k : Nat) (fs : List (Nat × Nat)) :
    packFields ((v, k) :: fs) = BitVec.ofNat 32 (v * 2 ^ k) + packFields fs := by
  rw [packFields, packFields, List.map_cons, List.sum_cons, BitVec.ofNat_add]

/-! ### The control word (section 11.7.3) -/

/-- The control word of a region frame, field by field; the default region's leaves ENABLE, DEPTH and SIZE_LOG 0. -/
def controlWord (enable type post merge wprot depth sizeLog deadline : Nat) : Word :=
  packFields [(enable, 0), (type, 1), (post, 3), (merge, 4), (wprot, 5), (depth, 8), (sizeLog, 16), (deadline, 24)]

theorem RegionEntry.words_eq (r : RegionEntry) : r.words = [r.base, r.remap, controlWord (bit r.enable) r.type.code
    (bit r.post) (bit r.merge) (bit r.wprot) r.depth r.sizeLog r.deadline] := rfl

theorem DefaultRegion.words_eq (d : DefaultRegion) : d.words = [d.remap, controlWord 0 d.type.code (bit d.post)
    (bit d.merge) (bit d.wprot) 0 0 d.deadline] := by
  simp only [DefaultRegion.words, controlWord, packFields_cons, Nat.zero_mul, BitVec.zero_add]

/-- No field of a control word runs into the next: each is read back. -/
theorem controlWord_fields {c : Word} {e t p m w d z l : Nat} (hc : c = controlWord e t p m w d z l) (he : e < 2)
    (ht : t ≤ 2) (hp : p < 2) (hm : m < 2) (hw : w < 2) (hd : d ≤ 4) (hz : z ≤ 31) (hl : l ≤ 255) :
    field c 0 1 = e ∧ field c 1 2 = t ∧ field c 3 1 = p ∧ field c 4 1 = m ∧ field c 5 1 = w ∧ field c 8 3 = d ∧
      field c 16 5 = z ∧ field c 24 8 = l := by
  have hlt : e * 2 ^ 0 + (t * 2 ^ 1 + (p * 2 ^ 3 + (m * 2 ^ 4 + (w * 2 ^ 5 + (d * 2 ^ 8 + (z * 2 ^ 16 +
      (l * 2 ^ 24 + 0))))))) < 2 ^ 32 := by omega
  have hword : c = BitVec.ofNat 32 (e * 2 ^ 0 + (t * 2 ^ 1 + (p * 2 ^ 3 + (m * 2 ^ 4 +
      (w * 2 ^ 5 + (d * 2 ^ 8 + (z * 2 ^ 16 + (l * 2 ^ 24 + 0)))))))) := by
    simp only [hc, controlWord, packFields_cons, packFields_nil, BitVec.ofNat_add]
  simp only [hword, field_ofNat hlt]
  refine ⟨?_, ?_, ?_, ?_, ?_, ?_, ?_, ?_⟩ <;> omega

/-- Settles O51: the control word gives every field back, and the ranges of the entry are the ranges of its frame. -/
theorem regionWordsRoundTrip : Obligations.RegionWordsRoundTrip := by
  constructor
  · rintro r ⟨hlo, hhi, hbase, hdepth, hdl, hdlmax, hremap⟩
    refine ⟨_, _, _, r.words_eq, ?_⟩
    obtain ⟨fe, ft, fp, fm, fw, fd, fz, fl⟩ := controlWord_fields rfl (bit_lt r.enable) r.type.code_le
      (bit_lt r.post) (bit_lt r.merge) (bit_lt r.wprot) hdepth hhi hdlmax
    rw [regionOfWords_eq_some (by rwa [fz]) (by rwa [fz]) (by rwa [fz]) (by rw [ft]; exact r.type.code_le) (by rwa [fd])
      (by rwa [fl]) hremap]
    simp only [flag_eq_field, fe, ft, fp, fm, fw, fd, fz, fl, bit_eq_one, RegionType.of_code]
  · intro d hdl hdlmax hremap
    refine ⟨_, _, d.words_eq, ?_⟩
    obtain ⟨_, ft, fp, fm, fw, _, _, fl⟩ := controlWord_fields rfl Nat.two_pos d.type.code_le (bit_lt d.post)
      (bit_lt d.merge) (bit_lt d.wprot) (Nat.zero_le 4) (Nat.zero_le 31) hdlmax
    rw [defaultRegionOfWords_eq_some (by rw [ft]; exact d.type.code_le) (by rwa [fl]) hremap]
    simp only [flag_eq_field, ft, fp, fm, fw, fl, bit_eq_one, RegionType.of_code]

end Sys2Proof.Machine
end

section
/-! PROOFS. The global configuration frame (R177, R3, R59, R95, R123, R156, R157, R170): its seven rows carry one frame, which
is accepted as a whole or changes nothing; a new MEM_TOP lets streams move on (R98). -/

namespace Sys2Proof.Machine

/-! ### The seven rows, and what makes a frame acceptable -/

/-- Each of the seven rows clocks the whole frame in. -/
theorem exec_globalFrame {c : Instr} {f : GlobalFrame} (h : c.globalFrameOf = some f) (s : State) :
    exec c s = .next (s.quiet.clockBytes (writeBytes 0x0001#16 (globalFrameWords f))) := by
  cases c
  case memTopWrite | tickDivWrite | tickHoldWrite | memTimeoutWrite | streamIdleWrite | pqUrgentMarkWrite | attnMaskWrite =>
    cases h
    rfl
  all_goals cases h

/-- R177: the tests of a frame, word by word; an ATTN_MASK word has none. -/
theorem frameAcceptable_iff (f : GlobalFrame) : frameAcceptable f = true ↔
    f.select.toNat < 128 ∧ (f.select.getLsbD 0 = true → f.memTop.toNat ≤ 4095) ∧
      (f.select.getLsbD 1 = true → f.tickDiv.toNat ≤ 255) ∧ (f.select.getLsbD 2 = true → f.tickHold.toNat ≤ 1) ∧
      (f.select.getLsbD 3 = true → 1 ≤ f.memTimeout.toNat ∧ f.memTimeout.toNat ≤ 255) ∧
      (f.select.getLsbD 4 = true → 1 ≤ f.streamIdle.toNat ∧ f.streamIdle.toNat ≤ 255) ∧
      (f.select.getLsbD 5 = true → 1 ≤ f.pqUrgentMark.toNat ∧ f.pqUrgentMark.toNat ≤ 16) := by
  have himp : ∀ (b : Bool) (p : Prop), b = false ∨ p ↔ (b = true → p) := fun b p => by cases b <;> simp
  simp only [frameAcceptable, frameSelects, flag, Bool.and_eq_true, Bool.or_eq_true, Bool.not_eq_true', decide_eq_true_eq,
    himp, and_assoc]

/-- R177: one word out of its range, or a select bit above 6, makes the whole frame BAD_VALUE. -/
theorem frameAcceptable_eq_false {f : GlobalFrame}
    (h : 128 ≤ f.select.toNat ∨ (f.select.getLsbD 0 = true ∧ 4095 < f.memTop.toNat) ∨
      (f.select.getLsbD 1 = true ∧ 255 < f.tickDiv.toNat) ∨ (f.select.getLsbD 2 = true ∧ 1 < f.tickHold.toNat) ∨
      (f.select.getLsbD 3 = true ∧ (f.memTimeout.toNat = 0 ∨ 255 < f.memTimeout.toNat)) ∨
      (f.select.getLsbD 4 = true ∧ (f.streamIdle.toNat = 0 ∨ 255 < f.streamIdle.toNat)) ∨
      (f.select.getLsbD 5 = true ∧ (f.pqUrgentMark.toNat = 0 ∨ 16 < f.pqUrgentMark.toNat))) :
    frameAcceptable f = false := by
  refine Bool.eq_false_iff.2 fun hacc => ?_
  obtain ⟨hsel, h0, h1, h2, h3, h4, h5⟩ := (frameAcceptable_iff f).1 hacc
  rcases h with h | ⟨hb, h⟩ | ⟨hb, h⟩ | ⟨hb, h⟩ | ⟨hb, h⟩ | ⟨hb, h⟩ | ⟨hb, h⟩
  · exact Nat.not_le.2 hsel h
  · exact Nat.not_le.2 h (h0 hb)
  · exact Nat.not_le.2 h (h1 hb)
  · exact Nat.not_le.2 h (h2 hb)
  · have hrange := h3 hb; omega
  · have hrange := h4 hb; omega
  · have hrange := h5 hb; omega

/-! ### The settings take effect (R98, R177) -/

/-- R98: of a settled part the new settings leave no more than streams to move on. -/
theorem State.Settled.applyGlobal_close {s : State} (h : s.Settled) (f : GlobalFrame) :
    (s.applyGlobal f).close = (s.applyGlobal f).moveStreams := by
  rw [State.close, State.settle, State.releaseSlots_still (by exact h.order), State.testFences_still (by exact h.fences)]
  exact State.haltTest_still (by exact h.drain)

/-- Without a new MEM_TOP the reports to the Stream Table stand, and no stream moves. -/
theorem State.Settled.applyGlobal_streams {s : State} (h : s.Settled) {f : GlobalFrame} (hf : frameSelects f 0 = false) :
    (s.applyGlobal f).moveStreams.stt = s.stt := by
  have hrdec : (s.applyGlobal f).rdec = s.rdec := by
    show { s.rdec with memTopField := if frameSelects f 0 then f.memTop.toNat else s.rdec.memTopField } = s.rdec
    rw [hf]
    rfl
  have hstreams : (s.applyGlobal f).streamsSettled := State.streamsSettled_congr h.streams rfl hrdec fun _ hl => hl
  rw [State.moveStreams_still hstreams]
  rfl

theorem globalFrame_accepted {s : State} {f : GlobalFrame} (h : s.Settled) (hf : frameAcceptable f = true) :
    globalFrame f s = accepted (s.applyGlobal f).moveStreams := by
  rw [globalFrame, if_pos hf, h.applyGlobal_close]

theorem globalFrame_rejected {f : GlobalFrame} (s : State) (hf : frameAcceptable f = false) :
    globalFrame f s = rejected .badValue s := by
  rw [globalFrame, if_neg (Bool.eq_false_iff.1 hf)]

/-- Settles O43: the frame is taken once, whichever row carries it; its tests all pass or one fails, and what an accepted
frame does to the streams is the move past held lines. -/
theorem globalFrameWritesSelectedSettings : Obligations.GlobalFrameWritesSelectedSettings := by
  intro c f s hc hstart
  obtain ⟨before, bits, hclock⟩ := State.clockBytes_write (n := 0x0001#16) (o := .globals) (ws := globalFrameWords f) hstart
    rfl rfl
  rw [exec_globalFrame hc, hclock]
  refine ⟨fun hok hset => ?_, fun hbad => ?_⟩
  · have hu : ((s.withOut (fillerOut 35)).withRx (.request before bits)).Settled := hset.congr rfl rfl rfl rfl rfl rfl rfl
    have hmoved := (((s.withOut (fillerOut 35)).withRx (.request before bits)).applyGlobal f).moveStreams_movedPast
    exact ⟨_, hu.applyGlobal_streams, hmoved.mark, hmoved.fields, congrArg Host.Outcome.next
      (State.takeFrame_accepted (f := .write .globals (globalFrameWords f))
        (globalFrame_accepted hu ((frameAcceptable_iff f).2 hok)))⟩
  · exact congrArg Host.Outcome.next (State.takeFrame_rejected (f := .write .globals (globalFrameWords f))
      (globalFrame_rejected _ (frameAcceptable_eq_false hbad)))

end Sys2Proof.Machine
end

section
/-! PROOFS. Frames by their bytes (R173, R175, R176, R181): the numbers that name no object and no command, the requests that
are not complete, the status byte of a frame whose bytes go on, and the rows that spell one frame. -/

namespace Sys2Proof.Machine

/-! ### Numbers of objects and commands (R176, R181) -/

/-- Beside the five objects with a number of their own, the object map is the regions and the fault entries. -/
theorem objectOf_range {o : BitVec 16} (h4 : 4 ≤ o.toNat) (h8 : o.toNat ≠ 8) : objectOf o =
    if 0x0010 ≤ o.toNat ∧ o.toNat ≤ 0x0017 then some (.region (Fin.ofNat 8 (o.toNat - 0x0010)))
    else if 0x0020 ≤ o.toNat ∧ o.toNat ≤ 0x0027 then some (.fault (Fin.ofNat 8 (o.toNat - 0x0020)))
    else none := by
  have hne : ∀ n : BitVec 16, n.toNat < 4 ∨ n.toNat = 8 → o ≠ n := fun n hn e => by subst e; omega
  rw [objectOf, if_neg (hne _ (by decide)), if_neg (hne _ (by decide)), if_neg (hne _ (by decide)), if_neg (hne _ (by decide)),
    if_neg (hne _ (by decide))]

theorem objectOf_unknown {o : BitVec 16} (h4 : 4 ≤ o.toNat) (h8 : o.toNat ≠ 8) (hregion : o.toNat < 0x10 ∨ 0x17 < o.toNat)
    (hfault : o.toNat < 0x20 ∨ 0x27 < o.toNat) : objectOf o = none := by
  rw [objectOf_range h4 h8, if_neg (by omega), if_neg (by omega)]

theorem objectOf_fault {o : BitVec 16} (hlo : 0x20 ≤ o.toNat) (hhi : o.toNat ≤ 0x27) :
    objectOf o = some (.fault (Fin.ofNat 8 (o.toNat - 0x20))) := by
  rw [objectOf_range (by omega) (by omega), if_neg (by omega), if_pos ⟨hlo, hhi⟩]

/-- The objects that no WRITE changes, by number and word count (R176, section 11.7.5). -/
theorem objectOf_readOnly {o : BitVec 16} {n : Nat} (h : (o.toNat = 0 ∧ n = 4) ∨ (o.toNat = 2 ∧ n = 6) ∨
    (o.toNat = 3 ∧ n = 3) ∨ (0x20 ≤ o.toNat ∧ o.toNat ≤ 0x27 ∧ n = 3)) :
    ∃ obj, objectOf o = some obj ∧ obj.wordCount = n ∧ ∀ ws s, objectFrame obj ws s = rejected .refused s := by
  have hnumber : ∀ k : BitVec 16, o.toNat = k.toNat → o = k := fun _ => BitVec.eq_of_toNat_eq
  rcases h with ⟨ho, rfl⟩ | ⟨ho, rfl⟩ | ⟨ho, rfl⟩ | ⟨hlo, hhi, rfl⟩
  · exact ⟨.ident, hnumber 0x0000#16 ho ▸ rfl, rfl, fun _ _ => rfl⟩
  · exact ⟨.status, hnumber 0x0002#16 ho ▸ rfl, rfl, fun _ _ => rfl⟩
  · exact ⟨.logHead, hnumber 0x0003#16 ho ▸ rfl, rfl, fun _ _ => rfl⟩
  · exact ⟨_, objectOf_fault hlo hhi, rfl, fun _ _ => rfl⟩

theorem commandFrame_unknown {n : BitVec 16} (h : n.toNat = 0 ∨ 8 < n.toNat) (arg : Word) (s : State) :
    commandFrame n arg s = rejected .badObject s := by
  unfold commandFrame
  split
  case h_9 => rfl
  all_goals omega

theorem readFrame_known {n : BitVec 16} {o : PortObject} (h : objectOf n = some o) (s : State) :
    readFrame n s = { status := .ok, object := some o, state := s } := by
  rw [readFrame, h]

theorem readFrame_unknown {n : BitVec 16} (h : objectOf n = none) (s : State) : readFrame n s = rejected .badObject s := by
  rw [readFrame, h]

/-! ### Frames that end with a status byte alone, and requests in progress (R173, R174) -/

theorem writeBytes_length (o : BitVec 16) (ws : List Word) : (writeBytes o ws).length = 3 + 4 * ws.length := by
  simp only [writeBytes, numberBytes, List.length_append, List.length_cons, List.length_nil, bytesHighFirst_length]

/-- A whole request whose frame is rejected changes nothing but the receiver and the messages. -/
theorem State.clockBytes_rejected {s : State} {bytes : List Byte} {f : Frame} {st : FrameStatus} (h : s.frameStart)
    (hf : frameOfBytes bytes = some f) (hrun : ∀ u, f.run u = rejected st u) :
    s.quiet.clockBytes bytes = (s.withOut (fillerOut bytes.length)).withRx (.answering st) := by
  obtain ⟨before, bits, hclock⟩ := State.clockBytes_start h hf
  rw [hclock, State.takeFrame_rejected (hrun _)]
  rfl

/-- Bytes that more bytes would make a whole request are held (R174). -/
theorem State.clockBytes_held {s : State} {bytes more : List Byte} {f : Frame} (h : s.frameStart)
    (hf : frameOfBytes (bytes ++ more) = some f) (hmore : more ≠ []) :
    s.quiet.clockBytes bytes = (s.withOut (fillerOut bytes.length)).withRx (.request bytes []) := by
  refine State.clockBytes_part h fun p q hpq _ => frameOfBytes_prefix (q := q ++ more) (f := f) ?_ (by simp [hmore])
  rw [← List.append_assoc, ← hpq]
  exact hf

/-- A WRITE with fewer words than its object has waits for the others (R173). -/
theorem State.clockBytes_writePart {s : State} {o : BitVec 16} {obj : PortObject} {ws : List Word} (h : s.frameStart)
    (ho : objectOf o = some obj) (hws : ws.length < obj.wordCount) : s.quiet.clockBytes (writeBytes o ws) =
      (s.withOut (fillerOut (3 + 4 * ws.length))).withRx (.request (writeBytes o ws) []) := by
  have hlength : (ws ++ List.replicate (obj.wordCount - ws.length) 0#32).length = obj.wordCount := by
    rw [List.length_append, List.length_replicate, Nat.add_sub_cancel' (Nat.le_of_lt hws)]
  have hwhole := frameOfBytes_write o obj _ ho hlength
  have hsplit : writeBytes o (ws ++ List.replicate (obj.wordCount - ws.length) 0#32) =
      writeBytes o ws ++ (List.replicate (obj.wordCount - ws.length) 0#32).flatMap bytesHighFirst := by
    simp only [writeBytes, List.flatMap_append, List.append_assoc]
  have hmore : (List.replicate (obj.wordCount - ws.length) 0#32).flatMap bytesHighFirst ≠ [] := by
    rw [← List.length_pos_iff, bytesHighFirst_length, List.length_replicate]
    omega
  rw [State.clockBytes_held h (hsplit ▸ hwhole) hmore, writeBytes_length]

/-! ### Bytes after the request of a frame without data (R173, R174) -/

/-- One period of a reply that is a status byte alone. -/
theorem State.clockBit_status {s : State} {st : FrameStatus} {k : Nat} (hp : s.pins.mssn = false) (hk : k < 8)
    (hx : s.rx = .reply { status := st, object := none, words := [], clocked := k }) (msi : Bool) :
    s.clockBit msi = (s.emit (.mso (st.code.getLsbD (7 - k)))).withRx
      (if k = 7 then .trail else .reply { status := st, object := none, words := [], clocked := k + 1 }) := by
  have hpicture : ∀ u : State, u.pictureAt { status := st, object := none, words := [], clocked := k } (k + 1) = [] :=
    fun _ => ite_self _
  rw [State.clockBit_reply hp hx, Reply.level_status hk]
  simp only [State.shiftReply, hpicture, List.length_nil]
  congr 1
  exact if_congr (by omega) rfl rfl

theorem bitsHighFirst_drop (b : Byte) {k : Nat} (h : k < 8) :
    (bitsHighFirst b).drop k = b.getLsbD (7 - k) :: (bitsHighFirst b).drop (k + 1) := by
  interval_cases k <;> rfl

/-- The periods that are left of a status byte shift its last bits out, and the receiver is in TRAIL. -/
theorem State.clockBits_status {st : FrameStatus} (l : List Bool) {s : State} {k : Nat} (hp : s.pins.mssn = false)
    (hk : k < 8) (hl : l.length + k = 8)
    (hx : s.rx = .reply { status := st, object := none, words := [], clocked := k }) :
    l.foldl State.clockBit s = (s.withOut (s.out ++ ((bitsHighFirst st.code).drop k).map .mso)).withRx .trail := by
  induction l generalizing s k with
  | nil => simp only [List.length_nil] at hl; omega
  | cons msi l ih =>
    rw [List.length_cons] at hl
    rw [List.foldl_cons, State.clockBit_status hp hk hx, bitsHighFirst_drop _ hk]
    by_cases hlast : k = 7
    · obtain rfl : l = [] := List.eq_nil_of_length_eq_zero (by omega)
      subst hlast
      rfl
    · have hrest := ih (s := (s.emit (.mso (st.code.getLsbD (7 - k)))).withRx
        (.reply { status := st, object := none, words := [], clocked := k + 1 })) hp (by omega) (by omega) rfl
      rw [if_neg hlast, hrest]
      simp only [State.emit, State.withRx, State.withOut, List.append_assoc, List.map_cons, List.cons_append,
        List.nil_append]

/-- The eight periods of a byte shift the status byte out. -/
theorem State.clockByte_status {s : State} {st : FrameStatus} (hp : s.pins.mssn = false) (hx : s.rx = .answering st)
    (b : Byte) : s.clockByte b = (s.withOut (s.out ++ (bitsHighFirst st.code).map .mso)).withRx .trail :=
  State.clockBits_status (bitsHighFirst b) hp (by decide) rfl hx

/-- The data of a WRITE of an unknown object is not taken: its first byte shifts the status byte out, the others FFh. -/
theorem State.clockBytes_writeUnknown {s : State} {o : BitVec 16} {ws : List Word} (h : s.frameStart)
    (ho : objectOf o = none) (hws : ws ≠ []) : s.quiet.clockBytes (writeBytes o ws) = (s.withOut (fillerOut 3 ++
      (bitsHighFirst FrameStatus.badObject.code).map .mso ++ fillerOut (4 * ws.length - 1))).withRx .trail := by
  have hlength := bytesHighFirst_length ws
  obtain ⟨b, rest, hdata⟩ : ∃ b rest, ws.flatMap bytesHighFirst = b :: rest := by
    refine List.exists_cons_of_ne_nil fun hnil => hws (List.eq_nil_of_length_eq_zero ?_)
    rw [hnil, List.length_nil] at hlength
    omega
  have hsplit : writeBytes o ws = headBytes 0x02#8 o ++ b :: rest := by rw [← hdata]; rfl
  have hrest : rest.length = 4 * ws.length - 1 := by
    rw [← hlength, hdata, List.length_cons, Nat.add_sub_cancel]
  have hhead := State.clockBytes_rejected h (frameOfBytes_writeUnknown o ho) fun _ => rfl
  have hstatus := State.clockByte_status (s := (s.withOut (fillerOut 3)).withRx (.answering .badObject)) h.2.1 rfl b
  have htrail := State.clockBytes_untaken (s := (s.withOut (fillerOut 3 ++
    (bitsHighFirst FrameStatus.badObject.code).map .mso)).withRx .trail) h.2.1 (.inl rfl) rest
  rw [hrest] at htrail
  calc s.quiet.clockBytes (writeBytes o ws)
      = (s.quiet.clockBytes (headBytes 0x02#8 o)).clockBytes (b :: rest) := by rw [hsplit]; exact List.foldl_append
    _ = (((s.withOut (fillerOut 3)).withRx (.answering .badObject)).clockByte b).clockBytes rest := by rw [hhead]; rfl
    _ = _ := by rw [hstatus]; exact htrail

/-! ### The frames the port does not serve -/

/-- Settles O46: each frame is a whole request whose frame is rejected, or a part of a request. -/
theorem unservedFramesChangeNothing : Obligations.UnservedFramesChangeNothing := by
  intro s h
  refine ⟨fun o ws h4 h8 hregion hfault => ⟨?_, fun hws => ?_⟩, fun o obj ws ho hws => ?_, fun o ws n ho hws => ?_,
    fun n arg hn => ?_, fun op n hop => ?_, fun n hn => ?_, fun op n hop => ?_⟩
  · rintro rfl
    exact congrArg Host.Outcome.next (State.clockBytes_rejected h
      (frameOfBytes_writeUnknown o (objectOf_unknown h4 h8 hregion hfault)) fun _ => rfl)
  · exact congrArg Host.Outcome.next (State.clockBytes_writeUnknown h (objectOf_unknown h4 h8 hregion hfault) hws)
  · exact congrArg Host.Outcome.next (State.clockBytes_writePart h ho hws)
  · obtain ⟨obj, hobj, hcount, hrefused⟩ := objectOf_readOnly ho
    have hclock := State.clockBytes_rejected h (frameOfBytes_write o obj ws hobj (hws.trans hcount.symm)) (hrefused ws)
    rw [writeBytes_length, hws] at hclock
    exact congrArg Host.Outcome.next hclock
  · exact congrArg Host.Outcome.next (State.clockBytes_rejected h (frameOfBytes_command n arg) (commandFrame_unknown hn arg))
  · exact congrArg Host.Outcome.next (State.clockBytes_rejected h (frameOfBytes_unknownOpcode op n hop) fun _ => rfl)
  · exact congrArg Host.Outcome.next (State.clockBytes_rejected h (frameOfBytes_writeUnknown n hn) fun _ => rfl)
  · refine congrArg Host.Outcome.next ?_
    rcases hop with hcommand | ⟨hwrite, hknown⟩
    · obtain rfl : op = 0x03#8 := BitVec.eq_of_toNat_eq hcommand
      exact State.clockBytes_held (more := bytesHighFirst 0#32) h (frameOfBytes_command n 0#32) nofun
    · obtain rfl : op = 0x02#8 := BitVec.eq_of_toNat_eq hwrite
      obtain ⟨obj, hobj⟩ := Option.ne_none_iff_exists'.1 hknown
      exact State.clockBytes_writePart (ws := []) h hobj obj.wordCount_pos

/-! ### Rows that spell one frame (log 23) -/

/-- R175: a READ of a known object; its picture is yet to be taken. -/
theorem State.clockBytes_read {s : State} {n : BitVec 16} {o : PortObject} (h : s.frameStart) (ho : objectOf n = some o) :
    s.quiet.clockBytes (headBytes 0x01#8 n) = (s.withOut (fillerOut 3)).withRx
      (.reply { status := .ok, object := some o, words := [], clocked := 0 }) := by
  obtain ⟨before, bits, hclock⟩ := State.clockBytes_start h (frameOfBytes_read n)
  have hrun : ∀ u, (Frame.read n).run u = { status := .ok, object := some o, state := u } := readFrame_known ho
  rw [hclock, State.takeFrame, hrun]
  rfl

/-- Settles O47: a READ by the number it names; each of the other rows clocks in the very bytes of the row beside it. -/
theorem framesActByTheirBytes : Obligations.FramesActByTheirBytes := by
  intro s
  refine ⟨fun n o h ho => ?_, fun n h hn => ?_, fun arg => ?_, fun f => rfl, fun remap control => rfl,
    fun g base remap control => rfl⟩
  · exact congrArg Host.Outcome.next (State.clockBytes_read h ho)
  · exact congrArg Host.Outcome.next (State.clockBytes_rejected h (frameOfBytes_read n) (readFrame_unknown hn))
  · exact ⟨rfl, rfl, rfl, rfl, rfl, rfl, rfl, rfl⟩

end Sys2Proof.Machine
end

section
/-! PROOFS. The receiver (R172, R174): MSSn starts and ends a frame, bits that come while nobody takes them show FFh, and bits
that come in REPLY shift the reply out. -/

namespace Sys2Proof.Machine

/-! ### The pin MSSn (R172, R174) -/

theorem exec_mssnFall_starts {s : State} (hm : s.pins.mssn = true) (hr : s.pins.resetn = true) :
    exec .mssnFall s = .next { s with out := [], pins := { s.pins with mssn := false }, rx := .request [] [] } :=
  if_pos ⟨hm, hr⟩

theorem exec_mssnFall_still {s : State} (h : s.pins.mssn = false ∨ s.pins.resetn = false) :
    exec .mssnFall s = .next { s with out := [], pins := { s.pins with mssn := false } } :=
  if_neg fun hup => by simp [hup] at h

theorem exec_mssnRise_ends {s : State} (hm : s.pins.mssn = false) :
    exec .mssnRise s = .next { s with out := [], pins := { s.pins with mssn := true }, rx := .idle } := if_pos hm

theorem exec_mssnRise_still {s : State} (hm : s.pins.mssn = true) : exec .mssnRise s = .next { s with out := [] } :=
  if_neg (by rw [hm]; exact Bool.false_ne_true.symm)

/-! ### The bits of a frame's row (log 14) -/

/-- Every row of a frame clocks at least one byte in. -/
theorem exec_frame_cons {c : Instr} (s : State) (hc : c.isFrame = true) :
    ∃ b bytes, exec c s = .next (s.quiet.clockBytes (b :: bytes)) := by
  cases c <;> first | exact absurd hc Bool.false_ne_true | exact ⟨_, _, rfl⟩

/-- Bytes are their bits, clocked one after another. -/
theorem State.clockBytes_bits (s : State) (bytes : List Byte) :
    s.clockBytes bytes = (bytes.flatMap bitsHighFirst).foldl State.clockBit s := by
  rw [List.foldl_flatMap]
  rfl

theorem bitsHighFirst_length (bytes : List Byte) : (bytes.flatMap bitsHighFirst).length = 8 * bytes.length := by
  induction bytes with
  | nil => rfl
  | cons b bytes ih =>
    rw [List.flatMap_cons, List.length_append, ih, List.length_cons, Nat.mul_succ, Nat.add_comm]
    rfl

/-! ### Bits that nobody takes (R174) -/

/-- The receiver takes no bits and has none to shift out: in IDLE, in TRAIL, and in REQUEST while RESETn is asserted. -/
def State.takesNothing (s : State) : Prop :=
  s.rx = .idle ∨ s.rx = .trail ∨ (s.pins.resetn = false ∧ ∀ r, s.rx ≠ .reply r)

theorem State.takesNothing.no_reply {s : State} (h : s.takesNothing) (r : Reply) : s.rx ≠ .reply r := by
  rcases h with h | h | ⟨_, h⟩
  · rw [h]; exact nofun
  · rw [h]; exact nofun
  · exact h r

theorem State.takesNothing.sampleBit {s : State} (h : s.takesNothing) (msi : Bool) : s.sampleBit msi = s := by
  unfold State.sampleBit
  split
  next => rfl
  next bytes bits hx =>
    refine if_neg fun hr => ?_
    rcases h with h | h | ⟨h, _⟩
    · exact absurd (hx.symm.trans h) nofun
    · exact absurd (hx.symm.trans h) nofun
    · exact absurd (hr.symm.trans h) nofun
  next r hx => exact absurd hx (h.no_reply r)
  next => rfl

/-- R172, R174: MSO shows FFh, and nothing else happens. -/
theorem State.takesNothing.clockBits {s : State} (h : s.takesNothing) (hp : s.pins.mssn = false) (bits : List Bool) :
    bits.foldl State.clockBit s = s.filler bits.length := by
  induction bits generalizing s with
  | nil => simp [State.filler, State.withOut]
  | cons msi bits ih =>
    have hbit : s.clockBit msi = s.filler 1 := by
      rw [State.clockBit, State.mso_filler hp h.no_reply]
      exact State.takesNothing.sampleBit (s := s.filler 1) h msi
    rw [List.foldl_cons, hbit, ih (s := s.filler 1) h hp, State.filler_filler, List.length_cons, Nat.add_comm]

/-- The row of a frame that nobody takes. -/
theorem State.takesNothing.exec_frame {s : State} (h : s.takesNothing) {c : Instr} (hc : c.isFrame = true)
    (hp : s.pins.mssn = false) : ∃ n, exec c s = .next { s with out := fillerOut n } := by
  obtain ⟨b, bytes, he⟩ := exec_frame_cons s hc
  refine ⟨(b :: bytes).length, ?_⟩
  rw [he, State.clockBytes_bits, State.takesNothing.clockBits (s := s.quiet) h hp, bitsHighFirst_length]
  rfl

/-! ### Bits that come in REPLY (R174, R175) -/

/-- What has become of reply `r` once `n` bits of it are out: it is done, or goes on with the same status and object. -/
def Reply.After (r : Reply) (n : Nat) (x : Receiver) : Prop :=
  x = .trail ∨ ∃ r', x = .reply r' ∧ r'.status = r.status ∧ r'.object = r.object ∧ r'.clocked = r.clocked + n

/-- One bit of a reply. -/
theorem State.clockBit_after {s : State} {r : Reply} (hp : s.pins.mssn = false) (hx : s.rx = .reply r) (msi : Bool) :
    ∃ x, s.clockBit msi = (s.emit (.mso r.level)).withRx x ∧ r.After 1 x := by
  refine ⟨_, State.clockBit_reply hp hx msi, ?_⟩
  split
  · exact .inl rfl
  · exact .inr ⟨_, rfl, rfl, rfl, rfl⟩

/-- Bits that come in REPLY move the receiver and MSO alone. -/
theorem State.clockBits_reply {s : State} {r : Reply} (hp : s.pins.mssn = false) (hx : s.rx = .reply r) (bits : List Bool) :
    ∃ (levels : List Bool) (x : Receiver), bits.foldl State.clockBit s = (s.withOut (s.out ++ levels.map .mso)).withRx x ∧
      r.After bits.length x := by
  induction bits generalizing s r with
  | nil =>
    refine ⟨[], .reply r, ?_, .inr ⟨r, rfl, rfl, rfl, rfl⟩⟩
    rw [List.map_nil, List.append_nil, ← hx]
    rfl
  | cons msi bits ih =>
    obtain ⟨x, hbit, hafter⟩ := State.clockBit_after hp hx msi
    rw [List.foldl_cons, hbit]
    rcases hafter with rfl | ⟨r', rfl, hstatus, hobject, hclocked⟩
    · refine ⟨r.level :: List.replicate bits.length true, .trail, ?_, .inl rfl⟩
      rw [State.takesNothing.clockBits (s := (s.emit (.mso r.level)).withRx .trail) (.inr (.inl rfl)) hp]
      simp [State.filler, State.emit, State.withOut, State.withRx]
    · obtain ⟨levels, x, hbits, hrest⟩ := ih (s := (s.emit (.mso r.level)).withRx (.reply r')) hp rfl
      refine ⟨r.level :: levels, x, ?_, ?_⟩
      · rw [hbits]
        simp [State.emit, State.withOut, State.withRx]
      · refine hrest.imp_right fun ⟨r'', hr'', hs, ho, hn⟩ => ⟨r'', hr'', hs.trans hstatus, ho.trans hobject, ?_⟩
        rw [hn, hclocked, List.length_cons, Nat.add_assoc, Nat.add_comm 1]

/-- Settles O36: by the pins and the receiver's state; a frame's row clocks bits in, and what a bit does is the receiver's. -/
theorem receiverTakesFrames : Obligations.ReceiverTakesFrames := by
  intro s
  refine ⟨exec_mssnFall_starts, exec_mssnFall_still, exec_mssnRise_ends, exec_mssnRise_still, fun c hc hp => ?_,
    fun c hc hp h => State.takesNothing.exec_frame h hc hp, fun c r hc hp hx => ?_⟩
  · obtain ⟨b, bytes, he⟩ := exec_frame_cons s hc
    rw [he, State.clockBytes_deselected (s := s.quiet) hp]
    rfl
  · obtain ⟨b, bytes, he⟩ := exec_frame_cons s hc
    obtain ⟨levels, x, hbits, hafter⟩ := State.clockBits_reply (s := s.quiet) hp hx ((b :: bytes).flatMap bitsHighFirst)
    rw [bitsHighFirst_length] at hafter
    refine ⟨_, by rw [he, State.clockBytes_bits, hbits], rfl, ?_, ?_⟩
    · intro m hm
      obtain ⟨level, _, rfl⟩ := List.mem_map.1 hm
      exact ⟨level, rfl⟩
    · refine hafter.imp_right fun ⟨r', hr', hs, ho, hn⟩ => ⟨r', hr', hs, ho, ?_⟩
      rw [hn, List.length_cons]
      omega

end Sys2Proof.Machine
end

section
/-! PROOFS. The step of a queue that holds a command, beside `step_idle`, the step of an empty one. -/

namespace Sys2Proof.Machine

theorem step_cons {s : State} {c : Instr} {rest : List Instr} (h : s.pending = c :: rest) :
    step s = exec c { s with pending := rest } := by
  rw [step, h]

/-- Settles O1: by `step_cons`, where the queue put in takes the place of the one the state had. -/
theorem stepTakesFrontCommand : Obligations.StepTakesFrontCommand := fun _ _ _ => step_cons rfl

end Sys2Proof.Machine
end
